-- ==== Sys2Proof/Word.lean ====
section
/-! DEFINITION. The word types of the engine (00_scope.md R7, R12): bytes, 32-bit remote register values and
clock values. Every quantity is unsigned (R12). -/

namespace Sys2Proof

/-- A byte; bit 0 is the least significant (R12). -/
abbrev Byte := BitVec 8

/-- A remote register value, 32 bits (R7). -/
abbrev Word := BitVec 32

/-- A clock value in milliseconds. Its width `CLOCK_BITS` is a field of `Cfg` (00_scope.md R6, R11), so the bound
`2 ^ CLOCK_BITS` stands in `Machine.clockValue` and not in this type (log entry 8). -/
abbrev Time := Nat

/-- The level of a pin: LOW is 0 and HIGH is 1 (R12). -/
inductive Level where
  | low
  | high
  deriving DecidableEq, Repr, Inhabited

end Sys2Proof
end

