-- ==== Sys2Proof/Config.lean ====
section
/-! DEFINITION. The configuration record `Cfg` of 00_scope.md R6, R8 and R9, and the free values of the model. The
VALUES that the spec fixes for this hardware are `specCfg`, in Decode.lean. -/

namespace Sys2Proof

/-- Timing parameters in milliseconds, and the width of the clock (R6, first table). -/
structure CfgTiming where
  timeoutMs : Nat
  resetLowMs : Nat
  resetSettleMs : Nat
  cardWaitMs : Nat
  statePollMs : Nat
  /-- `CLOCK_BITS`, the width of what `Now()` answers (R10, R11). -/
  clockBits : Nat
  deriving DecidableEq, Repr

/-- Pin polarities (R6, second table). -/
structure CfgPins where
  nssActive : Level
  nssInactive : Level
  rstAssert : Level
  rstRelease : Level
  deriving DecidableEq, Repr

/-- Frame opcodes, the first byte of a bus frame (R6, third table). -/
structure CfgOpcodes where
  writeRegister : Byte
  writeRegisterOrMask : Byte
  writeRegisterAndMask : Byte
  readRegister : Byte
  readEeprom : Byte
  sendData : Byte
  readData : Byte
  loadRfConfig : Byte
  rfOn : Byte
  deriving DecidableEq, Repr

/-- Remote register addresses (R6, fourth table). -/
structure CfgRegs where
  systemConfig : Byte
  irqStatus : Byte
  irqClear : Byte
  crcRxConfig : Byte
  rxStatus : Byte
  crcTxConfig : Byte
  rfStatus : Byte
  deriving DecidableEq, Repr

/-- Remote register fields and masks (R6, fifth table). -/
structure CfgFields where
  tsHi : Nat
  tsLo : Nat
  rxcntHi : Nat
  rxcntLo : Nat
  idleIrqBit : Nat
  txRfonIrqBit : Nat
  irqAllMask : Word
  cryptoOffMask : Word
  idleAndMask : Word
  transceiveOrMask : Word
  crcOffMask : Word
  crcOnMask : Word
  deriving DecidableEq, Repr

/-- Frame arguments (R6, sixth table). -/
structure CfgArgs where
  rfTxConf : Byte
  rfRxConf : Byte
  rfOnArg : Byte
  readDataArg : Byte
  eeProductVersion : Byte
  eeFirmwareVersion : Byte
  eeEepromVersion : Byte
  versionLen : Byte
  deriving DecidableEq, Repr

/-- Card-level constants (R6, seventh table). -/
structure CfgCard where
  reqaByte : Byte
  reqaValidBits : Byte
  acValidBits : Byte
  selValidBits : Byte
  selCl1 : Byte
  selCl2 : Byte
  nvbAnticoll : Byte
  nvbSelect : Byte
  cascadeTag : Byte
  sakCascadeMask : Byte
  acRespLen : Byte
  atqaLen : Byte
  sakLen : Byte
  deriving DecidableEq, Repr

/-- The configuration record: "Every numeric constant the engine uses is a field of one configuration record `Cfg`"
(R6), the option `BCC_CHECK` (R8) and the informative parameters (R9). -/
structure Cfg where
  time : CfgTiming
  pin : CfgPins
  op : CfgOpcodes
  reg : CfgRegs
  field : CfgFields
  arg : CfgArgs
  card : CfgCard
  /-- `BCC_CHECK` (R8). -/
  bccCheck : Bool
  /-- `READER_ID`: carried unchanged into every `Log` record (R9). -/
  readerId : Nat
  /-- `BUS_CLOCK_HZ`: informative, read by no rule (R9). -/
  busClockHz : Nat
  deriving DecidableEq, Repr

/-- `READER_ID` of this engine: an open parameter (92_eei_decisions.md section 2; log entry 20). FREE VALUE. -/
opaque Config.readerId : Nat

/-- `CLOCK_PROGRESS_K`: the open bound of the progress assumption (70_reset_and_hazards.md R245), for liveness claims
only (log entry 20). FREE VALUE. -/
opaque Config.clockProgressK : Nat

/-- The level ENV answers to the `k`-th free `PinRead(BUSY)` (R10: "any level for a pin read"; log entry 2).
FREE VALUE. -/
opaque Config.envLevel : Nat → Level

/-- The byte ENV answers at the `k`-th free place of a `BusRead` (R10: "any bytes for a bus read"; log entry 2).
FREE VALUE. -/
opaque Config.envByte : Nat → Byte

/-- The true time at the `k`-th free `Now()`, which answers it modulo `2 ^ CLOCK_BITS` (R10, R11; log entries 2 and 8).
FREE VALUE. -/
opaque Config.envTime : Nat → Time

end Sys2Proof
end

