-- ==== Sys2Proof/Syntax.lean ====
section
/-! DEFINITION. The instructions: one constructor per row of spec/opcode_table.json, in the table's order
(30_encoding.md R71, R76, R84, R89). -/

namespace Sys2Proof

/-- The 31 rows of the opcode table: 8 host codes, 9 frames, 4 card commands and 10 pseudo-operations. -/
inductive Instr where
  /-- `BEGIN`, host code 000 (42_system_ops.md R154). -/
  | beginCmd
  /-- `RESET`, host code 001 (R151). -/
  | resetCmd
  /-- `GET_FIRMWARE`, host code 010 (R157). -/
  | getFirmware
  /-- `GET_PRODUCT_VERSION`, host code 011 (R158). -/
  | getProductVersion
  /-- `GET_EEPROM_VERSION`, host code 100 (R159). -/
  | getEepromVersion
  /-- `READ_CARD_SERIAL`, host code 101 (43_uid_resolution.md R170). -/
  | readCardSerial
  /-- Reserved host code 110 (30_encoding.md R72). -/
  | reserved110
  /-- Reserved host code 111 (R72). -/
  | reserved111
  /-- `WRITE_REGISTER a, v` (41_primitives.md R120). -/
  | writeRegister (a : Byte) (v : Word)
  /-- `WRITE_REGISTER_OR_MASK a, m` (R121). -/
  | writeRegisterOrMask (a : Byte) (m : Word)
  /-- `WRITE_REGISTER_AND_MASK a, m` (R122). -/
  | writeRegisterAndMask (a : Byte) (m : Word)
  /-- `READ_REGISTER a` (R123). -/
  | readRegister (a : Byte)
  /-- `READ_EEPROM a, n` (R124). -/
  | readEeprom (a n : Byte)
  /-- `SEND_DATA vb, d` (R125). -/
  | sendData (vb : Byte) (d : List Byte)
  /-- `READ_DATA n` (R126); `n` is the response length, which is not transmitted (30_encoding.md R74). -/
  | readData (n : Byte)
  /-- `LOAD_RF_CONFIG t, r` (R127). -/
  | loadRfConfig (t r : Byte)
  /-- `RF_ON` (R128). -/
  | rfOn
  /-- Card command `REQA` (43_uid_resolution.md R175). -/
  | reqa
  /-- Card command `ANTICOLL_L1` (R178). -/
  | anticollL1
  /-- Card command `SELECT_L1` with the five bytes it sends back (R182). -/
  | selectL1 (u0 u1 u2 u3 bcc : Byte)
  /-- Card command `ANTICOLL_L2` (R186). -/
  | anticollL2
  /-- `GET_IRQ_STATUS` (41_primitives.md R129). -/
  | getIrqStatus
  /-- `CLEAR_IRQ_STATUS m` (R130). -/
  | clearIrqStatus (m : Word)
  /-- `GET_TRANSCEIVE_STATE` (R131). -/
  | getTransceiveState
  /-- `GET_RX_COUNT` (R132). -/
  | getRxCount
  /-- `CHECK_WAIT_TRANSMIT` (R133). -/
  | checkWaitTransmit
  /-- `CRYPTO_OFF` (43_uid_resolution.md R172). -/
  | cryptoOff
  /-- `CRC_OFF`: two frames (R172). -/
  | crcOff
  /-- `CRC_ON`: two frames (R181). -/
  | crcOn
  /-- `SET_IDLE` (R173). -/
  | setIdle
  /-- `SET_TRANSCEIVE` (R173). -/
  | setTransceive
  deriving DecidableEq, Repr

end Sys2Proof
end

