-- ==== Sys2Proof/WellFormed.lean ====
section
/-! DEFINITION. Well-formed instructions (the operand ranges the rules give) and well-formed configurations (what makes
the encodings of 30_encoding.md tell apart). -/

namespace Sys2Proof

/-- The operand ranges: READ_EEPROM `n >= 1` (41_primitives.md R124); SEND_DATA `vb` 0 to 7 and 1 to 7 data bytes
(R125); READ_DATA reads at least one byte (00_scope.md R10, `BusRead(n)` has `n >= 1`). Every other operand is a
whole byte or word: "no address is refused" (R120). -/
def Instr.wf : Instr → Bool
  | .beginCmd | .resetCmd | .getFirmware | .getProductVersion | .getEepromVersion | .readCardSerial => true
  | .reserved110 | .reserved111 => true
  | .writeRegister _ _ | .writeRegisterOrMask _ _ | .writeRegisterAndMask _ _ | .readRegister _ => true
  | .readEeprom _ n => decide (n ≠ 0)
  | .sendData vb d => decide (vb.toNat ≤ 7) && (decide (1 ≤ d.length) && decide (d.length ≤ 7))
  | .readData n => decide (n ≠ 0)
  | .loadRfConfig _ _ | .rfOn => true
  | .reqa | .anticollL1 | .selectL1 _ _ _ _ _ | .anticollL2 => true
  | .getIrqStatus | .clearIrqStatus _ | .getTransceiveState | .getRxCount | .checkWaitTransmit => true
  | .cryptoOff | .crcOff | .crcOn | .setIdle | .setTransceive => true

/-- The nine opcode parameters in the order of 30_encoding.md R76. -/
def Cfg.opcodes (c : Cfg) : List Byte :=
  [c.op.writeRegister, c.op.writeRegisterOrMask, c.op.writeRegisterAndMask, c.op.readRegister, c.op.readEeprom,
    c.op.sendData, c.op.readData, c.op.loadRfConfig, c.op.rfOn]

/-- A configuration is well formed when its opcodes are nine different bytes (R76), the levels of a pin are two
different ones (R6), the response lengths are those of the answer formats of R85 and of `VER[0..1]`, and the two
fields lie inside a 32-bit register with the widths of 00_scope.md R7 and 10_state.md R25. -/
def Cfg.wf (c : Cfg) : Bool :=
  decide c.opcodes.Nodup && decide (c.pin.nssActive ≠ c.pin.nssInactive) &&
    decide (c.pin.rstAssert ≠ c.pin.rstRelease) &&
    (decide (c.card.acRespLen = 5) && decide (c.card.sakLen = 1) && decide (c.card.atqaLen ≠ 0) &&
      decide (c.arg.versionLen = 2)) &&
    (decide (c.field.tsHi = c.field.tsLo + 2) && decide (c.field.tsHi < 32) &&
      decide (c.field.rxcntHi = c.field.rxcntLo + 8) && decide (c.field.rxcntHi < 32))

end Sys2Proof
end

