-- ==== Sys2Proof/Decode.lean ====
section
/-! DEFINITION. The values of `Cfg` for this hardware, byte order, the frames the engine can emit (30_encoding.md R74 to
R83), the card payloads (R84), and the decoder and encoder of the 31 rows of the opcode table. -/

namespace Sys2Proof

/-- The values of 00_scope.md R6, R8 and R9. Their grounds (`doc`, `decision`, `gk`) are in that rule; log entry 16. -/
def specCfg : Cfg where
  time := { timeoutMs := 50, resetLowMs := 10, resetSettleMs := 10, cardWaitMs := 5, statePollMs := 2,
            clockBits := 32 }
  pin := { nssActive := .low, nssInactive := .high, rstAssert := .low, rstRelease := .high }
  op := { writeRegister := 0x00, writeRegisterOrMask := 0x01, writeRegisterAndMask := 0x02, readRegister := 0x04,
          readEeprom := 0x07, sendData := 0x09, readData := 0x0A, loadRfConfig := 0x11, rfOn := 0x16 }
  reg := { systemConfig := 0x00, irqStatus := 0x02, irqClear := 0x03, crcRxConfig := 0x12, rxStatus := 0x13,
           crcTxConfig := 0x19, rfStatus := 0x1D }
  field := { tsHi := 26, tsLo := 24, rxcntHi := 8, rxcntLo := 0, idleIrqBit := 2, txRfonIrqBit := 9,
             irqAllMask := 0x000FFFFF, cryptoOffMask := 0xFFFFFFBF, idleAndMask := 0xFFFFFFF8,
             transceiveOrMask := 0x00000003, crcOffMask := 0xFFFFFFFE, crcOnMask := 0x00000001 }
  arg := { rfTxConf := 0x00, rfRxConf := 0x80, rfOnArg := 0x00, readDataArg := 0x00, eeProductVersion := 0x10,
           eeFirmwareVersion := 0x12, eeEepromVersion := 0x14, versionLen := 2 }
  card := { reqaByte := 0x26, reqaValidBits := 7, acValidBits := 4, selValidBits := 0, selCl1 := 0x93, selCl2 := 0x95,
            nvbAnticoll := 0x20, nvbSelect := 0x70, cascadeTag := 0x88, sakCascadeMask := 0x04, acRespLen := 5,
            atqaLen := 2, sakLen := 1 }
  bccCheck := false
  readerId := Config.readerId
  busClockHz := 1000000

/-! ### Byte order (20_memory.md R52, 00_scope.md R12) -/

/-- `le32(v)` is `[v[7:0], v[15:8], v[23:16], v[31:24]]` (R12). -/
def le32 (v : Word) : List Byte :=
  [v.setWidth 8, (v >>> 8).setWidth 8, (v >>> 16).setWidth 8, (v >>> 24).setWidth 8]

/-- `from_le32` of four bytes: `b[0] | b[1] << 8 | b[2] << 16 | b[3] << 24` (R12). -/
def word32 (b0 b1 b2 b3 : Byte) : Word :=
  b0.setWidth 32 ||| b1.setWidth 32 <<< 8 ||| b2.setWidth 32 <<< 16 ||| b3.setWidth 32 <<< 24

/-- Byte `i` of a byte sequence, `s[i]` (R12); a byte past the end reads as 0, which no well-formed configuration
meets (log entry 25). -/
def byteAt (b : List Byte) (i : Nat) : Byte :=
  b.getD i 0

/-- `from_le32(b)` for a byte sequence (R12). -/
def fromLe32 (b : List Byte) : Word :=
  word32 (byteAt b 0) (byteAt b 1) (byteAt b 2) (byteAt b 3)

/-! ### Frames: bytes on the bus and the response length `n` (30_encoding.md R74 to R82) -/

/-- A frame with its response length: "With each frame goes a response length `n >= 0`, which is not transmitted"
(R74). -/
structure Xfer where
  tx : List Byte
  n : Nat
  deriving DecidableEq, Repr

/-- `WRITE_REGISTER a, v` (R77, R120). -/
def xWriteRegister (c : Cfg) (a : Byte) (v : Word) : Xfer := ⟨c.op.writeRegister :: a :: le32 v, 0⟩

/-- `WRITE_REGISTER_OR_MASK a, m` (R77, R121). -/
def xWriteRegisterOrMask (c : Cfg) (a : Byte) (m : Word) : Xfer := ⟨c.op.writeRegisterOrMask :: a :: le32 m, 0⟩

/-- `WRITE_REGISTER_AND_MASK a, m` (R77, R122). -/
def xWriteRegisterAndMask (c : Cfg) (a : Byte) (m : Word) : Xfer := ⟨c.op.writeRegisterAndMask :: a :: le32 m, 0⟩

/-- `READ_REGISTER a` (R78, R123). -/
def xReadRegister (c : Cfg) (a : Byte) : Xfer := ⟨[c.op.readRegister, a], 4⟩

/-- `READ_EEPROM a, n` (R79, R124). -/
def xReadEeprom (c : Cfg) (a n : Byte) : Xfer := ⟨[c.op.readEeprom, a, n], n.toNat⟩

/-- `SEND_DATA vb, d` (R80, R125). -/
def xSendData (c : Cfg) (vb : Byte) (d : List Byte) : Xfer := ⟨c.op.sendData :: vb :: d, 0⟩

/-- `READ_DATA n` (R81, R126). -/
def xReadData (c : Cfg) (n : Byte) : Xfer := ⟨[c.op.readData, c.arg.readDataArg], n.toNat⟩

/-- `LOAD_RF_CONFIG t, r` (R82, R127). -/
def xLoadRfConfig (c : Cfg) (t r : Byte) : Xfer := ⟨[c.op.loadRfConfig, t, r], 0⟩

/-- `RF_ON` (R82, R128). -/
def xRfOn (c : Cfg) : Xfer := ⟨[c.op.rfOn, c.arg.rfOnArg], 0⟩

/-! ### Card payloads `d` (R84) and the frames that carry them -/

def dReqa (c : Cfg) : List Byte := [c.card.reqaByte]
def dAnticollL1 (c : Cfg) : List Byte := [c.card.selCl1, c.card.nvbAnticoll]
def dSelectL1 (c : Cfg) (u0 u1 u2 u3 bcc : Byte) : List Byte :=
  [c.card.selCl1, c.card.nvbSelect, u0, u1, u2, u3, bcc]
def dAnticollL2 (c : Cfg) : List Byte := [c.card.selCl2, c.card.nvbAnticoll]

def xReqa (c : Cfg) : Xfer := xSendData c c.card.reqaValidBits (dReqa c)
def xAnticollL1 (c : Cfg) : Xfer := xSendData c c.card.acValidBits (dAnticollL1 c)
def xSelectL1 (c : Cfg) (u0 u1 u2 u3 bcc : Byte) : Xfer :=
  xSendData c c.card.selValidBits (dSelectL1 c u0 u1 u2 u3 bcc)
def xAnticollL2 (c : Cfg) : Xfer := xSendData c c.card.acValidBits (dAnticollL2 c)

/-! ### Pseudo-operations: the frames they expand to (R89) -/

def xGetIrqStatus (c : Cfg) : Xfer := xReadRegister c c.reg.irqStatus
def xClearIrqStatus (c : Cfg) (m : Word) : Xfer := xWriteRegister c c.reg.irqClear m
def xGetTransceiveState (c : Cfg) : Xfer := xReadRegister c c.reg.rfStatus
def xGetRxCount (c : Cfg) : Xfer := xReadRegister c c.reg.rxStatus
def xCryptoOff (c : Cfg) : Xfer := xWriteRegisterAndMask c c.reg.systemConfig c.field.cryptoOffMask
def xCrcRxOff (c : Cfg) : Xfer := xWriteRegisterAndMask c c.reg.crcRxConfig c.field.crcOffMask
def xCrcTxOff (c : Cfg) : Xfer := xWriteRegisterAndMask c c.reg.crcTxConfig c.field.crcOffMask
def xCrcRxOn (c : Cfg) : Xfer := xWriteRegisterOrMask c c.reg.crcRxConfig c.field.crcOnMask
def xCrcTxOn (c : Cfg) : Xfer := xWriteRegisterOrMask c c.reg.crcTxConfig c.field.crcOnMask
def xSetIdle (c : Cfg) : Xfer := xWriteRegisterAndMask c c.reg.systemConfig c.field.idleAndMask
def xSetTransceive (c : Cfg) : Xfer := xWriteRegisterOrMask c c.reg.systemConfig c.field.transceiveOrMask

/-! ### Codes: how an instruction is presented to the engine -/

/-- The layers of R70. A host command is presented as its 3-bit code on `cmd`, `cmd_valid` (60_exceptions.md R219). A
frame, a card command or a pseudo-operation has no port in the hardware: procedures call them; the model presents one
alone as its leading bytes and response length (log entry 5). `check` is the second reading of the frame `04 1D`:
CHECK_WAIT_TRANSMIT and GET_TRANSCEIVE_STATE expand to the same frame (R89; log entry 11). -/
inductive Layer where
  | frame
  | card
  | pseudo
  | check
  deriving DecidableEq, Repr

/-- What stands on the engine's command port. -/
inductive Presented where
  /-- `cmd[2:0]` with `cmd_valid` (R71, R219). -/
  | host (code : BitVec 3)
  /-- One operation run alone: its layer, its bytes and its response length. -/
  | op (layer : Layer) (bytes : List Byte) (n : Nat)
  deriving DecidableEq, Repr

/-- Why a code is the code of no operation. -/
inductive DecodeError where
  /-- A frame with no opcode byte (R74: `len(f) >= 2`). -/
  | emptyFrame
  /-- A first byte that is none of the nine opcodes (R76, R87). -/
  | unknownOpcode
  /-- A frame whose length is not its opcode's (R75). -/
  | badLength
  /-- A response length that is not the opcode's (R76). -/
  | badResponseLength
  /-- A valid-bit count above 7 (R80). -/
  | badValidBits
  /-- A fixed argument byte that is not the one of R81, R82. -/
  | badArgument
  /-- Bytes that are none of the four card commands (R84). -/
  | unknownCardCommand
  /-- Bytes that are none of the pseudo-operations' frames (R89). -/
  | unknownPseudoOperation
  deriving DecidableEq, Repr

/-- The host command codes (R71, R72). Total: every 3-bit code is a row of the table. -/
def decodeHost (code : BitVec 3) : Instr :=
  match code.toNat with
  | 0 => .beginCmd
  | 1 => .resetCmd
  | 2 => .getFirmware
  | 3 => .getProductVersion
  | 4 => .getEepromVersion
  | 5 => .readCardSerial
  | 6 => .reserved110
  | _ => .reserved111

/-- The three register-write frames (R77): address, then four payload bytes, no response. -/
def decodeRegWrite (mk : Byte → Word → Instr) (args : List Byte) (n : Nat) : Except DecodeError Instr :=
  match args with
  | [a, b0, b1, b2, b3] => if n = 0 then .ok (mk a (word32 b0 b1 b2 b3)) else .error .badResponseLength
  | _ => .error .badLength

/-- READ_REGISTER (R78). -/
def decodeReadRegister (args : List Byte) (n : Nat) : Except DecodeError Instr :=
  match args with
  | [a] => if n = 4 then .ok (.readRegister a) else .error .badResponseLength
  | _ => .error .badLength

/-- READ_EEPROM (R79): the response length is the frame's third byte. -/
def decodeReadEeprom (args : List Byte) (n : Nat) : Except DecodeError Instr :=
  match args with
  | [a, k] => if n = k.toNat then .ok (.readEeprom a k) else .error .badResponseLength
  | _ => .error .badLength

/-- SEND_DATA (R80, R125). -/
def decodeSendData (args : List Byte) (n : Nat) : Except DecodeError Instr :=
  match args with
  | vb :: d =>
    if n ≠ 0 then .error .badResponseLength
    else if 7 < vb.toNat then .error .badValidBits
    else if d.length = 0 ∨ 7 < d.length then .error .badLength
    else .ok (.sendData vb d)
  | [] => .error .badLength

/-- READ_DATA (R81): the response length is the caller's and one byte wide. -/
def decodeReadData (c : Cfg) (args : List Byte) (n : Nat) : Except DecodeError Instr :=
  match args with
  | [x] =>
    if x ≠ c.arg.readDataArg then .error .badArgument
    else if 255 < n then .error .badResponseLength
    else .ok (.readData (BitVec.ofNat 8 n))
  | _ => .error .badLength

/-- LOAD_RF_CONFIG (R82). -/
def decodeLoadRfConfig (args : List Byte) (n : Nat) : Except DecodeError Instr :=
  match args with
  | [t, r] => if n = 0 then .ok (.loadRfConfig t r) else .error .badResponseLength
  | _ => .error .badLength

/-- RF_ON (R82). -/
def decodeRfOn (c : Cfg) (args : List Byte) (n : Nat) : Except DecodeError Instr :=
  match args with
  | [x] =>
    if x ≠ c.arg.rfOnArg then .error .badArgument
    else if n = 0 then .ok .rfOn else .error .badResponseLength
  | _ => .error .badLength

/-- A frame's bytes and response length (R74 to R82). The engine is the sender of frames and has no such decoder (R75,
R87); a model of the chip has. -/
def decodeFrame (c : Cfg) (f : List Byte) (n : Nat) : Except DecodeError Instr :=
  match f with
  | [] => .error .emptyFrame
  | op :: args =>
    if op = c.op.writeRegister then decodeRegWrite .writeRegister args n
    else if op = c.op.writeRegisterOrMask then decodeRegWrite .writeRegisterOrMask args n
    else if op = c.op.writeRegisterAndMask then decodeRegWrite .writeRegisterAndMask args n
    else if op = c.op.readRegister then decodeReadRegister args n
    else if op = c.op.readEeprom then decodeReadEeprom args n
    else if op = c.op.sendData then decodeSendData args n
    else if op = c.op.readData then decodeReadData c args n
    else if op = c.op.loadRfConfig then decodeLoadRfConfig args n
    else if op = c.op.rfOn then decodeRfOn c args n
    else .error .unknownOpcode

/-- A card command's payload bytes (R84). -/
def decodeCard (c : Cfg) (d : List Byte) : Except DecodeError Instr :=
  match d with
  | [x] => if x = c.card.reqaByte then .ok .reqa else .error .unknownCardCommand
  | [x, y] =>
    if y ≠ c.card.nvbAnticoll then .error .unknownCardCommand
    else if x = c.card.selCl1 then .ok .anticollL1
    else if x = c.card.selCl2 then .ok .anticollL2
    else .error .unknownCardCommand
  | [x, y, u0, u1, u2, u3, bcc] =>
    if x = c.card.selCl1 ∧ y = c.card.nvbSelect then .ok (.selectL1 u0 u1 u2 u3 bcc) else .error .unknownCardCommand
  | _ => .error .unknownCardCommand

/-- The CLEAR_IRQ_STATUS frame: WRITE_REGISTER of `REG_IRQ_CLEAR` with any mask (R130). -/
def decodeClearIrq (c : Cfg) (x : Xfer) : Except DecodeError Instr :=
  match x.tx with
  | [op, a, b0, b1, b2, b3] =>
    if op = c.op.writeRegister ∧ a = c.reg.irqClear ∧ x.n = 0 then .ok (.clearIrqStatus (word32 b0 b1 b2 b3))
    else .error .unknownPseudoOperation
  | _ => .error .unknownPseudoOperation

/-- A pseudo-operation's first frame (R89). -/
def decodePseudo (c : Cfg) (x : Xfer) : Except DecodeError Instr :=
  if x = xGetIrqStatus c then .ok .getIrqStatus
  else if x = xGetTransceiveState c then .ok .getTransceiveState
  else if x = xGetRxCount c then .ok .getRxCount
  else if x = xCryptoOff c then .ok .cryptoOff
  else if x = xCrcRxOff c then .ok .crcOff
  else if x = xCrcRxOn c then .ok .crcOn
  else if x = xSetIdle c then .ok .setIdle
  else if x = xSetTransceive c then .ok .setTransceive
  else decodeClearIrq c x

/-- The decoder: total, every code decodes or is rejected by name. -/
def decode (c : Cfg) (p : Presented) : Except DecodeError Instr :=
  match p with
  | .host code => .ok (decodeHost code)
  | .op .frame bytes n => decodeFrame c bytes n
  | .op .card bytes _ => decodeCard c bytes
  | .op .pseudo bytes n => decodePseudo c ⟨bytes, n⟩
  | .op .check bytes n =>
    if (⟨bytes, n⟩ : Xfer) = xGetTransceiveState c then .ok .checkWaitTransmit else .error .unknownPseudoOperation

/-- The code of a frame. -/
def Xfer.code (l : Layer) (x : Xfer) : Presented := .op l x.tx x.n

/-- The encoder: the code of an instruction, from the tables R71, R76, R84 and R89. -/
def encode (c : Cfg) (i : Instr) : Presented :=
  match i with
  | .beginCmd => .host 0
  | .resetCmd => .host 1
  | .getFirmware => .host 2
  | .getProductVersion => .host 3
  | .getEepromVersion => .host 4
  | .readCardSerial => .host 5
  | .reserved110 => .host 6
  | .reserved111 => .host 7
  | .writeRegister a v => (xWriteRegister c a v).code .frame
  | .writeRegisterOrMask a m => (xWriteRegisterOrMask c a m).code .frame
  | .writeRegisterAndMask a m => (xWriteRegisterAndMask c a m).code .frame
  | .readRegister a => (xReadRegister c a).code .frame
  | .readEeprom a n => (xReadEeprom c a n).code .frame
  | .sendData vb d => (xSendData c vb d).code .frame
  | .readData n => (xReadData c n).code .frame
  | .loadRfConfig t r => (xLoadRfConfig c t r).code .frame
  | .rfOn => (xRfOn c).code .frame
  | .reqa => .op .card (dReqa c) 0
  | .anticollL1 => .op .card (dAnticollL1 c) 0
  | .selectL1 u0 u1 u2 u3 bcc => .op .card (dSelectL1 c u0 u1 u2 u3 bcc) 0
  | .anticollL2 => .op .card (dAnticollL2 c) 0
  | .getIrqStatus => (xGetIrqStatus c).code .pseudo
  | .clearIrqStatus m => (xClearIrqStatus c m).code .pseudo
  | .getTransceiveState => (xGetTransceiveState c).code .pseudo
  | .getRxCount => (xGetRxCount c).code .pseudo
  | .checkWaitTransmit => (xGetTransceiveState c).code .check
  | .cryptoOff => (xCryptoOff c).code .pseudo
  | .crcOff => (xCrcRxOff c).code .pseudo
  | .crcOn => (xCrcRxOn c).code .pseudo
  | .setIdle => (xSetIdle c).code .pseudo
  | .setTransceive => (xSetTransceive c).code .pseudo

/-! ### Words of the opcode table (log entry 11) -/

/-- The bytes of a table word of `k` bytes. The table puts the first byte in the most significant place ("byte 0 in the
most significant byte of match"). -/
def tableBytes : Nat → Nat → List Byte
  | 0, _ => []
  | k + 1, w => BitVec.ofNat 8 (w / 256 ^ k) :: tableBytes k w

/-- `bs` followed by zero bytes up to the length `k`. -/
def padTo (k : Nat) (bs : List Byte) : List Byte :=
  bs ++ List.replicate (k - bs.length) 0

/-- The frame that a table word begins, its operand bytes zero: length and response length by opcode (R75, R76); one
data byte for SEND_DATA and one response byte for READ_DATA, whose counts no table bit gives. -/
def tableFrame (c : Cfg) (bs : List Byte) : Xfer :=
  let op := byteAt bs 0
  if op = c.op.writeRegister ∨ op = c.op.writeRegisterOrMask ∨ op = c.op.writeRegisterAndMask then ⟨padTo 6 bs, 0⟩
  else if op = c.op.readRegister then ⟨padTo 2 bs, 4⟩
  else if op = c.op.readEeprom then ⟨padTo 3 bs, (byteAt bs 2).toNat⟩
  else if op = c.op.sendData then ⟨padTo 3 bs, 0⟩
  else if op = c.op.readData then ⟨padTo 2 bs, 1⟩
  else if op = c.op.loadRfConfig then ⟨padTo 3 bs, 0⟩
  else ⟨padTo 2 bs, 0⟩

/-- The card command that a table word begins, its operand bytes zero (R84). -/
def tableCard (c : Cfg) (bs : List Byte) : List Byte :=
  if byteAt bs 0 = c.card.selCl1 ∧ byteAt bs 1 = c.card.nvbSelect then padTo 7 bs else bs

/-- Whether a code decodes. -/
def decodable (c : Cfg) (p : Presented) : Bool :=
  match decode c p with
  | .ok _ => true
  | .error _ => false

/-- The code that a table word of `nbits` bits stands for: a host code when it is shorter than a byte; a frame opcode, the
REQA byte, or else a host code below 8 when it is one byte; otherwise a pseudo-operation's leading bytes, a card command
or a frame. -/
def tableCode (c : Cfg) (nbits w : Nat) : Presented :=
  if nbits < 8 then .host (BitVec.ofNat 3 w)
  else
    let bs := tableBytes (nbits / 8) w
    let f := tableFrame c bs
    let pseudo : Presented := f.code .pseudo
    let card : Presented := .op .card (tableCard c bs) 0
    if 16 ≤ nbits ∧ decodable c pseudo then pseudo
    else if decodable c card then card
    else if nbits = 8 ∧ w < 8 ∧ !decodable c (f.code .frame) then .host (BitVec.ofNat 3 w)
    else f.code .frame

/-- The instruction the decoder reads from a table word (the host's name; log entry 11). -/
def decodeTableWord (nbits w : Nat) : Option Instr :=
  match decode specCfg (tableCode specCfg nbits w) with
  | .ok i => some i
  | .error _ => none

end Sys2Proof
end

