-- ==== Sys2Proof/Machine/State.lean ====
section
/-! DEFINITION. The state of the engine (10_state.md), the reasons a step can stop, and the state after reset
(10_state.md R42). -/

namespace Sys2Proof.Machine

/-! ### The values of the sequence position (10_state.md section 3) -/

/-- The step labels of R30. Their numbers are `StepLabel.num` (Flags.lean). -/
inductive StepLabel where
  | noStep
  | rstLow | rstHold | rstHigh | rstSettle | rstPoll
  | beginNss | beginRst
  | radLoad | radOn | radPoll | radClear
  | cfgCryptoOff | cfgCrcRxOff | cfgCrcTxOff | cfgIdle | cfgTransceive
  | reqaCheck | reqaSend | reqaWait | reqaRead
  | ac1Poll | ac1IrqClr | ac1Send | ac1Wait | ac1Count | ac1Read
  | selCrcRxOn | selCrcTxOn | selCheck | selSend | selWait | selCount | selRead
  | ac2CrcRxOff | ac2CrcTxOff | ac2Check | ac2Send | ac2Wait | ac2Count | ac2Read
  | verRead
  deriving DecidableEq, Repr

/-- `TPH`: 0 when no exchange is in progress, 1 to 13 for the labels T1 to T13 of 40_transport.md R102 (R29). -/
inductive Tph where
  | t0 | t1 | t2 | t3 | t4 | t5 | t6 | t7 | t8 | t9 | t10 | t11 | t12 | t13
  deriving DecidableEq, Repr

/-- `COARSE` (R31). -/
inductive Coarse where
  | csIdle | csReset | csRadioOn | csReqaSent | csAc1Sent | csSelected4 | csAc2Sent | csSelected7 | csDone
  deriving DecidableEq, Repr

/-- `STATUS` (60_exceptions.md R212). -/
inductive Status where
  | stNone | stOk | stUid4 | stUid7 | stNoCard | stResetTimeout | stVersionError | stIllegalCmd
  deriving DecidableEq, Repr

/-- `DIAG_CODE` (R213). -/
inductive DiagCode where
  | dgNone | dgTimeout | dgResetTimeout | dgRadioSetupFailed | dgProtocolState | dgProtocolCascadeTag
  | dgNoCardStatePoll | dgNoCardCount | dgChecksum | dgIllegalCmd
  deriving DecidableEq, Repr

/-- `UID_LEN`: legal values 0, 4, 7 (10_state.md R23; 93_implementation_defined.md U7: "a model's types should not have"
the others). -/
inductive UidLen where
  | len0 | len4 | len7
  deriving DecidableEq, Repr

/-! ### Data registers -/

/-- The cascade buffer `CB[0..9]` (R21). -/
structure CascadeBuffer where
  c0 : Byte
  c1 : Byte
  c2 : Byte
  c3 : Byte
  c4 : Byte
  c5 : Byte
  c6 : Byte
  c7 : Byte
  c8 : Byte
  c9 : Byte
  deriving DecidableEq, Repr

/-- `UID_OUT[0..6]` (R23). -/
structure Uid where
  u0 : Byte
  u1 : Byte
  u2 : Byte
  u3 : Byte
  u4 : Byte
  u5 : Byte
  u6 : Byte
  deriving DecidableEq, Repr

/-! ### The observable trace (00_scope.md R10) -/

/-- The two output pins. -/
inductive Pin where
  | nss | rst
  deriving DecidableEq, Repr

/-- A `Log` record (60_exceptions.md R214). -/
structure LogRecord where
  readerId : Nat
  code : DiagCode
  step : StepLabel
  tph : Tph
  deriving DecidableEq, Repr

/-- The action alphabet of R10 and the two host events, with ENV's answers. -/
inductive Action where
  | pinWrite (p : Pin) (l : Level)
  | pinRead (l : Level)
  | busWrite (bs : List Byte)
  | busRead (bs : List Byte)
  | now (t : Time)
  | sleep (ms : Nat)
  | log (r : LogRecord)
  | accept (code : BitVec 3)
  | done (s : Status)
  deriving DecidableEq, Repr

/-! ### Stages: what one step of a procedure does (R30) -/

/-- What an operation does once its exchange has returned `Ok(rx)`. -/
inductive Post where
  /-- Nothing more (41_primitives.md R120 to R122, R124 to R128). -/
  | plain
  /-- READ_REGISTER (R123). -/
  | reg
  /-- GET_TRANSCEIVE_STATE (R131). -/
  | state
  /-- CHECK_WAIT_TRANSMIT (R133). -/
  | check
  /-- The test A2 of the state poll (43_uid_resolution.md R176). -/
  | pollState
  /-- GET_RX_COUNT (R132). -/
  | count
  /-- GET_RX_COUNT, which must be `AC_RESP_LEN` (R178, R186). -/
  | countIs
  /-- GET_RX_COUNT after SELECT inside READ_CARD_SERIAL: zero ends the command (R183). -/
  | countSelect
  /-- GET_RX_COUNT after SELECT run alone: zero means that there is no SAK to read (R183, R184). -/
  | countStop
  /-- The tests P2 and Q2 of the IRQ polls (42_system_ops.md R150, R152). -/
  | irqBit (bit : Nat)
  /-- `COARSE` moves when the frame completes (R31). -/
  | coarse (k : Coarse)
  /-- The level-1 answer (R179, R180). -/
  | level1
  /-- The level-2 answer (R187). -/
  | level2
  /-- The level-2 answer and the assembly of the 7-byte UID (R187, R188). -/
  | level2Done
  /-- The SAK byte alone (R184). -/
  | sak
  /-- The SAK byte and the decision on it (R184, R185). -/
  | sakDecide
  /-- The two version bytes (42_system_ops.md R156). -/
  | version
  deriving DecidableEq, Repr

/-- One step of a procedure: "a pin write, a sleep, or a whole frame exchange with the test that follows it; a poll step
repeats itself" (R30). -/
inductive Stage where
  | nothing
  | pin (p : Pin) (l : Level)
  | sleep (ms : Nat)
  | xfer (x : Xfer) (p : Post)
  | poll (x : Xfer) (p : Post) (limitMs : Nat)
  deriving DecidableEq, Repr

/-- The line of the current label that the next event runs (the model's own; log entry 3). -/
inductive Sub where
  /-- The label's first line: W1 of a wait, TP0 of a poll, the action of any other label. -/
  | start
  /-- W2 of a wait: sample the busy line (40_transport.md R101). -/
  | sample
  /-- W4 of a wait, or the time test of a poll: read the clock. -/
  | time
  /-- TA1: release chip-select after a failed wait (R104). -/
  | release
  /-- AB3: write the `Log` record (60_exceptions.md R210). -/
  | log
  /-- `Done(s)` (10_state.md R34). -/
  | fin (s : Status)
  deriving DecidableEq, Repr

/-- What a single operation returned to its caller (00_scope.md R12: `Ok(v)` and `Fail(cause)`; log entry 5). -/
inductive OpResult where
  /-- Nothing has been returned. -/
  | none
  /-- `Ok`: a value read is in `RVAL`, `RXCNT`, `RXBUF`, `SAK` or `CB`. -/
  | ok
  /-- `Ok(s)` of GET_TRANSCEIVE_STATE (41_primitives.md R131). -/
  | okState (s : BitVec 3)
  /-- `Fail(cause)`; for a timeout the failed wait is the DIAG_TPH candidate. -/
  | fail (cause : DiagCode)
  deriving DecidableEq, Repr

/-! ### What the frames tell of the chip (20_memory.md R50, R51; log entry 9) -/

/-- What is known of a 32-bit remote register: the bits that `known` has set have the value they have in `val`. -/
structure Known where
  known : Word
  val : Word
  deriving DecidableEq, Repr

/-- The three remote spaces as far as the completed frames of this engine tell them. -/
structure Remote where
  /-- `REG`: by address, rising; an unlisted register is unknown. -/
  reg : List (Nat × Known)
  /-- `EE`: bytes read, by address, rising; an unlisted byte is unknown. -/
  ee : List Host.Cell
  /-- `BUF`: the bytes last sent to the card with their valid-bit count. -/
  sent : Option (Byte × List Byte)
  /-- `BUF`: the bytes last read from the chip's receive buffer. -/
  received : List Byte
  /-- The RF configuration loaded (42_system_ops.md R152), if known. -/
  rfConf : Option (Byte × Byte)
  /-- Whether an RF_ON frame has completed since the chip was last reset (R153). -/
  rfOn : Bool
  deriving DecidableEq, Repr

/-- Nothing is known of the chip. -/
def Remote.unknown : Remote where
  reg := []
  ee := []
  sent := none
  received := []
  rfConf := none
  rfOn := false

/-! ### The state -/

/-- The engine (10_state.md R20), its configuration, its inputs and its observable trace. -/
structure State where
  /-- `Cfg`, constant (R36; log entry 1). -/
  cfg : Cfg
  /-- `CB[0..9]` (R21). -/
  cb : CascadeBuffer
  /-- `SAK` (R22). -/
  sak : Byte
  /-- `UID_OUT[0..6]` (R23). -/
  uidOut : Uid
  /-- `UID_LEN` (R23). -/
  uidLen : UidLen
  /-- `VER[0]` (R24). -/
  ver0 : Byte
  /-- `VER[1]` (R24). -/
  ver1 : Byte
  /-- `RXCNT` (R25). -/
  rxcnt : BitVec 9
  /-- `RVAL` (R26). -/
  rval : Word
  /-- `TW0`, below `2 ^ CLOCK_BITS` (R27). -/
  tw0 : Time
  /-- `TP0`, below `2 ^ CLOCK_BITS` (R27). -/
  tp0 : Time
  /-- `TXBUF` (R28). -/
  txbuf : List Byte
  /-- `RXBUF` (R28). -/
  rxbuf : List Byte
  /-- `CMD` (R29). -/
  cmd : BitVec 3
  /-- `STEP` (R29, R30). -/
  stepLbl : StepLabel
  /-- `TPH` (R29). -/
  tph : Tph
  /-- `COARSE` (R31). -/
  coarse : Coarse
  /-- `READY` (R32). -/
  ready : Bool
  /-- `STATUS` (R32). -/
  status : Status
  /-- `DIAG_CODE` (R32). -/
  diagCode : DiagCode
  /-- `DIAG_STEP` (R32). -/
  diagStep : StepLabel
  /-- `DIAG_TPH` (R32). -/
  diagTph : Tph
  /-- `NSS_Q` (R35). -/
  nssQ : Level
  /-- `RST_Q` (R35). -/
  rstQ : Level
  /-- The DIAG_TPH candidate (40_transport.md R104, TA2); `t0` when none is remembered. -/
  cand : Tph
  /-- The response length of the exchange in progress (30_encoding.md R74). -/
  rlen : Nat
  /-- The line of the current label (the model's own; log entry 3). -/
  sub : Sub
  /-- The stages left of a single operation run alone (the model's own; log entry 5). -/
  call : Option (List Stage)
  /-- What the last single operation returned (the model's own; log entry 5). -/
  result : OpResult
  /-- Input: what the host presents on the command port (60_exceptions.md R219). -/
  port : Option Presented
  /-- Input: the engine's hardware reset (R219, 70_reset_and_hazards.md R230). -/
  resetIn : Bool
  /-- Input: another engine on the same bus has `READY = 0` (20_memory.md R63; log entry 18). -/
  otherBusy : Bool
  /-- Input: how far one step goes (log entry 3). `false`: one event, "one environment action or one host event"
  (00_scope.md R5), so that the outside, the reset of 70_reset_and_hazards.md R230 in particular, can come between any
  two events. `true`: as many events, one after another, as ENV's known answers allow. -/
  runAhead : Bool
  /-- Input: ENV's answers to the coming `PinRead(BUSY)` actions (log entry 2). -/
  busyIn : List Level
  /-- Input: the true times at the coming `Now()` actions, in milliseconds; the clock shows them modulo
  `2 ^ CLOCK_BITS` (00_scope.md R11; log entry 8). -/
  nowIn : List Time
  /-- Input: the bytes ENV will give to the coming `BusRead` actions. -/
  rxIn : List Byte
  /-- How many free answers of Config have been drawn (the model's own; log entry 2). -/
  draws : Nat
  /-- The observable trace, newest action first (the model's own; log entry 4). -/
  trace : List Action
  /-- What the completed frames tell of the chip (log entry 9). -/
  remote : Remote
  deriving DecidableEq, Repr

/-- Why the machine stops with a fault: never. Every failure of 60_exceptions.md R200 is a next state, through the one
abort of R210; the engine has no trap (R215). -/
inductive Fault where
  deriving DecidableEq, Repr

/-- Why a step refuses. -/
inductive Refusal where
  /-- An instruction that has no meaning yet; raised by no arm of `exec`. Safe. -/
  | notModelled (mnemonic : String)
  /-- The command port holds bytes that are the code of no operation (Step.lean). Safe: the engine itself has no frame
  decoder (30_encoding.md R87) and every 3-bit host code decodes. -/
  | undecodable (e : DecodeError)
  /-- Two engines on one bus with `READY = 0` at the same time (Step.lean): "a model refuses such a launch" (20_memory.md
  R63, 93_implementation_defined.md U8). Safe: the spec gives the interleaving no meaning. -/
  | busShared
  deriving DecidableEq, Repr

/-- The state after engine hardware reset (10_state.md R42). `TW0`, `TP0`, `TXBUF`, `RXBUF` are unspecified there: the
values here are a DESIGN CHOICE (log entry 6); the inputs and the model's own fields likewise (log entries 2 to 5, 9, 14,
15, 18, 24). -/
def State.reset : State where
  cfg := specCfg
  cb := ⟨0, 0, 0, 0, 0, 0, 0, 0, 0, 0⟩
  sak := 0
  uidOut := ⟨0, 0, 0, 0, 0, 0, 0⟩
  uidLen := .len0
  ver0 := 0
  ver1 := 0
  rxcnt := 0
  rval := 0
  tw0 := 0
  tp0 := 0
  txbuf := []
  rxbuf := []
  cmd := 0
  stepLbl := .noStep
  tph := .t0
  coarse := .csIdle
  ready := true
  status := .stNone
  diagCode := .dgNone
  diagStep := .noStep
  diagTph := .t0
  nssQ := specCfg.pin.nssInactive
  rstQ := specCfg.pin.rstRelease
  cand := .t0
  rlen := 0
  sub := .start
  call := none
  result := .none
  port := none
  resetIn := false
  otherBusy := false
  runAhead := false
  busyIn := []
  nowIn := []
  rxIn := []
  draws := 0
  trace := []
  remote := Remote.unknown

end Sys2Proof.Machine
end

