-- ==== Sys2Proof/Machine/Flags.lean ====
section
/-! DEFINITION. The numbers of the flags and positions (10_state.md R30, R31; 60_exceptions.md R212, R213), the codes of
the failures (R200, R211) and the host's view of the results (30_encoding.md R73). -/

namespace Sys2Proof.Machine

/-- The number of a step label (10_state.md R30). -/
def StepLabel.num : StepLabel → BitVec 6
  | .noStep => 0x00
  | .rstLow => 0x01
  | .rstHold => 0x02
  | .rstHigh => 0x03
  | .rstSettle => 0x04
  | .rstPoll => 0x05
  | .beginNss => 0x06
  | .beginRst => 0x07
  | .radLoad => 0x08
  | .radOn => 0x09
  | .radPoll => 0x0A
  | .radClear => 0x0B
  | .cfgCryptoOff => 0x10
  | .cfgCrcRxOff => 0x11
  | .cfgCrcTxOff => 0x12
  | .cfgIdle => 0x13
  | .cfgTransceive => 0x14
  | .reqaCheck => 0x15
  | .reqaSend => 0x16
  | .reqaWait => 0x17
  | .reqaRead => 0x18
  | .ac1Poll => 0x19
  | .ac1IrqClr => 0x1A
  | .ac1Send => 0x1B
  | .ac1Wait => 0x1C
  | .ac1Count => 0x1D
  | .ac1Read => 0x1E
  | .selCrcRxOn => 0x1F
  | .selCrcTxOn => 0x20
  | .selCheck => 0x21
  | .selSend => 0x22
  | .selWait => 0x23
  | .selCount => 0x24
  | .selRead => 0x25
  | .ac2CrcRxOff => 0x26
  | .ac2CrcTxOff => 0x27
  | .ac2Check => 0x28
  | .ac2Send => 0x29
  | .ac2Wait => 0x2A
  | .ac2Count => 0x2B
  | .ac2Read => 0x2C
  | .verRead => 0x30

/-- The number of a `TPH` value (R29). -/
def Tph.num : Tph → BitVec 4
  | .t0 => 0
  | .t1 => 1
  | .t2 => 2
  | .t3 => 3
  | .t4 => 4
  | .t5 => 5
  | .t6 => 6
  | .t7 => 7
  | .t8 => 8
  | .t9 => 9
  | .t10 => 10
  | .t11 => 11
  | .t12 => 12
  | .t13 => 13

/-- The number of a `COARSE` value (R31). -/
def Coarse.num : Coarse → BitVec 4
  | .csIdle => 0
  | .csReset => 1
  | .csRadioOn => 2
  | .csReqaSent => 3
  | .csAc1Sent => 4
  | .csSelected4 => 5
  | .csAc2Sent => 6
  | .csSelected7 => 7
  | .csDone => 8

/-- The number of a `STATUS` value (60_exceptions.md R212). -/
def Status.num : Status → BitVec 3
  | .stNone => 0
  | .stOk => 1
  | .stUid4 => 2
  | .stUid7 => 3
  | .stNoCard => 4
  | .stResetTimeout => 5
  | .stVersionError => 6
  | .stIllegalCmd => 7

/-- The number of a `DIAG_CODE` value (R213). -/
def DiagCode.num : DiagCode → BitVec 4
  | .dgNone => 0
  | .dgTimeout => 1
  | .dgResetTimeout => 2
  | .dgRadioSetupFailed => 3
  | .dgProtocolState => 4
  | .dgProtocolCascadeTag => 5
  | .dgNoCardStatePoll => 6
  | .dgNoCardCount => 7
  | .dgChecksum => 8
  | .dgIllegalCmd => 9

/-- The number of a `UID_LEN` value (10_state.md R23). -/
def UidLen.num : UidLen → BitVec 3
  | .len0 => 0
  | .len4 => 4
  | .len7 => 7

/-- The level as a bit: LOW is 0, HIGH is 1 (00_scope.md R12). -/
def Level.bit : Level → BitVec 1
  | .low => 0
  | .high => 1

/-! ### Failures -/

/-- The code of a bus timeout at a step (60_exceptions.md R200; 42_system_ops.md R150, R152: inside `RESET_CHIP` it is
ResetTimeout, inside `SETUP_RADIO` RadioSetupFailed, elsewhere Timeout). -/
def timeoutCode : StepLabel → DiagCode
  | .rstPoll => .dgResetTimeout
  | .radLoad | .radOn | .radPoll | .radClear => .dgRadioSetupFailed
  | _ => .dgTimeout

/-- The code of a poll whose bound has passed (R200): RST_POLL, RAD_POLL, AC1_POLL. -/
def expiredCode : StepLabel → DiagCode
  | .rstPoll => .dgResetTimeout
  | .radPoll => .dgRadioSetupFailed
  | _ => .dgNoCardStatePoll

/-- The status of an aborted command, by its code `CMD` (R211). -/
def abortStatus (cmd : BitVec 3) : Status :=
  match cmd.toNat with
  | 0 | 1 => .stResetTimeout
  | 2 | 3 | 4 => .stVersionError
  | 5 => .stNoCard
  | _ => .stIllegalCmd

/-! ### What the host reads (30_encoding.md R73) -/

/-- The host result format. -/
structure HostView where
  status : BitVec 3
  uidLen : BitVec 3
  uid : BitVec 56
  ver : BitVec 16
  diagCode : BitVec 4
  diagStep : BitVec 6
  diagTph : BitVec 4
  coarse : BitVec 4
  deriving DecidableEq, Repr

/-- `UID_OUT` as 56 bits, `UID_OUT[0]` in bits 7:0 and `UID_OUT[6]` in bits 55:48 (R73). -/
def Uid.packed (u : Uid) : BitVec 56 :=
  u.u6 ++ u.u5 ++ u.u4 ++ u.u3 ++ u.u2 ++ u.u1 ++ u.u0

/-- The ports with every result read as cleared (70_reset_and_hazards.md R236). `COARSE`, "an observation port" (10_state.md
R31), is no result and shows its value. -/
def clearedView (coarse : BitVec 4) : HostView where
  status := 0
  uidLen := 0
  uid := 0
  ver := 0
  diagCode := 0
  diagStep := 0
  diagTph := 0
  coarse := coarse

/-- The result registers as the host reads them: after `Done` what they hold (R73); "while `READY = 0` they read as cleared"
(70_reset_and_hazards.md R236), also when the command has written a result or a diagnosis already. -/
def State.hostView (s : State) : HostView :=
  if s.ready then
    { status := s.status.num, uidLen := s.uidLen.num, uid := s.uidOut.packed, ver := s.ver1 ++ s.ver0,
      diagCode := s.diagCode.num, diagStep := s.diagStep.num, diagTph := s.diagTph.num, coarse := s.coarse.num }
  else clearedView s.coarse.num

end Sys2Proof.Machine
end

