-- ==== Sys2Proof/Machine/Operands.lean ====
section
/-! DEFINITION. All the arithmetic the engine does (41_primitives.md R134), the remote register fields it reads
(10_state.md R37 to R39, 20_memory.md R52), the cascade buffer (10_state.md R21) and the UID assembly (30_encoding.md
R86). -/

namespace Sys2Proof.Machine

/-! ### Fields and tests (R134 (b), (c), (d)) -/

/-- `v[hi:lo]` as a number (00_scope.md R12). -/
def field (v : Word) (hi lo : Nat) : Nat :=
  v.toNat / 2 ^ lo % 2 ^ (hi - lo + 1)

/-- `v[i]` (R12). -/
def testBit (v : Word) (i : Nat) : Bool :=
  v.getLsbD i

/-- The transceive state: `v[TS_HI:TS_LO]` of RF_STATUS, three bits (R38, 41_primitives.md R131). -/
def transceiveState (c : Cfg) (v : Word) : BitVec 3 :=
  BitVec.ofNat 3 (field v c.field.tsHi c.field.tsLo)

/-- The number of WaitTransmit in the list of R38. -/
def waitTransmit : BitVec 3 := 1

/-- The received-byte count: `v[RXCNT_HI:RXCNT_LO]` of RX_STATUS, nine bits (41_primitives.md R132). -/
def rxCount (c : Cfg) (v : Word) : BitVec 9 :=
  BitVec.ofNat 9 (field v c.field.rxcntHi c.field.rxcntLo)

/-- The cascade bit of the SAK byte: `(SAK & SAK_CASCADE_MASK) != 0` (43_uid_resolution.md R185). -/
def cascadeContinues (c : Cfg) (sak : Byte) : Bool :=
  decide (sak &&& c.card.sakCascadeMask ≠ 0)

/-- `TransceiveState`, by its place in the list of R38. The engine compares with WaitTransmit only; the names are for
readers of a trace. -/
inductive TransceiveName where
  | idle | waitTransmit | transmitting | waitReceive | waitForData | receiving | loopBack | reserved
  deriving DecidableEq, Repr

/-- The name of a transceive state number (R38). -/
def transceiveName (s : BitVec 3) : TransceiveName :=
  match s.toNat with
  | 0 => .idle
  | 1 => .waitTransmit
  | 2 => .transmitting
  | 3 => .waitReceive
  | 4 => .waitForData
  | 5 => .receiving
  | 6 => .loopBack
  | _ => .reserved

/-- The named flags of IRQ_STATUS (R39). -/
inductive IrqFlag where
  | rx | tx | idle | rfOffDetected | rfOnDetected | rfOnInPcd
  deriving DecidableEq, Repr

/-- The bit position of a flag of IRQ_STATUS (R39). The engine tests IDLE and RF-on-in-PCD only; the other four
positions are "given for a chip model only". -/
def IrqFlag.bit (c : Cfg) : IrqFlag → Nat
  | .rx => 0
  | .tx => 1
  | .idle => c.field.idleIrqBit
  | .rfOffDetected => 6
  | .rfOnDetected => 7
  | .rfOnInPcd => c.field.txRfonIrqBit

/-- A single-bit mask, `1 << bit` (42_system_ops.md R152). -/
def bitMask (bit : Nat) : Word :=
  BitVec.ofNat 32 (2 ^ bit)

/-! ### The clock (00_scope.md R11, R134 (f)) -/

/-- What the clock shows at a true time: "The value wraps modulo 2^`CLOCK_BITS`" (R11; log entry 8). -/
def clockValue (c : Cfg) (t : Time) : Time :=
  t % 2 ^ c.time.clockBits

/-- `elapsed(t0, t) = (t - t0) mod 2^CLOCK_BITS` (R11), written as a sum: `Nat` has no negative numbers. -/
def elapsed (c : Cfg) (t0 t : Time) : Time :=
  clockValue c (t + (2 ^ c.time.clockBits - clockValue c t0))

/-- The strict test `elapsed(t0, t) > limit` (40_transport.md R101). -/
def late (c : Cfg) (t0 t : Time) (limitMs : Nat) : Bool :=
  decide (limitMs < elapsed c t0 t)

/-! ### The checksum (R134 (e), 43_uid_resolution.md R180) -/

/-- `u0 ^ u1 ^ u2 ^ u3 == bcc` (30_encoding.md R85). -/
def bccOk (u0 u1 u2 u3 bcc : Byte) : Bool :=
  u0 ^^^ u1 ^^^ u2 ^^^ u3 == bcc

/-! ### The cascade buffer (10_state.md R21) -/

/-- All ten bytes zero. -/
def CascadeBuffer.zero : CascadeBuffer :=
  ⟨0, 0, 0, 0, 0, 0, 0, 0, 0, 0⟩

/-- `CB[i]`. -/
def CascadeBuffer.get (b : CascadeBuffer) (i : Fin 10) : Byte :=
  [b.c0, b.c1, b.c2, b.c3, b.c4, b.c5, b.c6, b.c7, b.c8, b.c9].get (i.cast rfl)

/-- `CB[0..3] <- b[0..3]; CB[8] <- b[4]` (43_uid_resolution.md R179). -/
def CascadeBuffer.setL1 (b : CascadeBuffer) (r : List Byte) : CascadeBuffer :=
  { b with c0 := byteAt r 0, c1 := byteAt r 1, c2 := byteAt r 2, c3 := byteAt r 3, c8 := byteAt r 4 }

/-- `CB[4..7] <- b[0..3]; CB[9] <- b[4]` (R187). -/
def CascadeBuffer.setL2 (b : CascadeBuffer) (r : List Byte) : CascadeBuffer :=
  { b with c4 := byteAt r 0, c5 := byteAt r 1, c6 := byteAt r 2, c7 := byteAt r 3, c9 := byteAt r 4 }

/-- The checksum of the level-1 answer (R180). -/
def CascadeBuffer.l1Ok (b : CascadeBuffer) : Bool :=
  bccOk b.c0 b.c1 b.c2 b.c3 b.c8

/-- The checksum of the level-2 answer (R187). -/
def CascadeBuffer.l2Ok (b : CascadeBuffer) : Bool :=
  bccOk b.c4 b.c5 b.c6 b.c7 b.c9

/-! ### UID assembly (30_encoding.md R86) -/

/-- No UID: all seven bytes zero (10_state.md R23). -/
def Uid.zero : Uid :=
  ⟨0, 0, 0, 0, 0, 0, 0⟩

/-- Four bytes in `UID_OUT[0..3]`, the rest zero (R23). -/
def Uid.four (u0 u1 u2 u3 : Byte) : Uid :=
  ⟨u0, u1, u2, u3, 0, 0, 0⟩

/-- The 4-byte UID after a SAK with bit 2 clear: `CB[0..3]` (R86, 43_uid_resolution.md R185). -/
def CascadeBuffer.uid4 (b : CascadeBuffer) : Uid :=
  Uid.four b.c0 b.c1 b.c2 b.c3

/-- The 4-byte result when SELECT draws no answer: `[CB[1], CB[2], CB[3], CB[8]]` (R86, R183; suspect literal U1, log
entry 17). -/
def CascadeBuffer.uidNoAnswer (b : CascadeBuffer) : Uid :=
  Uid.four b.c1 b.c2 b.c3 b.c8

/-- The 7-byte UID: `CB[1..7]` (R86, R188). -/
def CascadeBuffer.uid7 (b : CascadeBuffer) : Uid :=
  ⟨b.c1, b.c2, b.c3, b.c4, b.c5, b.c6, b.c7⟩

/-- The UID as the byte sequence the host reads: `UID_OUT[0..UID_LEN-1]` (R23). -/
def Uid.bytes (u : Uid) : UidLen → List Byte
  | .len0 => []
  | .len4 => [u.u0, u.u1, u.u2, u.u3]
  | .len7 => [u.u0, u.u1, u.u2, u.u3, u.u4, u.u5, u.u6]

end Sys2Proof.Machine
end

