-- ==== Sys2Proof/Machine/Remote.lean ====
section
/-! DEFINITION. What the frames do to the chip's three address spaces (20_memory.md R50 to R56, R60; 41_primitives.md
R120 to R130), as knowledge: a bit is known only when a completed frame tells it. No engine rule reads it (10_state.md
R41; log entry 9). -/

namespace Sys2Proof.Machine

/-! ### One register -/

/-- A register of which nothing is known. -/
def Known.nothing : Known := ⟨0, 0⟩

/-- `MemWrite(REG, a, 4, v)`: `REG[a] <- v` (R120). -/
def Known.write (v : Word) : Known := ⟨BitVec.allOnes 32, v⟩

/-- `MemOr(REG, a, m)`: "bits that are 1 in `m` become 1, the others keep their value" (R121). -/
def Known.or (k : Known) (m : Word) : Known := ⟨k.known ||| m, k.val ||| m⟩

/-- `MemAnd(REG, a, m)`: "bits that are 0 in `m` become 0, the others keep their value" (R122). -/
def Known.and (k : Known) (m : Word) : Known := ⟨k.known ||| ~~~m, k.val &&& m⟩

/-- Whether a register value has all the bits that are known of it. -/
def Known.agrees (k : Known) (v : Word) : Bool := v &&& k.known == k.val

/-- Known bits have a value, unknown bits none. -/
def Known.wf (k : Known) : Bool := k.val &&& k.known == k.val

/-! ### The spaces REG and EE as sparse lists in one canonical form -/

/-- Addresses strictly rising, all above `lo`. -/
def risingFrom {α : Type} : Nat → List (Nat × α) → Bool
  | _, [] => true
  | lo, (a, _) :: rest => decide (lo ≤ a) && risingFrom (a + 1) rest

/-- What is stored at an address, if anything. -/
def cellAt {α : Type} : List (Nat × α) → Nat → Option α
  | [], _ => none
  | (b, x) :: rest, a => if a = b then some x else cellAt rest a

/-- Store at an address, keeping the order; storing `none` removes the entry. -/
def putCell {α : Type} : List (Nat × α) → Nat → Option α → List (Nat × α)
  | [], a, v => match v with
    | some x => [(a, x)]
    | none => []
  | (b, y) :: rest, a, v =>
    if a < b then
      match v with
      | some x => (a, x) :: (b, y) :: rest
      | none => (b, y) :: rest
    else if a = b then
      match v with
      | some x => (a, x) :: rest
      | none => rest
    else (b, y) :: putCell rest a v

/-- What is known of a register; an unlisted register is unknown. -/
def Remote.regAt (r : Remote) (a : Byte) : Known :=
  (cellAt r.reg a.toNat).getD Known.nothing

/-- Put knowledge of a register; a register of which nothing is known is not listed. -/
def Remote.setReg (r : Remote) (a : Byte) (k : Known) : Remote :=
  { r with reg := putCell r.reg a.toNat (if k.known = 0 then none else some k) }

/-- What is known of an EEPROM byte; an unlisted byte is unknown. -/
def Remote.eeAt (r : Remote) (a : Nat) : Option Byte :=
  cellAt r.ee a

/-- The bytes of a READ_EEPROM answer: EEPROM bytes `a .. a+n-1` (R124), those of the 8-bit address space (R50). -/
def learnEe : List Host.Cell → Nat → List Byte → List Host.Cell
  | ee, _, [] => ee
  | ee, a, b :: bs => learnEe (if a < 256 then putCell ee a (some b) else ee) (a + 1) bs

/-- Whether a listed register is in canonical form: something is known of it, and unknown bits have no value. -/
def regCellWf (p : Nat × Known) : Bool :=
  decide (p.1 < 256) && (decide (p.2.known ≠ 0) && p.2.wf)

/-- The canonical form of the spaces (a Bool): addresses strictly rising and below 256, no entry that says nothing. -/
def Remote.wf (r : Remote) : Bool :=
  (risingFrom 0 r.reg && r.reg.all regCellWf) && (risingFrom 0 r.ee && r.ee.all fun p => decide (p.1 < 256))

/-! ### Frames -/

/-- WRITE_REGISTER: `REG[a] <- v` (R120). A write of IRQ_CLEAR also clears in IRQ_STATUS every bit that is 1 in `v` (R130).
DESIGN CHOICE: a write of IRQ_STATUS itself clears no bit of it ("bits are cleared only by writing IRQ_CLEAR", 20_memory.md
R55, against R120's general sentence), and still sets the bits that are 1 in `v`, as R120 says (log entry 10). -/
def Remote.writeReg (c : Cfg) (r : Remote) (a : Byte) (v : Word) : Remote :=
  if a = c.reg.irqClear then
    let r' := r.setReg a (Known.write v)
    r'.setReg c.reg.irqStatus ((r'.regAt c.reg.irqStatus).and (~~~v))
  else if a = c.reg.irqStatus then r.setReg a ((r.regAt a).or v)
  else r.setReg a (Known.write v)

/-- WRITE_REGISTER_AND_MASK: `REG[a] <- REG[a] & m` (R122). DESIGN CHOICE: on IRQ_STATUS it clears no bit, and so changes none
(20_memory.md R55 against R122's general sentence; log entry 10). -/
def Remote.andReg (c : Cfg) (r : Remote) (a : Byte) (m : Word) : Remote :=
  if a = c.reg.irqStatus then r else r.setReg a ((r.regAt a).and m)

/-- What one completed frame with the response `rx` does to the spaces, by the frame's bytes (R51). DESIGN CHOICE: an OR-mask
or AND-mask frame on IRQ_CLEAR changes what is known of IRQ_CLEAR alone (R121, R122: "`REG[a] <- ...`"), although
10_state.md R37 says of IRQ_CLEAR that a 1 bit clears the same bit of IRQ_STATUS; R130 and R55 speak of the plain write
only (log entry 10). -/
def Remote.receive (c : Cfg) (tx rx : List Byte) (r : Remote) : Remote :=
  match decodeFrame c tx rx.length with
  | .ok (.writeRegister a v) => r.writeReg c a v
  | .ok (.writeRegisterOrMask a m) => r.setReg a ((r.regAt a).or m)
  | .ok (.writeRegisterAndMask a m) => r.andReg c a m
  | .ok (.readRegister a) => r.setReg a (Known.write (fromLe32 rx))
  | .ok (.readEeprom a _) => { r with ee := learnEe r.ee a.toNat rx }
  | .ok (.sendData vb d) => { r with sent := some (vb, d) }
  | .ok (.readData _) => { r with received := rx }
  | .ok (.loadRfConfig t x) => { r with rfConf := some (t, x) }
  | .ok .rfOn => { r with rfOn := true }
  | _ => r

end Sys2Proof.Machine
end

