-- ==== Sys2Proof/Machine/Ops.lean ====
section
/-! DEFINITION. The named operations over the state: the environment actions of 00_scope.md R10 with ENV's answers, the
abort of 60_exceptions.md R210 (the engine's one way of taking an exception) and `Done` (10_state.md R34, the one way
back), and the engine's hardware reset (70_reset_and_hazards.md R230). -/

namespace Sys2Proof.Machine

/-- The outcome of an instruction. -/
abbrev Result := Host.Outcome State Fault Refusal

/-! ### ENV's answers (R10; log entry 2) -/

/-- The level ENV answers to the next `PinRead(BUSY)`: the one that stands in `busyIn`, else a free value. -/
def State.nextLevel (s : State) : Level :=
  match s.busyIn with
  | l :: _ => l
  | [] => Config.envLevel s.draws

/-- The value ENV answers to the next `Now()`: what the clock shows at the true time that stands in `nowIn`, else at a
free one (R11). -/
def State.nextTime (s : State) : Time :=
  clockValue s.cfg (match s.nowIn with
    | t :: _ => t
    | [] => Config.envTime s.draws)

/-- `k` free bytes, from the `d`-th on. -/
def freeBytes : Nat → Nat → List Byte
  | 0, _ => []
  | k + 1, d => Config.envByte d :: freeBytes k (d + 1)

/-- The `n` bytes ENV answers to the next `BusRead(n)`: those that stand in `rxIn`, then free values. -/
def State.nextBytes (s : State) (n : Nat) : List Byte :=
  s.rxIn.take n ++ freeBytes (n - s.rxIn.length) s.draws

/-! ### Environment actions (R10) -/

/-- `PinWrite(NSS, l)`: latches `NSS_Q` (10_state.md R35). -/
def driveNss (l : Level) (s : State) : State :=
  { s with nssQ := l, trace := .pinWrite .nss l :: s.trace }

/-- `PinWrite(RST, l)`: latches `RST_Q` (R35). Asserting it resets the chip, after which nothing is known of it
(70_reset_and_hazards.md R231; log entry 9). -/
def driveRst (l : Level) (s : State) : State :=
  { s with rstQ := l, trace := .pinWrite .rst l :: s.trace,
           remote := if l = s.cfg.pin.rstAssert then Remote.unknown else s.remote }

/-- `PinWrite(p, l)`. -/
def drivePin (p : Pin) (l : Level) (s : State) : State :=
  match p with
  | .nss => driveNss l s
  | .rst => driveRst l s

/-- `PinRead(BUSY)`; the level is `s.nextLevel`. -/
def sampleBusy (s : State) : State :=
  { s with busyIn := s.busyIn.tail, draws := if s.busyIn.isEmpty then s.draws + 1 else s.draws,
           trace := .pinRead s.nextLevel :: s.trace }

/-- `Now()`; the value is `s.nextTime`. -/
def readClock (s : State) : State :=
  { s with nowIn := s.nowIn.tail, draws := if s.nowIn.isEmpty then s.draws + 1 else s.draws,
           trace := .now s.nextTime :: s.trace }

/-- `BusWrite(bs)`. -/
def busWrite (bs : List Byte) (s : State) : State :=
  { s with trace := .busWrite bs :: s.trace }

/-- `RXBUF <- BusRead(n)`. DESIGN CHOICE: `RXBUF` takes all `n` bytes. 10_state.md R28 gives it "at most 5 bytes", the
longest answer of a host command, while READ_EEPROM has an 8-bit `n` (41_primitives.md R124) and `BusRead(n)` answers `n`
bytes (R10); run alone, READ_EEPROM and READ_DATA fill it with up to 255 (log entries 13 and 22). -/
def busRead (n : Nat) (s : State) : State :=
  { s with rxbuf := s.nextBytes n, rxIn := s.rxIn.drop n, draws := s.draws + (n - s.rxIn.length),
           trace := .busRead (s.nextBytes n) :: s.trace }

/-- `Sleep(ms)`. -/
def sleepFor (ms : Nat) (s : State) : State :=
  { s with trace := .sleep ms :: s.trace }

/-! ### Exchanges and single operations -/

/-- Begin `TRANSCEIVE(tx, n)` at T1 (40_transport.md R102): the frame is in `TXBUF`. DESIGN CHOICE: `TXBUF` and `TPH` take
these first values in the event before W1 of T1, the one that ends the step before (log entry 26). -/
def startXfer (x : Xfer) (s : State) : State :=
  { s with txbuf := x.tx, rlen := x.n, tph := .t1, sub := .start }

/-- A single operation run alone returns to its caller (log entry 5). -/
def endCall (r : OpResult) (s : State) : State :=
  { s with ready := true, call := none, result := r, tph := .t0, sub := .start }

/-! ### The abort: taking an exception (60_exceptions.md R210) -/

/-- `raise E`, AB1 and AB2: chip-select is released already (40_transport.md R104); `DIAG_CODE` is the failure's code,
`DIAG_STEP` the step, `DIAG_TPH` "the remembered candidate, else 0". The `Log` comes next. DESIGN CHOICE: AB2 has no action
of its own, and its writes stand in the event of the action before it: the failing sample, clock read or release, or, for
a reserved code, `Accept` (log entry 26). -/
def raise (d : DiagCode) (s : State) : State :=
  { s with diagCode := d, diagStep := s.stepLbl, diagTph := s.cand, cand := .t0, tph := .t0, sub := .log }

/-- AB3 and AB4: one `Log` record (R214), then the results are cleared. `Done` with the status of R211 comes next. DESIGN
CHOICE: AB4, which has no action of its own, is in the event of the `Log` (log entry 26). -/
def logAbort (s : State) : State :=
  { s with trace := .log ⟨s.cfg.readerId, s.diagCode, s.diagStep, s.diagTph⟩ :: s.trace,
           uidLen := .len0, uidOut := Uid.zero, ver0 := 0, ver1 := 0, sub := .fin (abortStatus s.cmd) }

/-- `Done(st)`, AB5 and the last step of every command: "an abort ends in `Done` like a success" (10_state.md R34,
60_exceptions.md R215). -/
def done (st : Status) (s : State) : State :=
  { s with status := st, coarse := .csDone, stepLbl := .noStep, tph := .t0, ready := true, sub := .start, call := none,
           trace := .done st :: s.trace }

/-! ### Engine hardware reset (70_reset_and_hazards.md R230, 10_state.md R42) -/

/-- Every piece of engine state has the value of R42; no `Done`, no `Log`; the inputs, the configuration and the trace
are not the engine's to clear. What is known of the chip stays, unless a command was running: "the chip's is
`any value`" (93_implementation_defined.md U12; log entry 14). -/
def hwReset (s : State) : State :=
  { State.reset with
    cfg := s.cfg, nssQ := s.cfg.pin.nssInactive, rstQ := s.cfg.pin.rstRelease,
    port := s.port, otherBusy := s.otherBusy, runAhead := s.runAhead, busyIn := s.busyIn, nowIn := s.nowIn,
    rxIn := s.rxIn, draws := s.draws, trace := s.trace,
    remote := if s.ready then s.remote else Remote.unknown }

end Sys2Proof.Machine
end

