-- ==== Sys2Proof/Machine/Procedures.lean ====
section
/-! DEFINITION. The procedures: what each step label does (10_state.md R30), which step follows it in each host command
(42_system_ops.md R150 to R159, 43_uid_resolution.md R170), and what each operation does with the answer of its
exchange. -/

namespace Sys2Proof.Machine

/-! ### The steps -/

/-- The EEPROM address of a version command, by its code `CMD` (42_system_ops.md R157 to R159). -/
def versionAddress (c : Cfg) (cmd : BitVec 3) : Byte :=
  match cmd.toNat with
  | 2 => c.arg.eeFirmwareVersion
  | 3 => c.arg.eeProductVersion
  | _ => c.arg.eeEepromVersion

/-- What a step does (R30 and the rules it names). `cb` is the cascade buffer, which the SELECT frame carries (R182). -/
def stageOf (c : Cfg) (cb : CascadeBuffer) (cmd : BitVec 3) : StepLabel → Stage
  | .noStep => .nothing
  | .rstLow => .pin .rst c.pin.rstAssert
  | .rstHold => .sleep c.time.resetLowMs
  | .rstHigh => .pin .rst c.pin.rstRelease
  | .rstSettle => .sleep c.time.resetSettleMs
  | .rstPoll => .poll (xGetIrqStatus c) (.irqBit c.field.idleIrqBit) c.time.timeoutMs
  | .beginNss => .pin .nss c.pin.nssInactive
  | .beginRst => .pin .rst c.pin.rstRelease
  | .radLoad => .xfer (xLoadRfConfig c c.arg.rfTxConf c.arg.rfRxConf) .plain
  | .radOn => .xfer (xRfOn c) .plain
  | .radPoll => .poll (xGetIrqStatus c) (.irqBit c.field.txRfonIrqBit) c.time.timeoutMs
  | .radClear => .xfer (xClearIrqStatus c (bitMask c.field.txRfonIrqBit)) (.coarse .csRadioOn)
  | .cfgCryptoOff => .xfer (xCryptoOff c) .plain
  | .cfgCrcRxOff => .xfer (xCrcRxOff c) .plain
  | .cfgCrcTxOff => .xfer (xCrcTxOff c) .plain
  | .cfgIdle => .xfer (xSetIdle c) .plain
  | .cfgTransceive => .xfer (xSetTransceive c) .plain
  | .reqaCheck => .xfer (xGetTransceiveState c) .check
  | .reqaSend => .xfer (xReqa c) (.coarse .csReqaSent)
  | .reqaWait => .sleep c.time.cardWaitMs
  | .reqaRead => .xfer (xReadData c c.card.atqaLen) .plain
  | .ac1Poll => .poll (xGetTransceiveState c) .pollState c.time.statePollMs
  | .ac1IrqClr => .xfer (xClearIrqStatus c c.field.irqAllMask) .plain
  | .ac1Send => .xfer (xAnticollL1 c) (.coarse .csAc1Sent)
  | .ac1Wait => .sleep c.time.cardWaitMs
  | .ac1Count => .xfer (xGetRxCount c) .countIs
  | .ac1Read => .xfer (xReadData c c.card.acRespLen) .level1
  | .selCrcRxOn => .xfer (xCrcRxOn c) .plain
  | .selCrcTxOn => .xfer (xCrcTxOn c) .plain
  | .selCheck => .xfer (xGetTransceiveState c) .check
  | .selSend => .xfer (xSelectL1 c cb.c0 cb.c1 cb.c2 cb.c3 cb.c8) .plain
  | .selWait => .sleep c.time.cardWaitMs
  | .selCount => .xfer (xGetRxCount c) .countSelect
  | .selRead => .xfer (xReadData c c.card.sakLen) .sakDecide
  | .ac2CrcRxOff => .xfer (xCrcRxOff c) .plain
  | .ac2CrcTxOff => .xfer (xCrcTxOff c) .plain
  | .ac2Check => .xfer (xGetTransceiveState c) .check
  | .ac2Send => .xfer (xAnticollL2 c) (.coarse .csAc2Sent)
  | .ac2Wait => .sleep c.time.cardWaitMs
  | .ac2Count => .xfer (xGetRxCount c) .countIs
  | .ac2Read => .xfer (xReadData c c.card.acRespLen) .level2Done
  | .verRead => .xfer (xReadEeprom c (versionAddress c cmd) c.arg.versionLen) .version

/-! ### The order of the steps -/

/-- `RESET_CHIP` (42_system_ops.md R150), the procedure of the host command `RESET` (R151). -/
def resetNext : StepLabel → Option StepLabel
  | .rstLow => some .rstHold
  | .rstHold => some .rstHigh
  | .rstHigh => some .rstSettle
  | .rstSettle => some .rstPoll
  | _ => none

/-- `BEGIN` (R154): the two output pins to their idle levels, then `RESET_CHIP`. -/
def beginNext : StepLabel → Option StepLabel
  | .beginNss => some .beginRst
  | .beginRst => some .rstLow
  | l => resetNext l

/-- `READ_CARD_SERIAL` (43_uid_resolution.md R170): `RESET_CHIP`, `SETUP_RADIO` (42_system_ops.md R152), then the ten
steps of the resolver. -/
def readNext : StepLabel → Option StepLabel
  | .rstPoll => some .radLoad
  | .radLoad => some .radOn
  | .radOn => some .radPoll
  | .radPoll => some .radClear
  | .radClear => some .cfgCryptoOff
  | .cfgCryptoOff => some .cfgCrcRxOff
  | .cfgCrcRxOff => some .cfgCrcTxOff
  | .cfgCrcTxOff => some .cfgIdle
  | .cfgIdle => some .cfgTransceive
  | .cfgTransceive => some .reqaCheck
  | .reqaCheck => some .reqaSend
  | .reqaSend => some .reqaWait
  | .reqaWait => some .reqaRead
  | .reqaRead => some .ac1Poll
  | .ac1Poll => some .ac1IrqClr
  | .ac1IrqClr => some .ac1Send
  | .ac1Send => some .ac1Wait
  | .ac1Wait => some .ac1Count
  | .ac1Count => some .ac1Read
  | .ac1Read => some .selCrcRxOn
  | .selCrcRxOn => some .selCrcTxOn
  | .selCrcTxOn => some .selCheck
  | .selCheck => some .selSend
  | .selSend => some .selWait
  | .selWait => some .selCount
  | .selCount => some .selRead
  | .selRead => some .ac2CrcRxOff
  | .ac2CrcRxOff => some .ac2CrcTxOff
  | .ac2CrcTxOff => some .ac2Check
  | .ac2Check => some .ac2Send
  | .ac2Send => some .ac2Wait
  | .ac2Wait => some .ac2Count
  | .ac2Count => some .ac2Read
  | l => resetNext l

/-- The first step of a host command, by its code; a reserved code has none (30_encoding.md R72). -/
def firstStep (cmd : BitVec 3) : Option StepLabel :=
  match cmd.toNat with
  | 0 => some .beginNss
  | 1 => some .rstLow
  | 2 | 3 | 4 => some .verRead
  | 5 => some .rstLow
  | _ => none

/-- The step that follows one that has passed; none at the end of the procedure, where the command is `Done(ST_OK)`
(R151, R154). -/
def nextStep (cmd : BitVec 3) (l : StepLabel) : Option StepLabel :=
  match cmd.toNat with
  | 0 => beginNext l
  | 1 => resetNext l
  | 5 => readNext l
  | _ => none

/-! ### What an operation does with the answer of its exchange -/

/-- The outcome of an operation's own test. -/
inductive PostRes where
  /-- It passes: the procedure goes on. -/
  | ok
  /-- It passes and returns a transceive state. -/
  | okState (s : BitVec 3)
  /-- It fails. -/
  | fail (d : DiagCode)
  /-- A poll's bit or state is not there yet. -/
  | again
  /-- The host command is complete. -/
  | finish (st : Status)
  /-- A single operation is complete before its last stage. -/
  | stop
  deriving DecidableEq, Repr

/-- The post-operation of a stage. -/
def Stage.post : Stage → Post
  | .nothing => .plain
  | .pin _ _ => .plain
  | .sleep _ => .plain
  | .xfer _ p => p
  | .poll _ p _ => p

/-- `RVAL <- from_le32(rx)` (41_primitives.md R123). -/
def setRval (s : State) : State :=
  { s with rval := fromLe32 s.rxbuf }

/-- `RXCNT <- v[RXCNT_HI:RXCNT_LO]` (R132). -/
def setRxcnt (s : State) : State :=
  { s with rval := fromLe32 s.rxbuf, rxcnt := rxCount s.cfg (fromLe32 s.rxbuf) }

/-- A 4-byte result: `UID_OUT[0..3]`, `UID_LEN <- 4`, `COARSE <- CS_SELECTED_4` (43_uid_resolution.md R183, R185). -/
def setUid4 (u : Uid) (s : State) : State :=
  { s with uidOut := u, uidLen := .len4, coarse := .csSelected4 }

/-- The 7-byte result: `UID_OUT[0..6] <- CB[1..7]`, `UID_LEN <- 7`, `COARSE <- CS_SELECTED_7` (R188). -/
def setUid7 (s : State) : State :=
  { s with uidOut := s.cb.uid7, uidLen := .len7, coarse := .csSelected7 }

/-- The level-1 answer: `CB[0..3]`, `CB[8]` (R179). -/
def setLevel1 (s : State) : State :=
  { s with cb := s.cb.setL1 s.rxbuf }

/-- The level-2 answer: `CB[4..7]`, `CB[9]` (R187). -/
def setLevel2 (s : State) : State :=
  { s with cb := s.cb.setL2 s.rxbuf }

/-- `SAK <- b[0]` (R184). -/
def setSak (s : State) : State :=
  { s with sak := byteAt s.rxbuf 0 }

/-- `VER[0] <- b[0]; VER[1] <- b[1]` (42_system_ops.md R156). -/
def setVersion (s : State) : State :=
  { s with ver0 := byteAt s.rxbuf 0, ver1 := byteAt s.rxbuf 1 }

/-- The engine registers an operation writes. -/
def postState (p : Post) (s : State) : State :=
  match p with
  | .plain => s
  | .reg | .state | .check | .pollState | .irqBit _ => setRval s
  | .count | .countIs | .countStop => setRxcnt s
  | .countSelect =>
    let s1 := setRxcnt s
    if s1.rxcnt = 0 then setUid4 s1.cb.uidNoAnswer s1 else s1
  | .coarse k => { s with coarse := k }
  | .level1 => setLevel1 s
  | .level2 => setLevel2 s
  | .level2Done =>
    let s1 := setLevel2 s
    if s1.cfg.bccCheck && !s1.cb.l2Ok then s1 else setUid7 s1
  | .sak => setSak s
  | .sakDecide =>
    let s1 := setSak s
    if cascadeContinues s1.cfg s1.sak then s1 else setUid4 s1.cb.uid4 s1
  | .version => setVersion s

/-- The operation's test, on the registers it has written; the order of tests is that of 60_exceptions.md R206. -/
def postRes (p : Post) (s : State) : PostRes :=
  match p with
  | .plain | .reg | .count | .coarse _ | .sak => .ok
  | .state => .okState (transceiveState s.cfg s.rval)
  | .check => if transceiveState s.cfg s.rval = waitTransmit then .ok else .fail .dgProtocolState
  | .pollState => if transceiveState s.cfg s.rval = waitTransmit then .ok else .again
  | .irqBit b => if testBit s.rval b then .ok else .again
  | .countIs => if s.rxcnt.toNat = s.cfg.card.acRespLen.toNat then .ok else .fail .dgNoCardCount
  | .countStop => if s.rxcnt = 0 then .stop else .ok
  | .countSelect => if s.rxcnt = 0 then .finish .stUid4 else .ok
  | .level1 => if s.cfg.bccCheck && !s.cb.l1Ok then .fail .dgChecksum else .ok
  | .level2 => if s.cfg.bccCheck && !s.cb.l2Ok then .fail .dgChecksum else .ok
  | .level2Done => if s.cfg.bccCheck && !s.cb.l2Ok then .fail .dgChecksum else .finish .stUid7
  | .sakDecide =>
    if cascadeContinues s.cfg s.sak then
      if s.cb.c0 = s.cfg.card.cascadeTag then .ok else .fail .dgProtocolCascadeTag
    else .finish .stUid4
  | .version => .finish .stOk

end Sys2Proof.Machine
end

