-- ==== Sys2Proof/Machine/Engine.lean ====
section
/-! DEFINITION. The sequencer: one event is "one environment action or one host event" (00_scope.md R5). It runs
WAIT_BUSY and TRANSCEIVE (40_transport.md R101 to R104) and the procedures, and accepts commands (10_state.md R33). One
step of the machine is one event, or, where the input `runAhead` says so, as many as ENV's known answers carry (log entry
3). -/

namespace Sys2Proof.Machine

/-! ### Moving from stage to stage -/

/-- The stage that is being run: that of the single operation, else that of `STEP`. -/
def curStage (s : State) : Stage :=
  match s.call with
  | some (g :: _) => g
  | some [] => .nothing
  | none => stageOf s.cfg s.cb s.cmd s.stepLbl

/-- Stand at the beginning of a stage; a frame's exchange begins at T1. -/
def enterStage (g : Stage) (s : State) : State :=
  match g with
  | .xfer x _ => startXfer x s
  | .nothing | .pin _ _ | .sleep _ | .poll _ _ _ => { s with tph := .t0, sub := .start }

/-- `STEP <- l`, in the event that ends the step before; where the step is an exchange, `TPH` and `TXBUF` take its first
values in the same event (log entry 26). -/
def enterStep (l : StepLabel) (s : State) : State :=
  enterStage (stageOf s.cfg s.cb s.cmd l) { s with stepLbl := l }

/-- Go on with the stages `gs` of a single operation, which returns `Ok` when none is left. -/
def enterCall (gs : List Stage) (s : State) : State :=
  match gs with
  | [] => endCall .ok s
  | g :: rest => enterStage g { s with call := some (g :: rest) }

/-- The current step of a host command has passed: "`PHASE` advances by the next line of the procedure" (10_state.md
R29). -/
def advance (s : State) : State :=
  match nextStep s.cmd s.stepLbl with
  | some l => enterStep l s
  | none => { s with tph := .t0, sub := .fin .stOk }

/-- The current stage has passed. -/
def nextStage (s : State) : State :=
  match s.call with
  | none => advance s
  | some gs => enterCall gs.tail s

/-- A failure inside a host command is raised; a single operation returns it to its caller (41_primitives.md, opening
text). -/
def failWith (d : DiagCode) (s : State) : State :=
  match s.call with
  | none => raise d s
  | some _ => endCall (.fail d) s

/-- What the outcome of an operation's test makes the engine do. -/
def afterPost (r : PostRes) (s : State) : State :=
  match r with
  | .ok => nextStage s
  | .okState v => match s.call with
    | none => advance s
    | some _ => endCall (.okState v) s
  | .fail d => failWith d s
  | .again => { s with tph := .t0, sub := .time }
  | .finish st => { s with tph := .t0, sub := .fin st }
  | .stop => match s.call with
    | none => advance s
    | some _ => endCall .ok s

/-! ### TRANSCEIVE (40_transport.md R102) -/

/-- The bytes an exchange returns: none when `n = 0` (T7). -/
def State.response (s : State) : List Byte :=
  if s.rlen = 0 then [] else s.rxbuf

/-- T7 with `n == 0`, or T13: `TPH <- 0; return Ok(rx)`; the chip has the frame (20_memory.md R51). -/
def delivered (s : State) : State :=
  { s with tph := .t0, sub := .start, remote := s.remote.receive s.cfg s.txbuf s.response }

/-- The exchange has returned `Ok(rx)`: the operation goes on with the answer. -/
def xferDone (s : State) : State :=
  let s1 := delivered s
  let p := (curStage s1).post
  afterPost (postRes p (postState p s1)) (postState p s1)

/-- TA2 to TA4: the candidate is the failed wait's label; `TPH <- 0; return Fail(Timeout)` (R104). Unless the frame was
never sent (T1), nothing is known of the chip any more (93_implementation_defined.md U15). -/
def xferFail (s : State) : State :=
  failWith (if s.call = none then timeoutCode s.stepLbl else .dgTimeout)
    { s with cand := s.tph, tph := .t0, sub := .start,
             remote := if s.tph = .t1 then s.remote else Remote.unknown }

/-- TA1: "if NSS_Q == NSS_ACTIVE" chip-select is released by an action of its own (R104). -/
def waitFailed (s : State) : State :=
  if s.nssQ = s.cfg.pin.nssActive then { s with sub := .release } else xferFail s

/-- The level that the wait at a label waits for (R102: T1, T4, T6, T10, T12). -/
def waitLevel : Tph → Option Level
  | .t1 => some .low
  | .t4 => some .high
  | .t6 => some .low
  | .t10 => some .high
  | .t12 => some .low
  | _ => none

/-- A wait has returned `Ok`: the label after it (R102; T7 tests `n` with no action of its own). -/
def waitPassed (s : State) : State :=
  match s.tph with
  | .t1 => { s with tph := .t2, sub := .start }
  | .t4 => { s with tph := .t5, sub := .start }
  | .t6 => if s.rlen = 0 then xferDone s else { s with tph := .t8, sub := .start }
  | .t10 => { s with tph := .t11, sub := .start }
  | .t12 => xferDone s
  | _ => { s with sub := .start }

/-! ### Events -/

/-- The first line of a stage that is no exchange (R30), and TP0 of a poll. -/
def stageEvent (g : Stage) (s : State) : State :=
  match g with
  | .nothing => { s with sub := .fin .stNone }
  | .pin p l => nextStage (drivePin p l s)
  | .sleep ms => nextStage (sleepFor ms s)
  | .xfer x _ => startXfer x s
  | .poll x _ _ => startXfer x { readClock s with tp0 := s.nextTime }

/-- The first line of a label: W1 of a wait (`TW0 <- Now()`), or the label's action (R102). -/
def startEvent (s : State) : State :=
  match s.tph with
  | .t0 => stageEvent (curStage s) s
  | .t1 | .t4 | .t6 | .t10 | .t12 => { readClock s with tw0 := s.nextTime, sub := .sample }
  | .t2 => { driveNss s.cfg.pin.nssActive s with tph := .t3 }
  | .t3 => { busWrite s.txbuf s with tph := .t4 }
  | .t5 => { driveNss s.cfg.pin.nssInactive s with tph := .t6 }
  | .t7 => if s.rlen = 0 then xferDone s else { s with tph := .t8 }
  | .t8 => { driveNss s.cfg.pin.nssActive s with tph := .t9 }
  | .t9 => { busRead s.rlen s with tph := .t10 }
  | .t11 => { driveNss s.cfg.pin.nssInactive s with tph := .t12 }
  | .t13 => xferDone s

/-- W2 and W3 (R101): sample, "if b == level: return Ok". -/
def sampleEvent (s : State) : State :=
  match waitLevel s.tph with
  | some l => if s.nextLevel = l then waitPassed (sampleBusy s) else { sampleBusy s with sub := .time }
  | none => { s with sub := .start }

/-- A poll's time test, P3 to P5, Q3 to Q5, A3 to A5 (42_system_ops.md R150, R152; 43_uid_resolution.md R176). -/
def pollTimeEvent (x : Xfer) (limitMs : Nat) (s : State) : State :=
  if late s.cfg s.tp0 s.nextTime limitMs then failWith (expiredCode s.stepLbl) (readClock s)
  else startXfer x (readClock s)

/-- W4 to W6 of a wait (R101), or a poll's time test. -/
def timeEvent (s : State) : State :=
  match waitLevel s.tph with
  | some _ =>
    if late s.cfg s.tw0 s.nextTime s.cfg.time.timeoutMs then waitFailed (readClock s)
    else { readClock s with sub := .sample }
  | none => match s.tph, curStage s with
    | .t0, .poll x _ limitMs => pollTimeEvent x limitMs s
    | _, _ => { s with sub := .start }

/-- One event of a running command (R5). -/
def event (s : State) : State :=
  match s.sub with
  | .start => startEvent s
  | .sample => sampleEvent s
  | .time => timeEvent s
  | .release => xferFail (driveNss s.cfg.pin.nssInactive s)
  | .log => logAbort s
  | .fin st => done st s

/-- `n` events, one after another. -/
def events : Nat → State → State
  | 0, s => s
  | n + 1, s => events n (event s)

/-! ### Running ahead, as far as ENV's known answers go (log entry 3) -/

/-- Whether the next event needs a clock value. -/
def needsTime (s : State) : Bool :=
  match s.sub with
  | .start => match s.tph, curStage s with
    | .t0, .poll _ _ _ => true
    | .t0, _ => false
    | t, _ => (waitLevel t).isSome
  | .time => match s.tph, curStage s with
    | .t0, .poll _ _ _ => true
    | t, _ => (waitLevel t).isSome
  | _ => false

/-- Whether the next event needs a sample of the busy line. -/
def needsLevel (s : State) : Bool :=
  match s.sub with
  | .sample => (waitLevel s.tph).isSome
  | _ => false

/-- How many bus bytes the next event needs. -/
def needsBytes (s : State) : Nat :=
  match s.sub, s.tph with
  | .start, .t9 => s.rlen
  | _, _ => 0

/-- Whether the answer that the next event needs stands in the input lists. -/
def answered (s : State) : Bool :=
  (!needsTime s || !s.nowIn.isEmpty) && ((!needsLevel s || !s.busyIn.isEmpty) &&
    decide (needsBytes s ≤ s.rxIn.length))

/-- At most `k` events, while a command runs and its next answer is known. -/
def drive : Nat → State → State
  | 0, s => s
  | k + 1, s => if !s.ready && answered s then drive k (event s) else s

/-- A bound on the events that the known answers allow: between two answers no procedure has more than eight. -/
def fuel (s : State) : Nat :=
  16 * (s.busyIn.length + s.nowIn.length + s.rxIn.length + (s.call.getD []).length + 2)

/-- What a step does after its own event: nothing more (R5), or, with `runAhead`, every further event as far as the known
answers go. -/
def runOn (s : State) : State :=
  if s.runAhead then drive (fuel s) s else s

/-! ### Accepting a command -/

/-- Whether `Accept` of a code sets `COARSE <- CS_RESET`: BEGIN, RESET, READ_CARD_SERIAL (10_state.md R31, R33). -/
def resetsCoarse (cmd : BitVec 3) : Bool :=
  match cmd.toNat with
  | 0 | 1 | 5 => true
  | _ => false

/-- The registers that `Accept(c)` writes (R33). `RVAL` is cleared as well: "the next `Accept` clears them" (60_exceptions.md
R210; log entry 7). `TW0`, `TP0`, `TXBUF` and `RXBUF` are left as they are: DESIGN CHOICE, because 92_eei_decisions.md D10
clears "all result and working registers" at Accept while R33's list has none of the four, and a frame or a wait writes
each of them before any rule reads it (log entry 7). (The first step of a version command is an exchange, which `accept`
enters: see there for `TXBUF`.) -/
def acceptRegs (c : BitVec 3) (s : State) : State :=
  { s with
    ready := false, cmd := c, status := .stNone, diagCode := .dgNone, diagStep := .noStep, diagTph := .t0,
    uidLen := .len0, uidOut := Uid.zero, ver0 := 0, ver1 := 0, cb := CascadeBuffer.zero, sak := 0, rxcnt := 0, rval := 0,
    coarse := if resetsCoarse c then .csReset else s.coarse,
    stepLbl := .noStep, tph := .t0, sub := .start, cand := .t0, call := none, port := none,
    trace := .accept c :: s.trace }

/-- `Accept(c)`: "`STEP` set to the first step of the command" (R33); a reserved code raises IllegalCommand (30_encoding.md
R72). DESIGN CHOICE: `Accept` also enters that first step in the same event. For a version command, whose first step is the
exchange VER_READ, it so sets `TPH` to 1 and `TXBUF` to the READ_EEPROM frame, which R33's list has not; for a reserved code
it so writes `DIAG_CODE` (log entry 26). -/
def accept (c : BitVec 3) (s : State) : State :=
  match firstStep c with
  | some l => enterStep l (acceptRegs c s)
  | none => raise .dgIllegalCmd (acceptRegs c s)

/-- A host command: accepted only when `READY = 1`, else it "is not accepted and has no effect" (R33). -/
def hostCommand (c : BitVec 3) (s : State) : Result :=
  .next (if s.ready then runOn (accept c s) else s)

/-- Begin a single operation with the stages `gs` (log entry 5). -/
def launch (gs : List Stage) (s : State) : State :=
  enterCall gs { s with ready := false, stepLbl := .noStep, tph := .t0, sub := .start, cand := .t0, result := .none,
                        port := none }

/-- A single operation run alone: like a command, only when no command runs (R33, R234; log entry 5). -/
def operation (gs : List Stage) (s : State) : Result :=
  .next (if s.ready then runOn (launch gs s) else s)

end Sys2Proof.Machine
end

