-- ==== Sys2Proof/Machine/CardCommands.lean ====
section
/-! DEFINITION. The four card commands of 30_encoding.md R84, run alone: the actions of the rule that the opcode table
names for each, and the read of the card's answer (log entry 12). -/

namespace Sys2Proof.Machine

/-- `REQA` (43_uid_resolution.md R175): SEND_DATA, `COARSE <- CS_REQA_SENT`, the wait, and the ATQA read, dropped. -/
def execReqa (s : State) : Result :=
  operation [.xfer (xReqa s.cfg) (.coarse .csReqaSent), .sleep s.cfg.time.cardWaitMs,
    .xfer (xReadData s.cfg s.cfg.card.atqaLen) .plain] s

/-- `ANTICOLL_L1` (R178, R179, R180): SEND_DATA, `COARSE <- CS_AC1_SENT`, the wait, the count that must be
`AC_RESP_LEN`, and the five bytes into `CB[0..3]`, `CB[8]`. -/
def execAnticollL1 (s : State) : Result :=
  operation [.xfer (xAnticollL1 s.cfg) (.coarse .csAc1Sent), .sleep s.cfg.time.cardWaitMs,
    .xfer (xGetRxCount s.cfg) .countIs, .xfer (xReadData s.cfg s.cfg.card.acRespLen) .level1] s

/-- `SELECT_L1` (R182, R184): the WaitTransmit check, SEND_DATA with the five bytes, the wait, the count, and the SAK
byte unless the count is 0. -/
def execSelectL1 (u0 u1 u2 u3 bcc : Byte) (s : State) : Result :=
  operation [.xfer (xGetTransceiveState s.cfg) .check, .xfer (xSelectL1 s.cfg u0 u1 u2 u3 bcc) .plain,
    .sleep s.cfg.time.cardWaitMs, .xfer (xGetRxCount s.cfg) .countStop,
    .xfer (xReadData s.cfg s.cfg.card.sakLen) .sak] s

/-- `ANTICOLL_L2` (R186, R187): CRC off on both paths, the WaitTransmit check, SEND_DATA, `COARSE <- CS_AC2_SENT`, the
wait, the count that must be `AC_RESP_LEN`, and the five bytes into `CB[4..7]`, `CB[9]`. -/
def execAnticollL2 (s : State) : Result :=
  operation [.xfer (xCrcRxOff s.cfg) .plain, .xfer (xCrcTxOff s.cfg) .plain,
    .xfer (xGetTransceiveState s.cfg) .check, .xfer (xAnticollL2 s.cfg) (.coarse .csAc2Sent),
    .sleep s.cfg.time.cardWaitMs, .xfer (xGetRxCount s.cfg) .countIs,
    .xfer (xReadData s.cfg s.cfg.card.acRespLen) .level2] s

end Sys2Proof.Machine
end

