-- ==== Sys2Proof/Machine/Frames.lean ====
section
/-! DEFINITION. The nine frames of 30_encoding.md R76, each one TRANSCEIVE (41_primitives.md R120 to R128), run alone: the
result goes to the caller, in `result` (log entry 5). -/

namespace Sys2Proof.Machine

/-- `WRITE_REGISTER(a, v)` (R120). -/
def execWriteRegister (a : Byte) (v : Word) (s : State) : Result :=
  operation [.xfer (xWriteRegister s.cfg a v) .plain] s

/-- `WRITE_REGISTER_OR_MASK(a, m)` (R121). -/
def execWriteRegisterOrMask (a : Byte) (m : Word) (s : State) : Result :=
  operation [.xfer (xWriteRegisterOrMask s.cfg a m) .plain] s

/-- `WRITE_REGISTER_AND_MASK(a, m)` (R122). -/
def execWriteRegisterAndMask (a : Byte) (m : Word) (s : State) : Result :=
  operation [.xfer (xWriteRegisterAndMask s.cfg a m) .plain] s

/-- `READ_REGISTER(a)`: `RVAL <- from_le32(rx)` (R123). -/
def execReadRegister (a : Byte) (s : State) : Result :=
  operation [.xfer (xReadRegister s.cfg a) .reg] s

/-- `READ_EEPROM(a, n)`: the bytes are in `RXBUF` (R124; log entry 13 for `n = 0`). -/
def execReadEeprom (a n : Byte) (s : State) : Result :=
  operation [.xfer (xReadEeprom s.cfg a n) .plain] s

/-- `SEND_DATA(vb, d)` (R125): "does not test the transceive state". -/
def execSendData (vb : Byte) (d : List Byte) (s : State) : Result :=
  operation [.xfer (xSendData s.cfg vb d) .plain] s

/-- `READ_DATA(n)`: the bytes are in `RXBUF` (R126). -/
def execReadData (n : Byte) (s : State) : Result :=
  operation [.xfer (xReadData s.cfg n) .plain] s

/-- `LOAD_RF_CONFIG(t, r)` (R127). -/
def execLoadRfConfig (t r : Byte) (s : State) : Result :=
  operation [.xfer (xLoadRfConfig s.cfg t r) .plain] s

/-- `RF_ON()` (R128). -/
def execRfOn (s : State) : Result :=
  operation [.xfer (xRfOn s.cfg) .plain] s

end Sys2Proof.Machine
end

