-- ==== Sys2Proof/Machine/PseudoOps.lean ====
section
/-! DEFINITION. The ten pseudo-operations of 30_encoding.md R89, run alone: "a name the document uses for one frame with
fixed operands, or a frame plus a field extraction" (log entry 5). -/

namespace Sys2Proof.Machine

/-- `GET_IRQ_STATUS` (41_primitives.md R129). -/
def execGetIrqStatus (s : State) : Result :=
  operation [.xfer (xGetIrqStatus s.cfg) .reg] s

/-- `CLEAR_IRQ_STATUS(m)` (R130). -/
def execClearIrqStatus (m : Word) (s : State) : Result :=
  operation [.xfer (xClearIrqStatus s.cfg m) .plain] s

/-- `GET_TRANSCEIVE_STATE` (R131). -/
def execGetTransceiveState (s : State) : Result :=
  operation [.xfer (xGetTransceiveState s.cfg) .state] s

/-- `GET_RX_COUNT` (R132). -/
def execGetRxCount (s : State) : Result :=
  operation [.xfer (xGetRxCount s.cfg) .count] s

/-- `CHECK_WAIT_TRANSMIT` (R133). -/
def execCheckWaitTransmit (s : State) : Result :=
  operation [.xfer (xGetTransceiveState s.cfg) .check] s

/-- `CRYPTO_OFF` (43_uid_resolution.md R172). -/
def execCryptoOff (s : State) : Result :=
  operation [.xfer (xCryptoOff s.cfg) .plain] s

/-- `CRC_OFF` (R172): the receive register first (90_conflicts.md C8). -/
def execCrcOff (s : State) : Result :=
  operation [.xfer (xCrcRxOff s.cfg) .plain, .xfer (xCrcTxOff s.cfg) .plain] s

/-- `CRC_ON` (R181): the receive register first (C8). -/
def execCrcOn (s : State) : Result :=
  operation [.xfer (xCrcRxOn s.cfg) .plain, .xfer (xCrcTxOn s.cfg) .plain] s

/-- `SET_IDLE` (R173). -/
def execSetIdle (s : State) : Result :=
  operation [.xfer (xSetIdle s.cfg) .plain] s

/-- `SET_TRANSCEIVE` (R173). -/
def execSetTransceive (s : State) : Result :=
  operation [.xfer (xSetTransceive s.cfg) .plain] s

end Sys2Proof.Machine
end

