-- ==== Sys2Proof/Machine/SystemOps.lean ====
section
/-! DEFINITION. The host commands of 42_system_ops.md and the reserved codes (30_encoding.md R72). Each is the Accept of
its code, after which the sequencer runs the procedure of that code (Procedures.lean) to its `Done`. -/

namespace Sys2Proof.Machine

/-- `BEGIN` (R154): NSS and RST to their idle levels, then RESET_CHIP (R150). -/
def execBegin (s : State) : Result := hostCommand 0 s

/-- `RESET` (R151): RESET_CHIP (R150). -/
def execReset (s : State) : Result := hostCommand 1 s

/-- `GET_FIRMWARE` (R157): READ_VERSION of the firmware address (R156). -/
def execGetFirmware (s : State) : Result := hostCommand 2 s

/-- `GET_PRODUCT_VERSION` (R158). -/
def execGetProductVersion (s : State) : Result := hostCommand 3 s

/-- `GET_EEPROM_VERSION` (R159). -/
def execGetEepromVersion (s : State) : Result := hostCommand 4 s

/-- Reserved code 110 (R72): one `Log`, `Done(ST_ILLEGAL_CMD)`, no other action. -/
def execReserved110 (s : State) : Result := hostCommand 6 s

/-- Reserved code 111 (R72). -/
def execReserved111 (s : State) : Result := hostCommand 7 s

end Sys2Proof.Machine
end

