-- ==== Sys2Proof/Machine/UidResolution.lean ====
section
/-! DEFINITION. The host command `READ_CARD_SERIAL` (43_uid_resolution.md R170): its steps are `readNext` and `stageOf`, its
tests `postRes` (Procedures.lean). -/

namespace Sys2Proof.Machine

/-- `READ_CARD_SERIAL` (R170). -/
def execReadCardSerial (s : State) : Result := hostCommand 5 s

end Sys2Proof.Machine
end

