-- ==== Sys2Proof/Machine/Dispatch.lean ====
section
/-! DEFINITION. One arm per instruction, each a direct call of its meaning. -/

namespace Sys2Proof.Machine

def exec (i : Instr) (s : State) : Host.Outcome State Fault Refusal :=
  match i with
  | .beginCmd => Sys2Proof.Machine.execBegin s
  | .resetCmd => Sys2Proof.Machine.execReset s
  | .getFirmware => Sys2Proof.Machine.execGetFirmware s
  | .getProductVersion => Sys2Proof.Machine.execGetProductVersion s
  | .getEepromVersion => Sys2Proof.Machine.execGetEepromVersion s
  | .readCardSerial => Sys2Proof.Machine.execReadCardSerial s
  | .reserved110 => Sys2Proof.Machine.execReserved110 s
  | .reserved111 => Sys2Proof.Machine.execReserved111 s
  | .writeRegister a v => Sys2Proof.Machine.execWriteRegister a v s
  | .writeRegisterOrMask a m => Sys2Proof.Machine.execWriteRegisterOrMask a m s
  | .writeRegisterAndMask a m => Sys2Proof.Machine.execWriteRegisterAndMask a m s
  | .readRegister a => Sys2Proof.Machine.execReadRegister a s
  | .readEeprom a n => Sys2Proof.Machine.execReadEeprom a n s
  | .sendData vb d => Sys2Proof.Machine.execSendData vb d s
  | .readData n => Sys2Proof.Machine.execReadData n s
  | .loadRfConfig t r => Sys2Proof.Machine.execLoadRfConfig t r s
  | .rfOn => Sys2Proof.Machine.execRfOn s
  | .reqa => Sys2Proof.Machine.execReqa s
  | .anticollL1 => Sys2Proof.Machine.execAnticollL1 s
  | .selectL1 u0 u1 u2 u3 bcc => Sys2Proof.Machine.execSelectL1 u0 u1 u2 u3 bcc s
  | .anticollL2 => Sys2Proof.Machine.execAnticollL2 s
  | .getIrqStatus => Sys2Proof.Machine.execGetIrqStatus s
  | .clearIrqStatus m => Sys2Proof.Machine.execClearIrqStatus m s
  | .getTransceiveState => Sys2Proof.Machine.execGetTransceiveState s
  | .getRxCount => Sys2Proof.Machine.execGetRxCount s
  | .checkWaitTransmit => Sys2Proof.Machine.execCheckWaitTransmit s
  | .cryptoOff => Sys2Proof.Machine.execCryptoOff s
  | .crcOff => Sys2Proof.Machine.execCrcOff s
  | .crcOn => Sys2Proof.Machine.execCrcOn s
  | .setIdle => Sys2Proof.Machine.execSetIdle s
  | .setTransceive => Sys2Proof.Machine.execSetTransceive s

end Sys2Proof.Machine
end

