-- ==== Sys2Proof/Machine/Step.lean ====
section
/-! DEFINITION. One step of the machine: an engine reset, a running command going on, or the instruction that stands on
the command port (log entries 3, 5, 14, 15). -/

namespace Sys2Proof.Machine

/-- The instruction on the command port, decoded and run; a code of no operation is refused by name. -/
def runPort (p : Presented) (s : State) : Result :=
  match decode s.cfg p with
  | .ok i => exec i s
  | .error e => .refused (.undecodable e)

/-- One step. The reset input comes first (70_reset_and_hazards.md R230). While `READY = 0` the command goes on by one
event, with a free answer where none is known, and with `runAhead` by every further event whose answer is known; the port
is not looked at (10_state.md R33). With `READY = 1` the presented command is accepted; with none "it does nothing" (60_exceptions.md
R222). Running while another engine on the bus runs is refused (20_memory.md R63). -/
def step (s : State) : Host.Outcome State Fault Refusal :=
  if s.resetIn then .next (hwReset s)
  else if s.ready then
    match s.port with
    | some p => if s.otherBusy then .refused .busShared else runPort p s
    | none => .next s
  else if s.otherBusy then .refused .busShared
  else .next (runOn (event s))

/-- The host presents the instruction of a table word on the command port of an engine that is ready for it: the very
next step accepts it and, with `runAhead` on, runs it (log entries 11 and 15). -/
def State.withFetchWord (s : State) (nbits w : Nat) : State :=
  { s with port := some (tableCode s.cfg nbits w), ready := true, resetIn := false, otherBusy := false,
           runAhead := true }

end Sys2Proof.Machine
end

