-- ==== Sys2Proof/Safety.lean ====
section
/-! DEFINITION. What the statements speak of: the environment's answers they assume, what a trace shows, what a meaning
leaves unchanged, and the invariants of the machine. -/

namespace Sys2Proof.Machine

/-! ### Lines of a frame-level trace -/

/-- One line of a frame-level trace (95_test_vectors.md): a pin write, a sleep, or one completed exchange with its
answer. -/
inductive Line where
  | pin (p : Pin) (l : Level)
  | sleep (ms : Nat)
  | xfer (x : Xfer) (rx : List Byte)
  deriving DecidableEq, Repr

/-- The response lengths of the exchanges of some lines. -/
def lineLens : List Line → List Nat
  | [] => []
  | .xfer x _ :: ls => x.n :: lineLens ls
  | .pin _ _ :: ls | .sleep _ :: ls => lineLens ls

/-- The bus bytes that the chip answers in some lines. -/
def lineBytes : List Line → List Byte
  | [] => []
  | .xfer _ rx :: ls => rx ++ lineBytes ls
  | .pin _ _ :: ls | .sleep _ :: ls => lineBytes ls

/-- Every answer has the length that its frame asks for (00_scope.md R10: `len(bs) = n`). -/
def linesFit (ls : List Line) : Prop :=
  ∀ x rx, Line.xfer x rx ∈ ls → rx.length = x.n

/-! ### Environments that answer -/

/-- The busy line at the wanted level on every first sample, for exchanges with the response lengths `ns`: LOW, HIGH, LOW
for a write-only exchange, LOW, HIGH, LOW, HIGH, LOW for one with a response (40_transport.md R102). -/
def promptLevels : List Nat → List Level
  | [] => []
  | 0 :: ns => .low :: .high :: .low :: promptLevels ns
  | (_ + 1) :: ns => .low :: .high :: .low :: .high :: .low :: promptLevels ns

/-- The clock reads of those exchanges: one for each wait (R101, R102). -/
def clockReads : List Nat → Nat
  | [] => 0
  | 0 :: ns => 3 + clockReads ns
  | (_ + 1) :: ns => 5 + clockReads ns

/-- ENV's coming answers are those of a prompt busy line for the lines `ls`, with any clock values, `polls` of them for
the starts of polls, and what it answers afterwards stands in `t`. -/
def Prompt (s t : State) (ls : List Line) (polls : Nat) : Prop :=
  s.busyIn = promptLevels (lineLens ls) ++ t.busyIn ∧ s.rxIn = lineBytes ls ++ t.rxIn ∧ linesFit ls ∧
    ∃ ts, ts.length = clockReads (lineLens ls) + polls ∧ s.nowIn = ts ++ t.nowIn

/-- Such answers stand in the input lists, and the engine runs ahead as far as they go (log entry 3), so that one step
carries a whole instruction. -/
def Answers (s : State) (ls : List Line) (polls : Nat) : Prop :=
  s.runAhead = true ∧ ∃ t, Prompt s t ls polls

/-- The progress assumption of 70_reset_and_hazards.md R245 on true times in milliseconds, for liveness claims only:
they do not decrease, and among any `k` consecutive ones the last exceeds the first by at least 1. -/
def ClockProgress (k : Nat) (ts : List Nat) : Prop :=
  (∀ i, i + 1 < ts.length → ts.getD i 0 ≤ ts.getD (i + 1) 0) ∧
    ∀ i, i + k < ts.length + 1 → ts.getD i 0 + 1 ≤ ts.getD (i + k - 1) 0

/-! ### What a trace shows -/

/-- The frames written to the bus, in the order of the trace. -/
def busWrites : List Action → List (List Byte)
  | [] => []
  | .busWrite bs :: t => bs :: busWrites t
  | .pinWrite _ _ :: t | .pinRead _ :: t | .busRead _ :: t | .now _ :: t | .sleep _ :: t | .log _ :: t | .accept _ :: t
  | .done _ :: t => busWrites t

/-- The answers read from the bus, newest first. -/
def busReads : List Action → List (List Byte)
  | [] => []
  | .busRead bs :: t => bs :: busReads t
  | .pinWrite _ _ :: t | .pinRead _ :: t | .busWrite _ :: t | .now _ :: t | .sleep _ :: t | .log _ :: t | .accept _ :: t
  | .done _ :: t => busReads t

/-- How many `Log` records a trace holds. -/
def logCount : List Action → Nat
  | [] => 0
  | .log _ :: t => logCount t + 1
  | .busWrite _ :: t | .pinWrite _ _ :: t | .pinRead _ :: t | .busRead _ :: t | .now _ :: t | .sleep _ :: t
  | .accept _ :: t | .done _ :: t => logCount t

/-- The pin and bus actions of a trace with the busy samples, without the clock reads (the twelve and seven actions of
40_transport.md R108). -/
def pinActions : List Action → List Action
  | [] => []
  | .now _ :: t => pinActions t
  | .busWrite bs :: t => .busWrite bs :: pinActions t
  | .pinWrite p l :: t => .pinWrite p l :: pinActions t
  | .pinRead l :: t => .pinRead l :: pinActions t
  | .busRead bs :: t => .busRead bs :: pinActions t
  | .sleep ms :: t => .sleep ms :: pinActions t
  | .log r :: t => .log r :: pinActions t
  | .accept c :: t => .accept c :: pinActions t
  | .done st :: t => .done st :: pinActions t

/-- The pin and bus actions of one write-only exchange, newest first (R102, T1 to T6). -/
def writeActions (c : Cfg) (tx : List Byte) : List Action :=
  [.pinRead .low, .pinWrite .nss c.pin.nssInactive, .pinRead .high, .busWrite tx, .pinWrite .nss c.pin.nssActive,
    .pinRead .low]

/-- The pin and bus actions of one exchange with a response, newest first (R102, T1 to T12). -/
def readActions (c : Cfg) (tx rx : List Byte) : List Action :=
  [.pinRead .low, .pinWrite .nss c.pin.nssInactive, .pinRead .high, .busRead rx, .pinWrite .nss c.pin.nssActive] ++
    writeActions c tx

/-- The actions of one line, newest first, without the clock reads. -/
def Line.actions (c : Cfg) : Line → List Action
  | .pin p l => [.pinWrite p l]
  | .sleep ms => [.sleep ms]
  | .xfer x rx => if x.n = 0 then writeActions c x.tx else readActions c x.tx rx

/-- The actions of some lines, newest first. -/
def linesTrace (c : Cfg) : List Line → List Action
  | [] => []
  | l :: ls => linesTrace c ls ++ l.actions c

/-- What is known of the chip after some lines: each completed frame is received once, in order; asserting the reset line
ends all knowledge (20_memory.md R51, R58; 70_reset_and_hazards.md R231). -/
def remoteAfter (c : Cfg) : List Line → Remote → Remote
  | [], r => r
  | .xfer x rx :: ls, r => remoteAfter c ls (r.receive c x.tx rx)
  | .pin .rst l :: ls, r => remoteAfter c ls (if l = c.pin.rstAssert then Remote.unknown else r)
  | .pin .nss _ :: ls, r => remoteAfter c ls r
  | .sleep _ :: ls, r => remoteAfter c ls r

/-- `RXBUF` after some lines: the bytes of the last answer, or as it was (10_state.md R28; log entry 22). -/
def rxbufAfter : List Line → List Byte → List Byte
  | [], b => b
  | .xfer x rx :: ls, b => rxbufAfter ls (if x.n = 0 then b else rx)
  | .pin _ _ :: ls, b | .sleep _ :: ls, b => rxbufAfter ls b

/-! ### Frames: what is left unchanged -/

/-- What the host reads on its ports is what the result registers hold, in the format of 30_encoding.md R73. -/
def HostReads (s : State) : Prop :=
  (s.hostView.status = s.status.num ∧ s.hostView.uidLen = s.uidLen.num ∧ s.hostView.diagCode = s.diagCode.num ∧
    s.hostView.diagStep = s.diagStep.num ∧ s.hostView.diagTph = s.diagTph.num ∧ s.hostView.coarse = s.coarse.num) ∧
  (s.hostView.uid.extractLsb' 0 8 = s.uidOut.u0 ∧ s.hostView.uid.extractLsb' 8 8 = s.uidOut.u1 ∧
    s.hostView.uid.extractLsb' 16 8 = s.uidOut.u2 ∧ s.hostView.uid.extractLsb' 24 8 = s.uidOut.u3 ∧
    s.hostView.uid.extractLsb' 32 8 = s.uidOut.u4 ∧ s.hostView.uid.extractLsb' 40 8 = s.uidOut.u5 ∧
    s.hostView.uid.extractLsb' 48 8 = s.uidOut.u6) ∧
  (s.hostView.ver.extractLsb' 0 8 = s.ver0 ∧ s.hostView.ver.extractLsb' 8 8 = s.ver1)

/-- The result registers as they were (10_state.md R34). -/
def SameResults (s t : State) : Prop :=
  t.uidOut = s.uidOut ∧ t.uidLen = s.uidLen ∧ t.ver0 = s.ver0 ∧ t.ver1 = s.ver1 ∧ t.status = s.status ∧
    t.diagCode = s.diagCode ∧ t.diagStep = s.diagStep ∧ t.diagTph = s.diagTph

/-- The working registers of card resolution as they were: `CB`, `SAK`, `RXCNT`, `RVAL`. -/
def SameWork (s t : State) : Prop :=
  t.cb = s.cb ∧ t.sak = s.sak ∧ t.rxcnt = s.rxcnt ∧ t.rval = s.rval

/-- A single operation has run the lines `ls` on a prompt line and returned `r`. What it added to the trace and to what
is known of the chip is exactly those lines; the result registers, `CMD`, `TP0`, the reset line, the configuration and
the inputs are as they were; no exchange is open. The statement that uses it says what happens to `CB`, `SAK`, `RXCNT`,
`RVAL` and `COARSE`. -/
def Returned (s t : State) (ls : List Line) (r : OpResult) : Prop :=
  (t.ready = true ∧ t.result = r ∧ t.call = none ∧ t.sub = .start ∧ t.port = none) ∧
  (t.cfg = s.cfg ∧ t.cmd = s.cmd ∧ t.tp0 = s.tp0 ∧ t.rstQ = s.rstQ ∧ t.resetIn = s.resetIn ∧
    t.otherBusy = s.otherBusy ∧ t.draws = s.draws) ∧
  (t.nssQ = s.cfg.pin.nssInactive ∧ t.tph = .t0 ∧ t.stepLbl = .noStep ∧ t.cand = .t0) ∧
  SameResults s t ∧ Prompt s t ls 0 ∧
  pinActions t.trace = linesTrace s.cfg ls ++ pinActions s.trace ∧ t.remote = remoteAfter s.cfg ls s.remote ∧
  t.rxbuf = rxbufAfter ls s.rxbuf

/-- The host command with the code `c` has run the lines `ls` on a prompt line, with `polls` polls, and is `Done(st)` with
the diagnosis `d` at the step `l`. What it added to the trace is `Accept`, those lines, the `Log` record of an abort,
and `Done`. The statement that uses it says what `UID_OUT`, `UID_LEN`, `VER` and the working registers hold. -/
def Finished (s t : State) (c : BitVec 3) (ls : List Line) (polls : Nat) (st : Status) (d : DiagCode) (l : StepLabel) :
    Prop :=
  (t.ready = true ∧ t.cmd = c ∧ t.status = st ∧ t.coarse = .csDone ∧ t.stepLbl = .noStep ∧ t.tph = .t0 ∧
    t.sub = .start ∧ t.call = none ∧ t.port = none) ∧
  (t.diagCode = d ∧ t.diagStep = l ∧ t.diagTph = .t0) ∧
  (t.cfg = s.cfg ∧ t.result = s.result ∧ t.resetIn = s.resetIn ∧ t.otherBusy = s.otherBusy ∧ t.draws = s.draws) ∧
  Prompt s t ls polls ∧
  pinActions t.trace =
    .done st :: (if d = .dgNone then [] else [.log ⟨s.cfg.readerId, d, l, .t0⟩]) ++ linesTrace s.cfg ls ++
      .accept c :: pinActions s.trace ∧
  t.remote = remoteAfter s.cfg ls s.remote ∧ t.rxbuf = rxbufAfter ls s.rxbuf

/-- The instruction runs its lines on a prompt line and returns `Ok`; the registers of card resolution and `COARSE` are as
they were. -/
def RunsPlain (i : Instr) (s : State) (ls : List Line) : Prop :=
  ∃ t, exec i s = .next t ∧ Returned s t ls .ok ∧ SameWork s t ∧ t.coarse = s.coarse

/-- The cleared result and working registers of a command that has stored none of them (10_state.md R33). -/
def Cleared (t : State) : Prop :=
  t.uidOut = Uid.zero ∧ t.uidLen = .len0 ∧ t.ver0 = 0 ∧ t.ver1 = 0 ∧ t.cb = CascadeBuffer.zero ∧ t.sak = 0 ∧ t.rxcnt = 0

/-- The two output lines at their idle levels (10_state.md R35, 60_exceptions.md R222). -/
def PinsIdle (t : State) : Prop :=
  t.nssQ = t.cfg.pin.nssInactive ∧ t.rstQ = t.cfg.pin.rstRelease

/-- The statuses a host command can end with, by its code (30_encoding.md R71, R72). -/
def allowedStatus (cmd : BitVec 3) : List Status :=
  match cmd.toNat with
  | 0 | 1 => [.stOk, .stResetTimeout]
  | 2 | 3 | 4 => [.stOk, .stVersionError]
  | 5 => [.stUid4, .stUid7, .stNoCard]
  | _ => [.stIllegalCmd]

/-- The actions of the repetitions of W2 to W6, newest first: a sample of the wrong level and a clock read that is not
late (40_transport.md R101). -/
def missTrace (c : Cfg) : List (Level × Time) → List Action
  | [] => []
  | (l, t) :: ms => missTrace c ms ++ [.now (clockValue c t), .pinRead l]

/-! ### The lines of the procedures -/

/-- `RESET_CHIP` whose first read of IRQ_STATUS answers `irq` (42_system_ops.md R150). -/
def resetLines (c : Cfg) (irq : List Byte) : List Line :=
  [.pin .rst c.pin.rstAssert, .sleep c.time.resetLowMs, .pin .rst c.pin.rstRelease, .sleep c.time.resetSettleMs,
    .xfer (xGetIrqStatus c) irq]

/-- `BEGIN` (R154). -/
def beginLines (c : Cfg) (irq : List Byte) : List Line :=
  .pin .nss c.pin.nssInactive :: .pin .rst c.pin.rstRelease :: resetLines c irq

/-- `SETUP_RADIO` whose first read of IRQ_STATUS answers `irq` (R152). -/
def radioLines (c : Cfg) (irq : List Byte) : List Line :=
  [.xfer (xLoadRfConfig c c.arg.rfTxConf c.arg.rfRxConf) [], .xfer (xRfOn c) [], .xfer (xGetIrqStatus c) irq,
    .xfer (xClearIrqStatus c (bitMask c.field.txRfonIrqBit)) []]

/-- Step 2 of the resolver (43_uid_resolution.md R172, R173). -/
def configLines (c : Cfg) : List Line :=
  [.xfer (xCryptoOff c) [], .xfer (xCrcRxOff c) [], .xfer (xCrcTxOff c) [], .xfer (xSetIdle c) [],
    .xfer (xSetTransceive c) []]

/-- Step 4 without the check: REQA and the ATQA read (R175). -/
def reqaLines (c : Cfg) (atqa : List Byte) : List Line :=
  [.xfer (xReqa c) [], .sleep c.time.cardWaitMs, .xfer (xReadData c c.card.atqaLen) atqa]

/-- Step 6 up to the count read that answers `cnt` (R178). -/
def countL1Lines (c : Cfg) (cnt : List Byte) : List Line :=
  [.xfer (xAnticollL1 c) [], .sleep c.time.cardWaitMs, .xfer (xGetRxCount c) cnt]

/-- Step 8 without the check: SELECT and the count read (R182). -/
def selectLines (c : Cfg) (u0 u1 u2 u3 bcc : Byte) (cnt : List Byte) : List Line :=
  [.xfer (xSelectL1 c u0 u1 u2 u3 bcc) [], .sleep c.time.cardWaitMs, .xfer (xGetRxCount c) cnt]

/-- Step 9, second round, up to the state check that answers `st` (R186). -/
def checkL2Lines (c : Cfg) (st : List Byte) : List Line :=
  [.xfer (xCrcRxOff c) [], .xfer (xCrcTxOff c) [], .xfer (xGetTransceiveState c) st]

/-- The second anticollision up to the count read (R186). -/
def countL2Lines (c : Cfg) (cnt : List Byte) : List Line :=
  [.xfer (xAnticollL2 c) [], .sleep c.time.cardWaitMs, .xfer (xGetRxCount c) cnt]

/-- `READ_CARD_SERIAL` up to the state check before REQA (R170, R171 to R174): lines 1 to 15 of program P1. -/
def uptoReqaCheck (c : Cfg) (irq1 irq2 st : List Byte) : List Line :=
  resetLines c irq1 ++ radioLines c irq2 ++ configLines c ++ [.xfer (xGetTransceiveState c) st]

/-- From REQA to the first count read (R175 to R178): lines 16 to 23 of program P1. -/
def uptoCountL1 (c : Cfg) (atqa st cnt : List Byte) : List Line :=
  reqaLines c atqa ++ [.xfer (xGetTransceiveState c) st, .xfer (xClearIrqStatus c c.field.irqAllMask) []] ++
    countL1Lines c cnt

/-- From the first anticollision answer to the state check before SELECT (R179, R181, R182): lines 24 to 27. -/
def uptoSelCheck (c : Cfg) (l1 st : List Byte) : List Line :=
  [.xfer (xReadData c c.card.acRespLen) l1, .xfer (xCrcRxOn c) [], .xfer (xCrcTxOn c) [],
    .xfer (xGetTransceiveState c) st]

/-- The chip shows WaitTransmit in the RF_STATUS bytes `st` (10_state.md R38). -/
def ShowsWaitTransmit (c : Cfg) (st : List Byte) : Prop :=
  transceiveState c (fromLe32 st) = waitTransmit

/-- The received-byte count in the RX_STATUS bytes `cnt` (41_primitives.md R132). -/
def countOf (c : Cfg) (cnt : List Byte) : BitVec 9 :=
  rxCount c (fromLe32 cnt)

/-- With `BCC_CHECK` on, the fifth byte of an anticollision answer is the XOR of the first four (00_scope.md R8,
43_uid_resolution.md R180). -/
def ChecksumPasses (c : Cfg) (u0 u1 u2 u3 bcc : Byte) : Prop :=
  c.bccCheck = true → u0 ^^^ u1 ^^^ u2 ^^^ u3 = bcc

/-! ### Invariants -/

/-- The level of the chip-select line at each label: active from T2 to T5 and from T8 to T11, inactive elsewhere
(10_state.md R35, 40_transport.md R102). -/
def nssAt (c : Cfg) : Tph → Level
  | .t3 | .t4 | .t5 | .t9 | .t10 | .t11 => c.pin.nssActive
  | .t0 | .t1 | .t2 | .t6 | .t7 | .t8 | .t12 | .t13 => c.pin.nssInactive

/-- The level of the reset line at each step: asserted between RST_LOW and RST_HIGH (10_state.md R35). -/
def rstAt (c : Cfg) : StepLabel → Level
  | .rstHold | .rstHigh => c.pin.rstAssert
  | _ => c.pin.rstRelease

/-- The three steps of the reset pulse: it begins with RST_LOW and is over after RST_HIGH. -/
def inPulse (l : StepLabel) : Bool :=
  match l with
  | .rstLow | .rstHold | .rstHigh => true
  | _ => false

/-- What an operation run alone may do with an answer: nothing that belongs to a host command's result. -/
def Post.alone : Post → Bool
  | .plain | .reg | .state | .check | .count | .countIs | .countStop | .coarse _ | .level1 | .level2 | .sak => true
  | .pollState | .countSelect | .irqBit _ | .level2Done | .sakDecide | .version => false

/-- The stages of a single operation: exchanges and sleeps. -/
def Stage.alone : Stage → Bool
  | .sleep _ => true
  | .xfer _ p => p.alone
  | .nothing | .pin _ _ | .poll _ _ _ => false

/-- Whether the event that comes next is `Log` or `Done`. -/
def Sub.closing : Sub → Bool
  | .log | .fin _ => true
  | .start | .sample | .time | .release => false

/-- The invariant of the sequence position and the pins (10_state.md R29, R35). -/
structure State.PinInv (s : State) : Prop where
  /-- "While `READY = 1`, `PHASE = (CMD of the last command, 0, 0)`" (R29). -/
  idle : s.ready = true → s.stepLbl = .noStep ∧ s.tph = .t0 ∧ s.sub = .start ∧ s.call = none
  /-- `NSS_Q` at every label; in particular inactive whenever `TPH = 0` (R35). -/
  nss : s.nssQ = nssAt s.cfg s.tph
  /-- `RST_Q` at every step; in particular released whenever `STEP` is not RST_HOLD or RST_HIGH (R35). -/
  rst : s.rstQ = rstAt s.cfg s.stepLbl
  /-- The reset pulse is entered only at RST_LOW and left only at RST_HIGH. -/
  pulse : inPulse s.stepLbl = true → s.sub = .start ∧ s.tph = .t0 ∧ (s.cmd = 0 ∨ s.cmd = 1 ∨ s.cmd = 5)
  /-- No exchange is open when the command closes. -/
  closed : s.sub.closing = true → s.tph = .t0
  /-- A single operation has no step, and only stages of its own kind. -/
  alone : ∀ gs, s.call = some gs → s.stepLbl = .noStep ∧ gs.all Stage.alone = true

/-- The invariant of the model's own position `sub` (log entry 3): it stands only where the pseudocode has such a line, so
that every event is one action (00_scope.md R5). With it, the two registers of the clock hold what a clock shows, and no
DIAG_TPH candidate outlives its failure. -/
structure State.PosInv (s : State) : Prop where
  /-- W2 stands inside a wait only (40_transport.md R101). -/
  sample : s.sub = .sample → waitLevel s.tph ≠ none
  /-- W4 stands inside a wait; the time test of a poll stands in a poll step, outside an exchange. -/
  time : s.sub = .time → waitLevel s.tph ≠ none ∨ s.tph = .t0 ∧ ∃ x p ms, curStage s = .poll x p ms
  /-- TA1 stands inside a wait (R104). -/
  release : s.sub = .release → waitLevel s.tph ≠ none
  /-- T7 and T13 have no action of their own; no line rests there. -/
  inner : s.tph ≠ .t7 ∧ s.tph ≠ .t13
  /-- Outside an exchange a running command stands at a pin write, a sleep or a poll. -/
  action : s.ready = false → s.sub = .start → s.tph = .t0 →
    (∃ p l, curStage s = .pin p l) ∨ (∃ ms, curStage s = .sleep ms) ∨ ∃ x p ms, curStage s = .poll x p ms
  /-- A single operation runs while it has stages left, which are exchanges and sleeps. -/
  running : ∀ gs, s.call = some gs → s.ready = false ∧ gs ≠ [] ∧ gs.all Stage.alone = true
  /-- A candidate for DIAG_TPH is used or returned by the failure that set it (40_transport.md R104, 60_exceptions.md
  R210): none is remembered while a command goes on. -/
  noCand : s.ready = false → s.cand = .t0
  /-- `TW0` and `TP0` are `CLOCK_BITS` wide (10_state.md R27). -/
  width : s.tw0 < 2 ^ s.cfg.time.clockBits ∧ s.tp0 < 2 ^ s.cfg.time.clockBits

/-! #### `COARSE` and `STEP` (10_state.md R30, R31) -/

/-- The steps of each host command, by its code (42_system_ops.md R150 to R159, 43_uid_resolution.md R170). -/
def stepOfCommand (cmd : BitVec 3) (l : StepLabel) : Bool :=
  match cmd.toNat, l with
  | 0, .beginNss | 0, .beginRst => true
  | 0, .rstLow | 0, .rstHold | 0, .rstHigh | 0, .rstSettle | 0, .rstPoll => true
  | 1, .rstLow | 1, .rstHold | 1, .rstHigh | 1, .rstSettle | 1, .rstPoll => true
  | 2, .verRead | 3, .verRead | 4, .verRead => true
  | 5, .noStep | 5, .beginNss | 5, .beginRst | 5, .verRead => false
  | 5, _ => true
  | 6, .noStep | 7, .noStep => true
  | _, _ => false

/-- The value of `COARSE` while a command that resets it stands at a step: each value is entered when the step that R31
names has completed, and stays until the next one. -/
def coarseAt : StepLabel → Coarse
  | .noStep | .beginNss | .beginRst | .rstLow | .rstHold | .rstHigh | .rstSettle | .rstPoll => .csReset
  | .radLoad | .radOn | .radPoll | .radClear | .verRead => .csReset
  | .cfgCryptoOff | .cfgCrcRxOff | .cfgCrcTxOff | .cfgIdle | .cfgTransceive | .reqaCheck | .reqaSend => .csRadioOn
  | .reqaWait | .reqaRead | .ac1Poll | .ac1IrqClr | .ac1Send => .csReqaSent
  | .ac1Wait | .ac1Count | .ac1Read | .selCrcRxOn | .selCrcTxOn | .selCheck | .selSend | .selWait => .csAc1Sent
  | .selCount | .selRead | .ac2CrcRxOff | .ac2CrcTxOff | .ac2Check | .ac2Send => .csAc1Sent
  | .ac2Wait | .ac2Count | .ac2Read => .csAc2Sent

/-- `COARSE` inside a command that resets it: by the step, until a UID is written (R31). -/
def coarseIn (s : State) : Coarse :=
  match s.sub with
  | .fin .stUid4 => .csSelected4
  | .fin .stUid7 => .csSelected7
  | _ => coarseAt s.stepLbl

/-- The invariant of `COARSE`. -/
structure State.CoarseInv (s : State) : Prop where
  /-- A host command stands at a step of its own. -/
  place : s.ready = false → s.call = none → stepOfCommand s.cmd s.stepLbl = true
  /-- In BEGIN, RESET and READ_CARD_SERIAL `COARSE` goes with the step. -/
  coarse : s.ready = false → s.call = none → s.cmd = 0 ∨ s.cmd = 1 ∨ s.cmd = 5 → s.coarse = coarseIn s

/-- Whether a frame begins with one of the nine opcodes (30_encoding.md R87). -/
def listedFrame (c : Cfg) (tx : List Byte) : Bool :=
  match tx with
  | b :: _ => c.opcodes.contains b
  | [] => false

/-- Whether the frame of a stage, if it has one, is a listed one. -/
def Stage.listed (c : Cfg) : Stage → Bool
  | .xfer x _ => listedFrame c x.tx
  | .poll x _ _ => listedFrame c x.tx
  | .nothing | .pin _ _ | .sleep _ => true

/-- The frame in hand, before it is written, and the frames still to come in a single operation are listed ones. -/
structure State.FrameInv (s : State) : Prop where
  inHand : s.tph = .t1 ∨ s.tph = .t2 ∨ s.tph = .t3 → listedFrame s.cfg s.txbuf = true
  toCome : ∀ gs, s.call = some gs → gs.all (Stage.listed s.cfg) = true

/-- `UID_OUT` and `UID_LEN` agree (10_state.md R23): "when `UID_LEN = 0` there is no UID and all seven bytes are zero";
with length 4, `UID_OUT[4..6]` are zero. -/
def uidShape (u : Uid) : UidLen → Prop
  | .len0 => u = Uid.zero
  | .len4 => u.u4 = 0 ∧ u.u5 = 0 ∧ u.u6 = 0
  | .len7 => True

/-- The UID length that goes with a status: "with any other status `UID_LEN = 0`" (43_uid_resolution.md R190). -/
def lenOf : Status → UidLen
  | .stUid4 => .len4
  | .stUid7 => .len7
  | .stNone | .stOk | .stNoCard | .stResetTimeout | .stVersionError | .stIllegalCmd => .len0

/-- The UID length that goes with the position inside a host command: only a command about to be `Done` with a UID has
one. -/
def Sub.len : Sub → UidLen
  | .fin st => lenOf st
  | .start | .sample | .time | .release | .log => .len0

/-- The invariant of the result registers (10_state.md R23, 43_uid_resolution.md R190): the UID is there exactly with the
statuses `ST_UID4` and `ST_UID7`. -/
structure State.ResultInv (s : State) : Prop where
  shape : uidShape s.uidOut s.uidLen
  /-- Between commands, and while a single operation runs, by `STATUS`. -/
  posted : s.ready = true ∨ s.call ≠ none → s.uidLen = lenOf s.status
  /-- Inside a host command, by the position. -/
  running : s.ready = false → s.call = none → s.uidLen = s.sub.len
  /-- Inside a host command `STATUS` is ST_NONE, and until the command closes the other results are as `Accept` cleared them
  (70_reset_and_hazards.md R236; the UID by `running` and `shape`). -/
  cleared : s.ready = false → s.call = none → s.status = .stNone ∧ (s.sub.closing = false →
    s.ver0 = 0 ∧ s.ver1 = 0 ∧ s.diagCode = .dgNone ∧ s.diagStep = .noStep ∧ s.diagTph = .t0)
  /-- A single operation has stages left, of its own kind, and never closes a command. -/
  alone : ∀ gs, s.call = some gs → gs ≠ [] ∧ gs.all Stage.alone = true ∧ s.sub.closing = false

end Sys2Proof.Machine
end

