-- ==== Sys2Proof/Certificates/Slice0/Obligations.lean ====
section
/-! DEFINITION. The statements for the provers. A statement quantifies over every state, and so over every answer ENV can
give and over every value of a free answer; where it assumes a prompt busy line it says so by `Answers`. With the input
`runAhead` an instruction or a step goes on as far as ENV's known answers carry it; without it a step is one event (log
entry 3). -/

open Sys2Proof Sys2Proof.Machine

/-! ### Reset and step -/

/-- 10_state.md R42: the state after engine reset, in which the engine waits for `Accept`; the `rst` line has not been
pulsed (70_reset_and_hazards.md R231). That the trace of a machine right after reset is empty is the model's choice (log
entries 4 and 14). -/
def Obligations.ResetState : Prop :=
  let s := State.reset
  (s.ready = true ∧ s.cmd = 0 ∧ s.stepLbl = .noStep ∧ s.tph = .t0 ∧ s.coarse = .csIdle ∧ s.status = .stNone) ∧
  (s.diagCode = .dgNone ∧ s.diagStep = .noStep ∧ s.diagTph = .t0 ∧ Cleared s ∧ s.rval = 0) ∧
  (PinsIdle s ∧ s.trace = [] ∧ step s = .next s)

/-- 70_reset_and_hazards.md R230: engine reset gives the state of R42 from any state, also in the middle of a command,
without `Done`, without `Log` and without a pulse on `rst`. -/
def Obligations.EngineResetAbandons : Prop :=
  ∀ s : State, s.resetIn = true → ∃ t, step s = .next t ∧
    (t.ready = true ∧ t.cmd = 0 ∧ t.stepLbl = .noStep ∧ t.tph = .t0 ∧ t.coarse = .csIdle ∧ t.status = .stNone) ∧
    (t.diagCode = .dgNone ∧ t.diagStep = .noStep ∧ t.diagTph = .t0 ∧ Cleared t ∧ t.rval = 0) ∧
    (PinsIdle t ∧ t.trace = s.trace ∧ t.cfg = s.cfg ∧ (s.ready = true → t.remote = s.remote))

/-- With `READY = 1` the step accepts and runs exactly the instruction that stands on the command port (10_state.md R33;
log entries 5 and 15). -/
def Obligations.StepRunsPresentedInstruction : Prop :=
  ∀ (s : State) (p : Presented) (i : Instr), s.resetIn = false → s.ready = true → s.otherBusy = false →
    s.port = some p → decode s.cfg p = .ok i → step s = exec i s

/-- What the other steps do: nothing with nothing presented (60_exceptions.md R222); while a command runs exactly one event
(00_scope.md R5), or with `runAhead` the next event and then every further one, as far as ENV's known answers go (log entry
3); and the two refusals (20_memory.md R63; log entries 5, 18). -/
def Obligations.StepWithoutInstruction : Prop :=
  ∀ s : State, s.resetIn = false →
    (s.ready = true → s.port = none → step s = .next s) ∧
    (s.ready = true → s.otherBusy = false → ∀ p e, s.port = some p → decode s.cfg p = .error e →
      step s = .refused (.undecodable e)) ∧
    (s.ready = true → s.otherBusy = true → s.port ≠ none → step s = .refused .busShared) ∧
    (s.ready = false → s.otherBusy = false → step s = .next (runOn (event s))) ∧
    (s.ready = false → s.otherBusy = false → s.runAhead = false → step s = .next (event s)) ∧
    (s.ready = false → s.otherBusy = false → s.runAhead = true →
      ∃ n, step s = .next (events (n + 1) s) ∧
        ((events (n + 1) s).ready = true ∨ answered (events (n + 1) s) = false) ∧
        ∀ m, 0 < m → m ≤ n → (events m s).ready = false ∧ answered (events m s) = true) ∧
    (s.ready = false → s.otherBusy = true → step s = .refused .busShared)

/-- 10_state.md R33 and 70_reset_and_hazards.md R234: while `READY = 0` no instruction is accepted, whatever is presented
changes nothing of what the engine does, and it stays presented: nothing is queued. That `exec` then leaves the state as
it was is the model's reading of "not accepted and has no effect" (log entry 23), for the single operations as for the
host codes (log entry 5). -/
def Obligations.BusyEngineAcceptsNothing : Prop :=
  ∀ s : State, s.ready = false →
    (∀ i, exec i s = .next s) ∧
    ∀ (p : Option Presented) (t : State), step s = .next t → step { s with port := p } = .next { t with port := p }

/-- Every step answers a next state but for the two refusals; it never faults (60_exceptions.md R215). -/
def Obligations.StepStopsOnlyByName : Prop :=
  ∀ s : State, (∃ t, step s = .next t) ∨ (s.otherBusy = true ∧ step s = .refused .busShared) ∨
    ∃ p e, s.port = some p ∧ decode s.cfg p = .error e ∧ step s = .refused (.undecodable e)

/-! ### Encodings -/

/-- Words written out from the tables of 30_encoding.md R71, R83, R84 and the code they stand for. -/
def Obligations.WrittenWordsDecode : Prop :=
  decode specCfg (.host 0b101) = .ok .readCardSerial ∧
  decode specCfg (.host 0b110) = .ok .reserved110 ∧
  decode specCfg (.op .frame [0x00, 0x03, 0xFF, 0xFF, 0x0F, 0x00] 0) = .ok (.writeRegister 0x03 0x000FFFFF) ∧
  decode specCfg (.op .frame [0x01, 0x00, 0x03, 0x00, 0x00, 0x00] 0) = .ok (.writeRegisterOrMask 0x00 0x00000003) ∧
  decode specCfg (.op .frame [0x02, 0x00, 0xF8, 0xFF, 0xFF, 0xFF] 0) = .ok (.writeRegisterAndMask 0x00 0xFFFFFFF8) ∧
  decode specCfg (.op .frame [0x04, 0x1D] 4) = .ok (.readRegister 0x1D) ∧
  decode specCfg (.op .frame [0x07, 0x12, 0x02] 2) = .ok (.readEeprom 0x12 0x02) ∧
  decode specCfg (.op .frame [0x09, 0x04, 0x93, 0x20] 0) = .ok (.sendData 4 [0x93, 0x20]) ∧
  decode specCfg (.op .frame [0x0A, 0x00] 5) = .ok (.readData 5) ∧
  decode specCfg (.op .frame [0x11, 0x00, 0x80] 0) = .ok (.loadRfConfig 0x00 0x80) ∧
  decode specCfg (.op .frame [0x16, 0x00] 0) = .ok .rfOn ∧
  decode specCfg (.op .card [0x93, 0x70, 0x01, 0x02, 0x03, 0x04, 0x06] 0) = .ok (.selectL1 1 2 3 4 6) ∧
  decode specCfg (.op .pseudo [0x02, 0x12, 0xFE, 0xFF, 0xFF, 0xFF] 0) = .ok .crcOff ∧
  decode specCfg (.op .frame [0x03, 0x00] 0) = .error .unknownOpcode

/-- Decode and encode agree, for every well-formed instruction with every operand at every value (30_encoding.md R71,
R76 to R82, R84, R89). -/
def Obligations.DecodeEncodeAgree : Prop :=
  ∀ i : Instr, i.wf = true → decode specCfg (encode specCfg i) = .ok i

/-- 30_encoding.md R71, R72: every 3-bit host code is the code of one well-formed instruction, whatever the
configuration. -/
def Obligations.HostCodesAreTotal : Prop :=
  ∀ (c : Cfg) (code : BitVec 3), ∃ i, decode c (.host code) = .ok i ∧ i.wf = true ∧ encode c i = .host code

/-- 20_memory.md R52 and 00_scope.md R12: `le32` and `from_le32` are inverse, and the fields of a register value by the
bytes read. -/
def Obligations.LittleEndianFields : Prop :=
  (∀ v : Word, fromLe32 (le32 v) = v) ∧
  ∀ b0 b1 b2 b3 : Byte, le32 (fromLe32 [b0, b1, b2, b3]) = [b0, b1, b2, b3] ∧
    transceiveState specCfg (fromLe32 [b0, b1, b2, b3]) = (b3 &&& 0x07).setWidth 3 ∧
    rxCount specCfg (fromLe32 [b0, b1, b2, b3]) = b0.setWidth 9 ||| (b1 &&& 0x01).setWidth 9 <<< 8 ∧
    testBit (fromLe32 [b0, b1, b2, b3]) specCfg.field.idleIrqBit = b0.getLsbD 2 ∧
    testBit (fromLe32 [b0, b1, b2, b3]) specCfg.field.txRfonIrqBit = b1.getLsbD 1

/-- 30_encoding.md R73: the result format after `Done` (while `READY = 0`: `ResultsWhileBusy`), with the numbers of its
fields: the tables of 60_exceptions.md R212 (`STATUS`) and R213 (`DIAG_CODE`), 10_state.md R23 (`UID_LEN`), R29 (`TPH`), R30
(`STEP`) and R31 (`COARSE`). -/
def Obligations.ResultFormat : Prop :=
  (∀ s : State, s.ready = true → HostReads s) ∧
  [Status.stNone, .stOk, .stUid4, .stUid7, .stNoCard, .stResetTimeout, .stVersionError, .stIllegalCmd].map Status.num =
    [0, 1, 2, 3, 4, 5, 6, 7] ∧
  [DiagCode.dgNone, .dgTimeout, .dgResetTimeout, .dgRadioSetupFailed, .dgProtocolState, .dgProtocolCascadeTag,
      .dgNoCardStatePoll, .dgNoCardCount, .dgChecksum, .dgIllegalCmd].map DiagCode.num = [0, 1, 2, 3, 4, 5, 6, 7, 8, 9] ∧
  [UidLen.len0, .len4, .len7].map UidLen.num = [0, 4, 7] ∧
  [Tph.t0, .t1, .t2, .t3, .t4, .t5, .t6, .t7, .t8, .t9, .t10, .t11, .t12, .t13].map Tph.num =
    [0, 1, 2, 3, 4, 5, 6, 7, 8, 9, 10, 11, 12, 13] ∧
  [Coarse.csIdle, .csReset, .csRadioOn, .csReqaSent, .csAc1Sent, .csSelected4, .csAc2Sent, .csSelected7, .csDone].map
    Coarse.num = [0, 1, 2, 3, 4, 5, 6, 7, 8] ∧
  [StepLabel.noStep, .rstLow, .rstHold, .rstHigh, .rstSettle, .rstPoll, .beginNss, .beginRst].map StepLabel.num =
    [0x00, 0x01, 0x02, 0x03, 0x04, 0x05, 0x06, 0x07] ∧
  [StepLabel.radLoad, .radOn, .radPoll, .radClear].map StepLabel.num = [0x08, 0x09, 0x0A, 0x0B] ∧
  [StepLabel.cfgCryptoOff, .cfgCrcRxOff, .cfgCrcTxOff, .cfgIdle, .cfgTransceive, .reqaCheck, .reqaSend, .reqaWait,
      .reqaRead].map StepLabel.num = [0x10, 0x11, 0x12, 0x13, 0x14, 0x15, 0x16, 0x17, 0x18] ∧
  [StepLabel.ac1Poll, .ac1IrqClr, .ac1Send, .ac1Wait, .ac1Count, .ac1Read].map StepLabel.num =
    [0x19, 0x1A, 0x1B, 0x1C, 0x1D, 0x1E] ∧
  [StepLabel.selCrcRxOn, .selCrcTxOn, .selCheck, .selSend, .selWait, .selCount, .selRead].map StepLabel.num =
    [0x1F, 0x20, 0x21, 0x22, 0x23, 0x24, 0x25] ∧
  [StepLabel.ac2CrcRxOff, .ac2CrcTxOff, .ac2Check, .ac2Send, .ac2Wait, .ac2Count, .ac2Read, .verRead].map StepLabel.num =
    [0x26, 0x27, 0x28, 0x29, 0x2A, 0x2B, 0x2C, 0x30]

/-- 00_scope.md R11: `elapsed` is subtraction modulo 2^`CLOCK_BITS`, for every width, and of two clock values it is the true
interval when that is below 2^`CLOCK_BITS` ms, across any wrap of the clock; the test against a limit is strict. -/
def Obligations.ElapsedIsTrueInterval : Prop :=
  (∀ (c : Cfg) (t0 t : Time), ((elapsed c t0 t : Nat) : Int) = ((t : Int) - (t0 : Int)) % 2 ^ c.time.clockBits) ∧
  ∀ (c : Cfg) (start interval limit : Nat), interval < 2 ^ c.time.clockBits →
    elapsed c (clockValue c start) (clockValue c (start + interval)) = interval ∧
    (late c (clockValue c start) (clockValue c (start + interval)) limit = true ↔ limit < interval)

/-! ### Accept, Done, abort -/

/-- 10_state.md R33: `Accept(c)` of every code and what it leaves alone (that `TW0`, `TP0` and `RXBUF` are among this is the
model's choice, log entry 7). A reserved code has no first step; `DIAG_CODE` is then what 30_encoding.md R72 and
60_exceptions.md R200 say, in the same event (log entry 26). That `exec` of a host code leaves the state as it was while `READY = 0` is the model's reading
of "not accepted and has no effect" (log entry 23). -/
def Obligations.AcceptClearsResults : Prop :=
  (∀ (c : BitVec 3) (s : State),
    let t := accept c s
    (t.ready = false ∧ t.cmd = c ∧ t.status = .stNone ∧ t.diagCode = (if c = 6 ∨ c = 7 then .dgIllegalCmd else .dgNone) ∧
      t.diagStep = .noStep ∧ t.diagTph = .t0) ∧
    Cleared t ∧
    (t.coarse = if c = 0 ∨ c = 1 ∨ c = 5 then .csReset else s.coarse) ∧
    (t.stepLbl = (firstStep c).getD .noStep ∧ t.trace = .accept c :: s.trace) ∧
    (t.cfg = s.cfg ∧ t.nssQ = s.nssQ ∧ t.rstQ = s.rstQ ∧ t.tw0 = s.tw0 ∧ t.tp0 = s.tp0 ∧ t.rxbuf = s.rxbuf ∧
      t.remote = s.remote)) ∧
  ∀ (c : BitVec 3) (s : State), s.ready = false → exec (decodeHost c) s = .next s

/-- 10_state.md R34: `Done(s)`, and the result registers hold until the next `Accept`, while the engine "does nothing"
(60_exceptions.md R222). -/
def Obligations.DonePostsResults : Prop :=
  (∀ (st : Status) (s : State),
    let t := done st s
    (t.status = st ∧ t.coarse = .csDone ∧ t.stepLbl = .noStep ∧ t.tph = .t0 ∧ t.ready = true) ∧
    (t.uidOut = s.uidOut ∧ t.uidLen = s.uidLen ∧ t.ver0 = s.ver0 ∧ t.ver1 = s.ver1 ∧ t.diagCode = s.diagCode ∧
      t.diagStep = s.diagStep ∧ t.diagTph = s.diagTph)) ∧
  ∀ s : State, s.ready = true → s.resetIn = false → s.port = none → step s = .next s

/-- 70_reset_and_hazards.md R236: while `READY = 0` the results read as cleared, whatever the registers hold; `COARSE`, an
observation port (10_state.md R31), shows its value. Single operations, which are the model's own (log entry 5), write no
result register, neither at their start nor in a later step (for these the invariant of the result registers,
`ResultInvariantKept`, is assumed). -/
def Obligations.ResultsWhileBusy : Prop :=
  (∀ s : State, s.ready = false → s.hostView = ⟨0, 0, 0, 0, 0, 0, 0, s.coarse.num⟩) ∧
  (∀ (i : Instr) (s t : State), (∀ c, encode s.cfg i ≠ .host c) → exec i s = .next t → SameResults s t) ∧
  ∀ s t : State, s.ResultInv → s.resetIn = false → s.ready = false → s.call ≠ none → step s = .next t → SameResults s t

/-- 60_exceptions.md R210, R211, R214 and 10_state.md R34: what a raise inside a host command does, in the two events after
it: the `Log` record, and `Done` with the status of the command. That the candidate for DIAG_TPH is then forgotten is the
model's reading (log entry 24), and so is which event carries AB2 and AB4 (log entry 26). -/
def Obligations.AbortEffect : Prop :=
  ∀ (d : DiagCode) (s : State),
    let st := if s.cmd = 0 ∨ s.cmd = 1 then Status.stResetTimeout
      else if s.cmd = 2 ∨ s.cmd = 3 ∨ s.cmd = 4 then .stVersionError
      else if s.cmd = 5 then .stNoCard else .stIllegalCmd
    events 2 (raise d s) =
      { s with
        diagCode := d, diagStep := s.stepLbl, diagTph := s.cand, cand := .t0, uidLen := .len0, uidOut := Uid.zero,
        ver0 := 0, ver1 := 0, status := st, coarse := .csDone, stepLbl := .noStep, tph := .t0, ready := true,
        sub := .start, call := none,
        trace := .done st :: .log ⟨s.cfg.readerId, d, s.stepLbl, s.cand⟩ :: s.trace }

/-- 30_encoding.md R72: a reserved code does one `Log(DG_ILLEGAL_CMD, 0, 0)` and `Done(ST_ILLEGAL_CMD)`, no pin, bus or
clock action, whatever ENV answers: in the two events after `Accept`, which follow it at once with `runAhead` (log entry
3). That `Accept` leaves `TW0`, `TP0`, `TXBUF` and `RXBUF` is the model's choice (log entry 7). -/
def Obligations.ReservedCodesComplete : Prop :=
  ∀ s : State, s.ready = true → ∀ i c, (i = .reserved110 ∧ c = 6 ∨ i = .reserved111 ∧ c = 7) →
    ∃ t, t = events 2 (accept c s) ∧ exec i s = .next (if s.runAhead then t else accept c s) ∧
      (t.ready = true ∧ t.status = .stIllegalCmd ∧ t.diagCode = .dgIllegalCmd ∧ t.diagStep = .noStep ∧
        t.diagTph = .t0 ∧ t.coarse = .csDone ∧ t.cmd = c ∧ t.stepLbl = .noStep ∧ t.tph = .t0) ∧
      Cleared t ∧
      t.trace = .done .stIllegalCmd :: .log ⟨s.cfg.readerId, .dgIllegalCmd, .noStep, .t0⟩ :: .accept c :: s.trace ∧
      (t.cfg = s.cfg ∧ t.nssQ = s.nssQ ∧ t.rstQ = s.rstQ ∧ t.tw0 = s.tw0 ∧ t.tp0 = s.tp0 ∧ t.txbuf = s.txbuf ∧
        t.rxbuf = s.rxbuf ∧ t.remote = s.remote ∧ t.busyIn = s.busyIn ∧ t.nowIn = s.nowIn ∧ t.rxIn = s.rxIn ∧
        t.draws = s.draws)

/-- A host command is its `Accept` and then the events of the sequencer, one after another (00_scope.md R5, 10_state.md R33
and R29): none within the same step, or with `runAhead` exactly as far as the answers that stand ready go, up to `Done` or
to the first answer not known (log entry 3). For every instruction `runAhead` changes nothing but how many events one step
takes: the state it answers is reached by events from the one it answers without. -/
def Obligations.HostCommandIsAcceptThenEvents : Prop :=
  (∀ (c : BitVec 3) (s : State), s.ready = true →
    (s.runAhead = false → exec (decodeHost c) s = .next (accept c s)) ∧
    (s.runAhead = true →
      ∃ n, exec (decodeHost c) s = .next (events n (accept c s)) ∧
        ((events n (accept c s)).ready = true ∨ answered (events n (accept c s)) = false) ∧
        ∀ m, m < n → (events m (accept c s)).ready = false ∧ answered (events m (accept c s)) = true)) ∧
  ∀ (i : Instr) (s : State), s.ready = true →
    ∃ n u, exec i { s with runAhead := false } = .next u ∧ u.ready = false ∧
      exec i { s with runAhead := true } = .next (events n { u with runAhead := true })

/-! ### The busy-line wait (40_transport.md R101, R104) -/

/-- A wait goes on through any number of wrong samples whose clock reads are not late, and passes on the first sample of
the level it waits for, whatever the clock says then (R101). The answers, the trace and `TW0` are exactly those of W1 to
W6; `nowIn` holds true times, of which the clock shows `clockValue`. -/
def Obligations.WaitPassesWhenLevelSeen : Prop :=
  ∀ (s : State) (l : Level) (a : Time) (ms : List (Level × Time)) (bs : List Level) (ts : List Time),
    s.sub = .start → waitLevel s.tph = some l →
    s.busyIn = ms.map Prod.fst ++ l :: bs → s.nowIn = a :: (ms.map Prod.snd ++ ts) →
    (∀ m ∈ ms, m.1 ≠ l ∧ late s.cfg a m.2 s.cfg.time.timeoutMs = false) →
    events (2 * ms.length + 2) s =
      waitPassed { s with
        tw0 := clockValue s.cfg a, sub := .sample, busyIn := bs, nowIn := ts,
        trace := .pinRead l :: (missTrace s.cfg ms ++ .now (clockValue s.cfg a) :: s.trace) }

/-- A wait fails on the first clock read that shows more than `TIMEOUT_MS`, after a wrong sample (R101). Then chip-select
is released if it is active, by one pin write (R104, TA1), and the failure is raised in a host command, with the wait's
label as `DIAG_TPH` (R104, R210) and with the code of the step: ResetTimeout at RST_POLL, RadioSetupFailed in the four
steps of SETUP_RADIO, Timeout elsewhere (60_exceptions.md R200, 43_uid_resolution.md R189); in a single operation it is
returned. -/
def Obligations.WaitTimesOut : Prop :=
  ∀ (s : State) (l w : Level) (a z : Time) (ms : List (Level × Time)) (bs : List Level) (ts : List Time),
    s.sub = .start → waitLevel s.tph = some l → w ≠ l →
    s.busyIn = ms.map Prod.fst ++ w :: bs → s.nowIn = a :: (ms.map Prod.snd ++ z :: ts) →
    (∀ m ∈ ms, m.1 ≠ l ∧ late s.cfg a m.2 s.cfg.time.timeoutMs = false) → late s.cfg a z s.cfg.time.timeoutMs = true →
    ∃ n t, t = events n s ∧
      n = (if s.nssQ = s.cfg.pin.nssActive then 2 * ms.length + 4 else 2 * ms.length + 3) ∧
      t.trace =
        (if s.nssQ = s.cfg.pin.nssActive then [.pinWrite .nss s.cfg.pin.nssInactive] else []) ++
          .now (clockValue s.cfg z) :: .pinRead w :: (missTrace s.cfg ms ++ .now (clockValue s.cfg a) :: s.trace) ∧
      (s.nssQ = s.cfg.pin.nssActive → t.nssQ = s.cfg.pin.nssInactive) ∧
      (s.nssQ ≠ s.cfg.pin.nssActive → t.nssQ = s.nssQ) ∧
      (t.tph = .t0 ∧ t.busyIn = bs ∧ t.nowIn = ts ∧ t.rxIn = s.rxIn ∧ t.rval = s.rval ∧ t.rxcnt = s.rxcnt ∧
        t.cb = s.cb ∧ t.sak = s.sak ∧ t.uidOut = s.uidOut ∧ t.uidLen = s.uidLen ∧ t.status = s.status) ∧
      (s.call = none → t.sub = .log ∧ t.ready = s.ready ∧ t.stepLbl = s.stepLbl ∧
        t.diagCode =
          (if s.stepLbl = .rstPoll then .dgResetTimeout
          else if s.stepLbl = .radLoad ∨ s.stepLbl = .radOn ∨ s.stepLbl = .radPoll ∨ s.stepLbl = .radClear then
            .dgRadioSetupFailed
          else .dgTimeout) ∧
        t.diagStep = s.stepLbl ∧ t.diagTph = s.tph) ∧
      (s.call ≠ none → t.ready = true ∧ t.call = none ∧ t.result = .fail .dgTimeout ∧ t.diagCode = s.diagCode)

/-- Liveness under the progress assumption of 70_reset_and_hazards.md R245, for any bound `k`: whatever the busy line does,
a wait whose clock advances is left within as many clock reads as it takes `TIMEOUT_MS` to go by; it "never blocks
indefinitely" (40_transport.md R105, 43_uid_resolution.md R190 (c)). `ts` are true times; the clock shows them modulo
2^`CLOCK_BITS`. -/
def Obligations.WaitEndsWhenClockAdvances : Prop :=
  ∀ (s : State) (l : Level) (k : Nat) (ts : List Nat) (rest : List Time),
    s.sub = .start → waitLevel s.tph = some l → ClockProgress k ts →
    k * (s.cfg.time.timeoutMs + 1) < ts.length → ts.getLastD 0 < ts.headD 0 + 2 ^ s.cfg.time.clockBits →
    s.nowIn = ts ++ rest →
    ∃ n, 0 < n ∧ n ≤ 2 * ts.length ∧
      ((events n s).tph ≠ s.tph ∨ (events n s).sub ≠ .sample ∧ (events n s).sub ≠ .time)

/-! ### Frames run alone (41_primitives.md) -/

/-- R120, R121, R122: the three register writes on a prompt line: one write-only exchange with the bytes of 30_encoding.md
R77, `Ok`, no engine register of card resolution written. -/
def Obligations.RegisterWritesComplete : Prop :=
  ∀ (s : State) (a : Byte) (v : Word), s.ready = true →
    (Answers s [.xfer ⟨s.cfg.op.writeRegister :: a :: le32 v, 0⟩ []] 0 →
      RunsPlain (.writeRegister a v) s [.xfer ⟨s.cfg.op.writeRegister :: a :: le32 v, 0⟩ []]) ∧
    (Answers s [.xfer ⟨s.cfg.op.writeRegisterOrMask :: a :: le32 v, 0⟩ []] 0 →
      RunsPlain (.writeRegisterOrMask a v) s [.xfer ⟨s.cfg.op.writeRegisterOrMask :: a :: le32 v, 0⟩ []]) ∧
    (Answers s [.xfer ⟨s.cfg.op.writeRegisterAndMask :: a :: le32 v, 0⟩ []] 0 →
      RunsPlain (.writeRegisterAndMask a v) s [.xfer ⟨s.cfg.op.writeRegisterAndMask :: a :: le32 v, 0⟩ []])

/-- R125, R127, R128: SEND_DATA, LOAD_RF_CONFIG and RF_ON on a prompt line (30_encoding.md R80, R82). SEND_DATA tests no
transceive state. -/
def Obligations.RadioWritesComplete : Prop :=
  ∀ s : State, s.ready = true →
    (∀ vb d, Answers s [.xfer ⟨s.cfg.op.sendData :: vb :: d, 0⟩ []] 0 →
      RunsPlain (.sendData vb d) s [.xfer ⟨s.cfg.op.sendData :: vb :: d, 0⟩ []]) ∧
    (∀ t r, Answers s [.xfer ⟨[s.cfg.op.loadRfConfig, t, r], 0⟩ []] 0 →
      RunsPlain (.loadRfConfig t r) s [.xfer ⟨[s.cfg.op.loadRfConfig, t, r], 0⟩ []]) ∧
    (Answers s [.xfer ⟨[s.cfg.op.rfOn, s.cfg.arg.rfOnArg], 0⟩ []] 0 →
      RunsPlain .rfOn s [.xfer ⟨[s.cfg.op.rfOn, s.cfg.arg.rfOnArg], 0⟩ []])

/-- R123, R129: READ_REGISTER and GET_IRQ_STATUS on a prompt line: `RVAL <- from_le32(rx)`, any four bytes; `CB`, `SAK`,
`RXCNT` and `COARSE` are as they were. -/
def Obligations.RegisterReadsComplete : Prop :=
  ∀ (s : State) (a : Byte) (rx : List Byte), s.ready = true →
    (Answers s [.xfer ⟨[s.cfg.op.readRegister, a], 4⟩ rx] 0 →
      ∃ t, exec (.readRegister a) s = .next t ∧ Returned s t [.xfer ⟨[s.cfg.op.readRegister, a], 4⟩ rx] .ok ∧
        t.rval = fromLe32 rx ∧ t.cb = s.cb ∧ t.sak = s.sak ∧ t.rxcnt = s.rxcnt ∧ t.coarse = s.coarse) ∧
    (Answers s [.xfer ⟨[s.cfg.op.readRegister, s.cfg.reg.irqStatus], 4⟩ rx] 0 →
      ∃ t, exec .getIrqStatus s = .next t ∧
        Returned s t [.xfer ⟨[s.cfg.op.readRegister, s.cfg.reg.irqStatus], 4⟩ rx] .ok ∧
        t.rval = fromLe32 rx ∧ t.cb = s.cb ∧ t.sak = s.sak ∧ t.rxcnt = s.rxcnt ∧ t.coarse = s.coarse)

/-- R124, R126: READ_EEPROM and READ_DATA on a prompt line: the bytes are in `RXBUF`, in the order read; nothing else is
written. That `RXBUF` takes answers longer than the 5 bytes of 10_state.md R28 is the model's choice (log entries 13 and 22).
A length of zero, which no rule uses, reads nothing and leaves `RXBUF` (40_transport.md R102, T7; log entry
13). -/
def Obligations.ByteReadsComplete : Prop :=
  ∀ (s : State) (a n : Byte) (rx : List Byte), s.ready = true →
    (Answers s [.xfer ⟨[s.cfg.op.readEeprom, a, n], n.toNat⟩ rx] 0 →
      RunsPlain (.readEeprom a n) s [.xfer ⟨[s.cfg.op.readEeprom, a, n], n.toNat⟩ rx] ∧
        ∃ t, exec (.readEeprom a n) s = .next t ∧ t.rxbuf = if n = 0 then s.rxbuf else rx) ∧
    (Answers s [.xfer ⟨[s.cfg.op.readData, s.cfg.arg.readDataArg], n.toNat⟩ rx] 0 →
      RunsPlain (.readData n) s [.xfer ⟨[s.cfg.op.readData, s.cfg.arg.readDataArg], n.toNat⟩ rx] ∧
        ∃ t, exec (.readData n) s = .next t ∧ t.rxbuf = if n = 0 then s.rxbuf else rx)

/-- R130 and 43_uid_resolution.md R172, R173, R181: CLEAR_IRQ_STATUS, CRYPTO_OFF, SET_IDLE, SET_TRANSCEIVE are the one frame
of 30_encoding.md R89 each; CRC_OFF and CRC_ON are two mask frames, the receive register first (90_conflicts.md C8). -/
def Obligations.MaskPseudoOperationsComplete : Prop :=
  ∀ s : State, s.ready = true →
    let crcOff := [Line.xfer (xWriteRegisterAndMask s.cfg s.cfg.reg.crcRxConfig s.cfg.field.crcOffMask) [],
      Line.xfer (xWriteRegisterAndMask s.cfg s.cfg.reg.crcTxConfig s.cfg.field.crcOffMask) []]
    let crcOn := [Line.xfer (xWriteRegisterOrMask s.cfg s.cfg.reg.crcRxConfig s.cfg.field.crcOnMask) [],
      Line.xfer (xWriteRegisterOrMask s.cfg s.cfg.reg.crcTxConfig s.cfg.field.crcOnMask) []]
    (∀ m, Answers s [.xfer (xWriteRegister s.cfg s.cfg.reg.irqClear m) []] 0 →
      RunsPlain (.clearIrqStatus m) s [.xfer (xWriteRegister s.cfg s.cfg.reg.irqClear m) []]) ∧
    (Answers s [.xfer (xWriteRegisterAndMask s.cfg s.cfg.reg.systemConfig s.cfg.field.cryptoOffMask) []] 0 →
      RunsPlain .cryptoOff s
        [.xfer (xWriteRegisterAndMask s.cfg s.cfg.reg.systemConfig s.cfg.field.cryptoOffMask) []]) ∧
    (Answers s [.xfer (xWriteRegisterAndMask s.cfg s.cfg.reg.systemConfig s.cfg.field.idleAndMask) []] 0 →
      RunsPlain .setIdle s [.xfer (xWriteRegisterAndMask s.cfg s.cfg.reg.systemConfig s.cfg.field.idleAndMask) []]) ∧
    (Answers s [.xfer (xWriteRegisterOrMask s.cfg s.cfg.reg.systemConfig s.cfg.field.transceiveOrMask) []] 0 →
      RunsPlain .setTransceive s
        [.xfer (xWriteRegisterOrMask s.cfg s.cfg.reg.systemConfig s.cfg.field.transceiveOrMask) []]) ∧
    (Answers s crcOff 0 → RunsPlain .crcOff s crcOff) ∧ (Answers s crcOn 0 → RunsPlain .crcOn s crcOn)

/-- 41_primitives.md R131, R133: GET_TRANSCEIVE_STATE returns bits 26:24 of RF_STATUS; CHECK_WAIT_TRANSMIT passes exactly
on the state 1 and otherwise fails with NotWaitTransmit, one sample, no loop. -/
def Obligations.TransceiveStateOperations : Prop :=
  ∀ (s : State) (rx : List Byte), s.ready = true → Answers s [.xfer (xGetTransceiveState s.cfg) rx] 0 →
    (∃ t, exec .getTransceiveState s = .next t ∧
      Returned s t [.xfer (xGetTransceiveState s.cfg) rx] (.okState (transceiveState s.cfg (fromLe32 rx))) ∧
      t.rval = fromLe32 rx ∧ t.cb = s.cb ∧ t.sak = s.sak ∧ t.rxcnt = s.rxcnt ∧ t.coarse = s.coarse) ∧
    ∃ t, exec .checkWaitTransmit s = .next t ∧
      Returned s t [.xfer (xGetTransceiveState s.cfg) rx]
        (if transceiveState s.cfg (fromLe32 rx) = 1 then .ok else .fail .dgProtocolState) ∧
      t.rval = fromLe32 rx ∧ t.cb = s.cb ∧ t.sak = s.sak ∧ t.rxcnt = s.rxcnt ∧ t.coarse = s.coarse

/-- R132: GET_RX_COUNT writes `RVAL` and `RXCNT`, the nine bits of the count. -/
def Obligations.RxCountCompletes : Prop :=
  ∀ (s : State) (rx : List Byte), s.ready = true → Answers s [.xfer (xGetRxCount s.cfg) rx] 0 →
    ∃ t, exec .getRxCount s = .next t ∧ Returned s t [.xfer (xGetRxCount s.cfg) rx] .ok ∧
      t.rval = fromLe32 rx ∧
      t.rxcnt = BitVec.ofNat 9 ((fromLe32 rx).toNat / 2 ^ s.cfg.field.rxcntLo %
        2 ^ (s.cfg.field.rxcntHi - s.cfg.field.rxcntLo + 1)) ∧
      t.cb = s.cb ∧ t.sak = s.sak ∧ t.coarse = s.coarse

/-- 20_memory.md R51, R55 and 41_primitives.md R120 to R130: what each completed frame tells of the chip, for a
well-formed configuration. The model's choices in it (log entry 10): on IRQ_STATUS itself, where R55 ("bits are cleared only
by writing IRQ_CLEAR") meets the general sentences of R120 and R122 ("`REG[a] <- ...`"), a plain write only sets bits and an
AND-mask frame changes none; and a mask frame on IRQ_CLEAR changes what is known of IRQ_CLEAR alone. -/
def Obligations.FrameEffectsOnChip : Prop :=
  ∀ (c : Cfg) (r : Remote), c.wf = true →
    (∀ a v, a ≠ c.reg.irqClear → a ≠ c.reg.irqStatus →
      r.receive c (xWriteRegister c a v).tx [] = r.setReg a (Known.write v)) ∧
    (∀ v, c.reg.irqStatus ≠ c.reg.irqClear → r.receive c (xWriteRegister c c.reg.irqStatus v).tx [] =
      r.setReg c.reg.irqStatus ((r.regAt c.reg.irqStatus).or v)) ∧
    (∀ m, r.receive c (xClearIrqStatus c m).tx [] =
      (r.setReg c.reg.irqClear (Known.write m)).setReg c.reg.irqStatus
        (((r.setReg c.reg.irqClear (Known.write m)).regAt c.reg.irqStatus).and (~~~m))) ∧
    (∀ a m, r.receive c (xWriteRegisterOrMask c a m).tx [] = r.setReg a ((r.regAt a).or m)) ∧
    (∀ a m, r.receive c (xWriteRegisterAndMask c a m).tx [] =
      if a = c.reg.irqStatus then r else r.setReg a ((r.regAt a).and m)) ∧
    (∀ a rx, rx.length = 4 → r.receive c (xReadRegister c a).tx rx = r.setReg a (Known.write (fromLe32 rx))) ∧
    (∀ a n rx, rx.length = n.toNat →
      r.receive c (xReadEeprom c a n).tx rx = { r with ee := learnEe r.ee a.toNat rx }) ∧
    (∀ vb d, Instr.wf (.sendData vb d) = true → r.receive c (xSendData c vb d).tx [] = { r with sent := some (vb, d) }) ∧
    (∀ (n : Byte) rx, rx.length = n.toNat → r.receive c (xReadData c n).tx rx = { r with received := rx }) ∧
    (∀ t x, r.receive c (xLoadRfConfig c t x).tx [] = { r with rfConf := some (t, x) }) ∧
    r.receive c (xRfOn c).tx [] = { r with rfOn := true }

/-- 41_primitives.md R121, R122, 20_memory.md R55: the knowledge that the mask frames leave is right for every register
value that agreed with the knowledge before, each mask frame is idempotent, and a mask of no bits changes nothing. -/
def Obligations.MaskFramesAreSound : Prop :=
  ∀ (k : Known) (v m : Word), k.agrees v = true →
    ((k.or m).agrees (v ||| m) = true ∧ (k.and m).agrees (v &&& m) = true) ∧
    ((k.or m).or m = k.or m ∧ (k.and m).and m = k.and m) ∧
    (k.or 0 = k ∧ k.and (BitVec.allOnes 32) = k) ∧
    ∀ j, (m.getLsbD j = true → (v ||| m).getLsbD j = true) ∧ (m.getLsbD j = false → (v ||| m).getLsbD j = v.getLsbD j) ∧
      (m.getLsbD j = false → (v &&& m).getLsbD j = false) ∧ (m.getLsbD j = true → (v &&& m).getLsbD j = v.getLsbD j)

/-- 40_transport.md R104, R108: any of the nine frames alone, on a line that stays LOW after the write: chip-select is
released, nothing is read, the caller gets `Fail(Timeout)`, and no engine register is written. Nothing is known of the
chip any more (93_implementation_defined.md U15; log entry 9). -/
def Obligations.FrameTimesOutAtHighWait : Prop :=
  ∀ (s : State) (i : Instr) (tx : List Byte) (n : Nat) (a b z : Time) (bs : List Level) (ts : List Time),
    s.ready = true → s.runAhead = true → encode s.cfg i = .op .frame tx n →
    s.busyIn = .low :: .low :: bs → s.nowIn = a :: b :: z :: ts → late s.cfg b z s.cfg.time.timeoutMs = true →
    ∃ t, exec i s = .next t ∧
      (t.ready = true ∧ t.result = .fail .dgTimeout ∧ t.call = none ∧ t.cand = .t4) ∧
      t.trace = .pinWrite .nss s.cfg.pin.nssInactive :: .now (clockValue s.cfg z) :: .pinRead .low ::
        .now (clockValue s.cfg b) :: .busWrite tx :: .pinWrite .nss s.cfg.pin.nssActive :: .pinRead .low ::
        .now (clockValue s.cfg a) :: s.trace ∧
      (t.nssQ = s.cfg.pin.nssInactive ∧ t.tph = .t0 ∧ t.busyIn = bs ∧ t.nowIn = ts ∧ t.rxIn = s.rxIn ∧
        t.remote = Remote.unknown) ∧
      (SameResults s t ∧ SameWork s t ∧ t.rxbuf = s.rxbuf ∧ t.coarse = s.coarse ∧ t.cfg = s.cfg ∧ t.cmd = s.cmd ∧
        t.tp0 = s.tp0 ∧ t.rstQ = s.rstQ)

/-! ### Card commands run alone (43_uid_resolution.md; log entry 12) -/

/-- R175: REQA: the send, `COARSE <- CS_REQA_SENT`, the wait, the ATQA read; the ATQA bytes are stored in no register but
`RXBUF` and not tested. -/
def Obligations.ReqaCompletes : Prop :=
  ∀ (s : State) (atqa : List Byte), s.ready = true → s.cfg.wf = true →
    let ls := [Line.xfer (xSendData s.cfg s.cfg.card.reqaValidBits [s.cfg.card.reqaByte]) [],
      .sleep s.cfg.time.cardWaitMs, .xfer (xReadData s.cfg s.cfg.card.atqaLen) atqa]
    Answers s ls 0 →
      ∃ t, exec .reqa s = .next t ∧ Returned s t ls .ok ∧ SameWork s t ∧ t.coarse = .csReqaSent

/-- R178, R179, R180: ANTICOLL_L1: with a count other than `AC_RESP_LEN` it fails with NoCard and reads no answer; with
that count the five bytes go to `CB[0..3]` and `CB[8]`, and the checksum is tested only with `BCC_CHECK`. -/
def Obligations.AnticollL1Completes : Prop :=
  ∀ (s : State) (cnt : List Byte) (u0 u1 u2 u3 bcc : Byte), s.ready = true → s.cfg.wf = true →
    let ls := [Line.xfer (xSendData s.cfg s.cfg.card.acValidBits [s.cfg.card.selCl1, s.cfg.card.nvbAnticoll]) [],
      .sleep s.cfg.time.cardWaitMs, .xfer (xGetRxCount s.cfg) cnt]
    let ls' := ls ++ [Line.xfer (xReadData s.cfg s.cfg.card.acRespLen) [u0, u1, u2, u3, bcc]]
    (Answers s ls 0 → countOf s.cfg cnt ≠ 5 →
      ∃ t, exec .anticollL1 s = .next t ∧ Returned s t ls (.fail .dgNoCardCount) ∧
        t.rxcnt = countOf s.cfg cnt ∧ t.rval = fromLe32 cnt ∧ t.cb = s.cb ∧ t.sak = s.sak ∧ t.coarse = .csAc1Sent) ∧
    (Answers s ls' 0 → countOf s.cfg cnt = 5 →
      ∃ t, exec .anticollL1 s = .next t ∧
        Returned s t ls'
          (if s.cfg.bccCheck = true ∧ u0 ^^^ u1 ^^^ u2 ^^^ u3 ≠ bcc then .fail .dgChecksum else .ok) ∧
        t.cb = { s.cb with c0 := u0, c1 := u1, c2 := u2, c3 := u3, c8 := bcc } ∧
        t.rxcnt = 5 ∧ t.rval = fromLe32 cnt ∧ t.sak = s.sak ∧ t.coarse = .csAc1Sent)

/-- R182, R183, R184: SELECT_L1: outside WaitTransmit it fails before the send; with a count of zero it reads no SAK;
otherwise the byte read is `SAK`, whatever the count. `COARSE` does not change. -/
def Obligations.SelectL1Completes : Prop :=
  ∀ (s : State) (u0 u1 u2 u3 bcc b : Byte) (st cnt : List Byte), s.ready = true → s.cfg.wf = true →
    let check := [Line.xfer (xGetTransceiveState s.cfg) st]
    let ls := check ++
      [.xfer (xSendData s.cfg s.cfg.card.selValidBits
          [s.cfg.card.selCl1, s.cfg.card.nvbSelect, u0, u1, u2, u3, bcc]) [],
        .sleep s.cfg.time.cardWaitMs, .xfer (xGetRxCount s.cfg) cnt]
    let ls' := ls ++ [.xfer (xReadData s.cfg s.cfg.card.sakLen) [b]]
    (Answers s check 0 → ¬ShowsWaitTransmit s.cfg st →
      ∃ t, exec (.selectL1 u0 u1 u2 u3 bcc) s = .next t ∧ Returned s t check (.fail .dgProtocolState) ∧
        t.rval = fromLe32 st ∧ t.rxcnt = s.rxcnt ∧ t.cb = s.cb ∧ t.sak = s.sak ∧ t.coarse = s.coarse) ∧
    (Answers s ls 0 → ShowsWaitTransmit s.cfg st → countOf s.cfg cnt = 0 →
      ∃ t, exec (.selectL1 u0 u1 u2 u3 bcc) s = .next t ∧ Returned s t ls .ok ∧
        t.rval = fromLe32 cnt ∧ t.rxcnt = 0 ∧ t.cb = s.cb ∧ t.sak = s.sak ∧ t.coarse = s.coarse) ∧
    (Answers s ls' 0 → ShowsWaitTransmit s.cfg st → countOf s.cfg cnt ≠ 0 →
      ∃ t, exec (.selectL1 u0 u1 u2 u3 bcc) s = .next t ∧ Returned s t ls' .ok ∧
        t.rval = fromLe32 cnt ∧ t.rxcnt = countOf s.cfg cnt ∧ t.cb = s.cb ∧ t.sak = b ∧ t.coarse = s.coarse)

/-- R186, R187: ANTICOLL_L2: CRC off on both paths, the state check, the send, the count that must be `AC_RESP_LEN`, and
the five bytes into `CB[4..7]` and `CB[9]`. -/
def Obligations.AnticollL2Completes : Prop :=
  ∀ (s : State) (st cnt : List Byte) (u0 u1 u2 u3 bcc : Byte), s.ready = true → s.cfg.wf = true →
    let check := checkL2Lines s.cfg st
    let ls := check ++
      [Line.xfer (xSendData s.cfg s.cfg.card.acValidBits [s.cfg.card.selCl2, s.cfg.card.nvbAnticoll]) [],
        .sleep s.cfg.time.cardWaitMs, .xfer (xGetRxCount s.cfg) cnt]
    let ls' := ls ++ [.xfer (xReadData s.cfg s.cfg.card.acRespLen) [u0, u1, u2, u3, bcc]]
    (Answers s check 0 → ¬ShowsWaitTransmit s.cfg st →
      ∃ t, exec .anticollL2 s = .next t ∧ Returned s t check (.fail .dgProtocolState) ∧
        t.rval = fromLe32 st ∧ t.rxcnt = s.rxcnt ∧ t.cb = s.cb ∧ t.sak = s.sak ∧ t.coarse = s.coarse) ∧
    (Answers s ls 0 → ShowsWaitTransmit s.cfg st → countOf s.cfg cnt ≠ 5 →
      ∃ t, exec .anticollL2 s = .next t ∧ Returned s t ls (.fail .dgNoCardCount) ∧
        t.rval = fromLe32 cnt ∧ t.rxcnt = countOf s.cfg cnt ∧ t.cb = s.cb ∧ t.sak = s.sak ∧ t.coarse = .csAc2Sent) ∧
    (Answers s ls' 0 → ShowsWaitTransmit s.cfg st → countOf s.cfg cnt = 5 →
      ∃ t, exec .anticollL2 s = .next t ∧
        Returned s t ls'
          (if s.cfg.bccCheck = true ∧ u0 ^^^ u1 ^^^ u2 ^^^ u3 ≠ bcc then .fail .dgChecksum else .ok) ∧
        t.cb = { s.cb with c4 := u0, c5 := u1, c6 := u2, c7 := u3, c9 := bcc } ∧
        t.rval = fromLe32 cnt ∧ t.rxcnt = 5 ∧ t.sak = s.sak ∧ t.coarse = .csAc2Sent)

/-! ### Host commands (42_system_ops.md) -/

/-- R150, R151, R154: BEGIN and RESET when the first read of IRQ_STATUS shows the IDLE bit: the pulse, the two sleeps, one
read, `Done(ST_OK)`. -/
def Obligations.BeginAndResetComplete : Prop :=
  ∀ (s : State) (irq : List Byte), s.ready = true → testBit (fromLe32 irq) s.cfg.field.idleIrqBit = true →
    (Answers s (beginLines s.cfg irq) 1 →
      ∃ t, exec .beginCmd s = .next t ∧ Finished s t 0 (beginLines s.cfg irq) 1 .stOk .dgNone .noStep ∧
        Cleared t ∧ PinsIdle t ∧ t.rval = fromLe32 irq) ∧
    (Answers s (resetLines s.cfg irq) 1 →
      ∃ t, exec .resetCmd s = .next t ∧ Finished s t 1 (resetLines s.cfg irq) 1 .stOk .dgNone .noStep ∧
        Cleared t ∧ PinsIdle t ∧ t.rval = fromLe32 irq)

/-- R150, R151: the poll of RESET whose bit does not come: the clock read after the register read shows more than
`TIMEOUT_MS` since `TP0`, so the command ends with ResetTimeout, `DIAG_TPH = 0`, `ST_RESET_TIMEOUT`. -/
def Obligations.ResetPollExpires : Prop :=
  ∀ (s u : State) (irq : List Byte) (a z : Time) (ts ts' : List Time), s.ready = true → s.runAhead = true →
    testBit (fromLe32 irq) s.cfg.field.idleIrqBit = false →
    Prompt s u (resetLines s.cfg irq) 1 → s.nowIn = a :: ts → u.nowIn = z :: ts' →
    late s.cfg a z s.cfg.time.timeoutMs = true →
    ∃ t, exec .resetCmd s = .next t ∧
      Finished s t 1 (resetLines s.cfg irq) 2 .stResetTimeout .dgResetTimeout .rstPoll ∧ Cleared t ∧ PinsIdle t ∧
      t.nowIn = ts'

/-- R150, R152, 43_uid_resolution.md R176: the time test of the three polls. A clock read that is not late begins the
next read with `TP0` unchanged; a late one raises the poll's failure with `DIAG_TPH = 0` (60_exceptions.md R200), no
candidate being remembered while a command goes on (the invariant of `PositionInvariantKept`). -/
def Obligations.PollTimeTest : Prop :=
  ∀ (s : State) (x : Xfer) (d : DiagCode) (ms : Nat), s.call = none → s.sub = .time → s.tph = .t0 → s.cand = .t0 →
    (s.stepLbl = .rstPoll ∧ d = .dgResetTimeout ∧ ms = s.cfg.time.timeoutMs ∧ x = xGetIrqStatus s.cfg ∨
      s.stepLbl = .radPoll ∧ d = .dgRadioSetupFailed ∧ ms = s.cfg.time.timeoutMs ∧ x = xGetIrqStatus s.cfg ∨
      s.stepLbl = .ac1Poll ∧ d = .dgNoCardStatePoll ∧ ms = s.cfg.time.statePollMs ∧ x = xGetTransceiveState s.cfg) →
    (late s.cfg s.tp0 s.nextTime ms = false →
      (event s).tph = .t1 ∧ (event s).txbuf = x.tx ∧ (event s).rlen = x.n ∧ (event s).tp0 = s.tp0 ∧
        (event s).stepLbl = s.stepLbl ∧ (event s).trace = .now s.nextTime :: s.trace) ∧
    (late s.cfg s.tp0 s.nextTime ms = true →
      (event s).sub = .log ∧ (event s).diagCode = d ∧ (event s).diagStep = s.stepLbl ∧ (event s).diagTph = .t0 ∧
        (event s).trace = .now s.nextTime :: s.trace)

/-- R156 to R159: the three version commands: one READ_EEPROM frame of their address, the two bytes in `VER` in the order
read, `ST_OK`; the pins' reset line is not touched. That `RVAL` is then zero is the model's reading of Accept (log
entry 7). -/
def Obligations.VersionCommandsComplete : Prop :=
  ∀ (s : State) (v0 v1 : Byte), s.ready = true → s.cfg.wf = true →
    ∀ i c a, (i = .getFirmware ∧ c = 2 ∧ a = s.cfg.arg.eeFirmwareVersion ∨
        i = .getProductVersion ∧ c = 3 ∧ a = s.cfg.arg.eeProductVersion ∨
        i = .getEepromVersion ∧ c = 4 ∧ a = s.cfg.arg.eeEepromVersion) →
      let ls := [Line.xfer ⟨[s.cfg.op.readEeprom, a, 2], 2⟩ [v0, v1]]
      Answers s ls 0 →
        ∃ t, exec i s = .next t ∧ Finished s t c ls 0 .stOk .dgNone .noStep ∧
          (t.ver0 = v0 ∧ t.ver1 = v1 ∧ t.uidOut = Uid.zero ∧ t.uidLen = .len0 ∧ t.cb = CascadeBuffer.zero ∧
            t.sak = 0 ∧ t.rxcnt = 0 ∧ t.rval = 0) ∧
          (t.nssQ = s.cfg.pin.nssInactive ∧ t.rstQ = s.rstQ)

/-- R156, R159 and 60_exceptions.md R200, R211: a version command on a line that stays LOW after the write: chip-select is
released, `Log(DG_TIMEOUT, VER_READ, 4)`, `ST_VERSION_ERROR`, `VER` zero, no `BusRead`. -/
def Obligations.VersionTimesOut : Prop :=
  ∀ (s : State) (a b z : Time) (bs : List Level) (ts : List Time), s.ready = true → s.runAhead = true →
    s.busyIn = .low :: .low :: bs → s.nowIn = a :: b :: z :: ts → late s.cfg b z s.cfg.time.timeoutMs = true →
    ∀ i c e, (i = .getFirmware ∧ c = 2 ∧ e = s.cfg.arg.eeFirmwareVersion ∨
        i = .getProductVersion ∧ c = 3 ∧ e = s.cfg.arg.eeProductVersion ∨
        i = .getEepromVersion ∧ c = 4 ∧ e = s.cfg.arg.eeEepromVersion) →
      ∃ t, exec i s = .next t ∧
        (t.ready = true ∧ t.status = .stVersionError ∧ t.diagCode = .dgTimeout ∧ t.diagStep = .verRead ∧
          t.diagTph = .t4 ∧ t.coarse = .csDone ∧ t.cmd = c ∧ Cleared t) ∧
        t.trace = .done .stVersionError :: .log ⟨s.cfg.readerId, .dgTimeout, .verRead, .t4⟩ ::
          .pinWrite .nss s.cfg.pin.nssInactive :: .now (clockValue s.cfg z) :: .pinRead .low ::
          .now (clockValue s.cfg b) :: .busWrite [s.cfg.op.readEeprom, e, s.cfg.arg.versionLen] :: .pinWrite .nss s.cfg.pin.nssActive ::
          .pinRead .low :: .now (clockValue s.cfg a) :: .accept c :: s.trace ∧
        (t.nssQ = s.cfg.pin.nssInactive ∧ t.rstQ = s.rstQ ∧ t.busyIn = bs ∧ t.nowIn = ts ∧ t.rxIn = s.rxIn)

/-! ### READ_CARD_SERIAL (43_uid_resolution.md R170) -/

/-- R174, R182, R186: a state check outside WaitTransmit ends the read with `DG_PROTOCOL_STATE`: before REQA, lines 1 to 15 of
program P1 and no REQA (V43.13); before SELECT, no SELECT (V43.14); before the second anticollision, none (V43.15). -/
def Obligations.ReadStopsOutsideWaitTransmit : Prop :=
  ∀ (s : State) (irq1 irq2 st1 : List Byte), s.ready = true → s.cfg.wf = true →
    testBit (fromLe32 irq1) s.cfg.field.idleIrqBit = true →
    testBit (fromLe32 irq2) s.cfg.field.txRfonIrqBit = true →
    (¬ShowsWaitTransmit s.cfg st1 → Answers s (uptoReqaCheck s.cfg irq1 irq2 st1) 2 →
      ∃ t, exec .readCardSerial s = .next t ∧
        Finished s t 5 (uptoReqaCheck s.cfg irq1 irq2 st1) 2 .stNoCard .dgProtocolState .reqaCheck ∧
        Cleared t ∧ PinsIdle t ∧ t.rval = fromLe32 st1) ∧
    ∀ (atqa st2 cnt : List Byte) (u0 u1 u2 u3 bcc : Byte) (st3 : List Byte),
      ShowsWaitTransmit s.cfg st1 → ShowsWaitTransmit s.cfg st2 → countOf s.cfg cnt = 5 →
      ChecksumPasses s.cfg u0 u1 u2 u3 bcc →
      let ls := uptoReqaCheck s.cfg irq1 irq2 st1 ++ uptoCountL1 s.cfg atqa st2 cnt ++
        uptoSelCheck s.cfg [u0, u1, u2, u3, bcc] st3
      (¬ShowsWaitTransmit s.cfg st3 → Answers s ls 3 →
        ∃ t, exec .readCardSerial s = .next t ∧ Finished s t 5 ls 3 .stNoCard .dgProtocolState .selCheck ∧
          (t.uidOut = Uid.zero ∧ t.uidLen = .len0 ∧ t.ver0 = 0 ∧ t.ver1 = 0) ∧
          (PinsIdle t ∧ t.cb = { CascadeBuffer.zero with c0 := u0, c1 := u1, c2 := u2, c3 := u3, c8 := bcc } ∧ t.sak = 0 ∧
            t.rxcnt = 5 ∧ t.rval = fromLe32 st3)) ∧
      ∀ (cnt' : List Byte) (sak : Byte) (st4 : List Byte),
        ShowsWaitTransmit s.cfg st3 → countOf s.cfg cnt' ≠ 0 → sak &&& s.cfg.card.sakCascadeMask ≠ 0 →
        u0 = s.cfg.card.cascadeTag → ¬ShowsWaitTransmit s.cfg st4 →
        let ls' := ls ++ selectLines s.cfg u0 u1 u2 u3 bcc cnt' ++ [.xfer (xReadData s.cfg s.cfg.card.sakLen) [sak]] ++
          checkL2Lines s.cfg st4
        Answers s ls' 3 →
        ∃ t, exec .readCardSerial s = .next t ∧ Finished s t 5 ls' 3 .stNoCard .dgProtocolState .ac2Check ∧
          (t.uidOut = Uid.zero ∧ t.uidLen = .len0 ∧ t.ver0 = 0 ∧ t.ver1 = 0) ∧
          (PinsIdle t ∧ t.cb = { CascadeBuffer.zero with c0 := u0, c1 := u1, c2 := u2, c3 := u3, c8 := bcc } ∧
            t.sak = sak ∧ t.rxcnt = countOf s.cfg cnt' ∧ t.rval = fromLe32 st4)

/-- R178, R186, R190 (d): a count other than 5 after an anticollision request: "no card", no READ_DATA of the answer, at level
1 (V43.3, program P3) and at level 2. -/
def Obligations.ReadStopsOnWrongCount : Prop :=
  ∀ (s : State) (irq1 irq2 st1 atqa st2 cnt : List Byte), s.ready = true → s.cfg.wf = true →
    testBit (fromLe32 irq1) s.cfg.field.idleIrqBit = true →
    testBit (fromLe32 irq2) s.cfg.field.txRfonIrqBit = true →
    ShowsWaitTransmit s.cfg st1 → ShowsWaitTransmit s.cfg st2 →
    let ls := uptoReqaCheck s.cfg irq1 irq2 st1 ++ uptoCountL1 s.cfg atqa st2 cnt
    (countOf s.cfg cnt ≠ 5 → Answers s ls 3 →
      ∃ t, exec .readCardSerial s = .next t ∧ Finished s t 5 ls 3 .stNoCard .dgNoCardCount .ac1Count ∧
        (t.uidOut = Uid.zero ∧ t.uidLen = .len0 ∧ t.ver0 = 0 ∧ t.ver1 = 0 ∧ t.cb = CascadeBuffer.zero ∧ t.sak = 0) ∧
        (PinsIdle t ∧ t.rxcnt = countOf s.cfg cnt ∧ t.rval = fromLe32 cnt)) ∧
    ∀ (u0 u1 u2 u3 bcc : Byte) (st3 cnt' : List Byte) (sak : Byte) (st4 cnt2 : List Byte),
      countOf s.cfg cnt = 5 → ChecksumPasses s.cfg u0 u1 u2 u3 bcc → ShowsWaitTransmit s.cfg st3 →
      countOf s.cfg cnt' ≠ 0 → sak &&& s.cfg.card.sakCascadeMask ≠ 0 → u0 = s.cfg.card.cascadeTag →
      ShowsWaitTransmit s.cfg st4 → countOf s.cfg cnt2 ≠ 5 →
      let ls' := ls ++ uptoSelCheck s.cfg [u0, u1, u2, u3, bcc] st3 ++ selectLines s.cfg u0 u1 u2 u3 bcc cnt' ++
        [.xfer (xReadData s.cfg s.cfg.card.sakLen) [sak]] ++ checkL2Lines s.cfg st4 ++ countL2Lines s.cfg cnt2
      Answers s ls' 3 →
      ∃ t, exec .readCardSerial s = .next t ∧ Finished s t 5 ls' 3 .stNoCard .dgNoCardCount .ac2Count ∧
        (t.uidOut = Uid.zero ∧ t.uidLen = .len0 ∧ t.ver0 = 0 ∧ t.ver1 = 0) ∧
        (PinsIdle t ∧ t.cb = { CascadeBuffer.zero with c0 := u0, c1 := u1, c2 := u2, c3 := u3, c8 := bcc } ∧ t.sak = sak ∧
          t.rxcnt = countOf s.cfg cnt2 ∧ t.rval = fromLe32 cnt2)

/-- R180, R187: with `BCC_CHECK`, an anticollision answer whose fifth byte is not the XOR of the first four: "no card" after
the read; at level 1 with no CRC-enable frame (V43.9), at level 2 with no UID (V43.12). -/
def Obligations.ReadStopsOnChecksum : Prop :=
  ∀ (s : State) (irq1 irq2 st1 atqa st2 cnt : List Byte) (u0 u1 u2 u3 bcc : Byte), s.ready = true → s.cfg.wf = true →
    s.cfg.bccCheck = true →
    testBit (fromLe32 irq1) s.cfg.field.idleIrqBit = true →
    testBit (fromLe32 irq2) s.cfg.field.txRfonIrqBit = true →
    ShowsWaitTransmit s.cfg st1 → ShowsWaitTransmit s.cfg st2 → countOf s.cfg cnt = 5 →
    let before := uptoReqaCheck s.cfg irq1 irq2 st1 ++ uptoCountL1 s.cfg atqa st2 cnt
    let ls := before ++ [.xfer (xReadData s.cfg s.cfg.card.acRespLen) [u0, u1, u2, u3, bcc]]
    (u0 ^^^ u1 ^^^ u2 ^^^ u3 ≠ bcc → Answers s ls 3 →
      ∃ t, exec .readCardSerial s = .next t ∧ Finished s t 5 ls 3 .stNoCard .dgChecksum .ac1Read ∧
        (t.uidOut = Uid.zero ∧ t.uidLen = .len0 ∧ t.ver0 = 0 ∧ t.ver1 = 0) ∧
        (PinsIdle t ∧ t.cb = { CascadeBuffer.zero with c0 := u0, c1 := u1, c2 := u2, c3 := u3, c8 := bcc } ∧ t.sak = 0 ∧
          t.rxcnt = 5 ∧ t.rval = fromLe32 cnt)) ∧
    ∀ (st3 cnt' : List Byte) (sak : Byte) (st4 cnt2 : List Byte) (v0 v1 v2 v3 bcc2 : Byte),
      u0 ^^^ u1 ^^^ u2 ^^^ u3 = bcc → ShowsWaitTransmit s.cfg st3 → countOf s.cfg cnt' ≠ 0 →
      sak &&& s.cfg.card.sakCascadeMask ≠ 0 → u0 = s.cfg.card.cascadeTag → ShowsWaitTransmit s.cfg st4 →
      countOf s.cfg cnt2 = 5 → v0 ^^^ v1 ^^^ v2 ^^^ v3 ≠ bcc2 →
      let ls' := before ++ uptoSelCheck s.cfg [u0, u1, u2, u3, bcc] st3 ++ selectLines s.cfg u0 u1 u2 u3 bcc cnt' ++
        [.xfer (xReadData s.cfg s.cfg.card.sakLen) [sak]] ++ checkL2Lines s.cfg st4 ++ countL2Lines s.cfg cnt2 ++
        [.xfer (xReadData s.cfg s.cfg.card.acRespLen) [v0, v1, v2, v3, bcc2]]
      Answers s ls' 3 →
      ∃ t, exec .readCardSerial s = .next t ∧ Finished s t 5 ls' 3 .stNoCard .dgChecksum .ac2Read ∧
        (t.uidOut = Uid.zero ∧ t.uidLen = .len0 ∧ t.ver0 = 0 ∧ t.ver1 = 0) ∧
        (PinsIdle t ∧ t.cb = ⟨u0, u1, u2, u3, v0, v1, v2, v3, bcc, bcc2⟩ ∧ t.sak = sak ∧ t.rxcnt = 5 ∧
          t.rval = fromLe32 cnt2)

/-- R190 (a), R185: a card with a 4-byte UID: the SAK's cascade bit is clear, and the UID is the four bytes of the level-1
answer, unmodified, in order (program P1): with any bytes without `BCC_CHECK`, with a right fifth byte with it (V43.10).
The whole trace is the 31 lines. -/
def Obligations.ReadsFourByteUid : Prop :=
  ∀ (s : State) (irq1 irq2 st1 atqa st2 cnt st3 cnt' : List Byte) (u0 u1 u2 u3 bcc sak : Byte), s.ready = true →
    s.cfg.wf = true → ChecksumPasses s.cfg u0 u1 u2 u3 bcc →
    testBit (fromLe32 irq1) s.cfg.field.idleIrqBit = true →
    testBit (fromLe32 irq2) s.cfg.field.txRfonIrqBit = true →
    ShowsWaitTransmit s.cfg st1 → ShowsWaitTransmit s.cfg st2 → ShowsWaitTransmit s.cfg st3 →
    countOf s.cfg cnt = 5 → countOf s.cfg cnt' ≠ 0 → sak &&& s.cfg.card.sakCascadeMask = 0 →
    let ls := uptoReqaCheck s.cfg irq1 irq2 st1 ++ uptoCountL1 s.cfg atqa st2 cnt ++
      uptoSelCheck s.cfg [u0, u1, u2, u3, bcc] st3 ++ selectLines s.cfg u0 u1 u2 u3 bcc cnt' ++
      [.xfer (xReadData s.cfg s.cfg.card.sakLen) [sak]]
    Answers s ls 3 →
    ∃ t, exec .readCardSerial s = .next t ∧ Finished s t 5 ls 3 .stUid4 .dgNone .noStep ∧
      (t.uidOut = ⟨u0, u1, u2, u3, 0, 0, 0⟩ ∧ t.uidLen = .len4 ∧ t.ver0 = 0 ∧ t.ver1 = 0) ∧
      (PinsIdle t ∧ t.cb = { CascadeBuffer.zero with c0 := u0, c1 := u1, c2 := u2, c3 := u3, c8 := bcc } ∧
        t.sak = sak ∧ t.rxcnt = countOf s.cfg cnt' ∧ t.rval = fromLe32 cnt')

/-- R183 (suspect literal U1, log entry 17): a count of zero after SELECT: the result is bytes 1 to 4 of the five, and no
SAK is read (V43.5). With `BCC_CHECK` the five bytes are such as pass it. -/
def Obligations.ReadReturnsLastFourOnNoAnswer : Prop :=
  ∀ (s : State) (irq1 irq2 st1 atqa st2 cnt st3 cnt' : List Byte) (u0 u1 u2 u3 bcc : Byte), s.ready = true →
    s.cfg.wf = true → ChecksumPasses s.cfg u0 u1 u2 u3 bcc →
    testBit (fromLe32 irq1) s.cfg.field.idleIrqBit = true →
    testBit (fromLe32 irq2) s.cfg.field.txRfonIrqBit = true →
    ShowsWaitTransmit s.cfg st1 → ShowsWaitTransmit s.cfg st2 → ShowsWaitTransmit s.cfg st3 →
    countOf s.cfg cnt = 5 → countOf s.cfg cnt' = 0 →
    let ls := uptoReqaCheck s.cfg irq1 irq2 st1 ++ uptoCountL1 s.cfg atqa st2 cnt ++
      uptoSelCheck s.cfg [u0, u1, u2, u3, bcc] st3 ++ selectLines s.cfg u0 u1 u2 u3 bcc cnt'
    Answers s ls 3 →
    ∃ t, exec .readCardSerial s = .next t ∧ Finished s t 5 ls 3 .stUid4 .dgNone .noStep ∧
      (t.uidOut = ⟨u1, u2, u3, bcc, 0, 0, 0⟩ ∧ t.uidLen = .len4 ∧ t.ver0 = 0 ∧ t.ver1 = 0) ∧
      (PinsIdle t ∧ t.cb = { CascadeBuffer.zero with c0 := u0, c1 := u1, c2 := u2, c3 := u3, c8 := bcc } ∧ t.sak = 0 ∧
        t.rxcnt = 0 ∧ t.rval = fromLe32 cnt')

/-- R185, R190 (e): the SAK's cascade bit is set and the first level-1 byte is not the cascade tag: "no card", no UID
(program P6). With `BCC_CHECK` the five bytes are such as pass it. -/
def Obligations.ReadStopsWithoutCascadeTag : Prop :=
  ∀ (s : State) (irq1 irq2 st1 atqa st2 cnt st3 cnt' : List Byte) (u0 u1 u2 u3 bcc sak : Byte), s.ready = true →
    s.cfg.wf = true → ChecksumPasses s.cfg u0 u1 u2 u3 bcc →
    testBit (fromLe32 irq1) s.cfg.field.idleIrqBit = true →
    testBit (fromLe32 irq2) s.cfg.field.txRfonIrqBit = true →
    ShowsWaitTransmit s.cfg st1 → ShowsWaitTransmit s.cfg st2 → ShowsWaitTransmit s.cfg st3 →
    countOf s.cfg cnt = 5 → countOf s.cfg cnt' ≠ 0 → sak &&& s.cfg.card.sakCascadeMask ≠ 0 →
    u0 ≠ s.cfg.card.cascadeTag →
    let ls := uptoReqaCheck s.cfg irq1 irq2 st1 ++ uptoCountL1 s.cfg atqa st2 cnt ++
      uptoSelCheck s.cfg [u0, u1, u2, u3, bcc] st3 ++ selectLines s.cfg u0 u1 u2 u3 bcc cnt' ++
      [.xfer (xReadData s.cfg s.cfg.card.sakLen) [sak]]
    Answers s ls 3 →
    ∃ t, exec .readCardSerial s = .next t ∧ Finished s t 5 ls 3 .stNoCard .dgProtocolCascadeTag .selRead ∧
      (t.uidOut = Uid.zero ∧ t.uidLen = .len0 ∧ t.ver0 = 0 ∧ t.ver1 = 0) ∧
      (PinsIdle t ∧ t.cb = { CascadeBuffer.zero with c0 := u0, c1 := u1, c2 := u2, c3 := u3, c8 := bcc } ∧ t.sak = sak ∧
        t.rxcnt = countOf s.cfg cnt' ∧ t.rval = fromLe32 cnt')

/-- R190 (b), R186 to R188: a card with a 7-byte UID: the UID is the three bytes after the cascade tag and the four bytes
of the level-2 answer, in that order (program P2): with any bytes without `BCC_CHECK`, with right fifth bytes with it. The
whole trace is the 38 lines. -/
def Obligations.ReadsSevenByteUid : Prop :=
  ∀ (s : State) (irq1 irq2 st1 atqa st2 cnt st3 cnt' st4 cnt2 : List Byte)
    (u1 u2 u3 bcc sak v0 v1 v2 v3 bcc2 : Byte), s.ready = true →
    s.cfg.wf = true → ChecksumPasses s.cfg s.cfg.card.cascadeTag u1 u2 u3 bcc → ChecksumPasses s.cfg v0 v1 v2 v3 bcc2 →
    testBit (fromLe32 irq1) s.cfg.field.idleIrqBit = true →
    testBit (fromLe32 irq2) s.cfg.field.txRfonIrqBit = true →
    ShowsWaitTransmit s.cfg st1 → ShowsWaitTransmit s.cfg st2 → ShowsWaitTransmit s.cfg st3 →
    ShowsWaitTransmit s.cfg st4 →
    countOf s.cfg cnt = 5 → countOf s.cfg cnt' ≠ 0 → countOf s.cfg cnt2 = 5 →
    sak &&& s.cfg.card.sakCascadeMask ≠ 0 →
    let u0 := s.cfg.card.cascadeTag
    let ls := uptoReqaCheck s.cfg irq1 irq2 st1 ++ uptoCountL1 s.cfg atqa st2 cnt ++
      uptoSelCheck s.cfg [u0, u1, u2, u3, bcc] st3 ++ selectLines s.cfg u0 u1 u2 u3 bcc cnt' ++
      [.xfer (xReadData s.cfg s.cfg.card.sakLen) [sak]] ++ checkL2Lines s.cfg st4 ++ countL2Lines s.cfg cnt2 ++
      [.xfer (xReadData s.cfg s.cfg.card.acRespLen) [v0, v1, v2, v3, bcc2]]
    Answers s ls 3 →
    ∃ t, exec .readCardSerial s = .next t ∧ Finished s t 5 ls 3 .stUid7 .dgNone .noStep ∧
      (t.uidOut = ⟨u1, u2, u3, v0, v1, v2, v3⟩ ∧ t.uidLen = .len7 ∧ t.ver0 = 0 ∧ t.ver1 = 0) ∧
      (PinsIdle t ∧ t.cb = ⟨u0, u1, u2, u3, v0, v1, v2, v3, bcc, bcc2⟩ ∧ t.sak = sak ∧ t.rxcnt = 5 ∧
        t.rval = fromLe32 cnt2)

/-- R176: the bounded poll after REQA whose chip does not return to WaitTransmit within `T_STATE_POLL_MS`: "no card" with
`DG_NO_CARD_STATE_POLL`, and no anticollision is sent (V43.16, with one read). -/
def Obligations.ReadStopsWhenStatePollExpires : Prop :=
  ∀ (s u : State) (irq1 irq2 st1 atqa st2 : List Byte) (a z : Time) (ts ts' : List Time), s.ready = true →
    s.runAhead = true → s.cfg.wf = true →
    testBit (fromLe32 irq1) s.cfg.field.idleIrqBit = true →
    testBit (fromLe32 irq2) s.cfg.field.txRfonIrqBit = true →
    ShowsWaitTransmit s.cfg st1 → ¬ShowsWaitTransmit s.cfg st2 →
    let before := uptoReqaCheck s.cfg irq1 irq2 st1 ++ reqaLines s.cfg atqa
    let ls := before ++ [.xfer (xGetTransceiveState s.cfg) st2]
    Prompt s u ls 3 → s.nowIn.drop (clockReads (lineLens before) + 2) = a :: ts → u.nowIn = z :: ts' →
    late s.cfg a z s.cfg.time.statePollMs = true →
    ∃ t, exec .readCardSerial s = .next t ∧ Finished s t 5 ls 4 .stNoCard .dgNoCardStatePoll .ac1Poll ∧
      Cleared t ∧ PinsIdle t ∧ t.rval = fromLe32 st2 ∧ t.nowIn = ts'

/-! ### Every run of a host command -/

/-- 43_uid_resolution.md R179, R183 to R190, for EVERY run of READ_CARD_SERIAL to its `Done`, whatever ENV answers: a UID is
there exactly with `ST_UID4` and `ST_UID7`, and its bytes are bytes that this run read from the bus. A 4-byte UID is the
first four bytes of a 5-byte answer, after a last answer that is a SAK with the cascade bit clear, or, on the path of R183
(suspect literal U1), the last four bytes, after a last answer that is a count of zero. A 7-byte UID is the three bytes
after the cascade tag of one 5-byte answer and the first four bytes of the last one, with a SAK read whose cascade bit is
set. Otherwise the status is `ST_NO_CARD` and there is no UID. -/
def Obligations.UidComesFromTheCard : Prop :=
  ∀ (n : Nat) (s : State), s.ready = true → s.cfg.wf = true → (∀ m, m < n → (events m (accept 5 s)).ready = false) →
    (events n (accept 5 s)).ready = true →
    let t := events n (accept 5 s)
    ∃ new, t.trace = new ++ .accept 5 :: s.trace ∧
      ((t.status = .stUid4 ∧ t.uidLen = .len4 ∧ [t.cb.c0, t.cb.c1, t.cb.c2, t.cb.c3, t.cb.c8] ∈ busReads new ∧
        (t.sak &&& s.cfg.card.sakCascadeMask = 0 ∧ (busReads new).head? = some [t.sak] ∧
            t.uidOut = ⟨t.cb.c0, t.cb.c1, t.cb.c2, t.cb.c3, 0, 0, 0⟩ ∨
          t.rxcnt = 0 ∧ (∃ cnt, (busReads new).head? = some cnt ∧ countOf s.cfg cnt = 0) ∧
            t.uidOut = ⟨t.cb.c1, t.cb.c2, t.cb.c3, t.cb.c8, 0, 0, 0⟩)) ∨
      (t.status = .stUid7 ∧ t.uidLen = .len7 ∧ [t.cb.c0, t.cb.c1, t.cb.c2, t.cb.c3, t.cb.c8] ∈ busReads new ∧
        [t.sak] ∈ busReads new ∧ t.sak &&& s.cfg.card.sakCascadeMask ≠ 0 ∧ t.cb.c0 = s.cfg.card.cascadeTag ∧
        (busReads new).head? = some [t.cb.c4, t.cb.c5, t.cb.c6, t.cb.c7, t.cb.c9] ∧
        t.uidOut = ⟨t.cb.c1, t.cb.c2, t.cb.c3, t.cb.c4, t.cb.c5, t.cb.c6, t.cb.c7⟩) ∨
      (t.status = .stNoCard ∧ t.uidLen = .len0 ∧ t.uidOut = Uid.zero))

/-- 60_exceptions.md R211, R214 (and R213, 30_encoding.md R71), for EVERY run of a host command to its `Done`, whatever ENV
answers: the status is one the command can have; a success has no `Log` record and no diagnosis, a failure exactly one
`Log` record, which carries the diagnosis, just before `Done`. -/
def Obligations.EveryFailureIsLoggedOnce : Prop :=
  ∀ (n : Nat) (c : BitVec 3) (s : State), s.ready = true → (∀ m, m < n → (events m (accept c s)).ready = false) →
    (events n (accept c s)).ready = true →
    let t := events n (accept c s)
    t.status ∈ allowedStatus c ∧
    (if t.status = .stOk ∨ t.status = .stUid4 ∨ t.status = .stUid7 then
      logCount t.trace = logCount s.trace ∧ t.diagCode = .dgNone ∧ t.diagStep = .noStep ∧ t.diagTph = .t0
    else
      logCount t.trace = logCount s.trace + 1 ∧ t.diagCode ≠ .dgNone ∧
        ∃ tr, t.trace = .done t.status :: .log ⟨s.cfg.readerId, t.diagCode, t.diagStep, t.diagTph⟩ :: tr)

/-! ### Invariants that every step keeps -/

/-- The reset state meets the six invariants below. -/
def Obligations.ResetMeetsInvariants : Prop :=
  State.reset.PinInv ∧ State.reset.PosInv ∧ State.reset.CoarseInv ∧ State.reset.ResultInv ∧ State.reset.FrameInv ∧
    State.reset.remote.wf = true

/-- 10_state.md R29, R35: the sequence position and the pins. In particular, after every step: whenever `TPH = 0`, `NSS_Q` is
inactive; whenever `STEP` is not `RST_HOLD` or `RST_HIGH`, `RST_Q` is released; and while `READY = 1`, `STEP` and `TPH`
are 0. -/
def Obligations.PinInvariantKept : Prop :=
  ∀ s t : State, s.PinInv → step s = .next t →
    t.PinInv ∧
    (t.tph = .t0 → t.nssQ = t.cfg.pin.nssInactive) ∧
    (t.stepLbl ≠ .rstHold → t.stepLbl ≠ .rstHigh → t.rstQ = t.cfg.pin.rstRelease) ∧
    (t.ready = true → t.stepLbl = .noStep ∧ t.tph = .t0)

/-- The model's position stands only at lines of the pseudocode (log entry 3); no candidate for `DIAG_TPH` is remembered while
a command goes on (40_transport.md R104, 60_exceptions.md R210); `TW0` and `TP0` stay `CLOCK_BITS` wide (10_state.md R27). -/
def Obligations.PositionInvariantKept : Prop :=
  ∀ s t : State, s.PosInv → step s = .next t → t.PosInv

/-- 10_state.md R30, R31: inside a host command `STEP` is one of the command's own steps, and in BEGIN, RESET and
READ_CARD_SERIAL `COARSE` goes with it: each value is entered exactly when the step that R31 names completes, or when the
UID is written. -/
def Obligations.CoarseFollowsStep : Prop :=
  ∀ s t : State, s.CoarseInv → step s = .next t → t.CoarseInv

/-- 00_scope.md R5: each event of a running command is exactly one environment action or host event. -/
def Obligations.OneEventIsOneAction : Prop :=
  ∀ s : State, s.PosInv → s.ready = false → ∃ a, (event s).trace = a :: s.trace

/-- 10_state.md R23, 43_uid_resolution.md R190: the UID registers agree, and a UID is there exactly with the statuses
`ST_UID4` and `ST_UID7`. 70_reset_and_hazards.md R236: while a host command runs and does not close, the result registers
are as `Accept` cleared them; while it closes, too, the ports show them so. -/
def Obligations.ResultInvariantKept : Prop :=
  ∀ s t : State, s.ResultInv → step s = .next t →
    t.ResultInv ∧ (t.ready = false → t.hostView = ⟨0, 0, 0, 0, 0, 0, 0, t.coarse.num⟩)

/-- 30_encoding.md R87: every frame that a step writes begins with one of the nine opcodes. -/
def Obligations.OnlyListedFramesAreWritten : Prop :=
  ∀ s t : State, s.FrameInv → step s = .next t →
    t.FrameInv ∧ ∃ new, t.trace = new ++ s.trace ∧ ∀ tx ∈ busWrites new, listedFrame s.cfg tx = true

/-- 20_memory.md R50: what is known of the chip's spaces keeps its canonical form. -/
def Obligations.RemoteFormKept : Prop :=
  ∀ s t : State, s.remote.wf = true → step s = .next t → t.remote.wf = true

/-- 10_state.md R36, 00_scope.md R10: a step or an instruction never changes the configuration, and the observable trace only
grows. Nor does it write an input but to use it up: ENV's answers are taken from the front, `resetIn` goes off only, a
presented code is taken off the port only by an engine with `READY = 1`, and `runAhead` and `otherBusy` are the outside's
alone (log entries 2, 3, 14, 15, 18). -/
def Obligations.ConfigurationIsConstant : Prop :=
  ∀ s t : State, (step s = .next t ∨ ∃ i, exec i s = .next t) →
    t.cfg = s.cfg ∧ (∃ new, t.trace = new ++ s.trace) ∧
    (t.runAhead = s.runAhead ∧ t.otherBusy = s.otherBusy ∧ (s.resetIn = false → t.resetIn = false)) ∧
    (t.port = s.port ∨ s.ready = true ∧ t.port = none) ∧
    ∃ bs ts rs, s.busyIn = bs ++ t.busyIn ∧ s.nowIn = ts ++ t.nowIn ∧ s.rxIn = rs ++ t.rxIn

/-- 10_state.md R41: the engine keeps no copy of chip state that it uses: what is known of the chip has no influence on
any step but on that knowledge itself. -/
def Obligations.ChipKnowledgeIsNeverRead : Prop :=
  ∀ (s : State) (r : Remote),
    (∀ t, step s = .next t → ∃ r', step { s with remote := r } = .next { t with remote := r' }) ∧
    ∀ x, step s = .refused x → step { s with remote := r } = .refused x
end

