-- ==== Sys2Proof/Laws/Clock.lean ====
section
/-! SUPPORT. The clock (00_scope.md R11): what it shows, and that intervals do not depend on whether a time is the true one
or the one that the clock shows. -/

namespace Sys2Proof.Machine

theorem clockValue_lt (c : Cfg) (t : Time) : clockValue c t < 2 ^ c.time.clockBits :=
  Nat.mod_lt _ (Nat.two_pow_pos _)

@[simp] theorem clockValue_clockValue (c : Cfg) (t : Time) : clockValue c (clockValue c t) = clockValue c t :=
  Nat.mod_mod _ _

@[simp] theorem elapsed_clock_start (c : Cfg) (t0 t : Time) : elapsed c (clockValue c t0) t = elapsed c t0 t := by
  simp [elapsed]

@[simp] theorem elapsed_clock_end (c : Cfg) (t0 t : Time) : elapsed c t0 (clockValue c t) = elapsed c t0 t := by
  simp [elapsed, clockValue]

@[simp] theorem late_clock_start (c : Cfg) (t0 t : Time) (limit : Nat) :
    late c (clockValue c t0) t limit = late c t0 t limit := by
  simp [late]

@[simp] theorem late_clock_end (c : Cfg) (t0 t : Time) (limit : Nat) :
    late c t0 (clockValue c t) limit = late c t0 t limit := by
  simp [late]

theorem nextTime_cons {s : State} {t : Time} {ts : List Time} (h : s.nowIn = t :: ts) :
    s.nextTime = clockValue s.cfg t := by
  simp [State.nextTime, h]

end Sys2Proof.Machine
end

