-- ==== Sys2Proof/Laws/Decode.lean ====
section
/-! SUPPORT. Byte order, and the readings of single frames: what the decoder answers on the encoder's output, said once for
each shape. -/

namespace Sys2Proof

/-- `from_le32` undoes `le32` (00_scope.md R12). -/
theorem word32_le32 (v : Word) :
    word32 (v.setWidth 8) ((v >>> 8).setWidth 8) ((v >>> 16).setWidth 8) ((v >>> 24).setWidth 8) = v := by
  unfold word32
  ext j hj
  interval_cases j <;> simp

theorem decodeRegWrite_le32 (mk : Byte → Word → Instr) (a : Byte) (v : Word) :
    decodeRegWrite mk (a :: le32 v) 0 = .ok (mk a v) := by
  simp [decodeRegWrite, le32, word32_le32]

/-- `le32` of four bytes read (R12). -/
theorem le32_word32 (b0 b1 b2 b3 : Byte) : le32 (word32 b0 b1 b2 b3) = [b0, b1, b2, b3] := by
  unfold word32 le32
  congr 1
  · ext j hj; interval_cases j <;> simp
  congr 1
  · ext j hj; interval_cases j <;> simp
  congr 1
  · ext j hj; interval_cases j <;> simp
  congr 1
  · ext j hj; interval_cases j <;> simp

end Sys2Proof
end

