-- ==== Sys2Proof/Laws/State.lean ====
section
/-! SUPPORT. For every named update of the state, what each field holds afterwards, so that no proof unfolds the update. -/

namespace Sys2Proof.Machine

variable (s : State)

/-! ### `driveNss` -/

@[simp] theorem driveNss_cfg (l : Level) : (driveNss l s).cfg = s.cfg := rfl
@[simp] theorem driveNss_cb (l : Level) : (driveNss l s).cb = s.cb := rfl
@[simp] theorem driveNss_sak (l : Level) : (driveNss l s).sak = s.sak := rfl
@[simp] theorem driveNss_uidOut (l : Level) : (driveNss l s).uidOut = s.uidOut := rfl
@[simp] theorem driveNss_uidLen (l : Level) : (driveNss l s).uidLen = s.uidLen := rfl
@[simp] theorem driveNss_ver0 (l : Level) : (driveNss l s).ver0 = s.ver0 := rfl
@[simp] theorem driveNss_ver1 (l : Level) : (driveNss l s).ver1 = s.ver1 := rfl
@[simp] theorem driveNss_rxcnt (l : Level) : (driveNss l s).rxcnt = s.rxcnt := rfl
@[simp] theorem driveNss_rval (l : Level) : (driveNss l s).rval = s.rval := rfl
@[simp] theorem driveNss_tw0 (l : Level) : (driveNss l s).tw0 = s.tw0 := rfl
@[simp] theorem driveNss_tp0 (l : Level) : (driveNss l s).tp0 = s.tp0 := rfl
@[simp] theorem driveNss_txbuf (l : Level) : (driveNss l s).txbuf = s.txbuf := rfl
@[simp] theorem driveNss_rxbuf (l : Level) : (driveNss l s).rxbuf = s.rxbuf := rfl
@[simp] theorem driveNss_cmd (l : Level) : (driveNss l s).cmd = s.cmd := rfl
@[simp] theorem driveNss_stepLbl (l : Level) : (driveNss l s).stepLbl = s.stepLbl := rfl
@[simp] theorem driveNss_tph (l : Level) : (driveNss l s).tph = s.tph := rfl
@[simp] theorem driveNss_coarse (l : Level) : (driveNss l s).coarse = s.coarse := rfl
@[simp] theorem driveNss_ready (l : Level) : (driveNss l s).ready = s.ready := rfl
@[simp] theorem driveNss_status (l : Level) : (driveNss l s).status = s.status := rfl
@[simp] theorem driveNss_diagCode (l : Level) : (driveNss l s).diagCode = s.diagCode := rfl
@[simp] theorem driveNss_diagStep (l : Level) : (driveNss l s).diagStep = s.diagStep := rfl
@[simp] theorem driveNss_diagTph (l : Level) : (driveNss l s).diagTph = s.diagTph := rfl
@[simp] theorem driveNss_nssQ (l : Level) : (driveNss l s).nssQ = l := rfl
@[simp] theorem driveNss_rstQ (l : Level) : (driveNss l s).rstQ = s.rstQ := rfl
@[simp] theorem driveNss_cand (l : Level) : (driveNss l s).cand = s.cand := rfl
@[simp] theorem driveNss_rlen (l : Level) : (driveNss l s).rlen = s.rlen := rfl
@[simp] theorem driveNss_sub (l : Level) : (driveNss l s).sub = s.sub := rfl
@[simp] theorem driveNss_call (l : Level) : (driveNss l s).call = s.call := rfl
@[simp] theorem driveNss_result (l : Level) : (driveNss l s).result = s.result := rfl
@[simp] theorem driveNss_port (l : Level) : (driveNss l s).port = s.port := rfl
@[simp] theorem driveNss_resetIn (l : Level) : (driveNss l s).resetIn = s.resetIn := rfl
@[simp] theorem driveNss_otherBusy (l : Level) : (driveNss l s).otherBusy = s.otherBusy := rfl
@[simp] theorem driveNss_runAhead (l : Level) : (driveNss l s).runAhead = s.runAhead := rfl
@[simp] theorem driveNss_busyIn (l : Level) : (driveNss l s).busyIn = s.busyIn := rfl
@[simp] theorem driveNss_nowIn (l : Level) : (driveNss l s).nowIn = s.nowIn := rfl
@[simp] theorem driveNss_rxIn (l : Level) : (driveNss l s).rxIn = s.rxIn := rfl
@[simp] theorem driveNss_draws (l : Level) : (driveNss l s).draws = s.draws := rfl
@[simp] theorem driveNss_trace (l : Level) : (driveNss l s).trace = .pinWrite .nss l :: s.trace := rfl
@[simp] theorem driveNss_remote (l : Level) : (driveNss l s).remote = s.remote := rfl

/-! ### `driveRst` -/

@[simp] theorem driveRst_cfg (l : Level) : (driveRst l s).cfg = s.cfg := rfl
@[simp] theorem driveRst_cb (l : Level) : (driveRst l s).cb = s.cb := rfl
@[simp] theorem driveRst_sak (l : Level) : (driveRst l s).sak = s.sak := rfl
@[simp] theorem driveRst_uidOut (l : Level) : (driveRst l s).uidOut = s.uidOut := rfl
@[simp] theorem driveRst_uidLen (l : Level) : (driveRst l s).uidLen = s.uidLen := rfl
@[simp] theorem driveRst_ver0 (l : Level) : (driveRst l s).ver0 = s.ver0 := rfl
@[simp] theorem driveRst_ver1 (l : Level) : (driveRst l s).ver1 = s.ver1 := rfl
@[simp] theorem driveRst_rxcnt (l : Level) : (driveRst l s).rxcnt = s.rxcnt := rfl
@[simp] theorem driveRst_rval (l : Level) : (driveRst l s).rval = s.rval := rfl
@[simp] theorem driveRst_tw0 (l : Level) : (driveRst l s).tw0 = s.tw0 := rfl
@[simp] theorem driveRst_tp0 (l : Level) : (driveRst l s).tp0 = s.tp0 := rfl
@[simp] theorem driveRst_txbuf (l : Level) : (driveRst l s).txbuf = s.txbuf := rfl
@[simp] theorem driveRst_rxbuf (l : Level) : (driveRst l s).rxbuf = s.rxbuf := rfl
@[simp] theorem driveRst_cmd (l : Level) : (driveRst l s).cmd = s.cmd := rfl
@[simp] theorem driveRst_stepLbl (l : Level) : (driveRst l s).stepLbl = s.stepLbl := rfl
@[simp] theorem driveRst_tph (l : Level) : (driveRst l s).tph = s.tph := rfl
@[simp] theorem driveRst_coarse (l : Level) : (driveRst l s).coarse = s.coarse := rfl
@[simp] theorem driveRst_ready (l : Level) : (driveRst l s).ready = s.ready := rfl
@[simp] theorem driveRst_status (l : Level) : (driveRst l s).status = s.status := rfl
@[simp] theorem driveRst_diagCode (l : Level) : (driveRst l s).diagCode = s.diagCode := rfl
@[simp] theorem driveRst_diagStep (l : Level) : (driveRst l s).diagStep = s.diagStep := rfl
@[simp] theorem driveRst_diagTph (l : Level) : (driveRst l s).diagTph = s.diagTph := rfl
@[simp] theorem driveRst_nssQ (l : Level) : (driveRst l s).nssQ = s.nssQ := rfl
@[simp] theorem driveRst_rstQ (l : Level) : (driveRst l s).rstQ = l := rfl
@[simp] theorem driveRst_cand (l : Level) : (driveRst l s).cand = s.cand := rfl
@[simp] theorem driveRst_rlen (l : Level) : (driveRst l s).rlen = s.rlen := rfl
@[simp] theorem driveRst_sub (l : Level) : (driveRst l s).sub = s.sub := rfl
@[simp] theorem driveRst_call (l : Level) : (driveRst l s).call = s.call := rfl
@[simp] theorem driveRst_result (l : Level) : (driveRst l s).result = s.result := rfl
@[simp] theorem driveRst_port (l : Level) : (driveRst l s).port = s.port := rfl
@[simp] theorem driveRst_resetIn (l : Level) : (driveRst l s).resetIn = s.resetIn := rfl
@[simp] theorem driveRst_otherBusy (l : Level) : (driveRst l s).otherBusy = s.otherBusy := rfl
@[simp] theorem driveRst_runAhead (l : Level) : (driveRst l s).runAhead = s.runAhead := rfl
@[simp] theorem driveRst_busyIn (l : Level) : (driveRst l s).busyIn = s.busyIn := rfl
@[simp] theorem driveRst_nowIn (l : Level) : (driveRst l s).nowIn = s.nowIn := rfl
@[simp] theorem driveRst_rxIn (l : Level) : (driveRst l s).rxIn = s.rxIn := rfl
@[simp] theorem driveRst_draws (l : Level) : (driveRst l s).draws = s.draws := rfl
@[simp] theorem driveRst_trace (l : Level) : (driveRst l s).trace = .pinWrite .rst l :: s.trace := rfl
@[simp] theorem driveRst_remote (l : Level) : (driveRst l s).remote = if l = s.cfg.pin.rstAssert then Remote.unknown else s.remote := rfl

/-! ### `sampleBusy` -/

@[simp] theorem sampleBusy_cfg : (sampleBusy s).cfg = s.cfg := rfl
@[simp] theorem sampleBusy_cb : (sampleBusy s).cb = s.cb := rfl
@[simp] theorem sampleBusy_sak : (sampleBusy s).sak = s.sak := rfl
@[simp] theorem sampleBusy_uidOut : (sampleBusy s).uidOut = s.uidOut := rfl
@[simp] theorem sampleBusy_uidLen : (sampleBusy s).uidLen = s.uidLen := rfl
@[simp] theorem sampleBusy_ver0 : (sampleBusy s).ver0 = s.ver0 := rfl
@[simp] theorem sampleBusy_ver1 : (sampleBusy s).ver1 = s.ver1 := rfl
@[simp] theorem sampleBusy_rxcnt : (sampleBusy s).rxcnt = s.rxcnt := rfl
@[simp] theorem sampleBusy_rval : (sampleBusy s).rval = s.rval := rfl
@[simp] theorem sampleBusy_tw0 : (sampleBusy s).tw0 = s.tw0 := rfl
@[simp] theorem sampleBusy_tp0 : (sampleBusy s).tp0 = s.tp0 := rfl
@[simp] theorem sampleBusy_txbuf : (sampleBusy s).txbuf = s.txbuf := rfl
@[simp] theorem sampleBusy_rxbuf : (sampleBusy s).rxbuf = s.rxbuf := rfl
@[simp] theorem sampleBusy_cmd : (sampleBusy s).cmd = s.cmd := rfl
@[simp] theorem sampleBusy_stepLbl : (sampleBusy s).stepLbl = s.stepLbl := rfl
@[simp] theorem sampleBusy_tph : (sampleBusy s).tph = s.tph := rfl
@[simp] theorem sampleBusy_coarse : (sampleBusy s).coarse = s.coarse := rfl
@[simp] theorem sampleBusy_ready : (sampleBusy s).ready = s.ready := rfl
@[simp] theorem sampleBusy_status : (sampleBusy s).status = s.status := rfl
@[simp] theorem sampleBusy_diagCode : (sampleBusy s).diagCode = s.diagCode := rfl
@[simp] theorem sampleBusy_diagStep : (sampleBusy s).diagStep = s.diagStep := rfl
@[simp] theorem sampleBusy_diagTph : (sampleBusy s).diagTph = s.diagTph := rfl
@[simp] theorem sampleBusy_nssQ : (sampleBusy s).nssQ = s.nssQ := rfl
@[simp] theorem sampleBusy_rstQ : (sampleBusy s).rstQ = s.rstQ := rfl
@[simp] theorem sampleBusy_cand : (sampleBusy s).cand = s.cand := rfl
@[simp] theorem sampleBusy_rlen : (sampleBusy s).rlen = s.rlen := rfl
@[simp] theorem sampleBusy_sub : (sampleBusy s).sub = s.sub := rfl
@[simp] theorem sampleBusy_call : (sampleBusy s).call = s.call := rfl
@[simp] theorem sampleBusy_result : (sampleBusy s).result = s.result := rfl
@[simp] theorem sampleBusy_port : (sampleBusy s).port = s.port := rfl
@[simp] theorem sampleBusy_resetIn : (sampleBusy s).resetIn = s.resetIn := rfl
@[simp] theorem sampleBusy_otherBusy : (sampleBusy s).otherBusy = s.otherBusy := rfl
@[simp] theorem sampleBusy_runAhead : (sampleBusy s).runAhead = s.runAhead := rfl
@[simp] theorem sampleBusy_busyIn : (sampleBusy s).busyIn = s.busyIn.tail := rfl
@[simp] theorem sampleBusy_nowIn : (sampleBusy s).nowIn = s.nowIn := rfl
@[simp] theorem sampleBusy_rxIn : (sampleBusy s).rxIn = s.rxIn := rfl
@[simp] theorem sampleBusy_draws : (sampleBusy s).draws = if s.busyIn.isEmpty then s.draws + 1 else s.draws := rfl
@[simp] theorem sampleBusy_trace : (sampleBusy s).trace = .pinRead s.nextLevel :: s.trace := rfl
@[simp] theorem sampleBusy_remote : (sampleBusy s).remote = s.remote := rfl

/-! ### `readClock` -/

@[simp] theorem readClock_cfg : (readClock s).cfg = s.cfg := rfl
@[simp] theorem readClock_cb : (readClock s).cb = s.cb := rfl
@[simp] theorem readClock_sak : (readClock s).sak = s.sak := rfl
@[simp] theorem readClock_uidOut : (readClock s).uidOut = s.uidOut := rfl
@[simp] theorem readClock_uidLen : (readClock s).uidLen = s.uidLen := rfl
@[simp] theorem readClock_ver0 : (readClock s).ver0 = s.ver0 := rfl
@[simp] theorem readClock_ver1 : (readClock s).ver1 = s.ver1 := rfl
@[simp] theorem readClock_rxcnt : (readClock s).rxcnt = s.rxcnt := rfl
@[simp] theorem readClock_rval : (readClock s).rval = s.rval := rfl
@[simp] theorem readClock_tw0 : (readClock s).tw0 = s.tw0 := rfl
@[simp] theorem readClock_tp0 : (readClock s).tp0 = s.tp0 := rfl
@[simp] theorem readClock_txbuf : (readClock s).txbuf = s.txbuf := rfl
@[simp] theorem readClock_rxbuf : (readClock s).rxbuf = s.rxbuf := rfl
@[simp] theorem readClock_cmd : (readClock s).cmd = s.cmd := rfl
@[simp] theorem readClock_stepLbl : (readClock s).stepLbl = s.stepLbl := rfl
@[simp] theorem readClock_tph : (readClock s).tph = s.tph := rfl
@[simp] theorem readClock_coarse : (readClock s).coarse = s.coarse := rfl
@[simp] theorem readClock_ready : (readClock s).ready = s.ready := rfl
@[simp] theorem readClock_status : (readClock s).status = s.status := rfl
@[simp] theorem readClock_diagCode : (readClock s).diagCode = s.diagCode := rfl
@[simp] theorem readClock_diagStep : (readClock s).diagStep = s.diagStep := rfl
@[simp] theorem readClock_diagTph : (readClock s).diagTph = s.diagTph := rfl
@[simp] theorem readClock_nssQ : (readClock s).nssQ = s.nssQ := rfl
@[simp] theorem readClock_rstQ : (readClock s).rstQ = s.rstQ := rfl
@[simp] theorem readClock_cand : (readClock s).cand = s.cand := rfl
@[simp] theorem readClock_rlen : (readClock s).rlen = s.rlen := rfl
@[simp] theorem readClock_sub : (readClock s).sub = s.sub := rfl
@[simp] theorem readClock_call : (readClock s).call = s.call := rfl
@[simp] theorem readClock_result : (readClock s).result = s.result := rfl
@[simp] theorem readClock_port : (readClock s).port = s.port := rfl
@[simp] theorem readClock_resetIn : (readClock s).resetIn = s.resetIn := rfl
@[simp] theorem readClock_otherBusy : (readClock s).otherBusy = s.otherBusy := rfl
@[simp] theorem readClock_runAhead : (readClock s).runAhead = s.runAhead := rfl
@[simp] theorem readClock_busyIn : (readClock s).busyIn = s.busyIn := rfl
@[simp] theorem readClock_nowIn : (readClock s).nowIn = s.nowIn.tail := rfl
@[simp] theorem readClock_rxIn : (readClock s).rxIn = s.rxIn := rfl
@[simp] theorem readClock_draws : (readClock s).draws = if s.nowIn.isEmpty then s.draws + 1 else s.draws := rfl
@[simp] theorem readClock_trace : (readClock s).trace = .now s.nextTime :: s.trace := rfl
@[simp] theorem readClock_remote : (readClock s).remote = s.remote := rfl

/-! ### `busWrite` -/

@[simp] theorem busWrite_cfg (bs : List Byte) : (busWrite bs s).cfg = s.cfg := rfl
@[simp] theorem busWrite_cb (bs : List Byte) : (busWrite bs s).cb = s.cb := rfl
@[simp] theorem busWrite_sak (bs : List Byte) : (busWrite bs s).sak = s.sak := rfl
@[simp] theorem busWrite_uidOut (bs : List Byte) : (busWrite bs s).uidOut = s.uidOut := rfl
@[simp] theorem busWrite_uidLen (bs : List Byte) : (busWrite bs s).uidLen = s.uidLen := rfl
@[simp] theorem busWrite_ver0 (bs : List Byte) : (busWrite bs s).ver0 = s.ver0 := rfl
@[simp] theorem busWrite_ver1 (bs : List Byte) : (busWrite bs s).ver1 = s.ver1 := rfl
@[simp] theorem busWrite_rxcnt (bs : List Byte) : (busWrite bs s).rxcnt = s.rxcnt := rfl
@[simp] theorem busWrite_rval (bs : List Byte) : (busWrite bs s).rval = s.rval := rfl
@[simp] theorem busWrite_tw0 (bs : List Byte) : (busWrite bs s).tw0 = s.tw0 := rfl
@[simp] theorem busWrite_tp0 (bs : List Byte) : (busWrite bs s).tp0 = s.tp0 := rfl
@[simp] theorem busWrite_txbuf (bs : List Byte) : (busWrite bs s).txbuf = s.txbuf := rfl
@[simp] theorem busWrite_rxbuf (bs : List Byte) : (busWrite bs s).rxbuf = s.rxbuf := rfl
@[simp] theorem busWrite_cmd (bs : List Byte) : (busWrite bs s).cmd = s.cmd := rfl
@[simp] theorem busWrite_stepLbl (bs : List Byte) : (busWrite bs s).stepLbl = s.stepLbl := rfl
@[simp] theorem busWrite_tph (bs : List Byte) : (busWrite bs s).tph = s.tph := rfl
@[simp] theorem busWrite_coarse (bs : List Byte) : (busWrite bs s).coarse = s.coarse := rfl
@[simp] theorem busWrite_ready (bs : List Byte) : (busWrite bs s).ready = s.ready := rfl
@[simp] theorem busWrite_status (bs : List Byte) : (busWrite bs s).status = s.status := rfl
@[simp] theorem busWrite_diagCode (bs : List Byte) : (busWrite bs s).diagCode = s.diagCode := rfl
@[simp] theorem busWrite_diagStep (bs : List Byte) : (busWrite bs s).diagStep = s.diagStep := rfl
@[simp] theorem busWrite_diagTph (bs : List Byte) : (busWrite bs s).diagTph = s.diagTph := rfl
@[simp] theorem busWrite_nssQ (bs : List Byte) : (busWrite bs s).nssQ = s.nssQ := rfl
@[simp] theorem busWrite_rstQ (bs : List Byte) : (busWrite bs s).rstQ = s.rstQ := rfl
@[simp] theorem busWrite_cand (bs : List Byte) : (busWrite bs s).cand = s.cand := rfl
@[simp] theorem busWrite_rlen (bs : List Byte) : (busWrite bs s).rlen = s.rlen := rfl
@[simp] theorem busWrite_sub (bs : List Byte) : (busWrite bs s).sub = s.sub := rfl
@[simp] theorem busWrite_call (bs : List Byte) : (busWrite bs s).call = s.call := rfl
@[simp] theorem busWrite_result (bs : List Byte) : (busWrite bs s).result = s.result := rfl
@[simp] theorem busWrite_port (bs : List Byte) : (busWrite bs s).port = s.port := rfl
@[simp] theorem busWrite_resetIn (bs : List Byte) : (busWrite bs s).resetIn = s.resetIn := rfl
@[simp] theorem busWrite_otherBusy (bs : List Byte) : (busWrite bs s).otherBusy = s.otherBusy := rfl
@[simp] theorem busWrite_runAhead (bs : List Byte) : (busWrite bs s).runAhead = s.runAhead := rfl
@[simp] theorem busWrite_busyIn (bs : List Byte) : (busWrite bs s).busyIn = s.busyIn := rfl
@[simp] theorem busWrite_nowIn (bs : List Byte) : (busWrite bs s).nowIn = s.nowIn := rfl
@[simp] theorem busWrite_rxIn (bs : List Byte) : (busWrite bs s).rxIn = s.rxIn := rfl
@[simp] theorem busWrite_draws (bs : List Byte) : (busWrite bs s).draws = s.draws := rfl
@[simp] theorem busWrite_trace (bs : List Byte) : (busWrite bs s).trace = .busWrite bs :: s.trace := rfl
@[simp] theorem busWrite_remote (bs : List Byte) : (busWrite bs s).remote = s.remote := rfl

/-! ### `busRead` -/

@[simp] theorem busRead_cfg (n : Nat) : (busRead n s).cfg = s.cfg := rfl
@[simp] theorem busRead_cb (n : Nat) : (busRead n s).cb = s.cb := rfl
@[simp] theorem busRead_sak (n : Nat) : (busRead n s).sak = s.sak := rfl
@[simp] theorem busRead_uidOut (n : Nat) : (busRead n s).uidOut = s.uidOut := rfl
@[simp] theorem busRead_uidLen (n : Nat) : (busRead n s).uidLen = s.uidLen := rfl
@[simp] theorem busRead_ver0 (n : Nat) : (busRead n s).ver0 = s.ver0 := rfl
@[simp] theorem busRead_ver1 (n : Nat) : (busRead n s).ver1 = s.ver1 := rfl
@[simp] theorem busRead_rxcnt (n : Nat) : (busRead n s).rxcnt = s.rxcnt := rfl
@[simp] theorem busRead_rval (n : Nat) : (busRead n s).rval = s.rval := rfl
@[simp] theorem busRead_tw0 (n : Nat) : (busRead n s).tw0 = s.tw0 := rfl
@[simp] theorem busRead_tp0 (n : Nat) : (busRead n s).tp0 = s.tp0 := rfl
@[simp] theorem busRead_txbuf (n : Nat) : (busRead n s).txbuf = s.txbuf := rfl
@[simp] theorem busRead_rxbuf (n : Nat) : (busRead n s).rxbuf = s.nextBytes n := rfl
@[simp] theorem busRead_cmd (n : Nat) : (busRead n s).cmd = s.cmd := rfl
@[simp] theorem busRead_stepLbl (n : Nat) : (busRead n s).stepLbl = s.stepLbl := rfl
@[simp] theorem busRead_tph (n : Nat) : (busRead n s).tph = s.tph := rfl
@[simp] theorem busRead_coarse (n : Nat) : (busRead n s).coarse = s.coarse := rfl
@[simp] theorem busRead_ready (n : Nat) : (busRead n s).ready = s.ready := rfl
@[simp] theorem busRead_status (n : Nat) : (busRead n s).status = s.status := rfl
@[simp] theorem busRead_diagCode (n : Nat) : (busRead n s).diagCode = s.diagCode := rfl
@[simp] theorem busRead_diagStep (n : Nat) : (busRead n s).diagStep = s.diagStep := rfl
@[simp] theorem busRead_diagTph (n : Nat) : (busRead n s).diagTph = s.diagTph := rfl
@[simp] theorem busRead_nssQ (n : Nat) : (busRead n s).nssQ = s.nssQ := rfl
@[simp] theorem busRead_rstQ (n : Nat) : (busRead n s).rstQ = s.rstQ := rfl
@[simp] theorem busRead_cand (n : Nat) : (busRead n s).cand = s.cand := rfl
@[simp] theorem busRead_rlen (n : Nat) : (busRead n s).rlen = s.rlen := rfl
@[simp] theorem busRead_sub (n : Nat) : (busRead n s).sub = s.sub := rfl
@[simp] theorem busRead_call (n : Nat) : (busRead n s).call = s.call := rfl
@[simp] theorem busRead_result (n : Nat) : (busRead n s).result = s.result := rfl
@[simp] theorem busRead_port (n : Nat) : (busRead n s).port = s.port := rfl
@[simp] theorem busRead_resetIn (n : Nat) : (busRead n s).resetIn = s.resetIn := rfl
@[simp] theorem busRead_otherBusy (n : Nat) : (busRead n s).otherBusy = s.otherBusy := rfl
@[simp] theorem busRead_runAhead (n : Nat) : (busRead n s).runAhead = s.runAhead := rfl
@[simp] theorem busRead_busyIn (n : Nat) : (busRead n s).busyIn = s.busyIn := rfl
@[simp] theorem busRead_nowIn (n : Nat) : (busRead n s).nowIn = s.nowIn := rfl
@[simp] theorem busRead_rxIn (n : Nat) : (busRead n s).rxIn = s.rxIn.drop n := rfl
@[simp] theorem busRead_draws (n : Nat) : (busRead n s).draws = s.draws + (n - s.rxIn.length) := rfl
@[simp] theorem busRead_trace (n : Nat) : (busRead n s).trace = .busRead (s.nextBytes n) :: s.trace := rfl
@[simp] theorem busRead_remote (n : Nat) : (busRead n s).remote = s.remote := rfl

/-! ### `sleepFor` -/

@[simp] theorem sleepFor_cfg (ms : Nat) : (sleepFor ms s).cfg = s.cfg := rfl
@[simp] theorem sleepFor_cb (ms : Nat) : (sleepFor ms s).cb = s.cb := rfl
@[simp] theorem sleepFor_sak (ms : Nat) : (sleepFor ms s).sak = s.sak := rfl
@[simp] theorem sleepFor_uidOut (ms : Nat) : (sleepFor ms s).uidOut = s.uidOut := rfl
@[simp] theorem sleepFor_uidLen (ms : Nat) : (sleepFor ms s).uidLen = s.uidLen := rfl
@[simp] theorem sleepFor_ver0 (ms : Nat) : (sleepFor ms s).ver0 = s.ver0 := rfl
@[simp] theorem sleepFor_ver1 (ms : Nat) : (sleepFor ms s).ver1 = s.ver1 := rfl
@[simp] theorem sleepFor_rxcnt (ms : Nat) : (sleepFor ms s).rxcnt = s.rxcnt := rfl
@[simp] theorem sleepFor_rval (ms : Nat) : (sleepFor ms s).rval = s.rval := rfl
@[simp] theorem sleepFor_tw0 (ms : Nat) : (sleepFor ms s).tw0 = s.tw0 := rfl
@[simp] theorem sleepFor_tp0 (ms : Nat) : (sleepFor ms s).tp0 = s.tp0 := rfl
@[simp] theorem sleepFor_txbuf (ms : Nat) : (sleepFor ms s).txbuf = s.txbuf := rfl
@[simp] theorem sleepFor_rxbuf (ms : Nat) : (sleepFor ms s).rxbuf = s.rxbuf := rfl
@[simp] theorem sleepFor_cmd (ms : Nat) : (sleepFor ms s).cmd = s.cmd := rfl
@[simp] theorem sleepFor_stepLbl (ms : Nat) : (sleepFor ms s).stepLbl = s.stepLbl := rfl
@[simp] theorem sleepFor_tph (ms : Nat) : (sleepFor ms s).tph = s.tph := rfl
@[simp] theorem sleepFor_coarse (ms : Nat) : (sleepFor ms s).coarse = s.coarse := rfl
@[simp] theorem sleepFor_ready (ms : Nat) : (sleepFor ms s).ready = s.ready := rfl
@[simp] theorem sleepFor_status (ms : Nat) : (sleepFor ms s).status = s.status := rfl
@[simp] theorem sleepFor_diagCode (ms : Nat) : (sleepFor ms s).diagCode = s.diagCode := rfl
@[simp] theorem sleepFor_diagStep (ms : Nat) : (sleepFor ms s).diagStep = s.diagStep := rfl
@[simp] theorem sleepFor_diagTph (ms : Nat) : (sleepFor ms s).diagTph = s.diagTph := rfl
@[simp] theorem sleepFor_nssQ (ms : Nat) : (sleepFor ms s).nssQ = s.nssQ := rfl
@[simp] theorem sleepFor_rstQ (ms : Nat) : (sleepFor ms s).rstQ = s.rstQ := rfl
@[simp] theorem sleepFor_cand (ms : Nat) : (sleepFor ms s).cand = s.cand := rfl
@[simp] theorem sleepFor_rlen (ms : Nat) : (sleepFor ms s).rlen = s.rlen := rfl
@[simp] theorem sleepFor_sub (ms : Nat) : (sleepFor ms s).sub = s.sub := rfl
@[simp] theorem sleepFor_call (ms : Nat) : (sleepFor ms s).call = s.call := rfl
@[simp] theorem sleepFor_result (ms : Nat) : (sleepFor ms s).result = s.result := rfl
@[simp] theorem sleepFor_port (ms : Nat) : (sleepFor ms s).port = s.port := rfl
@[simp] theorem sleepFor_resetIn (ms : Nat) : (sleepFor ms s).resetIn = s.resetIn := rfl
@[simp] theorem sleepFor_otherBusy (ms : Nat) : (sleepFor ms s).otherBusy = s.otherBusy := rfl
@[simp] theorem sleepFor_runAhead (ms : Nat) : (sleepFor ms s).runAhead = s.runAhead := rfl
@[simp] theorem sleepFor_busyIn (ms : Nat) : (sleepFor ms s).busyIn = s.busyIn := rfl
@[simp] theorem sleepFor_nowIn (ms : Nat) : (sleepFor ms s).nowIn = s.nowIn := rfl
@[simp] theorem sleepFor_rxIn (ms : Nat) : (sleepFor ms s).rxIn = s.rxIn := rfl
@[simp] theorem sleepFor_draws (ms : Nat) : (sleepFor ms s).draws = s.draws := rfl
@[simp] theorem sleepFor_trace (ms : Nat) : (sleepFor ms s).trace = .sleep ms :: s.trace := rfl
@[simp] theorem sleepFor_remote (ms : Nat) : (sleepFor ms s).remote = s.remote := rfl

/-! ### `startXfer` -/

@[simp] theorem startXfer_cfg (x : Xfer) : (startXfer x s).cfg = s.cfg := rfl
@[simp] theorem startXfer_cb (x : Xfer) : (startXfer x s).cb = s.cb := rfl
@[simp] theorem startXfer_sak (x : Xfer) : (startXfer x s).sak = s.sak := rfl
@[simp] theorem startXfer_uidOut (x : Xfer) : (startXfer x s).uidOut = s.uidOut := rfl
@[simp] theorem startXfer_uidLen (x : Xfer) : (startXfer x s).uidLen = s.uidLen := rfl
@[simp] theorem startXfer_ver0 (x : Xfer) : (startXfer x s).ver0 = s.ver0 := rfl
@[simp] theorem startXfer_ver1 (x : Xfer) : (startXfer x s).ver1 = s.ver1 := rfl
@[simp] theorem startXfer_rxcnt (x : Xfer) : (startXfer x s).rxcnt = s.rxcnt := rfl
@[simp] theorem startXfer_rval (x : Xfer) : (startXfer x s).rval = s.rval := rfl
@[simp] theorem startXfer_tw0 (x : Xfer) : (startXfer x s).tw0 = s.tw0 := rfl
@[simp] theorem startXfer_tp0 (x : Xfer) : (startXfer x s).tp0 = s.tp0 := rfl
@[simp] theorem startXfer_txbuf (x : Xfer) : (startXfer x s).txbuf = x.tx := rfl
@[simp] theorem startXfer_rxbuf (x : Xfer) : (startXfer x s).rxbuf = s.rxbuf := rfl
@[simp] theorem startXfer_cmd (x : Xfer) : (startXfer x s).cmd = s.cmd := rfl
@[simp] theorem startXfer_stepLbl (x : Xfer) : (startXfer x s).stepLbl = s.stepLbl := rfl
@[simp] theorem startXfer_tph (x : Xfer) : (startXfer x s).tph = .t1 := rfl
@[simp] theorem startXfer_coarse (x : Xfer) : (startXfer x s).coarse = s.coarse := rfl
@[simp] theorem startXfer_ready (x : Xfer) : (startXfer x s).ready = s.ready := rfl
@[simp] theorem startXfer_status (x : Xfer) : (startXfer x s).status = s.status := rfl
@[simp] theorem startXfer_diagCode (x : Xfer) : (startXfer x s).diagCode = s.diagCode := rfl
@[simp] theorem startXfer_diagStep (x : Xfer) : (startXfer x s).diagStep = s.diagStep := rfl
@[simp] theorem startXfer_diagTph (x : Xfer) : (startXfer x s).diagTph = s.diagTph := rfl
@[simp] theorem startXfer_nssQ (x : Xfer) : (startXfer x s).nssQ = s.nssQ := rfl
@[simp] theorem startXfer_rstQ (x : Xfer) : (startXfer x s).rstQ = s.rstQ := rfl
@[simp] theorem startXfer_cand (x : Xfer) : (startXfer x s).cand = s.cand := rfl
@[simp] theorem startXfer_rlen (x : Xfer) : (startXfer x s).rlen = x.n := rfl
@[simp] theorem startXfer_sub (x : Xfer) : (startXfer x s).sub = .start := rfl
@[simp] theorem startXfer_call (x : Xfer) : (startXfer x s).call = s.call := rfl
@[simp] theorem startXfer_result (x : Xfer) : (startXfer x s).result = s.result := rfl
@[simp] theorem startXfer_port (x : Xfer) : (startXfer x s).port = s.port := rfl
@[simp] theorem startXfer_resetIn (x : Xfer) : (startXfer x s).resetIn = s.resetIn := rfl
@[simp] theorem startXfer_otherBusy (x : Xfer) : (startXfer x s).otherBusy = s.otherBusy := rfl
@[simp] theorem startXfer_runAhead (x : Xfer) : (startXfer x s).runAhead = s.runAhead := rfl
@[simp] theorem startXfer_busyIn (x : Xfer) : (startXfer x s).busyIn = s.busyIn := rfl
@[simp] theorem startXfer_nowIn (x : Xfer) : (startXfer x s).nowIn = s.nowIn := rfl
@[simp] theorem startXfer_rxIn (x : Xfer) : (startXfer x s).rxIn = s.rxIn := rfl
@[simp] theorem startXfer_draws (x : Xfer) : (startXfer x s).draws = s.draws := rfl
@[simp] theorem startXfer_trace (x : Xfer) : (startXfer x s).trace = s.trace := rfl
@[simp] theorem startXfer_remote (x : Xfer) : (startXfer x s).remote = s.remote := rfl

/-! ### `endCall` -/

@[simp] theorem endCall_cfg (r : OpResult) : (endCall r s).cfg = s.cfg := rfl
@[simp] theorem endCall_cb (r : OpResult) : (endCall r s).cb = s.cb := rfl
@[simp] theorem endCall_sak (r : OpResult) : (endCall r s).sak = s.sak := rfl
@[simp] theorem endCall_uidOut (r : OpResult) : (endCall r s).uidOut = s.uidOut := rfl
@[simp] theorem endCall_uidLen (r : OpResult) : (endCall r s).uidLen = s.uidLen := rfl
@[simp] theorem endCall_ver0 (r : OpResult) : (endCall r s).ver0 = s.ver0 := rfl
@[simp] theorem endCall_ver1 (r : OpResult) : (endCall r s).ver1 = s.ver1 := rfl
@[simp] theorem endCall_rxcnt (r : OpResult) : (endCall r s).rxcnt = s.rxcnt := rfl
@[simp] theorem endCall_rval (r : OpResult) : (endCall r s).rval = s.rval := rfl
@[simp] theorem endCall_tw0 (r : OpResult) : (endCall r s).tw0 = s.tw0 := rfl
@[simp] theorem endCall_tp0 (r : OpResult) : (endCall r s).tp0 = s.tp0 := rfl
@[simp] theorem endCall_txbuf (r : OpResult) : (endCall r s).txbuf = s.txbuf := rfl
@[simp] theorem endCall_rxbuf (r : OpResult) : (endCall r s).rxbuf = s.rxbuf := rfl
@[simp] theorem endCall_cmd (r : OpResult) : (endCall r s).cmd = s.cmd := rfl
@[simp] theorem endCall_stepLbl (r : OpResult) : (endCall r s).stepLbl = s.stepLbl := rfl
@[simp] theorem endCall_tph (r : OpResult) : (endCall r s).tph = .t0 := rfl
@[simp] theorem endCall_coarse (r : OpResult) : (endCall r s).coarse = s.coarse := rfl
@[simp] theorem endCall_ready (r : OpResult) : (endCall r s).ready = true := rfl
@[simp] theorem endCall_status (r : OpResult) : (endCall r s).status = s.status := rfl
@[simp] theorem endCall_diagCode (r : OpResult) : (endCall r s).diagCode = s.diagCode := rfl
@[simp] theorem endCall_diagStep (r : OpResult) : (endCall r s).diagStep = s.diagStep := rfl
@[simp] theorem endCall_diagTph (r : OpResult) : (endCall r s).diagTph = s.diagTph := rfl
@[simp] theorem endCall_nssQ (r : OpResult) : (endCall r s).nssQ = s.nssQ := rfl
@[simp] theorem endCall_rstQ (r : OpResult) : (endCall r s).rstQ = s.rstQ := rfl
@[simp] theorem endCall_cand (r : OpResult) : (endCall r s).cand = s.cand := rfl
@[simp] theorem endCall_rlen (r : OpResult) : (endCall r s).rlen = s.rlen := rfl
@[simp] theorem endCall_sub (r : OpResult) : (endCall r s).sub = .start := rfl
@[simp] theorem endCall_call (r : OpResult) : (endCall r s).call = none := rfl
@[simp] theorem endCall_result (r : OpResult) : (endCall r s).result = r := rfl
@[simp] theorem endCall_port (r : OpResult) : (endCall r s).port = s.port := rfl
@[simp] theorem endCall_resetIn (r : OpResult) : (endCall r s).resetIn = s.resetIn := rfl
@[simp] theorem endCall_otherBusy (r : OpResult) : (endCall r s).otherBusy = s.otherBusy := rfl
@[simp] theorem endCall_runAhead (r : OpResult) : (endCall r s).runAhead = s.runAhead := rfl
@[simp] theorem endCall_busyIn (r : OpResult) : (endCall r s).busyIn = s.busyIn := rfl
@[simp] theorem endCall_nowIn (r : OpResult) : (endCall r s).nowIn = s.nowIn := rfl
@[simp] theorem endCall_rxIn (r : OpResult) : (endCall r s).rxIn = s.rxIn := rfl
@[simp] theorem endCall_draws (r : OpResult) : (endCall r s).draws = s.draws := rfl
@[simp] theorem endCall_trace (r : OpResult) : (endCall r s).trace = s.trace := rfl
@[simp] theorem endCall_remote (r : OpResult) : (endCall r s).remote = s.remote := rfl

/-! ### `raise` -/

@[simp] theorem raise_cfg (d : DiagCode) : (raise d s).cfg = s.cfg := rfl
@[simp] theorem raise_cb (d : DiagCode) : (raise d s).cb = s.cb := rfl
@[simp] theorem raise_sak (d : DiagCode) : (raise d s).sak = s.sak := rfl
@[simp] theorem raise_uidOut (d : DiagCode) : (raise d s).uidOut = s.uidOut := rfl
@[simp] theorem raise_uidLen (d : DiagCode) : (raise d s).uidLen = s.uidLen := rfl
@[simp] theorem raise_ver0 (d : DiagCode) : (raise d s).ver0 = s.ver0 := rfl
@[simp] theorem raise_ver1 (d : DiagCode) : (raise d s).ver1 = s.ver1 := rfl
@[simp] theorem raise_rxcnt (d : DiagCode) : (raise d s).rxcnt = s.rxcnt := rfl
@[simp] theorem raise_rval (d : DiagCode) : (raise d s).rval = s.rval := rfl
@[simp] theorem raise_tw0 (d : DiagCode) : (raise d s).tw0 = s.tw0 := rfl
@[simp] theorem raise_tp0 (d : DiagCode) : (raise d s).tp0 = s.tp0 := rfl
@[simp] theorem raise_txbuf (d : DiagCode) : (raise d s).txbuf = s.txbuf := rfl
@[simp] theorem raise_rxbuf (d : DiagCode) : (raise d s).rxbuf = s.rxbuf := rfl
@[simp] theorem raise_cmd (d : DiagCode) : (raise d s).cmd = s.cmd := rfl
@[simp] theorem raise_stepLbl (d : DiagCode) : (raise d s).stepLbl = s.stepLbl := rfl
@[simp] theorem raise_tph (d : DiagCode) : (raise d s).tph = .t0 := rfl
@[simp] theorem raise_coarse (d : DiagCode) : (raise d s).coarse = s.coarse := rfl
@[simp] theorem raise_ready (d : DiagCode) : (raise d s).ready = s.ready := rfl
@[simp] theorem raise_status (d : DiagCode) : (raise d s).status = s.status := rfl
@[simp] theorem raise_diagCode (d : DiagCode) : (raise d s).diagCode = d := rfl
@[simp] theorem raise_diagStep (d : DiagCode) : (raise d s).diagStep = s.stepLbl := rfl
@[simp] theorem raise_diagTph (d : DiagCode) : (raise d s).diagTph = s.cand := rfl
@[simp] theorem raise_nssQ (d : DiagCode) : (raise d s).nssQ = s.nssQ := rfl
@[simp] theorem raise_rstQ (d : DiagCode) : (raise d s).rstQ = s.rstQ := rfl
@[simp] theorem raise_cand (d : DiagCode) : (raise d s).cand = .t0 := rfl
@[simp] theorem raise_rlen (d : DiagCode) : (raise d s).rlen = s.rlen := rfl
@[simp] theorem raise_sub (d : DiagCode) : (raise d s).sub = .log := rfl
@[simp] theorem raise_call (d : DiagCode) : (raise d s).call = s.call := rfl
@[simp] theorem raise_result (d : DiagCode) : (raise d s).result = s.result := rfl
@[simp] theorem raise_port (d : DiagCode) : (raise d s).port = s.port := rfl
@[simp] theorem raise_resetIn (d : DiagCode) : (raise d s).resetIn = s.resetIn := rfl
@[simp] theorem raise_otherBusy (d : DiagCode) : (raise d s).otherBusy = s.otherBusy := rfl
@[simp] theorem raise_runAhead (d : DiagCode) : (raise d s).runAhead = s.runAhead := rfl
@[simp] theorem raise_busyIn (d : DiagCode) : (raise d s).busyIn = s.busyIn := rfl
@[simp] theorem raise_nowIn (d : DiagCode) : (raise d s).nowIn = s.nowIn := rfl
@[simp] theorem raise_rxIn (d : DiagCode) : (raise d s).rxIn = s.rxIn := rfl
@[simp] theorem raise_draws (d : DiagCode) : (raise d s).draws = s.draws := rfl
@[simp] theorem raise_trace (d : DiagCode) : (raise d s).trace = s.trace := rfl
@[simp] theorem raise_remote (d : DiagCode) : (raise d s).remote = s.remote := rfl

/-! ### `logAbort` -/

@[simp] theorem logAbort_cfg : (logAbort s).cfg = s.cfg := rfl
@[simp] theorem logAbort_cb : (logAbort s).cb = s.cb := rfl
@[simp] theorem logAbort_sak : (logAbort s).sak = s.sak := rfl
@[simp] theorem logAbort_uidOut : (logAbort s).uidOut = Uid.zero := rfl
@[simp] theorem logAbort_uidLen : (logAbort s).uidLen = .len0 := rfl
@[simp] theorem logAbort_ver0 : (logAbort s).ver0 = 0 := rfl
@[simp] theorem logAbort_ver1 : (logAbort s).ver1 = 0 := rfl
@[simp] theorem logAbort_rxcnt : (logAbort s).rxcnt = s.rxcnt := rfl
@[simp] theorem logAbort_rval : (logAbort s).rval = s.rval := rfl
@[simp] theorem logAbort_tw0 : (logAbort s).tw0 = s.tw0 := rfl
@[simp] theorem logAbort_tp0 : (logAbort s).tp0 = s.tp0 := rfl
@[simp] theorem logAbort_txbuf : (logAbort s).txbuf = s.txbuf := rfl
@[simp] theorem logAbort_rxbuf : (logAbort s).rxbuf = s.rxbuf := rfl
@[simp] theorem logAbort_cmd : (logAbort s).cmd = s.cmd := rfl
@[simp] theorem logAbort_stepLbl : (logAbort s).stepLbl = s.stepLbl := rfl
@[simp] theorem logAbort_tph : (logAbort s).tph = s.tph := rfl
@[simp] theorem logAbort_coarse : (logAbort s).coarse = s.coarse := rfl
@[simp] theorem logAbort_ready : (logAbort s).ready = s.ready := rfl
@[simp] theorem logAbort_status : (logAbort s).status = s.status := rfl
@[simp] theorem logAbort_diagCode : (logAbort s).diagCode = s.diagCode := rfl
@[simp] theorem logAbort_diagStep : (logAbort s).diagStep = s.diagStep := rfl
@[simp] theorem logAbort_diagTph : (logAbort s).diagTph = s.diagTph := rfl
@[simp] theorem logAbort_nssQ : (logAbort s).nssQ = s.nssQ := rfl
@[simp] theorem logAbort_rstQ : (logAbort s).rstQ = s.rstQ := rfl
@[simp] theorem logAbort_cand : (logAbort s).cand = s.cand := rfl
@[simp] theorem logAbort_rlen : (logAbort s).rlen = s.rlen := rfl
@[simp] theorem logAbort_sub : (logAbort s).sub = .fin (abortStatus s.cmd) := rfl
@[simp] theorem logAbort_call : (logAbort s).call = s.call := rfl
@[simp] theorem logAbort_result : (logAbort s).result = s.result := rfl
@[simp] theorem logAbort_port : (logAbort s).port = s.port := rfl
@[simp] theorem logAbort_resetIn : (logAbort s).resetIn = s.resetIn := rfl
@[simp] theorem logAbort_otherBusy : (logAbort s).otherBusy = s.otherBusy := rfl
@[simp] theorem logAbort_runAhead : (logAbort s).runAhead = s.runAhead := rfl
@[simp] theorem logAbort_busyIn : (logAbort s).busyIn = s.busyIn := rfl
@[simp] theorem logAbort_nowIn : (logAbort s).nowIn = s.nowIn := rfl
@[simp] theorem logAbort_rxIn : (logAbort s).rxIn = s.rxIn := rfl
@[simp] theorem logAbort_draws : (logAbort s).draws = s.draws := rfl
@[simp] theorem logAbort_trace : (logAbort s).trace = .log ⟨s.cfg.readerId, s.diagCode, s.diagStep, s.diagTph⟩ :: s.trace := rfl
@[simp] theorem logAbort_remote : (logAbort s).remote = s.remote := rfl

/-! ### `done` -/

@[simp] theorem done_cfg (st : Status) : (done st s).cfg = s.cfg := rfl
@[simp] theorem done_cb (st : Status) : (done st s).cb = s.cb := rfl
@[simp] theorem done_sak (st : Status) : (done st s).sak = s.sak := rfl
@[simp] theorem done_uidOut (st : Status) : (done st s).uidOut = s.uidOut := rfl
@[simp] theorem done_uidLen (st : Status) : (done st s).uidLen = s.uidLen := rfl
@[simp] theorem done_ver0 (st : Status) : (done st s).ver0 = s.ver0 := rfl
@[simp] theorem done_ver1 (st : Status) : (done st s).ver1 = s.ver1 := rfl
@[simp] theorem done_rxcnt (st : Status) : (done st s).rxcnt = s.rxcnt := rfl
@[simp] theorem done_rval (st : Status) : (done st s).rval = s.rval := rfl
@[simp] theorem done_tw0 (st : Status) : (done st s).tw0 = s.tw0 := rfl
@[simp] theorem done_tp0 (st : Status) : (done st s).tp0 = s.tp0 := rfl
@[simp] theorem done_txbuf (st : Status) : (done st s).txbuf = s.txbuf := rfl
@[simp] theorem done_rxbuf (st : Status) : (done st s).rxbuf = s.rxbuf := rfl
@[simp] theorem done_cmd (st : Status) : (done st s).cmd = s.cmd := rfl
@[simp] theorem done_stepLbl (st : Status) : (done st s).stepLbl = .noStep := rfl
@[simp] theorem done_tph (st : Status) : (done st s).tph = .t0 := rfl
@[simp] theorem done_coarse (st : Status) : (done st s).coarse = .csDone := rfl
@[simp] theorem done_ready (st : Status) : (done st s).ready = true := rfl
@[simp] theorem done_status (st : Status) : (done st s).status = st := rfl
@[simp] theorem done_diagCode (st : Status) : (done st s).diagCode = s.diagCode := rfl
@[simp] theorem done_diagStep (st : Status) : (done st s).diagStep = s.diagStep := rfl
@[simp] theorem done_diagTph (st : Status) : (done st s).diagTph = s.diagTph := rfl
@[simp] theorem done_nssQ (st : Status) : (done st s).nssQ = s.nssQ := rfl
@[simp] theorem done_rstQ (st : Status) : (done st s).rstQ = s.rstQ := rfl
@[simp] theorem done_cand (st : Status) : (done st s).cand = s.cand := rfl
@[simp] theorem done_rlen (st : Status) : (done st s).rlen = s.rlen := rfl
@[simp] theorem done_sub (st : Status) : (done st s).sub = .start := rfl
@[simp] theorem done_call (st : Status) : (done st s).call = none := rfl
@[simp] theorem done_result (st : Status) : (done st s).result = s.result := rfl
@[simp] theorem done_port (st : Status) : (done st s).port = s.port := rfl
@[simp] theorem done_resetIn (st : Status) : (done st s).resetIn = s.resetIn := rfl
@[simp] theorem done_otherBusy (st : Status) : (done st s).otherBusy = s.otherBusy := rfl
@[simp] theorem done_runAhead (st : Status) : (done st s).runAhead = s.runAhead := rfl
@[simp] theorem done_busyIn (st : Status) : (done st s).busyIn = s.busyIn := rfl
@[simp] theorem done_nowIn (st : Status) : (done st s).nowIn = s.nowIn := rfl
@[simp] theorem done_rxIn (st : Status) : (done st s).rxIn = s.rxIn := rfl
@[simp] theorem done_draws (st : Status) : (done st s).draws = s.draws := rfl
@[simp] theorem done_trace (st : Status) : (done st s).trace = .done st :: s.trace := rfl
@[simp] theorem done_remote (st : Status) : (done st s).remote = s.remote := rfl

/-! What the host reads, by `READY`. -/

theorem hostView_of_busy (h : s.ready = false) : s.hostView = clearedView s.coarse.num := by
  simp [State.hostView, h]

theorem hostView_of_ready (h : s.ready = true) :
    s.hostView = ⟨s.status.num, s.uidLen.num, s.uidOut.packed, s.ver1 ++ s.ver0, s.diagCode.num, s.diagStep.num,
      s.diagTph.num, s.coarse.num⟩ := by
  simp [State.hostView, h]

end Sys2Proof.Machine
end

