-- ==== Sys2Proof/Laws/Drive.lean ====
section
/-! SUPPORT. What a step, an instruction, a drive and `runOn` can do, each said once: later proofs cite these and do not
unfold `step`, `exec`, `drive` or `runOn`. -/

namespace Sys2Proof.Machine

/-! ### drive -/

theorem drive_of_ready {s : State} (k : Nat) (h : s.ready = true) : drive k s = s := by
  cases k <;> simp [drive, h]

theorem drive_of_unanswered {s : State} (k : Nat) (h : answered s = false) : drive k s = s := by
  cases k <;> simp [drive, h]

theorem drive_succ {s : State} (k : Nat) (hb : s.ready = false) (ha : answered s = true) :
    drive (k + 1) s = drive k (event s) := by
  simp [drive, hb, ha]

/-- A drive of `j + k` events is a drive of `j` and then one of `k`. -/
theorem drive_add (j k : Nat) (s : State) : drive (j + k) s = drive k (drive j s) := by
  induction j generalizing s with
  | zero => simp [drive]
  | succ j ih =>
    rw [Nat.succ_add]
    by_cases h : (!s.ready && answered s) = true
    · simp [drive, h, ih]
    · have hk : drive k s = s := by cases k <;> simp [drive, h]
      simp [drive, h, hk]

/-- A property that every event of a running command keeps is kept by a drive. -/
theorem drive_keeps {P : State → Prop} (hP : ∀ s, s.ready = false → P s → P (event s)) (k : Nat) {s : State}
    (h : P s) : P (drive k s) := by
  induction k generalizing s with
  | zero => exact h
  | succ k ih =>
    by_cases hb : s.ready = false
    · by_cases ha : answered s = true
      · rw [drive_succ k hb ha]; exact ih (hP s hb h)
      · rw [drive_of_unanswered _ (by simpa using ha)]; exact h
    · rw [drive_of_ready _ (by simpa using hb)]; exact h

/-- A drive is some number of events, each of a command that runs and whose next answer is known. -/
theorem drive_eq_events (k : Nat) (s : State) :
    ∃ n, n ≤ k ∧ drive k s = events n s ∧ ∀ m, m < n → (events m s).ready = false ∧ answered (events m s) = true := by
  induction k generalizing s with
  | zero => exact ⟨0, Nat.le_refl _, rfl, fun m h => absurd h (Nat.not_lt_zero m)⟩
  | succ k ih =>
    by_cases h : s.ready = false ∧ answered s = true
    · obtain ⟨n, hn, e, hm⟩ := ih (event s)
      refine ⟨n + 1, Nat.succ_le_succ hn, by rw [drive_succ k h.1 h.2, e]; rfl, ?_⟩
      intro m hlt
      cases m with
      | zero => exact h
      | succ m => exact hm m (Nat.lt_of_succ_lt_succ hlt)
    · refine ⟨0, Nat.zero_le _, ?_, fun m h => absurd h (Nat.not_lt_zero m)⟩
      rcases Classical.not_and_iff_not_or_not.mp h with h | h
      · exact drive_of_ready _ (by simpa using h)
      · exact drive_of_unanswered _ (by simpa using h)

/-- `n` events lead from `s` to `t`, whatever fuel is left over: the form in which runs are composed. -/
def Reaches (n : Nat) (s t : State) : Prop :=
  ∀ k, drive (k + n) s = drive k t

theorem Reaches.refl (s : State) : Reaches 0 s s := fun _ => rfl

theorem Reaches.trans {m n : Nat} {s t u : State} (h1 : Reaches m s t) (h2 : Reaches n t u) :
    Reaches (n + m) s u := fun k => by rw [← Nat.add_assoc, h1, h2]

theorem Reaches.event {s : State} (hb : s.ready = false) (ha : answered s = true) :
    Reaches 1 s (event s) := fun k => drive_succ k hb ha

/-! ### runOn -/

/-- Without `runAhead` a step does nothing after its own event. -/
theorem runOn_of_single {s : State} (h : s.runAhead = false) : runOn s = s := by
  simp [runOn, h]

theorem runOn_of_ahead {s : State} (h : s.runAhead = true) : runOn s = drive (fuel s) s := by
  simp [runOn, h]

/-- `runOn` is a drive, of no events without `runAhead`. -/
theorem runOn_eq_drive (s : State) : runOn s = drive (if s.runAhead then fuel s else 0) s := by
  cases h : s.runAhead <;> simp [runOn, h, drive]

/-- A property that every event of a running command keeps is kept by `runOn`. -/
theorem runOn_keeps {P : State → Prop} (hP : ∀ s, s.ready = false → P s → P (event s)) {s : State} (h : P s) :
    P (runOn s) :=
  runOn_eq_drive s ▸ drive_keeps hP _ h

/-- `runOn` is some number of events, none without `runAhead`, each of a command that runs and whose next answer is
known. -/
theorem runOn_eq_events (s : State) :
    ∃ n, runOn s = events n s ∧ (s.runAhead = false → n = 0) ∧
      ∀ m, m < n → (events m s).ready = false ∧ answered (events m s) = true := by
  obtain ⟨n, hn, e, hm⟩ := drive_eq_events (if s.runAhead then fuel s else 0) s
  exact ⟨n, (runOn_eq_drive s).trans e, fun h => by simpa [h] using hn, hm⟩

/-- A run that ends a command within the fuel is what `runOn` answers. -/
theorem Reaches.runOn {n : Nat} {s t : State} (h : Reaches n s t) (ha : s.runAhead = true) (ht : t.ready = true)
    (hn : n ≤ fuel s) : runOn s = t := by
  obtain ⟨k, hk⟩ := Nat.exists_eq_add_of_le hn
  rw [runOn_of_ahead ha, hk, Nat.add_comm, h k, drive_of_ready _ ht]

/-- Accepting a command and launching a single operation leave the input `runAhead`. -/
theorem enterStage_runAhead (g : Stage) (s : State) : (enterStage g s).runAhead = s.runAhead := by
  cases g <;> rfl

theorem accept_runAhead (c : BitVec 3) (s : State) : (accept c s).runAhead = s.runAhead := by
  unfold accept
  split
  · exact enterStage_runAhead _ _
  · rfl

theorem launch_runAhead (gs : List Stage) (s : State) : (launch gs s).runAhead = s.runAhead := by
  cases gs with
  | nil => rfl
  | cons g gs => exact enterStage_runAhead _ _

/-! ### exec and step -/

/-- Every instruction is a host command or a single operation with stages of its own kind. -/
theorem exec_cases (i : Instr) (s : State) :
    (∃ c, exec i s = hostCommand c s) ∨
      ∃ gs, gs ≠ [] ∧ gs.all Stage.alone = true ∧ exec i s = operation gs s := by
  cases i
  case beginCmd => exact .inl ⟨0, rfl⟩
  case resetCmd => exact .inl ⟨1, rfl⟩
  case getFirmware => exact .inl ⟨2, rfl⟩
  case getProductVersion => exact .inl ⟨3, rfl⟩
  case getEepromVersion => exact .inl ⟨4, rfl⟩
  case readCardSerial => exact .inl ⟨5, rfl⟩
  case reserved110 => exact .inl ⟨6, rfl⟩
  case reserved111 => exact .inl ⟨7, rfl⟩
  all_goals exact .inr ⟨_, by simp, rfl, rfl⟩

/-- An instruction answers a next state, always: where a command runs, the state as it was; else the run of an accepted
command or of a single operation. -/
theorem exec_next (i : Instr) (s : State) :
    ∃ t, exec i s = .next t ∧
      ((s.ready = false ∧ t = s) ∨ (s.ready = true ∧ ∃ c, t = runOn (accept c s)) ∨
        (s.ready = true ∧ ∃ gs, gs ≠ [] ∧ gs.all Stage.alone = true ∧ t = runOn (launch gs s))) := by
  rcases exec_cases i s with ⟨c, e⟩ | ⟨gs, hne, ha, e⟩
  · cases h : s.ready
    · exact ⟨s, by simp [e, hostCommand, h], .inl ⟨rfl, rfl⟩⟩
    · exact ⟨runOn (accept c s), by simp [e, hostCommand, h], .inr (.inl ⟨rfl, c, rfl⟩)⟩
  · cases h : s.ready
    · exact ⟨s, by simp [e, operation, h], .inl ⟨rfl, rfl⟩⟩
    · exact ⟨runOn (launch gs s), by simp [e, operation, h], .inr (.inr ⟨rfl, gs, hne, ha, rfl⟩)⟩

/-- Everything a step can answer with a next state. -/
theorem step_cases {s t : State} (h : step s = .next t) :
    (s.resetIn = true ∧ t = hwReset s) ∨ (s.ready = true ∧ t = s) ∨
      (s.ready = true ∧ ∃ c, t = runOn (accept c s)) ∨
      (s.ready = true ∧ ∃ gs, gs ≠ [] ∧ gs.all Stage.alone = true ∧ t = runOn (launch gs s)) ∨
      (s.ready = false ∧ t = runOn (event s)) := by
  unfold step at h
  split at h
  · rename_i hr; cases h; exact .inl ⟨hr, rfl⟩
  · split at h
    · rename_i hr
      split at h
      · rename_i p _
        split at h
        · cases h
        · unfold runPort at h
          split at h
          · rename_i i _
            obtain ⟨u, hu, hc⟩ := exec_next i s
            rw [hu] at h; cases h
            rcases hc with ⟨hf, _⟩ | hc | hc
            · rw [hr] at hf; cases hf
            · exact .inr (.inr (.inl hc))
            · exact .inr (.inr (.inr (.inl hc)))
          · cases h
      · cases h; exact .inr (.inl ⟨hr, rfl⟩)
    · rename_i hr
      split at h
      · cases h
      · cases h; exact .inr (.inr (.inr (.inr ⟨by simpa using hr, rfl⟩)))

/-- A property that engine reset, Accept, the launch of a single operation and every event keep is kept by every step. -/
theorem step_keeps {P : State → Prop} (hreset : ∀ s, P s → P (hwReset s))
    (haccept : ∀ c s, s.ready = true → P s → P (accept c s))
    (hlaunch : ∀ gs s, gs ≠ [] → gs.all Stage.alone = true → s.ready = true → P s → P (launch gs s))
    (hevent : ∀ s, s.ready = false → P s → P (event s)) {s t : State} (h : step s = .next t) (hs : P s) : P t := by
  rcases step_cases h with ⟨_, rfl⟩ | ⟨_, rfl⟩ | ⟨hr, c, rfl⟩ | ⟨hr, gs, hne, ha, rfl⟩ | ⟨hr, rfl⟩
  · exact hreset s hs
  · exact hs
  · exact runOn_keeps hevent (haccept c s hr hs)
  · exact runOn_keeps hevent (hlaunch gs s hne ha hr hs)
  · exact runOn_keeps hevent (hevent s hr hs)

end Sys2Proof.Machine
end

