-- ==== Sys2Proof/Laws/Fuel.lean ====
section
/-! SUPPORT. The fuel of `runOn` is enough: a run stops only when the command is done or when the next answer of ENV is
not known. Each event either uses an answer up or lowers a rank. -/

namespace Sys2Proof.Machine

/-- The answers left. -/
def answersLeft (s : State) : Nat :=
  s.busyIn.length + s.nowIn.length + s.rxIn.length

/-- The stages left of a single operation. -/
def callLength (s : State) : Nat :=
  (s.call.getD []).length

/-- How many steps without an answer can follow in a host command. -/
def stepRank : StepLabel → Nat
  | .beginNss => 8
  | .beginRst => 7
  | .rstLow => 6
  | .rstHold => 5
  | .rstHigh => 4
  | .rstSettle => 3
  | .reqaWait | .ac1Wait | .selWait | .ac2Wait | .noStep => 2
  | _ => 0

/-- The rank that a step with no answer leaves for its successor; any other step leaves the largest. -/
def nextRank (l : StepLabel) : Nat :=
  match stepRank l with
  | 0 => 8
  | r + 1 => r

/-- The rank of a stage that is about to begin. -/
def stageRank (s : State) : Nat :=
  match curStage s with
  | .nothing => 2
  | .pin _ _ | .sleep _ => if s.call = none then stepRank s.stepLbl else 8
  | .xfer _ _ => 1
  | .poll _ _ _ => 0

/-- The rank of a label whose first line comes next. -/
def startRank (s : State) : Nat :=
  match s.tph with
  | .t0 => stageRank s
  | .t1 | .t4 | .t6 | .t10 | .t12 => 0
  | .t2 | .t8 => 2
  | .t3 | .t5 | .t9 | .t11 => 1
  | .t7 | .t13 => 12

/-- The events that can come before the next answer is needed, but for the stages left. -/
def rank (s : State) : Nat :=
  match s.sub with
  | .start => startRank s
  | .sample => if needsLevel s then 0 else startRank s + 1
  | .time => if needsTime s then 0 else startRank s + 1
  | .release => 3
  | .log => 2
  | .fin _ => 1

theorem stageRank_le (s : State) : stageRank s ≤ 8 := by
  unfold stageRank
  split
  · decide
  · split
    · cases s.stepLbl <;> simp [stepRank]
    · decide
  · split
    · cases s.stepLbl <;> simp [stepRank]
    · decide
  · decide
  · decide

theorem startRank_le (s : State) : startRank s ≤ 12 := by
  have := stageRank_le s
  unfold startRank
  split <;> omega

theorem rank_le (s : State) : rank s ≤ 13 := by
  have := startRank_le s
  unfold rank
  split
  · omega
  · split <;> omega
  · split <;> omega
  · omega
  · omega
  · omega

/-- Where a state can go without using an answer up: the command is done, or the answers are as they were, no stage has
been added, and the rank is at most `r`, or a stage is gone. -/
def Sinks (r : Nat) (s t : State) : Prop :=
  t.ready = true ∨ answersLeft t = answersLeft s ∧
    (callLength t = callLength s ∧ rank t ≤ r ∨ callLength t < callLength s)

theorem rank_enterStage_host (g : Stage) (s : State) (h : s.call = none)
    (hg : g = stageOf s.cfg s.cb s.cmd s.stepLbl) : rank (enterStage g s) ≤ stepRank s.stepLbl := by
  subst hg
  cases hl : s.stepLbl <;> simp [stageOf, enterStage, startXfer, rank, startRank, stageRank, curStage, h, hl, stepRank]

theorem nextStep_rank {cmd : BitVec 3} {l l' : StepLabel} (h : nextStep cmd l = some l') : stepRank l' ≤ nextRank l := by
  unfold nextStep at h
  split at h
  · cases l <;> simp [beginNext, resetNext] at h <;> subst h <;> decide
  · cases l <;> simp [resetNext] at h <;> subst h <;> decide
  · cases l <;> simp [readNext, resetNext] at h <;> subst h <;> decide
  · cases h

theorem sinks_advance (s : State) (h : s.call = none) : Sinks (nextRank s.stepLbl) s (advance s) := by
  unfold advance
  split
  · rename_i l hl
    refine .inr ⟨?_, .inl ⟨?_, ?_⟩⟩
    · unfold enterStep; cases stageOf s.cfg s.cb s.cmd l <;> rfl
    · unfold enterStep; cases stageOf s.cfg s.cb s.cmd l <;> rfl
    · exact Nat.le_trans (rank_enterStage_host _ { s with stepLbl := l } h rfl) (nextStep_rank hl)
  · refine .inr ⟨rfl, .inl ⟨rfl, ?_⟩⟩
    show 1 ≤ _
    cases s.stepLbl <;> decide

theorem sinks_nextStage_call {s : State} (h : s.call ≠ none) : Sinks 0 s (nextStage s) := by
  unfold nextStage
  split
  · rename_i h0; exact absurd h0 h
  · rename_i gs h
    cases gs with
    | nil => exact .inl rfl
    | cons g gs =>
      cases gs with
      | nil => exact .inl rfl
      | cons g' gs =>
        refine .inr ⟨?_, .inr ?_⟩
        · simp only [enterCall, List.tail]; cases g' <;> rfl
        · simp only [enterCall, List.tail, callLength, h]; cases g' <;> simp [enterStage, startXfer]

theorem Sinks.weaken {r r' : Nat} {s t : State} (h : Sinks r s t) (hr : r ≤ r') : Sinks r' s t := by
  rcases h with h1 | ⟨h1, h2 | h2⟩
  · exact .inl h1
  · exact .inr ⟨h1, .inl ⟨h2.1, Nat.le_trans h2.2 hr⟩⟩
  · exact .inr ⟨h1, .inr h2⟩

theorem sinks_nextStage (s : State) : Sinks 8 s (nextStage s) := by
  by_cases h : s.call = none
  · have e : nextStage s = advance s := by simp only [nextStage, h]
    rw [e]; exact (sinks_advance s h).weaken (by cases s.stepLbl <;> decide)
  · exact (sinks_nextStage_call h).weaken (by decide)

theorem sinks_failWith (d : DiagCode) (s : State) : Sinks 2 s (failWith d s) := by
  unfold failWith
  split
  · exact .inr ⟨rfl, .inl ⟨rfl, Nat.le_refl 2⟩⟩
  · exact .inl rfl

theorem sinks_afterPost (r : PostRes) (s : State) : Sinks 9 s (afterPost r s) := by
  cases r with
  | ok => exact (sinks_nextStage s).weaken (by decide)
  | okState v =>
    simp only [afterPost]
    split
    · rename_i h; exact (sinks_advance s h).weaken (by cases s.stepLbl <;> decide)
    · exact .inl rfl
  | fail d => exact (sinks_failWith d s).weaken (by decide)
  | again =>
    refine .inr ⟨rfl, .inl ⟨rfl, ?_⟩⟩
    have := stageRank_le { s with tph := .t0, sub := .time }
    show (if needsTime _ = true then 0 else stageRank _ + 1) ≤ 9
    split
    · exact Nat.zero_le _
    · exact Nat.succ_le_succ this
  | finish st => exact .inr ⟨rfl, .inl ⟨rfl, Nat.le_trans (Nat.le_refl 1) (by decide)⟩⟩
  | stop =>
    simp only [afterPost]
    split
    · rename_i h; exact (sinks_advance s h).weaken (by cases s.stepLbl <;> decide)
    · exact .inl rfl

theorem postState_left (p : Post) (s : State) :
    answersLeft (postState p s) = answersLeft s ∧ callLength (postState p s) = callLength s := by
  cases p
  case countSelect => simp only [postState]; split <;> exact ⟨rfl, rfl⟩
  case level2Done => simp only [postState]; split <;> exact ⟨rfl, rfl⟩
  case sakDecide => simp only [postState]; split <;> exact ⟨rfl, rfl⟩
  all_goals exact ⟨rfl, rfl⟩

theorem Sinks.of_left {r : Nat} {s s' t : State} (h : Sinks r s t) (ha : answersLeft s = answersLeft s')
    (hc : callLength s = callLength s') : Sinks r s' t := by
  rcases h with h1 | ⟨h1, h2 | h2⟩
  · exact .inl h1
  · exact .inr ⟨h1.trans ha, .inl ⟨h2.1.trans hc, h2.2⟩⟩
  · exact .inr ⟨h1.trans ha, .inr (hc ▸ h2)⟩

theorem sinks_xferDone (s : State) : Sinks 9 s (xferDone s) := by
  unfold xferDone
  refine (sinks_afterPost _ _).of_left ?_ ?_
  · exact (postState_left _ _).1
  · exact (postState_left _ _).2

theorem sinks_xferFail (s : State) : Sinks 2 s (xferFail s) := by
  unfold xferFail
  exact (sinks_failWith _ _).of_left rfl rfl

/-- The potential of a running command. -/
def potential (s : State) : Nat :=
  16 * (answersLeft s + callLength s) + rank s

/-- A sink from a state that has used an answer up lowers the potential. -/
theorem Sinks.used {r : Nat} {s s' t : State} (h : Sinks r s' t) (ha : answersLeft s' < answersLeft s)
    (hc : callLength s' = callLength s) : t.ready = true ∨ potential t < potential s := by
  have h0 := rank_le t
  unfold potential
  rcases h with h1 | ⟨h1, h2 | h2⟩
  · exact .inl h1
  · right; have := h2.1; have := h2.2; omega
  · right; omega

/-- A sink whose rank falls lowers the potential. -/
theorem Sinks.falls {r : Nat} {s t : State} (h : Sinks r s t) (hr : r < rank s) :
    t.ready = true ∨ potential t < potential s := by
  have h0 := rank_le t
  unfold potential
  rcases h with h1 | ⟨h1, h2 | h2⟩
  · exact .inl h1
  · right; have := h2.1; have := h2.2; omega
  · right; omega

theorem sinks_self (s : State) : Sinks 13 s s := .inr ⟨rfl, .inl ⟨rfl, rank_le s⟩⟩

theorem sinks_waitPassed (s : State) : Sinks 13 s (waitPassed s) := by
  have h : ∀ t : State, answersLeft t = answersLeft s → callLength t = callLength s → Sinks 13 s t :=
    fun t h1 h2 => .inr ⟨h1, .inl ⟨h2, rank_le t⟩⟩
  unfold waitPassed
  split
  · exact h _ rfl rfl
  · exact h _ rfl rfl
  · split
    · exact (sinks_xferDone s).weaken (by decide)
    · exact h _ rfl rfl
  · exact h _ rfl rfl
  · exact (sinks_xferDone s).weaken (by decide)
  · exact h _ rfl rfl

theorem sinks_waitFailed (s : State) : Sinks 13 s (waitFailed s) := by
  unfold waitFailed
  split
  · exact .inr ⟨rfl, .inl ⟨rfl, rank_le _⟩⟩
  · exact (sinks_xferFail s).weaken (by decide)

theorem readClock_left {s : State} (h : s.nowIn ≠ []) : answersLeft (readClock s) < answersLeft s := by
  cases hn : s.nowIn with
  | nil => exact absurd hn h
  | cons t ts => simp [answersLeft, hn]

theorem sampleBusy_left {s : State} (h : s.busyIn ≠ []) : answersLeft (sampleBusy s) < answersLeft s := by
  cases hn : s.busyIn with
  | nil => exact absurd hn h
  | cons t ts => simp [answersLeft, hn]

/-- A pin write or a sleep in a host command, whose rank its successor does not reach. -/
theorem sinks_plainStep {s s' : State} (hg : (∃ p l, curStage s = .pin p l) ∨ ∃ ms, curStage s = .sleep ms)
    (hs : s.sub = .start) (ht : s.tph = .t0) (h0 : s'.call = s.call) (h1 : s'.stepLbl = s.stepLbl)
    (h2 : answersLeft s' = answersLeft s) : (nextStage s').ready = true ∨ potential (nextStage s') < potential s := by
  have hc : callLength s' = callLength s := by simp only [callLength, h0]
  by_cases h : s.call = none
  · have e : nextStage s' = advance s' := by simp only [nextStage, h0, h]
    rw [e]
    refine ((sinks_advance s' (h0.trans h)).of_left h2 hc).falls ?_
    rw [h1]
    have hr : rank s = stepRank s.stepLbl := by
      rcases hg with ⟨p, l, hg⟩ | ⟨ms, hg⟩ <;> simp only [rank, hs, startRank, ht, stageRank, hg, h, if_true]
    rw [hr]
    rcases hg with ⟨p, l, hg⟩ | ⟨ms, hg⟩ <;> simp only [curStage, h] at hg <;>
      cases hl : s.stepLbl <;> simp [stageOf, hl] at hg <;> decide
  · refine ((sinks_nextStage_call (by rwa [h0])).of_left h2 hc).falls ?_
    rcases hg with ⟨p, l, hg⟩ | ⟨ms, hg⟩ <;> simp [rank, hs, startRank, ht, stageRank, hg, h]

/-- An event of a running command whose answer is known ends it or lowers the potential. -/
theorem event_lowers {s : State} (ha : answered s = true) : (event s).ready = true ∨ potential (event s) < potential s := by
  have hbusy : needsLevel s = true → s.busyIn ≠ [] := by
    intro h e; simp [answered, h, e] at ha
  have hnow : needsTime s = true → s.nowIn ≠ [] := by
    intro h e; simp [answered, h, e] at ha
  have hbytes : needsBytes s ≤ s.rxIn.length := by
    simp only [answered, Bool.and_eq_true, decide_eq_true_eq] at ha; exact ha.2.2
  have own : ∀ t : State, answersLeft t = answersLeft s → callLength t = callLength s → rank t < rank s →
      t.ready = true ∨ potential t < potential s := by
    intro t h1 h2 h3; right; unfold potential; omega
  have clock : ∀ t : State, Sinks 13 (readClock s) t → needsTime s = true →
      t.ready = true ∨ potential t < potential s := fun t h hn => h.used (readClock_left (hnow hn)) rfl
  unfold event
  split
  · rename_i hs
    have hrank : rank s = startRank s := by simp only [rank, hs]
    unfold startEvent
    split
    · rename_i ht
      unfold stageEvent
      split
      · rename_i hg
        refine own _ rfl rfl ?_
        rw [hrank]; simp only [startRank, ht, stageRank, hg]; exact Nat.lt_succ_self 1
      · rename_i p l hg
        cases p <;> exact sinks_plainStep (.inl ⟨_, _, hg⟩) hs ht rfl rfl rfl
      · rename_i ms hg
        exact sinks_plainStep (.inr ⟨_, hg⟩) hs ht rfl rfl rfl
      · rename_i x p hg
        refine own _ rfl rfl ?_
        rw [hrank]; simp only [startRank, ht, stageRank, hg]; exact Nat.lt_succ_self 0
      · rename_i x p ms hg
        refine clock _ (.inr ⟨rfl, .inl ⟨rfl, rank_le _⟩⟩) ?_
        simp [needsTime, hs, ht, hg]
    · rename_i ht; exact clock _ (.inr ⟨rfl, .inl ⟨rfl, rank_le _⟩⟩) (by simp [needsTime, hs, ht, waitLevel])
    · rename_i ht; exact clock _ (.inr ⟨rfl, .inl ⟨rfl, rank_le _⟩⟩) (by simp [needsTime, hs, ht, waitLevel])
    · rename_i ht; exact clock _ (.inr ⟨rfl, .inl ⟨rfl, rank_le _⟩⟩) (by simp [needsTime, hs, ht, waitLevel])
    · rename_i ht; exact clock _ (.inr ⟨rfl, .inl ⟨rfl, rank_le _⟩⟩) (by simp [needsTime, hs, ht, waitLevel])
    · rename_i ht; exact clock _ (.inr ⟨rfl, .inl ⟨rfl, rank_le _⟩⟩) (by simp [needsTime, hs, ht, waitLevel])
    · rename_i ht; exact own _ rfl rfl (by rw [hrank]; simp [rank, hs, startRank, ht])
    · rename_i ht; exact own _ rfl rfl (by rw [hrank]; simp [rank, hs, startRank, ht])
    · rename_i ht; exact own _ rfl rfl (by rw [hrank]; simp [rank, hs, startRank, ht])
    · rename_i ht
      split
      · exact (sinks_xferDone s).falls (by rw [hrank]; simp [startRank, ht])
      · exact own _ rfl rfl (by rw [hrank]; simp [rank, hs, startRank, ht])
    · rename_i ht; exact own _ rfl rfl (by rw [hrank]; simp [rank, hs, startRank, ht])
    · rename_i ht
      by_cases h0 : s.rlen = 0
      · refine own _ ?_ rfl (by rw [hrank]; simp [rank, hs, startRank, ht])
        simp [answersLeft, h0]
      · have hb : s.rlen ≤ s.rxIn.length := by simpa [needsBytes, hs, ht] using hbytes
        refine Sinks.used (s' := { busRead s.rlen s with tph := .t10 }) (sinks_self _) ?_ rfl
        simp [answersLeft]; omega
    · rename_i ht; exact own _ rfl rfl (by rw [hrank]; simp [rank, hs, startRank, ht])
    · rename_i ht; exact (sinks_xferDone s).falls (by rw [hrank]; simp [startRank, ht])
  · rename_i hs
    unfold sampleEvent
    split
    · rename_i l hl
      have hn : needsLevel s = true := by simp [needsLevel, hs, hl]
      split
      · exact (sinks_waitPassed _).used (sampleBusy_left (hbusy hn)) rfl
      · refine Sinks.used (s' := { sampleBusy s with sub := .time }) (sinks_self _) ?_ rfl
        exact sampleBusy_left (hbusy hn)
    · rename_i hl
      refine own _ rfl rfl ?_
      have : needsLevel s = false := by simp [needsLevel, hs, hl]
      have e : rank s = startRank s + 1 := by simp [rank, hs, this]
      rw [e]; exact Nat.lt_succ_self _
  · rename_i hs
    unfold timeEvent
    split
    · rename_i l hl
      have hn : needsTime s = true := by
        cases ht : s.tph <;> simp_all [needsTime, waitLevel]
      split
      · exact clock _ (sinks_waitFailed _) hn
      · exact clock _ (.inr ⟨rfl, .inl ⟨rfl, rank_le _⟩⟩) hn
    · rename_i hl
      split
      · rename_i ht hg
        have hn : needsTime s = true := by simp [needsTime, hs, ht, hg]
        unfold pollTimeEvent
        split
        · exact clock _ ((sinks_failWith _ _).weaken (by decide)) hn
        · exact clock _ (.inr ⟨rfl, .inl ⟨rfl, rank_le _⟩⟩) hn
      · rename_i hne
        refine own _ rfl rfl ?_
        have : needsTime s = false := by
          cases ht : s.tph <;> simp_all [needsTime, waitLevel]
        have e : rank s = startRank s + 1 := by simp [rank, hs, this]
        rw [e]; exact Nat.lt_succ_self _
  · rename_i hs
    refine Sinks.falls (r := 2) ((sinks_xferFail (driveNss s.cfg.pin.nssInactive s)).of_left rfl rfl) ?_
    simp only [rank, hs]; decide
  · rename_i hs
    refine own _ rfl rfl ?_
    show 1 < rank s
    simp only [rank, hs]; decide
  · exact .inl rfl

/-- A run with more fuel than its potential stops only when the command is done or an answer is missing. -/
theorem drive_settles (k : Nat) (s : State) (h : potential s < k) :
    (drive k s).ready = true ∨ answered (drive k s) = false := by
  induction k generalizing s with
  | zero => omega
  | succ k ih =>
    by_cases hb : s.ready = true
    · rw [drive_of_ready _ hb]; exact .inl hb
    · by_cases ha : answered s = true
      · rw [drive_succ k (by simpa using hb) ha]
        rcases event_lowers ha with h1 | h1
        · rw [drive_of_ready _ h1]; exact .inl h1
        · exact ih _ (by omega)
      · rw [drive_of_unanswered _ (by simpa using ha)]; exact .inr (by simpa using ha)

/-- The fuel of `runOn` is enough. -/
theorem runOn_settles {s : State} (h : s.runAhead = true) : (runOn s).ready = true ∨ answered (runOn s) = false := by
  rw [runOn_of_ahead h]
  refine drive_settles _ _ ?_
  have := rank_le s
  unfold potential fuel answersLeft callLength
  omega

/-- A state that `n` events reach and where the run stops is what `runOn` answers, whatever the fuel. -/
theorem Reaches.settles {n : Nat} {s t : State} (h : Reaches n s t) (ha : s.runAhead = true)
    (ht : t.ready = true ∨ answered t = false) : Machine.runOn s = t := by
  have h0 : ∀ k, drive k t = t := by
    intro k
    rcases ht with ht | ht
    · exact drive_of_ready _ ht
    · exact drive_of_unanswered _ ht
  have h1 := h (fuel s)
  rw [h0, drive_add, ← runOn_of_ahead ha] at h1
  rw [← h1]
  rcases runOn_settles ha with h2 | h2
  · exact (drive_of_ready _ h2).symm
  · exact (drive_of_unanswered _ h2).symm

end Sys2Proof.Machine
end

