-- ==== Sys2Proof/Laws/Transport.lean ====
section
/-! SUPPORT. TRANSCEIVE (40_transport.md R101, R102) on a prompt busy line, said once for a write-only exchange and once
for one with a response. -/

namespace Sys2Proof.Machine

/-- The state after T6 of a write-only exchange whose three waits passed on their first samples. -/
def wrote (s : State) (a b c : Time) (bs : List Level) (ts : List Time) : State :=
  { s with
    busyIn := bs, nowIn := ts, tw0 := clockValue s.cfg c, nssQ := s.cfg.pin.nssInactive, tph := .t6, sub := .sample,
    trace := .pinRead .low :: .now (clockValue s.cfg c) :: .pinWrite .nss s.cfg.pin.nssInactive :: .pinRead .high :: .now (clockValue s.cfg b) ::
      .busWrite s.txbuf :: .pinWrite .nss s.cfg.pin.nssActive :: .pinRead .low :: .now (clockValue s.cfg a) :: s.trace }

/-- The state after T12 of an exchange with the response `rx`, whose five waits passed on their first samples. -/
def exchanged (s : State) (rx : List Byte) (a b c d e : Time) (bs : List Level) (ts : List Time) (rs : List Byte) :
    State :=
  { s with
    busyIn := bs, nowIn := ts, rxIn := rs, rxbuf := rx, tw0 := clockValue s.cfg e, nssQ := s.cfg.pin.nssInactive, tph := .t12,
    sub := .sample,
    trace := .pinRead .low :: .now (clockValue s.cfg e) :: .pinWrite .nss s.cfg.pin.nssInactive :: .pinRead .high :: .now (clockValue s.cfg d) ::
      .busRead rx :: .pinWrite .nss s.cfg.pin.nssActive ::
      .pinRead .low :: .now (clockValue s.cfg c) :: .pinWrite .nss s.cfg.pin.nssInactive :: .pinRead .high :: .now (clockValue s.cfg b) ::
      .busWrite s.txbuf :: .pinWrite .nss s.cfg.pin.nssActive :: .pinRead .low :: .now (clockValue s.cfg a) :: s.trace }

/-- The state after W1 and W2 of a wait that passes on its first sample. -/
def sampled (s : State) (a : Time) (l : Level) (ts : List Time) (bs : List Level) : State :=
  { s with
    nowIn := ts, busyIn := bs, tw0 := clockValue s.cfg a, sub := .sample, trace := .pinRead l :: .now (clockValue s.cfg a) :: s.trace }

/-- WAIT_BUSY on a line that is at the level on the first sample: two events, whatever `TIMEOUT_MS` is (R101). -/
theorem reaches_wait {s : State} {a : Time} {l : Level} {ts : List Time} {bs : List Level}
    (hr : s.ready = false) (hs : s.sub = .start) (hl : waitLevel s.tph = some l)
    (hb : s.busyIn = l :: bs) (hc : s.nowIn = a :: ts) :
    Reaches 2 s (waitPassed (sampled s a l ts bs)) := by
  have e1 : event s = { s with nowIn := ts, tw0 := clockValue s.cfg a, sub := .sample, trace := .now (clockValue s.cfg a) :: s.trace } := by
    have : event s = { readClock s with tw0 := s.nextTime, sub := .sample } := by
      cases ht : s.tph <;> simp_all [event, startEvent, waitLevel]
    rw [this]; simp [readClock, State.nextTime, hc]
  have a1 : answered s = true := by
    simp [answered, needsTime, needsLevel, needsBytes, hs, hc]
    cases ht : s.tph <;> simp_all [waitLevel]
  refine Reaches.trans (Reaches.event hr a1) ?_
  rw [e1]
  have a2 : answered { s with nowIn := ts, tw0 := clockValue s.cfg a, sub := .sample, trace := .now (clockValue s.cfg a) :: s.trace } = true := by
    simp [answered, needsTime, needsLevel, needsBytes, hb]
  have e2 := Reaches.event (s := { s with nowIn := ts, tw0 := clockValue s.cfg a, sub := .sample, trace := .now (clockValue s.cfg a) :: s.trace }) hr a2
  have e3 : event { s with nowIn := ts, tw0 := clockValue s.cfg a, sub := .sample, trace := .now (clockValue s.cfg a) :: s.trace } =
      waitPassed (sampled s a l ts bs) := by
    simp [event, sampleEvent, hl, State.nextLevel, sampleBusy, hb, sampled]
  rw [e3] at e2
  exact e2

/-- A label whose action needs no answer is one event. -/
theorem reaches_action {s : State} (hr : s.ready = false) (hs : s.sub = .start)
    (ht : s.tph = .t2 ∨ s.tph = .t3 ∨ s.tph = .t5 ∨ s.tph = .t8 ∨ s.tph = .t11) : Reaches 1 s (startEvent s) := by
  have e : event s = startEvent s := by simp [event, hs]
  rw [← e]
  refine Reaches.event hr ?_
  rcases ht with h | h | h | h | h <;> simp [answered, needsTime, needsLevel, needsBytes, hs, h, waitLevel]

/-- T2 or T8, then the label `l` after it. -/
theorem reaches_select {s : State} {l : Tph} (hr : s.ready = false) (hs : s.sub = .start)
    (ht : s.tph = .t2 ∧ l = .t3 ∨ s.tph = .t8 ∧ l = .t9) :
    Reaches 1 s { s with nssQ := s.cfg.pin.nssActive, trace := .pinWrite .nss s.cfg.pin.nssActive :: s.trace, tph := l } := by
  rcases ht with ⟨h, rfl⟩ | ⟨h, rfl⟩
  · have := reaches_action hr hs (.inl h); simpa only [startEvent, h, driveNss] using this
  · have := reaches_action hr hs (.inr (.inr (.inr (.inl h)))); simpa only [startEvent, h, driveNss] using this

/-- T5 or T11, then the label `l` after it. -/
theorem reaches_release {s : State} {l : Tph} (hr : s.ready = false) (hs : s.sub = .start)
    (ht : s.tph = .t5 ∧ l = .t6 ∨ s.tph = .t11 ∧ l = .t12) :
    Reaches 1 s
      { s with nssQ := s.cfg.pin.nssInactive, trace := .pinWrite .nss s.cfg.pin.nssInactive :: s.trace, tph := l } := by
  rcases ht with ⟨h, rfl⟩ | ⟨h, rfl⟩
  · have := reaches_action hr hs (.inr (.inr (.inl h))); simpa only [startEvent, h, driveNss] using this
  · have := reaches_action hr hs (.inr (.inr (.inr (.inr h)))); simpa only [startEvent, h, driveNss] using this

/-- T3. -/
theorem reaches_busWrite {s : State} (hr : s.ready = false) (hs : s.sub = .start) (h : s.tph = .t3) :
    Reaches 1 s { s with trace := .busWrite s.txbuf :: s.trace, tph := .t4 } := by
  have := reaches_action hr hs (.inr (.inl h)); simpa only [startEvent, h, busWrite] using this

/-- T9 with the `n` bytes known is one event. -/
theorem reaches_busRead {s : State} {rx rs : List Byte} (hr : s.ready = false) (hs : s.sub = .start) (ht : s.tph = .t9)
    (hn : rx.length = s.rlen) (hx : s.rxIn = rx ++ rs) :
    Reaches 1 s { s with rxbuf := rx, rxIn := rs, tph := .t10, trace := .busRead rx :: s.trace } := by
  have e : event s = { s with rxbuf := rx, rxIn := rs, tph := .t10, trace := .busRead rx :: s.trace } := by
    simp [event, hs, startEvent, ht, busRead, State.nextBytes, hx, ← hn, freeBytes]
  rw [← e]
  refine Reaches.event hr ?_
  simp [answered, needsTime, needsLevel, needsBytes, hs, ht, waitLevel, hx, ← hn]

/-- A wait that is not the last one of its exchange, then the label `l'` after it. -/
theorem reaches_wait_next {s : State} {a : Time} {l : Level} {l' : Tph} {ts : List Time} {bs : List Level}
    (hr : s.ready = false) (hs : s.sub = .start)
    (ht : s.tph = .t1 ∧ l = .low ∧ l' = .t2 ∨ s.tph = .t4 ∧ l = .high ∧ l' = .t5 ∨
      s.tph = .t6 ∧ l = .low ∧ s.rlen ≠ 0 ∧ l' = .t8 ∨ s.tph = .t10 ∧ l = .high ∧ l' = .t11)
    (hb : s.busyIn = l :: bs) (hc : s.nowIn = a :: ts) :
    Reaches 2 s { s with nowIn := ts, busyIn := bs, tw0 := clockValue s.cfg a, trace := .pinRead l :: .now (clockValue s.cfg a) :: s.trace, tph := l' } := by
  rcases ht with ⟨h, rfl, rfl⟩ | ⟨h, rfl, rfl⟩ | ⟨h, rfl, h0, rfl⟩ | ⟨h, rfl, rfl⟩
  · have := reaches_wait hr hs (by rw [h]; rfl) hb hc; simpa only [waitPassed, sampled, h, ← hs] using this
  · have := reaches_wait hr hs (by rw [h]; rfl) hb hc; simpa only [waitPassed, sampled, h, ← hs] using this
  · have := reaches_wait hr hs (by rw [h]; rfl) hb hc
    simpa only [waitPassed, sampled, h, h0, if_false, ← hs] using this
  · have := reaches_wait hr hs (by rw [h]; rfl) hb hc; simpa only [waitPassed, sampled, h, ← hs] using this

/-- T1 to T5 on a prompt line. -/
theorem reaches_t5 {s : State} {a b : Time} {bs : List Level} {ts : List Time}
    (hr : s.ready = false) (ht : s.tph = .t1) (hs : s.sub = .start)
    (hb : s.busyIn = .low :: .high :: bs) (hc : s.nowIn = a :: b :: ts) :
    Reaches 7 s { s with
      busyIn := bs, nowIn := ts, tw0 := clockValue s.cfg b, nssQ := s.cfg.pin.nssInactive, tph := .t6,
      trace := .pinWrite .nss s.cfg.pin.nssInactive :: .pinRead .high :: .now (clockValue s.cfg b) ::
        .busWrite s.txbuf :: .pinWrite .nss s.cfg.pin.nssActive :: .pinRead .low :: .now (clockValue s.cfg a) :: s.trace } :=
  (reaches_wait_next (l' := .t2) hr hs (.inl ⟨ht, rfl, rfl⟩) hb hc).trans <|
    (reaches_select (l := .t3) (by exact hr) (by exact hs) (.inl ⟨rfl, rfl⟩)).trans <|
      (reaches_busWrite (by exact hr) (by exact hs) rfl).trans <|
        (reaches_wait_next (l' := .t5) (by exact hr) (by exact hs) (.inr (.inl ⟨rfl, rfl, rfl⟩)) rfl rfl).trans <|
          reaches_release (l := .t6) (by exact hr) (by exact hs) (.inl ⟨rfl, rfl⟩)

/-- A write-only exchange on a prompt line: nine events, T1 to T6 (V40.2). -/
theorem reaches_write {s : State} {a b c : Time} {bs : List Level} {ts : List Time}
    (hr : s.ready = false) (ht : s.tph = .t1) (hs : s.sub = .start) (hn : s.rlen = 0)
    (hb : s.busyIn = .low :: .high :: .low :: bs) (hc : s.nowIn = a :: b :: c :: ts) :
    Reaches 9 s (xferDone (wrote s a b c bs ts)) := by
  have h1 := reaches_t5 hr ht hs hb hc
  generalize e : ({ s with
      busyIn := .low :: bs, nowIn := c :: ts, tw0 := clockValue s.cfg b, nssQ := s.cfg.pin.nssInactive, tph := .t6,
      trace := .pinWrite .nss s.cfg.pin.nssInactive :: .pinRead .high :: .now (clockValue s.cfg b) ::
        .busWrite s.txbuf :: .pinWrite .nss s.cfg.pin.nssActive :: .pinRead .low :: .now (clockValue s.cfg a) :: s.trace } : State) = s1 at h1
  have h2 := reaches_wait (s := s1) (l := .low) (by rw [← e]; exact hr) (by rw [← e]; exact hs) (by rw [← e]; rfl)
    (by rw [← e]) (by rw [← e])
  have e2 : waitPassed (sampled s1 c .low ts bs) = xferDone (sampled s1 c .low ts bs) := by
    rw [← e]; simp only [waitPassed, sampled, hn, if_true]
  have e3 : sampled s1 c .low ts bs = wrote s a b c bs ts := by rw [← e]; rfl
  rw [e2, e3] at h2
  exact h1.trans h2

/-- An exchange with a response on a prompt line: sixteen events, T1 to T12 (R108). -/
theorem reaches_read {s : State} {rx : List Byte} {a b c d e : Time} {bs : List Level} {ts : List Time} {rs : List Byte}
    (hr : s.ready = false) (ht : s.tph = .t1) (hs : s.sub = .start) (hn : rx.length = s.rlen) (h0 : s.rlen ≠ 0)
    (hb : s.busyIn = .low :: .high :: .low :: .high :: .low :: bs) (hc : s.nowIn = a :: b :: c :: d :: e :: ts)
    (hx : s.rxIn = rx ++ rs) :
    Reaches 16 s (xferDone (exchanged s rx a b c d e bs ts rs)) := by
  have h1 := (reaches_t5 hr ht hs hb hc).trans <|
    (reaches_wait_next (l' := .t8) (by exact hr) (by exact hs) (.inr (.inr (.inl ⟨rfl, rfl, (by exact h0), rfl⟩))) rfl rfl).trans <|
      (reaches_select (l := .t9) (by exact hr) (by exact hs) (.inr ⟨rfl, rfl⟩)).trans <|
        (reaches_busRead (rs := rs) (by exact hr) (by exact hs) rfl (by exact hn) (by exact hx)).trans <|
          (reaches_wait_next (l' := .t11) (by exact hr) (by exact hs) (.inr (.inr (.inr ⟨rfl, rfl, rfl⟩))) rfl rfl).trans <|
            reaches_release (l := .t12) (by exact hr) (by exact hs) (.inr ⟨rfl, rfl⟩)
  generalize e1 : ({ s with
      busyIn := .low :: bs, nowIn := e :: ts, rxIn := rs, rxbuf := rx, tw0 := clockValue s.cfg d, nssQ := s.cfg.pin.nssInactive,
      tph := .t12,
      trace := .pinWrite .nss s.cfg.pin.nssInactive :: .pinRead .high :: .now (clockValue s.cfg d) ::
        .busRead rx :: .pinWrite .nss s.cfg.pin.nssActive ::
        .pinRead .low :: .now (clockValue s.cfg c) :: .pinWrite .nss s.cfg.pin.nssInactive :: .pinRead .high :: .now (clockValue s.cfg b) ::
        .busWrite s.txbuf :: .pinWrite .nss s.cfg.pin.nssActive :: .pinRead .low :: .now (clockValue s.cfg a) :: s.trace } : State) = s1
    at h1
  have h2 := reaches_wait (s := s1) (l := .low) (by rw [← e1]; exact hr) (by rw [← e1]; exact hs) (by rw [← e1]; rfl)
    (by rw [← e1]) (by rw [← e1])
  have e2 : waitPassed (sampled s1 e .low ts bs) = xferDone (sampled s1 e .low ts bs) := by rw [← e1]; rfl
  have e3 : sampled s1 e .low ts bs = exchanged s rx a b c d e bs ts rs := by rw [← e1]; rfl
  rw [e2, e3] at h2
  exact h1.trans h2

end Sys2Proof.Machine
end

