-- ==== Sys2Proof/Laws/Runs.lean ====
section
/-! SUPPORT. Runs on a prompt busy line, line by line: what one exchange, one sleep, one pin write and the start of a poll
do, for single operations and for host commands. -/

namespace Sys2Proof.Machine

/-! ### Lists of lines -/

theorem linesTrace_append (c : Cfg) (l : Line) (ls : List Line) :
    linesTrace c (ls ++ [l]) = l.actions c ++ linesTrace c ls := by
  induction ls with
  | nil => simp [linesTrace]
  | cons a ls ih => simp [linesTrace, ih]

theorem remoteAfter_append (c : Cfg) (l : Line) (ls : List Line) (r : Remote) :
    remoteAfter c (ls ++ [l]) r = remoteAfter c [l] (remoteAfter c ls r) := by
  induction ls generalizing r with
  | nil => rfl
  | cons a ls ih =>
    cases a with
    | pin p l' => cases p <;> exact ih _
    | sleep ms => exact ih _
    | xfer x rx => exact ih _

theorem rxbufAfter_append (l : Line) (ls : List Line) (b : List Byte) :
    rxbufAfter (ls ++ [l]) b = rxbufAfter [l] (rxbufAfter ls b) := by
  induction ls generalizing b with
  | nil => rfl
  | cons a ls ih => cases a <;> exact ih _

/-! ### Answers that stand ready -/

theorem promptLevels_cons (n : Nat) (ns : List Nat) : promptLevels (n :: ns) = promptLevels [n] ++ promptLevels ns := by
  cases n <;> rfl

theorem clockReads_cons (n : Nat) (ns : List Nat) : clockReads (n :: ns) = clockReads [n] + clockReads ns := by
  cases n <;> rfl

/-- The answers for an exchange and for what comes after it. -/
theorem Prompt.xfer {s h : State} {x : Xfer} {rx : List Byte} {ls : List Line} {polls : Nat}
    (hp : Prompt s h (.xfer x rx :: ls) polls) :
    ∃ bs rs ts1 ts, s.busyIn = promptLevels [x.n] ++ bs ∧ s.nowIn = ts1 ++ ts ∧ ts1.length = clockReads [x.n] ∧
      s.rxIn = rx ++ rs ∧ rx.length = x.n ∧
      ∀ u : State, u.busyIn = bs → u.nowIn = ts → u.rxIn = rs → Prompt u h ls polls := by
  obtain ⟨hb, hx, hf, ts, hl, hn⟩ := hp
  rw [lineLens, clockReads_cons] at hl
  refine ⟨promptLevels (lineLens ls) ++ h.busyIn, lineBytes ls ++ h.rxIn, ts.take (clockReads [x.n]),
    ts.drop (clockReads [x.n]) ++ h.nowIn, ?_, ?_, ?_, ?_, hf x rx (by simp), ?_⟩
  · rw [hb, lineLens, promptLevels_cons, List.append_assoc]
  · rw [hn, ← List.append_assoc, List.take_append_drop]
  · rw [List.length_take]; omega
  · rw [hx, lineBytes, List.append_assoc]
  · intro u h1 h2 h3
    exact ⟨h1, h3, fun x' r hm => hf x' r (List.mem_cons_of_mem _ hm), _, by rw [List.length_drop]; omega, h2⟩

/-- The clock value that a poll begins with. -/
theorem Prompt.poll {s h : State} {ls : List Line} {polls : Nat} (hp : Prompt s h ls (polls + 1)) :
    ∃ t ts, s.nowIn = t :: ts ∧
      ∀ u : State, u.busyIn = s.busyIn → u.nowIn = ts → u.rxIn = s.rxIn → Prompt u h ls polls := by
  obtain ⟨hb, hx, hf, ts, hl, hn⟩ := hp
  cases ts with
  | nil => simp at hl
  | cons t ts =>
    exact ⟨t, ts ++ h.nowIn, hn, fun u h1 h2 h3 =>
      ⟨h1.trans hb, h3.trans hx, hf, ts, by rw [List.length_cons] at hl; omega, h2⟩⟩

theorem Prompt.plain {s h u : State} {l : Line} {ls : List Line} {polls : Nat} (hp : Prompt s h (l :: ls) polls)
    (hl : (∃ p v, l = .pin p v) ∨ ∃ ms, l = .sleep ms) (h1 : u.busyIn = s.busyIn) (h2 : u.nowIn = s.nowIn)
    (h3 : u.rxIn = s.rxIn) : Prompt u h ls polls := by
  obtain ⟨hb, hx, hf, ts, hc, hn⟩ := hp
  have hf' : linesFit ls := fun x' r hm => hf x' r (List.mem_cons_of_mem _ hm)
  rcases hl with ⟨p, v, rfl⟩ | ⟨ms, rfl⟩
  · exact ⟨h1.trans hb, h3.trans hx, hf', ts, hc, h2.trans hn⟩
  · exact ⟨h1.trans hb, h3.trans hx, hf', ts, hc, h2.trans hn⟩

theorem Prompt.congr {s s' h : State} {ls : List Line} {polls : Nat} (hp : Prompt s h ls polls)
    (h1 : s'.busyIn = s.busyIn) (h2 : s'.nowIn = s.nowIn) (h3 : s'.rxIn = s.rxIn) : Prompt s' h ls polls := by
  obtain ⟨hb, hx, hf, ts, hc, hn⟩ := hp
  exact ⟨h1.trans hb, h3.trans hx, hf, ts, hc, h2.trans hn⟩

/-! ### One exchange -/

/-- The state in which an operation gets the answer `rx` of its exchange `x`; `w` and `tr` are what the waits leave in
`TW0` and in the trace. -/
def exchangeEnd (s : State) (x : Xfer) (rx : List Byte) (bs : List Level) (ts : List Time) (rs : List Byte) (w : Time)
    (tr : List Action) : State :=
  { s with
    busyIn := bs, nowIn := ts, rxIn := rs, rxbuf := if x.n = 0 then s.rxbuf else rx, tw0 := w,
    nssQ := s.cfg.pin.nssInactive, tph := .t0, sub := .start, trace := tr, remote := s.remote.receive s.cfg x.tx rx }

theorem xferDone_of {s e : State} (h : delivered s = e) :
    xferDone s = afterPost (postRes (curStage e).post (postState (curStage e).post e))
      (postState (curStage e).post e) := by
  subst h; rfl

/-- One exchange on a prompt line, up to the operation's own test of the answer. -/
theorem reaches_exchange {s : State} {x : Xfer} {rx rs : List Byte} {bs : List Level} {ts1 ts : List Time}
    (hr : s.ready = false) (hs : s.sub = .start) (ht : s.tph = .t1) (hx : s.txbuf = x.tx) (hn : s.rlen = x.n)
    (hb : s.busyIn = promptLevels [x.n] ++ bs) (hc : s.nowIn = ts1 ++ ts) (hl : ts1.length = clockReads [x.n])
    (hrx : s.rxIn = rx ++ rs) (hf : rx.length = x.n) :
    ∃ k w tr, pinActions tr = (Line.xfer x rx).actions s.cfg ++ pinActions s.trace ∧
      Reaches k s (afterPost
        (postRes (curStage s).post (postState (curStage s).post (exchangeEnd s x rx bs ts rs w tr)))
        (postState (curStage s).post (exchangeEnd s x rx bs ts rs w tr))) := by
  cases h0 : x.n with
  | zero =>
    rw [h0] at hb hl hn hf
    match ts1, hl with
    | [a, b, c], _ =>
      have h := reaches_write (a := a) (b := b) (c := c) hr ht hs hn hb hc
      have hrx0 : rx = [] := List.length_eq_zero_iff.mp hf
      have hrs : s.rxIn = rs := by rw [hrx, hrx0]; rfl
      refine ⟨9, clockValue s.cfg c, (wrote s a b c bs ts).trace, ?_, ?_⟩
      · simp [wrote, pinActions, Line.actions, h0, writeActions, hx]
      · have e : delivered (wrote s a b c bs ts) = exchangeEnd s x rx bs ts rs (clockValue s.cfg c) (wrote s a b c bs ts).trace := by
          simp [delivered, wrote, exchangeEnd, State.response, hn, h0, hrx0, hx, ← hrs]
        exact (xferDone_of e) ▸ h
  | succ n =>
    have hne : x.n ≠ 0 := by rw [h0]; exact Nat.succ_ne_zero n
    rw [h0] at hb hl
    match ts1, hl with
    | [a, b, c, d, f], _ =>
      have h := reaches_read (rx := rx) (rs := rs) (a := a) (b := b) (c := c) (d := d) (e := f) hr ht hs
        (hf.trans hn.symm) (by rwa [hn]) hb hc hrx
      refine ⟨16, clockValue s.cfg f, (exchanged s rx a b c d f bs ts rs).trace, ?_, ?_⟩
      · simp [exchanged, pinActions, Line.actions, hne, writeActions, readActions, hx]
      · have e : delivered (exchanged s rx a b c d f bs ts rs) =
            exchangeEnd s x rx bs ts rs (clockValue s.cfg f) (exchanged s rx a b c d f bs ts rs).trace := by
          simp [delivered, exchanged, exchangeEnd, State.response, hn, hne, hx]
        exact (xferDone_of e) ▸ h

/-! ### Walking along lines -/

/-- The run that began in `s0` stands in `s`: the lines `past` are behind it, the answers for the lines `rest` and for
`polls` polls stand ready, with `h` holding what comes after them; `base` is the trace it began with. -/
structure Walk (s0 h s : State) (base : List Action) (past rest : List Line) (polls : Nat) : Prop where
  ahead : Prompt s h rest polls
  trace : pinActions s.trace = linesTrace s0.cfg past ++ base
  remote : s.remote = remoteAfter s0.cfg past s0.remote
  rxbuf : s.rxbuf = rxbufAfter past s0.rxbuf
  cfg : s.cfg = s0.cfg
  resetIn : s.resetIn = s0.resetIn
  otherBusy : s.otherBusy = s0.otherBusy
  draws : s.draws = s0.draws
  port : s.port = none
  ready : s.ready = false
  sub : s.sub = .start
  cand : s.cand = .t0
  clock : ∃ used, s0.nowIn = used ++ s.nowIn

/-- The state stands at the beginning of the exchange `x`. -/
def AtXfer (x : Xfer) (s : State) : Prop :=
  s.tph = .t1 ∧ s.txbuf = x.tx ∧ s.rlen = x.n

/-- One exchange of a walk. -/
theorem Walk.xfer {s0 h s : State} {base : List Action} {past rest : List Line} {polls : Nat} {x : Xfer}
    {rx : List Byte} (w : Walk s0 h s base past (.xfer x rx :: rest) polls) (hx : AtXfer x s) :
    ∃ k bs ts rs w0 tr, let e := exchangeEnd s x rx bs ts rs w0 tr
      Walk s0 h e base (past ++ [.xfer x rx]) rest polls ∧
        Reaches k s (afterPost (postRes (curStage s).post (postState (curStage s).post e))
          (postState (curStage s).post e)) := by
  obtain ⟨bs, rs, ts1, ts, hb, hc, hl, hrx, hf, hnext⟩ := w.ahead.xfer
  obtain ⟨k, w0, tr, htr, hreach⟩ := reaches_exchange w.ready w.sub hx.1 hx.2.1 hx.2.2 hb hc hl hrx hf
  refine ⟨k, bs, ts, rs, w0, tr, ⟨hnext _ rfl rfl rfl, ?_, ?_, ?_, w.cfg, w.resetIn, w.otherBusy, w.draws, w.port,
    w.ready, rfl, w.cand, ?_⟩, hreach⟩
  · show pinActions tr = _
    rw [htr, w.trace, linesTrace_append, w.cfg, List.append_assoc]
  · show s.remote.receive s.cfg x.tx rx = _
    rw [remoteAfter_append, ← w.remote, w.cfg]; rfl
  · show (if x.n = 0 then s.rxbuf else rx) = _
    rw [rxbufAfter_append, ← w.rxbuf]; rfl
  · obtain ⟨used, hu⟩ := w.clock
    exact ⟨used ++ ts1, by rw [hu, hc, List.append_assoc]; rfl⟩

/-- A walk does not depend on the fields that an operation's own registers are. -/
theorem Walk.same {s0 h s t : State} {base : List Action} {past rest : List Line} {polls : Nat}
    (w : Walk s0 h s base past rest polls)
    (e : t.busyIn = s.busyIn ∧ t.nowIn = s.nowIn ∧ t.rxIn = s.rxIn ∧ t.trace = s.trace ∧ t.remote = s.remote ∧
      t.rxbuf = s.rxbuf ∧ t.cfg = s.cfg ∧ t.resetIn = s.resetIn ∧ t.otherBusy = s.otherBusy ∧ t.draws = s.draws ∧
      t.port = s.port ∧ t.ready = s.ready ∧ t.sub = s.sub ∧ t.cand = s.cand) :
    Walk s0 h t base past rest polls := by
  obtain ⟨e1, e2, e3, e4, e5, e6, e7, e8, e9, e10, e11, e12, e13, e14⟩ := e
  exact ⟨w.ahead.congr e1 e2 e3, e4 ▸ w.trace, e5.trans w.remote, e6.trans w.rxbuf, e7.trans w.cfg, e8.trans w.resetIn,
    e9.trans w.otherBusy, e10.trans w.draws, e11.trans w.port, e12.trans w.ready, e13.trans w.sub, e14.trans w.cand,
    by rw [e2]; exact w.clock⟩

/-- Which clock values are left: those after the reads that are behind. -/
theorem Walk.nowIn {s0 h s : State} {base : List Action} {past rest ls : List Line} {polls p0 n : Nat}
    (w : Walk s0 h s base past rest polls) (hp : Prompt s0 h ls p0)
    (hn : clockReads (lineLens ls) + p0 = n + (clockReads (lineLens rest) + polls)) : s.nowIn = s0.nowIn.drop n := by
  obtain ⟨used, hu⟩ := w.clock
  obtain ⟨_, _, _, us, h1, h2⟩ := w.ahead
  obtain ⟨_, _, _, vs, h3, h4⟩ := hp
  have hl : used.length = n := by
    have := congrArg List.length hu
    rw [h4, h2] at this
    simp only [List.length_append] at this
    omega
  rw [hu, ← hl, List.drop_left]

theorem SameResults.trans {s t u : State} (h : SameResults s t) (k : SameResults t u) : SameResults s u := by
  obtain ⟨c1, c2, c3, c4, c5, c6, c7, c8⟩ := h
  obtain ⟨d1, d2, d3, d4, d5, d6, d7, d8⟩ := k
  exact ⟨d1.trans c1, d2.trans c2, d3.trans c3, d4.trans c4, d5.trans c5, d6.trans c6, d7.trans c7, d8.trans c8⟩

/-! ### An operation's own registers -/

/-- An operation's own registers are none of those a walk speaks of. -/
theorem postState_walk {s0 h e : State} {base : List Action} {past rest : List Line} {polls : Nat} (p : Post)
    (w : Walk s0 h e base past rest polls) : Walk s0 h (postState p e) base past rest polls := by
  cases p
  case countSelect =>
    simp only [postState]
    split <;> exact w.same ⟨rfl, rfl, rfl, rfl, rfl, rfl, rfl, rfl, rfl, rfl, rfl, rfl, rfl, rfl⟩
  case level2Done =>
    simp only [postState]
    split <;> exact w.same ⟨rfl, rfl, rfl, rfl, rfl, rfl, rfl, rfl, rfl, rfl, rfl, rfl, rfl, rfl⟩
  case sakDecide =>
    simp only [postState]
    split <;> exact w.same ⟨rfl, rfl, rfl, rfl, rfl, rfl, rfl, rfl, rfl, rfl, rfl, rfl, rfl, rfl⟩
  all_goals exact w.same ⟨rfl, rfl, rfl, rfl, rfl, rfl, rfl, rfl, rfl, rfl, rfl, rfl, rfl, rfl⟩

/-- What an operation's own registers leave alone. -/
theorem postState_keeps (p : Post) (e : State) :
    ((postState p e).call = e.call ∧ (postState p e).cmd = e.cmd ∧ (postState p e).stepLbl = e.stepLbl ∧
      (postState p e).diagCode = e.diagCode ∧ (postState p e).diagStep = e.diagStep ∧
      (postState p e).diagTph = e.diagTph ∧ (postState p e).result = e.result) ∧
    (postState p e).nssQ = e.nssQ ∧ (postState p e).rstQ = e.rstQ ∧ (postState p e).tp0 = e.tp0 ∧
      (postState p e).tph = e.tph ∧ (postState p e).nowIn = e.nowIn ∧ (postState p e).cfg = e.cfg := by
  cases p
  case countSelect =>
    simp only [postState]
    split <;> exact ⟨⟨rfl, rfl, rfl, rfl, rfl, rfl, rfl⟩, rfl, rfl, rfl, rfl, rfl, rfl⟩
  case level2Done =>
    simp only [postState]
    split <;> exact ⟨⟨rfl, rfl, rfl, rfl, rfl, rfl, rfl⟩, rfl, rfl, rfl, rfl, rfl, rfl⟩
  case sakDecide =>
    simp only [postState]
    split <;> exact ⟨⟨rfl, rfl, rfl, rfl, rfl, rfl, rfl⟩, rfl, rfl, rfl, rfl, rfl, rfl⟩
  all_goals exact ⟨⟨rfl, rfl, rfl, rfl, rfl, rfl, rfl⟩, rfl, rfl, rfl, rfl, rfl, rfl⟩

/-- An operation run alone writes no result register. -/
theorem postState_results {p : Post} (h : p.alone = true) (e : State) : SameResults e (postState p e) := by
  cases p <;> first | exact ⟨rfl, rfl, rfl, rfl, rfl, rfl, rfl, rfl⟩ | cases h

/-! ### Single operations -/

/-- A walk of a single operation: it has the stages `gs` left and stands at the beginning of the first; what no
operation touches is as it was. -/
structure Op (s0 h s : State) (past rest : List Line) (gs : List Stage) : Prop where
  walk : Walk s0 h s (pinActions s0.trace) past rest 0
  call : s.call = some gs
  entered : ∀ x p gs', gs = .xfer x p :: gs' → AtXfer x s
  plain : ∀ ms gs', gs = .sleep ms :: gs' → s.tph = .t0
  own : s.cmd = s0.cmd ∧ s.tp0 = s0.tp0 ∧ s.rstQ = s0.rstQ ∧ s.stepLbl = .noStep
  results : SameResults s0 s

/-- The launch of a single operation that begins with an exchange. -/
theorem launch_op {s h : State} {ls : List Line} {x : Xfer} {p : Post} {gs : List Stage} (hp : Prompt s h ls 0) :
    Op s h (launch (.xfer x p :: gs) s) [] ls (.xfer x p :: gs) := by
  refine ⟨⟨hp.congr rfl rfl rfl, rfl, rfl, rfl, rfl, rfl, rfl, rfl, rfl, rfl, rfl, rfl, [], rfl⟩, rfl, ?_, ?_, ⟨rfl, rfl, rfl, rfl⟩,
    ⟨rfl, rfl, rfl, rfl, rfl, rfl, rfl, rfl⟩⟩
  · intro x' p' gs' e
    cases e
    exact ⟨rfl, rfl, rfl⟩
  · intro ms gs' e; cases e

/-- The exchange of a single operation, up to its own test. -/
theorem Op.xfer {s0 h s : State} {past rest : List Line} {gs : List Stage} {x : Xfer} {p : Post} {rx : List Byte}
    (o : Op s0 h s past (.xfer x rx :: rest) (.xfer x p :: gs)) :
    ∃ k e, Reaches k s (afterPost (postRes p (postState p e)) (postState p e)) ∧
      Walk s0 h e (pinActions s0.trace) (past ++ [.xfer x rx]) rest 0 ∧
      e.call = some (.xfer x p :: gs) ∧ (e.cmd = s0.cmd ∧ e.tp0 = s0.tp0 ∧ e.rstQ = s0.rstQ ∧ e.stepLbl = .noStep) ∧
      SameResults s0 e ∧ (e.nssQ = s0.cfg.pin.nssInactive ∧ e.tph = .t0) ∧
      (e.cb = s.cb ∧ e.sak = s.sak ∧ e.rxcnt = s.rxcnt ∧ e.rval = s.rval ∧ e.coarse = s.coarse) ∧
      e.rxbuf = if x.n = 0 then s.rxbuf else rx := by
  obtain ⟨k, bs, ts, rs, w0, tr, hw, hreach⟩ := o.walk.xfer (o.entered x p gs rfl)
  have hp : (curStage s).post = p := by simp only [curStage, o.call, Stage.post]
  rw [hp] at hreach
  exact ⟨k, _, hreach, hw, o.call, o.own, o.results, ⟨by rw [← o.walk.cfg]; rfl, rfl⟩, ⟨rfl, rfl, rfl, rfl, rfl⟩, rfl⟩

/-- The next stage of a single operation is entered. -/
theorem Op.next {s0 h e : State} {past rest : List Line} {g g' : Stage} {gs : List Stage}
    (w : Walk s0 h e (pinActions s0.trace) past rest 0) (hc : e.call = some (g :: g' :: gs))
    (ho : e.cmd = s0.cmd ∧ e.tp0 = s0.tp0 ∧ e.rstQ = s0.rstQ ∧ e.stepLbl = .noStep) (hr : SameResults s0 e)
    (hg : (∃ x p, g' = .xfer x p) ∨ ∃ ms, g' = .sleep ms) :
    Op s0 h (nextStage e) past rest (g' :: gs) ∧
      ((nextStage e).cb = e.cb ∧ (nextStage e).sak = e.sak ∧ (nextStage e).rxcnt = e.rxcnt ∧
        (nextStage e).rval = e.rval ∧ (nextStage e).coarse = e.coarse ∧ (nextStage e).rxbuf = e.rxbuf ∧
        (nextStage e).nssQ = e.nssQ) := by
  have hn : nextStage e = enterStage g' { e with call := some (g' :: gs) } := by
    simp only [nextStage, hc, List.tail, enterCall]
  rw [hn]
  rcases hg with ⟨x, p, rfl⟩ | ⟨ms, rfl⟩
  · refine ⟨⟨w.same ⟨rfl, rfl, rfl, rfl, rfl, rfl, rfl, rfl, rfl, rfl, rfl, rfl, w.sub.symm, rfl⟩, rfl, ?_, ?_, ho, hr⟩,
      rfl, rfl, rfl, rfl, rfl, rfl, rfl⟩
    · intro x' p' gs' heq; cases heq; exact ⟨rfl, rfl, rfl⟩
    · intro ms gs' heq; cases heq
  · refine ⟨⟨w.same ⟨rfl, rfl, rfl, rfl, rfl, rfl, rfl, rfl, rfl, rfl, rfl, rfl, w.sub.symm, rfl⟩, rfl, ?_, ?_, ho, hr⟩,
      rfl, rfl, rfl, rfl, rfl, rfl, rfl⟩
    · intro x' p' gs' heq; cases heq
    · intro ms' gs' heq; rfl

/-- A sleep of a single operation. -/
theorem Op.sleep {s0 h s : State} {past rest : List Line} {gs : List Stage} {x : Xfer} {p : Post} {ms : Nat}
    (o : Op s0 h s past (.sleep ms :: rest) (.sleep ms :: .xfer x p :: gs)) :
    ∃ t, Reaches 1 s t ∧ Op s0 h t (past ++ [.sleep ms]) rest (.xfer x p :: gs) ∧
      (t.cb = s.cb ∧ t.sak = s.sak ∧ t.rxcnt = s.rxcnt ∧ t.rval = s.rval ∧ t.coarse = s.coarse ∧ t.rxbuf = s.rxbuf ∧
        t.nssQ = s.nssQ) := by
  have ht := o.plain ms _ rfl
  have hg : curStage s = .sleep ms := by simp only [curStage, o.call]
  have e : event s = nextStage (sleepFor ms s) := by
    simp only [event, o.walk.sub, startEvent, ht, stageEvent, hg]
  have ha : answered s = true := by
    simp [answered, needsTime, needsLevel, needsBytes, o.walk.sub, ht, hg]
  have hw : Walk s0 h (sleepFor ms s) (pinActions s0.trace) (past ++ [.sleep ms]) rest 0 := by
    have w := o.walk
    refine ⟨w.ahead.plain (.inr ⟨ms, rfl⟩) rfl rfl rfl, ?_, ?_, ?_, w.cfg, w.resetIn, w.otherBusy, w.draws, w.port,
      w.ready, w.sub, w.cand, w.clock⟩
    · rw [linesTrace_append]; simp [pinActions, Line.actions, w.trace]
    · rw [remoteAfter_append, ← w.remote]; rfl
    · rw [rxbufAfter_append, ← w.rxbuf]; rfl
  obtain ⟨h1, h2⟩ := Op.next hw o.call o.own o.results (.inl ⟨x, p, rfl⟩)
  exact ⟨_, e ▸ Reaches.event o.walk.ready ha, h1, h2⟩

/-- The return of a single operation, with the answer that its test gave. -/
theorem Op.returned {s0 h e : State} {past : List Line} {r : OpResult}
    (w : Walk s0 h e (pinActions s0.trace) past [] 0)
    (ho : e.cmd = s0.cmd ∧ e.tp0 = s0.tp0 ∧ e.rstQ = s0.rstQ ∧ e.stepLbl = .noStep) (hr : SameResults s0 e)
    (hn : e.nssQ = s0.cfg.pin.nssInactive) (hp : Prompt s0 h past 0) : Returned s0 (endCall r e) past r := by
  obtain ⟨hb, hx, _, ts, hl, hc⟩ := w.ahead
  have hts : ts = [] := List.length_eq_zero_iff.mp hl
  subst hts
  obtain ⟨o1, o2, o3, o4⟩ := ho
  refine ⟨⟨rfl, rfl, rfl, rfl, w.port⟩, ⟨w.cfg, o1, o2, o3, w.resetIn, w.otherBusy, w.draws⟩, ⟨hn, rfl, o4, w.cand⟩,
    hr, ?_, w.trace, w.remote, w.rxbuf⟩
  obtain ⟨p1, p2, p3, ts, p4, p5⟩ := hp
  exact ⟨p1.trans (by rw [show (endCall r e).busyIn = h.busyIn from hb]), p2.trans (by rw [show (endCall r e).rxIn = h.rxIn from hx]),
    p3, ts, p4, p5.trans (by rw [show (endCall r e).nowIn = h.nowIn from hc])⟩

/-! ### Whole stages of single operations -/

/-- The working registers that a single operation may write. -/
def State.work (s : State) : CascadeBuffer × Byte × BitVec 9 × Word × Coarse :=
  (s.cb, s.sak, s.rxcnt, s.rval, s.coarse)

/-- What the test of an exchange of a single operation is given. -/
def GotWork (s e : State) (x : Xfer) (rx : List Byte) : Prop :=
  e.work = s.work ∧ e.cfg = s.cfg ∧ e.rxbuf = if x.n = 0 then s.rxbuf else rx

/-- An exchange stage whose test passes: the next stage is entered. -/
theorem Op.pass {s0 h s : State} {past rest : List Line} {g' : Stage} {gs : List Stage} {x : Xfer} {p : Post}
    {rx : List Byte} {W : CascadeBuffer × Byte × BitVec 9 × Word × Coarse} (ha : p.alone = true)
    (o : Op s0 h s past (.xfer x rx :: rest) (.xfer x p :: g' :: gs))
    (hg : (∃ y q, g' = .xfer y q) ∨ ∃ ms, g' = .sleep ms)
    (hpost : ∀ e, GotWork s e x rx → postRes p (postState p e) = .ok ∧ (postState p e).work = W) :
    ∃ k t, Reaches k s t ∧ Op s0 h t (past ++ [.xfer x rx]) rest (g' :: gs) ∧ t.work = W := by
  obtain ⟨k, e, hr, hw, hc, ho, hs, _, ⟨h1, h2, h3, h4, h5⟩, h6⟩ := o.xfer
  obtain ⟨q1, q2⟩ := hpost e ⟨by simp only [State.work, h1, h2, h3, h4, h5], hw.cfg.trans o.walk.cfg.symm, h6⟩
  obtain ⟨⟨k1, k2, k3, k4, k5, k6, k7⟩, r1, r2, r3, _⟩ := postState_keeps p e
  rw [q1] at hr
  obtain ⟨n1, n2, n3, n4, n5, n6, _⟩ := Op.next (postState_walk p hw) (k1.trans hc)
    ⟨k2.trans ho.1, r3.trans ho.2.1, r2.trans ho.2.2.1, k3.trans ho.2.2.2⟩ (hs.trans (postState_results ha e)) hg
  refine ⟨k, _, hr, n1, ?_⟩
  rw [← q2]
  show (nextStage (postState p e)).work = _
  simp only [State.work, n2, n3, n4, n5, n6]

/-- The last exchange of a single operation, with what its test answers. -/
theorem Op.ends {s0 h s : State} {past : List Line} {gs : List Stage} {x : Xfer} {p : Post} {rx : List Byte} {r : PostRes}
    {R : OpResult} {W : CascadeBuffer × Byte × BitVec 9 × Word × Coarse} (ha : p.alone = true)
    (o : Op s0 h s past [.xfer x rx] (.xfer x p :: gs)) (hp : Prompt s0 h (past ++ [.xfer x rx]) 0)
    (hR : (r = .ok ∧ gs = [] ∧ R = .ok) ∨ (∃ d, r = .fail d ∧ R = .fail d) ∨ (r = .stop ∧ R = .ok) ∨
      ∃ v, r = .okState v ∧ R = .okState v)
    (hpost : ∀ e, GotWork s e x rx → postRes p (postState p e) = r ∧ (postState p e).work = W) :
    ∃ k t, Reaches k s t ∧ Returned s0 t (past ++ [.xfer x rx]) R ∧ t.work = W := by
  obtain ⟨k, e, hr, hw, hc, ho, hs, hn, ⟨h1, h2, h3, h4, h5⟩, h6⟩ := o.xfer
  obtain ⟨q1, q2⟩ := hpost e ⟨by simp only [State.work, h1, h2, h3, h4, h5], hw.cfg.trans o.walk.cfg.symm, h6⟩
  obtain ⟨⟨k1, k2, k3, k4, k5, k6, k7⟩, r1, r2, r3, _⟩ := postState_keeps p e
  have hcall := k1.trans hc
  have hend : afterPost (postRes p (postState p e)) (postState p e) = endCall R (postState p e) := by
    rw [q1]
    rcases hR with ⟨rfl, rfl, rfl⟩ | ⟨d, rfl, rfl⟩ | ⟨rfl, rfl⟩ | ⟨v, rfl, rfl⟩
    · simp only [afterPost, nextStage, hcall, List.tail, enterCall]
    · simp only [afterPost, failWith, hcall]
    · simp only [afterPost, hcall]
    · simp only [afterPost, hcall]
  rw [hend] at hr
  exact ⟨k, _, hr, Op.returned (postState_walk p hw)
    ⟨k2.trans ho.1, r3.trans ho.2.1, r2.trans ho.2.2.1, k3.trans ho.2.2.2⟩ (hs.trans (postState_results ha e))
    (r1.trans hn.1) hp, q2⟩

/-- A single operation that runs to its return is what its meaning answers. -/
theorem operation_runs {s t : State} {gs : List Stage} {k : Nat} (hr : s.ready = true)
    (ha : s.runAhead = true) (h : Reaches k (launch gs s) t) (ht : t.ready = true) : operation gs s = .next t := by
  simp only [operation, hr, if_true, h.settles ((launch_runAhead gs s).trans ha) (.inl ht)]

end Sys2Proof.Machine
end

