-- ==== Sys2Proof/Laws/Host.lean ====
section
/-! SUPPORT. Runs of host commands on a prompt busy line, step by step: what one exchange, poll, pin write and sleep do,
how a command ends, and how it is aborted. -/

namespace Sys2Proof.Machine

/-- The result and working registers of a host command. -/
def State.held (s : State) : CascadeBuffer × Byte × BitVec 9 × Word × Uid × UidLen × Byte × Byte :=
  (s.cb, s.sak, s.rxcnt, s.rval, s.uidOut, s.uidLen, s.ver0, s.ver1)

theorem held_cleared {t : State} {v : Word} (h : t.held = (CascadeBuffer.zero, 0, 0, v, Uid.zero, .len0, 0, 0)) :
    Cleared t ∧ t.rval = v := by
  simp only [State.held, Prod.mk.injEq] at h
  obtain ⟨a1, a2, a3, a4, a5, a6, a7, a8⟩ := h
  exact ⟨⟨a5, a6, a7, a8, a1, a2, a3⟩, a4⟩

/-- What the steps of a host command leave alone until its end: the command, its diagnosis, `result`. -/
structure HostOwn (s0 s : State) (c : BitVec 3) (l : StepLabel) : Prop where
  call : s.call = none
  cmd : s.cmd = c
  lbl : s.stepLbl = l
  code : s.diagCode = .dgNone
  dstep : s.diagStep = .noStep
  dtph : s.diagTph = .t0
  result : s.result = s0.result

/-- A walk of the host command `c` at the beginning of its step `l`. -/
structure At (s0 h s : State) (c : BitVec 3) (l : StepLabel) (past rest : List Line) (polls : Nat) : Prop where
  walk : Walk s0 h s (.accept c :: pinActions s0.trace) past rest polls
  own : HostOwn s0 s c l
  entered : ∀ x p, stageOf s.cfg s.cb c l = .xfer x p → AtXfer x s
  outside : (∀ x p, stageOf s.cfg s.cb c l ≠ .xfer x p) → s.tph = .t0

theorem At.stage {s0 h s : State} {c : BitVec 3} {l : StepLabel} {past rest : List Line} {polls : Nat}
    (a : At s0 h s c l past rest polls) : curStage s = stageOf s.cfg s.cb c l := by
  simp only [curStage, a.own.call, a.own.cmd, a.own.lbl]

/-- A step is entered. -/
theorem enterStep_at {s0 h e : State} {c : BitVec 3} {l l' : StepLabel} {past rest : List Line} {polls : Nat}
    (w : Walk s0 h e (.accept c :: pinActions s0.trace) past rest polls) (o : HostOwn s0 e c l) :
    At s0 h (enterStep l' e) c l' past rest polls ∧ (enterStep l' e).held = e.held ∧ (enterStep l' e).nssQ = e.nssQ ∧
      (enterStep l' e).rstQ = e.rstQ ∧ (enterStep l' e).tp0 = e.tp0 ∧ (enterStep l' e).rxbuf = e.rxbuf := by
  have hcmd := o.cmd
  have hg : ∀ g, stageOf e.cfg e.cb e.cmd l' = g → enterStep l' e = enterStage g { e with stepLbl := l' } := by
    intro g hg; rw [← hg]; rfl
  have hw : ∀ u : State, (u.busyIn = e.busyIn ∧ u.nowIn = e.nowIn ∧ u.rxIn = e.rxIn ∧ u.trace = e.trace ∧
      u.remote = e.remote ∧ u.rxbuf = e.rxbuf ∧ u.cfg = e.cfg ∧ u.resetIn = e.resetIn ∧ u.otherBusy = e.otherBusy ∧
      u.draws = e.draws ∧ u.port = e.port ∧ u.ready = e.ready ∧ u.sub = e.sub ∧ u.cand = e.cand) →
      Walk s0 h u (.accept c :: pinActions s0.trace) past rest polls := fun u hu => w.same hu
  cases hc : stageOf e.cfg e.cb e.cmd l' with
  | xfer x p =>
    rw [hg _ hc]
    refine ⟨⟨hw _ ⟨rfl, rfl, rfl, rfl, rfl, rfl, rfl, rfl, rfl, rfl, rfl, rfl, w.sub.symm, rfl⟩,
      ⟨o.call, o.cmd, rfl, o.code, o.dstep, o.dtph, o.result⟩, ?_, ?_⟩, rfl, rfl, rfl, rfl, rfl⟩
    · intro x' p' hx
      have : stageOf e.cfg e.cb c l' = .xfer x' p' := hx
      rw [← hcmd, hc] at this; cases this; exact ⟨rfl, rfl, rfl⟩
    · intro hx
      refine absurd ?_ (hx x p)
      show stageOf e.cfg e.cb c l' = _
      rw [← hcmd, hc]
  | _ =>
    rw [hg _ hc]
    refine ⟨⟨hw _ ⟨rfl, rfl, rfl, rfl, rfl, rfl, rfl, rfl, rfl, rfl, rfl, rfl, w.sub.symm, rfl⟩,
      ⟨o.call, o.cmd, rfl, o.code, o.dstep, o.dtph, o.result⟩, ?_, ?_⟩, rfl, rfl, rfl, rfl, rfl⟩
    · intro x' p' hx
      have : stageOf e.cfg e.cb c l' = .xfer x' p' := hx
      rw [← hcmd, hc] at this; cases this
    · intro _; rfl

/-- Accept puts a host command at the beginning of its first step. -/
theorem accept_at {s h : State} {c : BitVec 3} {l : StepLabel} {ls : List Line} {polls : Nat}
    (hl : firstStep c = some l) (hp : Prompt s h ls polls) :
    At s h (accept c s) c l [] ls polls ∧
      (accept c s).held = (CascadeBuffer.zero, 0, 0, 0, Uid.zero, .len0, 0, 0) ∧ (accept c s).nssQ = s.nssQ ∧
      (accept c s).rstQ = s.rstQ := by
  have e : accept c s = enterStep l (acceptRegs c s) := by simp only [accept, hl]
  rw [e]
  obtain ⟨h1, h2, h3, h4, h5, h6⟩ := enterStep_at (s0 := s) (h := h) (e := acceptRegs c s) (c := c) (l := .noStep) (l' := l)
    (past := []) (rest := ls) (polls := polls)
    ⟨hp.congr rfl rfl rfl, rfl, rfl, rfl, rfl, rfl, rfl, rfl, rfl, rfl, rfl, rfl, [], rfl⟩ ⟨rfl, rfl, rfl, rfl, rfl, rfl, rfl⟩
  exact ⟨h1, h2, h3, h4⟩

/-- The current step has passed: the next one is entered. -/
theorem nextStage_at {s0 h e : State} {c : BitVec 3} {l l' : StepLabel} {past rest : List Line} {polls : Nat}
    (w : Walk s0 h e (.accept c :: pinActions s0.trace) past rest polls) (o : HostOwn s0 e c l)
    (hn : nextStep c l = some l') :
    At s0 h (nextStage e) c l' past rest polls ∧ (nextStage e).held = e.held ∧ (nextStage e).nssQ = e.nssQ ∧
      (nextStage e).rstQ = e.rstQ ∧ (nextStage e).tp0 = e.tp0 ∧ (nextStage e).rxbuf = e.rxbuf := by
  have h0 : nextStage e = enterStep l' e := by simp only [nextStage, o.call, advance, o.cmd, o.lbl, hn]
  rw [h0]
  exact enterStep_at w o

/-- The exchange of a step, up to the step's own test. -/
theorem At.xfer {s0 h s : State} {c : BitVec 3} {l : StepLabel} {past rest : List Line} {polls : Nat} {x : Xfer}
    {p : Post} {rx : List Byte} (a : At s0 h s c l past (.xfer x rx :: rest) polls)
    (hg : stageOf s.cfg s.cb c l = .xfer x p) :
    ∃ k e, Reaches k s (afterPost (postRes p (postState p e)) (postState p e)) ∧
      Walk s0 h e (.accept c :: pinActions s0.trace) (past ++ [.xfer x rx]) rest polls ∧ HostOwn s0 e c l ∧
      e.held = s.held ∧ e.nssQ = s0.cfg.pin.nssInactive ∧ e.rstQ = s.rstQ ∧ e.tp0 = s.tp0 ∧ e.tph = .t0 ∧
      e.rxbuf = if x.n = 0 then s.rxbuf else rx := by
  obtain ⟨k, bs, ts, rs, w0, tr, hw, hreach⟩ := a.walk.xfer (a.entered x p hg)
  have hp : (curStage s).post = p := by rw [a.stage, hg]; rfl
  rw [hp] at hreach
  have o := a.own
  exact ⟨k, _, hreach, hw, ⟨o.call, o.cmd, o.lbl, o.code, o.dstep, o.dtph, o.result⟩, rfl, by rw [← a.walk.cfg]; rfl, rfl,
    rfl, rfl, rfl⟩

/-- The start of a poll and its first exchange, up to the poll's own test. -/
theorem At.poll {s0 h s : State} {c : BitVec 3} {l : StepLabel} {past rest : List Line} {polls : Nat} {x : Xfer}
    {p : Post} {ms : Nat} {rx : List Byte} (a : At s0 h s c l past (.xfer x rx :: rest) (polls + 1))
    (hg : stageOf s.cfg s.cb c l = .poll x p ms) :
    ∃ k e t ts, s.nowIn = t :: ts ∧ Reaches k s (afterPost (postRes p (postState p e)) (postState p e)) ∧
      Walk s0 h e (.accept c :: pinActions s0.trace) (past ++ [.xfer x rx]) rest polls ∧ HostOwn s0 e c l ∧
      e.held = s.held ∧ e.nssQ = s0.cfg.pin.nssInactive ∧ e.rstQ = s.rstQ ∧ e.tp0 = clockValue s.cfg t ∧
      e.tph = .t0 ∧ e.rxbuf = if x.n = 0 then s.rxbuf else rx := by
  obtain ⟨t, ts, ht, hpr⟩ := a.walk.ahead.poll
  have hs := a.walk.sub
  have h0 : s.tph = .t0 := a.outside (by intro x' p'; rw [hg]; intro e; cases e)
  have hcs : curStage s = .poll x p ms := a.stage.trans hg
  let u : State := startXfer x { readClock s with tp0 := s.nextTime }
  have he : event s = u := by simp only [event, hs, startEvent, h0, hcs, stageEvent]; rfl
  have ha : answered s = true := by
    simp [answered, needsTime, needsLevel, needsBytes, hs, h0, hcs, ht]
  have w := a.walk
  have o := a.own
  have wu : Walk s0 h u (.accept c :: pinActions s0.trace) past (.xfer x rx :: rest) polls :=
    ⟨hpr u rfl (by show s.nowIn.tail = ts; rw [ht]; rfl) rfl, w.trace, w.remote, w.rxbuf, w.cfg, w.resetIn, w.otherBusy,
      by show (if s.nowIn.isEmpty then s.draws + 1 else s.draws) = _; rw [ht]; exact w.draws, w.port, w.ready, rfl, w.cand, by
        obtain ⟨used, hu⟩ := w.clock
        exact ⟨used ++ [t], by rw [hu, ht, List.append_assoc]; show _ = used ++ ([t] ++ s.nowIn.tail); rw [ht]; rfl⟩⟩
  obtain ⟨k, bs, ts', rs, w0, tr, hw, hreach⟩ := wu.xfer (x := x) (rx := rx) ⟨rfl, rfl, rfl⟩
  have hp : (curStage u).post = p := by
    have : curStage u = curStage s := rfl
    rw [this, hcs]; rfl
  rw [hp] at hreach
  refine ⟨k + 1, _, t, ts, ht, (Reaches.event w.ready ha).trans (he ▸ hreach), hw,
    ⟨o.call, o.cmd, o.lbl, o.code, o.dstep, o.dtph, o.result⟩, rfl, by rw [← w.cfg]; rfl, rfl, ?_, rfl, rfl⟩
  exact nextTime_cons ht

/-- A sleep of a host command, and the step after it. -/
theorem At.sleep {s0 h s : State} {c : BitVec 3} {l l' : StepLabel} {past rest : List Line} {polls ms : Nat}
    (a : At s0 h s c l past (.sleep ms :: rest) polls) (hg : stageOf s.cfg s.cb c l = .sleep ms)
    (hn : nextStep c l = some l') :
    ∃ t, Reaches 1 s t ∧ At s0 h t c l' (past ++ [.sleep ms]) rest polls ∧ t.held = s.held ∧ t.nssQ = s.nssQ ∧
      t.rstQ = s.rstQ ∧ t.rxbuf = s.rxbuf := by
  have w := a.walk
  have o := a.own
  have h0 : s.tph = .t0 := a.outside (by intro x' p'; rw [hg]; intro e; cases e)
  have hcs : curStage s = .sleep ms := a.stage.trans hg
  have he : event s = nextStage (sleepFor ms s) := by simp only [event, w.sub, startEvent, h0, hcs, stageEvent]
  have ha : answered s = true := by simp [answered, needsTime, needsLevel, needsBytes, w.sub, h0, hcs]
  have hw : Walk s0 h (sleepFor ms s) (.accept c :: pinActions s0.trace) (past ++ [.sleep ms]) rest polls := by
    refine ⟨w.ahead.plain (.inr ⟨ms, rfl⟩) rfl rfl rfl, ?_, ?_, ?_, w.cfg, w.resetIn, w.otherBusy, w.draws, w.port,
      w.ready, w.sub, w.cand, w.clock⟩
    · rw [linesTrace_append]; simp [pinActions, Line.actions, w.trace]
    · rw [remoteAfter_append, ← w.remote]; rfl
    · rw [rxbufAfter_append, ← w.rxbuf]; rfl
  obtain ⟨h1, h2, h3, h4, _, h6⟩ := nextStage_at (e := sleepFor ms s) hw
    ⟨o.call, o.cmd, o.lbl, o.code, o.dstep, o.dtph, o.result⟩ hn
  exact ⟨_, he ▸ Reaches.event w.ready ha, h1, h2, h3, h4, h6⟩

/-- A pin write of a host command, and the step after it. -/
theorem At.pin {s0 h s : State} {c : BitVec 3} {l l' : StepLabel} {past rest : List Line} {polls : Nat} {p : Pin}
    {v : Level} (a : At s0 h s c l past (.pin p v :: rest) polls) (hg : stageOf s.cfg s.cb c l = .pin p v)
    (hn : nextStep c l = some l') :
    ∃ t, Reaches 1 s t ∧ At s0 h t c l' (past ++ [.pin p v]) rest polls ∧ t.held = s.held ∧
      t.nssQ = (match p with | .nss => v | .rst => s.nssQ) ∧ t.rstQ = (match p with | .nss => s.rstQ | .rst => v) ∧
      t.rxbuf = s.rxbuf := by
  have w := a.walk
  have o := a.own
  have h0 : s.tph = .t0 := a.outside (by intro x' p'; rw [hg]; intro e; cases e)
  have hcs : curStage s = .pin p v := a.stage.trans hg
  have he : event s = nextStage (drivePin p v s) := by simp only [event, w.sub, startEvent, h0, hcs, stageEvent]
  have ha : answered s = true := by simp [answered, needsTime, needsLevel, needsBytes, w.sub, h0, hcs]
  have hw : Walk s0 h (drivePin p v s) (.accept c :: pinActions s0.trace) (past ++ [.pin p v]) rest polls := by
    cases p
    · refine ⟨w.ahead.plain (.inl ⟨.nss, v, rfl⟩) rfl rfl rfl, ?_, ?_, ?_, w.cfg, w.resetIn, w.otherBusy, w.draws, w.port,
        w.ready, w.sub, w.cand, w.clock⟩
      · rw [linesTrace_append]; simp [drivePin, pinActions, Line.actions, w.trace]
      · rw [remoteAfter_append, ← w.remote]; rfl
      · rw [rxbufAfter_append, ← w.rxbuf]; rfl
    · refine ⟨w.ahead.plain (.inl ⟨.rst, v, rfl⟩) rfl rfl rfl, ?_, ?_, ?_, w.cfg, w.resetIn, w.otherBusy, w.draws, w.port,
        w.ready, w.sub, w.cand, w.clock⟩
      · rw [linesTrace_append]; simp [drivePin, pinActions, Line.actions, w.trace]
      · rw [remoteAfter_append, ← w.remote, ← w.cfg]; rfl
      · rw [rxbufAfter_append, ← w.rxbuf]; rfl
  have ho : HostOwn s0 (drivePin p v s) c l := by
    cases p <;> exact ⟨o.call, o.cmd, o.lbl, o.code, o.dstep, o.dtph, o.result⟩
  obtain ⟨h1, h2, h3, h4, _, h6⟩ := nextStage_at hw ho hn
  refine ⟨_, he ▸ Reaches.event w.ready ha, h1, h2.trans ?_, h3.trans ?_, h4.trans ?_, h6.trans ?_⟩ <;> cases p <;> rfl

/-! ### The two ends -/

theorem Prompt.total {s0 h t : State} {past : List Line} {polls : Nat} (hp : Prompt s0 h past polls)
    (ht : Prompt t h [] 0) : Prompt s0 t past polls := by
  obtain ⟨p1, p2, p3, ts, p4, p5⟩ := hp
  obtain ⟨hb, hx, _, ts', hl, hc⟩ := ht
  have : ts' = [] := List.length_eq_zero_iff.mp hl
  subst this
  exact ⟨p1.trans (by rw [show t.busyIn = h.busyIn from hb]), p2.trans (by rw [show t.rxIn = h.rxIn from hx]), p3, ts, p4,
    p5.trans (by rw [show t.nowIn = h.nowIn from hc])⟩

/-- A host command whose last test answers `finish`: one event later it is `Done`. -/
theorem finish_at {s0 h e : State} {c : BitVec 3} {l : StepLabel} {past : List Line} {polls : Nat} (st : Status)
    (w : Walk s0 h e (.accept c :: pinActions s0.trace) past [] 0) (o : HostOwn s0 e c l)
    (hp : Prompt s0 h past polls) :
    ∃ t, Reaches 1 ({ e with tph := .t0, sub := .fin st } : State) t ∧ Finished s0 t c past polls st .dgNone .noStep ∧
      t.held = e.held ∧ t.nssQ = e.nssQ ∧ t.rstQ = e.rstQ ∧ t.nowIn = e.nowIn := by
  have ha : answered ({ e with tph := .t0, sub := .fin st } : State) = true := rfl
  refine ⟨done st { e with tph := .t0, sub := .fin st }, Reaches.event w.ready ha, ⟨⟨rfl, o.cmd, rfl, rfl, rfl, rfl, rfl,
    rfl, w.port⟩, ⟨o.code, o.dstep, o.dtph⟩, ⟨w.cfg, o.result, w.resetIn, w.otherBusy, w.draws⟩, ?_, ?_, w.remote,
    w.rxbuf⟩, rfl, rfl, rfl, rfl⟩
  · exact hp.total (w.ahead.congr rfl rfl rfl)
  · simp [pinActions, w.trace]

/-- A host command that is aborted outside an exchange: the `Log` record and `Done` are the two events after it. -/
theorem raise_at {s0 h e : State} {c : BitVec 3} {l : StepLabel} {past : List Line} {polls : Nat} {d : DiagCode}
    (w : Walk s0 h e (.accept c :: pinActions s0.trace) past [] 0) (o : HostOwn s0 e c l)
    (hp : Prompt s0 h past polls) (hd : d ≠ .dgNone) :
    ∃ t, Reaches 2 (failWith d e) t ∧ Finished s0 t c past polls (abortStatus c) d l ∧
      (t.cb = e.cb ∧ t.sak = e.sak ∧ t.rxcnt = e.rxcnt ∧ t.rval = e.rval) ∧
      (t.uidOut = Uid.zero ∧ t.uidLen = .len0 ∧ t.ver0 = 0 ∧ t.ver1 = 0) ∧ t.nssQ = e.nssQ ∧ t.rstQ = e.rstQ ∧
      t.nowIn = e.nowIn := by
  have hf : failWith d e = raise d e := by simp only [failWith, o.call]
  have r1 : Reaches 1 (raise d e) (logAbort (raise d e)) := Reaches.event (s := raise d e) w.ready rfl
  have r2 : Reaches 1 (logAbort (raise d e)) (done (abortStatus e.cmd) (logAbort (raise d e))) :=
    Reaches.event (s := logAbort (raise d e)) w.ready rfl
  rw [hf]
  refine ⟨_, r1.trans r2, ⟨⟨rfl, o.cmd, ?_, rfl, rfl, rfl, rfl, rfl, w.port⟩, ⟨rfl, o.lbl, w.cand⟩,
    ⟨w.cfg, o.result, w.resetIn, w.otherBusy, w.draws⟩, ?_, ?_, w.remote, w.rxbuf⟩, ⟨rfl, rfl, rfl, rfl⟩,
    ⟨rfl, rfl, rfl, rfl⟩, rfl, rfl, rfl⟩
  · rw [← o.cmd]; rfl
  · exact hp.total (w.ahead.congr rfl rfl rfl)
  · simp [pinActions, w.trace, o.cmd, w.cand, o.lbl, hd, w.cfg]

/-! ### Whole steps -/

theorem postState_own {s0 e : State} {c : BitVec 3} {l : StepLabel} (p : Post) (o : HostOwn s0 e c l) :
    HostOwn s0 (postState p e) c l := by
  obtain ⟨⟨h1, h2, h3, h4, h5, h6, h7⟩, _⟩ := postState_keeps p e
  exact ⟨h1.trans o.call, h2.trans o.cmd, h3.trans o.lbl, h4.trans o.code, h5.trans o.dstep, h6.trans o.dtph,
    h7.trans o.result⟩

/-- What the test of an exchange or of a poll is given: the registers as they were, the configuration, and the answer. -/
def GotAnswer (s e : State) (x : Xfer) (rx : List Byte) : Prop :=
  e.held = s.held ∧ e.cfg = s.cfg ∧ e.rxbuf = if x.n = 0 then s.rxbuf else rx

/-- An exchange step whose test passes: the next step is entered. -/
theorem At.pass {s0 h s : State} {c : BitVec 3} {l l' : StepLabel} {past rest : List Line} {polls : Nat} {x : Xfer}
    {p : Post} {rx : List Byte} {H : CascadeBuffer × Byte × BitVec 9 × Word × Uid × UidLen × Byte × Byte}
    (a : At s0 h s c l past (.xfer x rx :: rest) polls) (hg : stageOf s.cfg s.cb c l = .xfer x p)
    (hn : nextStep c l = some l')
    (hpost : ∀ e, GotAnswer s e x rx → postRes p (postState p e) = .ok ∧ (postState p e).held = H) :
    ∃ k t, Reaches k s t ∧ At s0 h t c l' (past ++ [.xfer x rx]) rest polls ∧ t.held = H ∧
      t.nssQ = s0.cfg.pin.nssInactive ∧ t.rstQ = s.rstQ := by
  obtain ⟨k, e, hr, hw, ho, h1, h2, h3, _, _, h6⟩ := a.xfer hg
  obtain ⟨q1, q2⟩ := hpost e ⟨h1, hw.cfg.trans a.walk.cfg.symm, h6⟩
  obtain ⟨n1, n2, n3, n4, _, _⟩ := nextStage_at (postState_walk p hw) (postState_own p ho) hn
  obtain ⟨_, r1, r2, _⟩ := postState_keeps p e
  rw [q1] at hr
  exact ⟨k, _, hr, n1, n2.trans q2, n3.trans (r1.trans h2), n4.trans (r2.trans h3)⟩

/-- A poll step whose first read passes. -/
theorem At.passPoll {s0 h s : State} {c : BitVec 3} {l l' : StepLabel} {past rest : List Line} {polls ms : Nat} {x : Xfer}
    {p : Post} {rx : List Byte} {H : CascadeBuffer × Byte × BitVec 9 × Word × Uid × UidLen × Byte × Byte}
    (a : At s0 h s c l past (.xfer x rx :: rest) (polls + 1)) (hg : stageOf s.cfg s.cb c l = .poll x p ms)
    (hn : nextStep c l = some l')
    (hpost : ∀ e, GotAnswer s e x rx → postRes p (postState p e) = .ok ∧ (postState p e).held = H) :
    ∃ k t, Reaches k s t ∧ At s0 h t c l' (past ++ [.xfer x rx]) rest polls ∧ t.held = H ∧
      t.nssQ = s0.cfg.pin.nssInactive ∧ t.rstQ = s.rstQ := by
  obtain ⟨k, e, _, _, _, hr, hw, ho, h1, h2, h3, _, _, h6⟩ := a.poll hg
  obtain ⟨q1, q2⟩ := hpost e ⟨h1, hw.cfg.trans a.walk.cfg.symm, h6⟩
  obtain ⟨n1, n2, n3, n4, _, _⟩ := nextStage_at (postState_walk p hw) (postState_own p ho) hn
  obtain ⟨_, r1, r2, _⟩ := postState_keeps p e
  rw [q1] at hr
  exact ⟨k, _, hr, n1, n2.trans q2, n3.trans (r1.trans h2), n4.trans (r2.trans h3)⟩

/-- The last exchange of a host command, whose test fails: the abort. -/
theorem At.fails {s0 h s : State} {c : BitVec 3} {l : StepLabel} {past : List Line} {polls : Nat} {x : Xfer} {p : Post}
    {rx : List Byte} {d : DiagCode} {H : CascadeBuffer × Byte × BitVec 9 × Word × Uid × UidLen × Byte × Byte}
    (a : At s0 h s c l past [.xfer x rx] 0) (hg : stageOf s.cfg s.cb c l = .xfer x p)
    (hp : Prompt s0 h (past ++ [.xfer x rx]) polls) (hd : d ≠ .dgNone)
    (hpost : ∀ e, GotAnswer s e x rx → postRes p (postState p e) = .fail d ∧ (postState p e).held = H) :
    ∃ k t, Reaches k s t ∧ Finished s0 t c (past ++ [.xfer x rx]) polls (abortStatus c) d l ∧
      (t.cb, t.sak, t.rxcnt, t.rval) = (H.1, H.2.1, H.2.2.1, H.2.2.2.1) ∧
      (t.uidOut = Uid.zero ∧ t.uidLen = .len0 ∧ t.ver0 = 0 ∧ t.ver1 = 0) ∧
      t.nssQ = s0.cfg.pin.nssInactive ∧ t.rstQ = s.rstQ := by
  obtain ⟨k, e, hr, hw, ho, h1, h2, h3, _, _, h6⟩ := a.xfer hg
  obtain ⟨q1, rfl⟩ := hpost e ⟨h1, hw.cfg.trans a.walk.cfg.symm, h6⟩
  obtain ⟨_, r1, r2, _⟩ := postState_keeps p e
  obtain ⟨t, f1, f2, ⟨f3, f4, f5, f6⟩, f7, f8, f9, _⟩ := raise_at (postState_walk p hw) (postState_own p ho) hp hd
  rw [q1] at hr
  exact ⟨_, t, hr.trans f1, f2, by rw [f3, f4, f5, f6]; rfl, f7, f8.trans (r1.trans h2), f9.trans (r2.trans h3)⟩

/-- The last exchange of a host command, whose test answers `finish`. -/
theorem At.finishes {s0 h s : State} {c : BitVec 3} {l : StepLabel} {past : List Line} {polls : Nat} {x : Xfer} {p : Post}
    {rx : List Byte} {st : Status} {H : CascadeBuffer × Byte × BitVec 9 × Word × Uid × UidLen × Byte × Byte}
    (a : At s0 h s c l past [.xfer x rx] 0) (hg : stageOf s.cfg s.cb c l = .xfer x p)
    (hp : Prompt s0 h (past ++ [.xfer x rx]) polls)
    (hpost : ∀ e, GotAnswer s e x rx → postRes p (postState p e) = .finish st ∧ (postState p e).held = H) :
    ∃ k t, Reaches k s t ∧ Finished s0 t c (past ++ [.xfer x rx]) polls st .dgNone .noStep ∧ t.held = H ∧
      t.nssQ = s0.cfg.pin.nssInactive ∧ t.rstQ = s.rstQ := by
  obtain ⟨k, e, hr, hw, ho, h1, h2, h3, _, _, h6⟩ := a.xfer hg
  obtain ⟨q1, rfl⟩ := hpost e ⟨h1, hw.cfg.trans a.walk.cfg.symm, h6⟩
  obtain ⟨_, r1, r2, _⟩ := postState_keeps p e
  obtain ⟨t, f1, f2, f3, f4, f5, _⟩ := finish_at st (postState_walk p hw) (postState_own p ho) hp
  rw [q1] at hr
  exact ⟨_, t, hr.trans f1, f2, f3, f4.trans (r1.trans h2), f5.trans (r2.trans h3)⟩

/-- The time test of a poll, late. -/
theorem reaches_expired {u : State} {x : Xfer} {p : Post} {ms : Nat} {t : Time} {ts : List Time} (hr : u.ready = false)
    (hs : u.sub = .time) (ht : u.tph = .t0) (hg : curStage u = .poll x p ms) (hn : u.nowIn = t :: ts)
    (hl : late u.cfg u.tp0 t ms = true) : Reaches 1 u (failWith (expiredCode u.stepLbl) (readClock u)) := by
  have he : event u = failWith (expiredCode u.stepLbl) (readClock u) := by
    simp only [event, hs, timeEvent, ht, waitLevel, hg, pollTimeEvent, nextTime_cons hn, late_clock_end, hl, if_true]
  rw [← he]
  refine Reaches.event hr ?_
  simp [answered, needsTime, needsLevel, needsBytes, hs, ht, hg, hn]

/-- A poll whose first read does not pass and whose first time test is late: the abort. -/
theorem At.expires {s0 h s : State} {c : BitVec 3} {l : StepLabel} {past : List Line} {polls ms : Nat} {x : Xfer}
    {p : Post} {rx : List Byte} {d : DiagCode} {z : Time} {ts : List Time}
    {H : CascadeBuffer × Byte × BitVec 9 × Word × Uid × UidLen × Byte × Byte} (a : At s0 h s c l past [.xfer x rx] 1)
    (hg : stageOf s.cfg s.cb c l = .poll x p ms) (hcb : ∀ e : State, (postState p e).cb = e.cb)
    (hd : expiredCode l = d) (hdn : d ≠ .dgNone) (hh : h.nowIn = z :: ts)
    (hl : ∀ t ts, s.nowIn = t :: ts → late s.cfg t z ms = true) (hp : Prompt s0 h (past ++ [.xfer x rx]) polls)
    (hpost : ∀ e, GotAnswer s e x rx → postRes p (postState p e) = .again ∧ (postState p e).held = H) :
    ∃ k t, Reaches k s t ∧ Finished s0 t c (past ++ [.xfer x rx]) (polls + 1) (abortStatus c) d l ∧
      (t.cb, t.sak, t.rxcnt, t.rval) = (H.1, H.2.1, H.2.2.1, H.2.2.2.1) ∧
      (t.uidOut = Uid.zero ∧ t.uidLen = .len0 ∧ t.ver0 = 0 ∧ t.ver1 = 0) ∧
      t.nssQ = s0.cfg.pin.nssInactive ∧ t.rstQ = s.rstQ ∧ t.nowIn = ts := by
  obtain ⟨k, e, t0, ts0, hn, hr, hw, ho, h1, h2, h3, h4, h5, h6⟩ := a.poll hg
  obtain ⟨q1, rfl⟩ := hpost e ⟨h1, hw.cfg.trans a.walk.cfg.symm, h6⟩
  rw [q1] at hr
  have w := postState_walk p hw
  have o := postState_own p ho
  obtain ⟨_, r1, r2, r3, r4, r5, r6⟩ := postState_keeps p e
  have hcb' : (postState p e).cb = s.cb := by
    rw [hcb]; have := h1; simp only [State.held, Prod.mk.injEq] at this; exact this.1
  have hnow : (postState p e).nowIn = z :: ts := by
    obtain ⟨_, _, _, ts', h7, h8⟩ := w.ahead
    have : ts' = [] := List.length_eq_zero_iff.mp h7
    subst this; rw [h8, hh]; rfl
  have hev := reaches_expired (u := { postState p e with tph := .t0, sub := .time }) (x := x) (p := p) (ms := ms) w.ready rfl
    rfl (by
      simp only [curStage, o.call, o.cmd, o.lbl]
      show stageOf (postState p e).cfg (postState p e).cb c l = _
      rw [hcb', r6, hw.cfg, ← a.walk.cfg]; exact hg) hnow
    (by
      show late (postState p e).cfg (postState p e).tp0 z ms = true
      rw [r3, h4, r6, hw.cfg, ← a.walk.cfg, late_clock_start]; exact hl _ _ hn)
  have hd' : expiredCode (postState p e).stepLbl = d := by rw [o.lbl]; exact hd
  have hfe : failWith (expiredCode (postState p e).stepLbl) (readClock { postState p e with tph := .t0, sub := .time }) =
      failWith d (readClock (postState p e)) := by
    have hc1 : (readClock { postState p e with tph := .t0, sub := .time }).call = none := o.call
    have hc2 : (readClock (postState p e)).call = none := o.call
    simp only [failWith, hc1, hc2, hd']; rfl
  have w' : Walk s0 { h with nowIn := ts } (readClock (postState p e)) (.accept c :: pinActions s0.trace) (past ++ [.xfer x rx]) [] 0 := by
    obtain ⟨hb, hx, _, ts', h7, h8⟩ := w.ahead
    refine ⟨⟨hb, hx, by intro x r h; (cases h), [], rfl, ?_⟩, w.trace, w.remote, w.rxbuf, w.cfg, w.resetIn, w.otherBusy,
      ?_, w.port, w.ready, w.sub, w.cand, ?_⟩
    · show (postState p e).nowIn.tail = _; rw [hnow]; rfl
    · show (if (postState p e).nowIn.isEmpty then _ else _) = _
      rw [hnow]; exact w.draws
    · obtain ⟨used, hu⟩ := w.clock
      refine ⟨used ++ [z], ?_⟩
      show _ = used ++ [z] ++ (postState p e).nowIn.tail
      rw [hu, hnow, List.append_assoc]; rfl
  have hp' : Prompt s0 { h with nowIn := ts } (past ++ [.xfer x rx]) (polls + 1) := by
    obtain ⟨p1, p2, p3, us, p4, p5⟩ := hp
    exact ⟨p1, p2, p3, us ++ [z], by rw [List.length_append, p4]; rfl, by rw [p5, hh]; simp⟩
  obtain ⟨t, f1, f2, ⟨f3, f4, f5, f6⟩, f7, f8, f9, f10⟩ := raise_at w' ⟨o.call, o.cmd, o.lbl, o.code, o.dstep, o.dtph, o.result⟩ hp' hdn
  exact ⟨_, t, (hr.trans (hfe ▸ hev)).trans f1, f2, by rw [f3, f4, f5, f6]; rfl, f7, f8.trans (r1.trans h2), f9.trans (r2.trans h3), f10.trans (by show (postState p e).nowIn.tail = _; rw [hnow]; rfl)⟩

/-- A host command that runs to an end is what its meaning answers. -/
theorem hostCommand_runs {s t : State} {c : BitVec 3} {k : Nat} (hr : s.ready = true)
    (ha : s.runAhead = true) (h : Reaches k (accept c s) t) (ht : t.ready = true) : hostCommand c s = .next t := by
  simp only [hostCommand, hr, if_true, h.settles ((accept_runAhead c s).trans ha) (.inl ht)]

end Sys2Proof.Machine
end

