-- ==== Sys2Proof/Laws/PerInstr.lean ====
section
/-! SUPPORT. The form of every instruction, one lemma per constructor: a host code, or one to nine bytes with a response
length of one byte (30_encoding.md R71, R74, R75, R80). -/

namespace Sys2Proof.Laws.Shape

/-- A well-formed instruction is presented as a host code, or as one to nine bytes with a response length of one byte. -/
def Statement (i : Instr) : Prop :=
  i.wf = true → match encode specCfg i with
    | .host _ => True
    | .op _ bytes n => 1 ≤ bytes.length ∧ bytes.length ≤ 9 ∧ n ≤ 255

theorem beginCmd : Statement .beginCmd := fun _ => trivial

theorem resetCmd : Statement .resetCmd := fun _ => trivial

theorem getFirmware : Statement .getFirmware := fun _ => trivial

theorem getProductVersion : Statement .getProductVersion := fun _ => trivial

theorem getEepromVersion : Statement .getEepromVersion := fun _ => trivial

theorem readCardSerial : Statement .readCardSerial := fun _ => trivial

theorem reserved110 : Statement .reserved110 := fun _ => trivial

theorem reserved111 : Statement .reserved111 := fun _ => trivial

theorem writeRegister (a : Byte) (v : Word) : Statement (.writeRegister a v) := fun _ =>
  ⟨Nat.le_of_ble_eq_true rfl, Nat.le_of_ble_eq_true rfl, Nat.le_of_ble_eq_true rfl⟩

theorem writeRegisterOrMask (a : Byte) (m : Word) : Statement (.writeRegisterOrMask a m) := fun _ =>
  ⟨Nat.le_of_ble_eq_true rfl, Nat.le_of_ble_eq_true rfl, Nat.le_of_ble_eq_true rfl⟩

theorem writeRegisterAndMask (a : Byte) (m : Word) : Statement (.writeRegisterAndMask a m) := fun _ =>
  ⟨Nat.le_of_ble_eq_true rfl, Nat.le_of_ble_eq_true rfl, Nat.le_of_ble_eq_true rfl⟩

theorem readRegister (a : Byte) : Statement (.readRegister a) := fun _ =>
  ⟨Nat.le_of_ble_eq_true rfl, Nat.le_of_ble_eq_true rfl, Nat.le_of_ble_eq_true rfl⟩

theorem readEeprom (a n : Byte) : Statement (.readEeprom a n) := fun _ =>
  ⟨Nat.le_of_ble_eq_true rfl, Nat.le_of_ble_eq_true rfl, Nat.le_of_lt_succ n.isLt⟩

theorem sendData (vb : Byte) (d : List Byte) : Statement (.sendData vb d) := by
  intro h
  simp only [Instr.wf, Bool.and_eq_true, decide_eq_true_eq] at h
  show 1 ≤ (_ :: _ :: d).length ∧ (_ :: _ :: d).length ≤ 9 ∧ 0 ≤ 255
  simp only [List.length_cons]
  omega

theorem readData (n : Byte) : Statement (.readData n) := fun _ =>
  ⟨Nat.le_of_ble_eq_true rfl, Nat.le_of_ble_eq_true rfl, Nat.le_of_lt_succ n.isLt⟩

theorem loadRfConfig (t r : Byte) : Statement (.loadRfConfig t r) := fun _ =>
  ⟨Nat.le_of_ble_eq_true rfl, Nat.le_of_ble_eq_true rfl, Nat.le_of_ble_eq_true rfl⟩

theorem rfOn : Statement .rfOn := fun _ =>
  ⟨Nat.le_of_ble_eq_true rfl, Nat.le_of_ble_eq_true rfl, Nat.le_of_ble_eq_true rfl⟩

theorem reqa : Statement .reqa := fun _ =>
  ⟨Nat.le_of_ble_eq_true rfl, Nat.le_of_ble_eq_true rfl, Nat.le_of_ble_eq_true rfl⟩

theorem anticollL1 : Statement .anticollL1 := fun _ =>
  ⟨Nat.le_of_ble_eq_true rfl, Nat.le_of_ble_eq_true rfl, Nat.le_of_ble_eq_true rfl⟩

theorem selectL1 (u0 u1 u2 u3 bcc : Byte) : Statement (.selectL1 u0 u1 u2 u3 bcc) := fun _ =>
  ⟨Nat.le_of_ble_eq_true rfl, Nat.le_of_ble_eq_true rfl, Nat.le_of_ble_eq_true rfl⟩

theorem anticollL2 : Statement .anticollL2 := fun _ =>
  ⟨Nat.le_of_ble_eq_true rfl, Nat.le_of_ble_eq_true rfl, Nat.le_of_ble_eq_true rfl⟩

theorem getIrqStatus : Statement .getIrqStatus := fun _ =>
  ⟨Nat.le_of_ble_eq_true rfl, Nat.le_of_ble_eq_true rfl, Nat.le_of_ble_eq_true rfl⟩

theorem clearIrqStatus (m : Word) : Statement (.clearIrqStatus m) := fun _ =>
  ⟨Nat.le_of_ble_eq_true rfl, Nat.le_of_ble_eq_true rfl, Nat.le_of_ble_eq_true rfl⟩

theorem getTransceiveState : Statement .getTransceiveState := fun _ =>
  ⟨Nat.le_of_ble_eq_true rfl, Nat.le_of_ble_eq_true rfl, Nat.le_of_ble_eq_true rfl⟩

theorem getRxCount : Statement .getRxCount := fun _ =>
  ⟨Nat.le_of_ble_eq_true rfl, Nat.le_of_ble_eq_true rfl, Nat.le_of_ble_eq_true rfl⟩

theorem checkWaitTransmit : Statement .checkWaitTransmit := fun _ =>
  ⟨Nat.le_of_ble_eq_true rfl, Nat.le_of_ble_eq_true rfl, Nat.le_of_ble_eq_true rfl⟩

theorem cryptoOff : Statement .cryptoOff := fun _ =>
  ⟨Nat.le_of_ble_eq_true rfl, Nat.le_of_ble_eq_true rfl, Nat.le_of_ble_eq_true rfl⟩

theorem crcOff : Statement .crcOff := fun _ =>
  ⟨Nat.le_of_ble_eq_true rfl, Nat.le_of_ble_eq_true rfl, Nat.le_of_ble_eq_true rfl⟩

theorem crcOn : Statement .crcOn := fun _ =>
  ⟨Nat.le_of_ble_eq_true rfl, Nat.le_of_ble_eq_true rfl, Nat.le_of_ble_eq_true rfl⟩

theorem setIdle : Statement .setIdle := fun _ =>
  ⟨Nat.le_of_ble_eq_true rfl, Nat.le_of_ble_eq_true rfl, Nat.le_of_ble_eq_true rfl⟩

theorem setTransceive : Statement .setTransceive := fun _ =>
  ⟨Nat.le_of_ble_eq_true rfl, Nat.le_of_ble_eq_true rfl, Nat.le_of_ble_eq_true rfl⟩

end Sys2Proof.Laws.Shape
end

