-- ==== Sys2Proof/Laws/Posts.lean ====
section
/-! SUPPORT. What each operation does with the answer of its exchange, said once: the registers it writes and the outcome
of its test. -/

namespace Sys2Proof.Machine

variable (e : State)

theorem post_reg : postState .reg e = { e with rval := fromLe32 e.rxbuf } ∧ postRes .reg (postState .reg e) = .ok :=
  ⟨rfl, rfl⟩

theorem post_state : postState .state e = { e with rval := fromLe32 e.rxbuf } ∧
    postRes .state (postState .state e) = .okState (transceiveState e.cfg (fromLe32 e.rxbuf)) :=
  ⟨rfl, rfl⟩

theorem post_check : postState .check e = { e with rval := fromLe32 e.rxbuf } ∧
    postRes .check (postState .check e) =
      if transceiveState e.cfg (fromLe32 e.rxbuf) = waitTransmit then .ok else .fail .dgProtocolState :=
  ⟨rfl, rfl⟩

theorem post_pollState : postState .pollState e = { e with rval := fromLe32 e.rxbuf } ∧
    postRes .pollState (postState .pollState e) =
      if transceiveState e.cfg (fromLe32 e.rxbuf) = waitTransmit then .ok else .again :=
  ⟨rfl, rfl⟩

theorem post_irqBit (b : Nat) : postState (.irqBit b) e = { e with rval := fromLe32 e.rxbuf } ∧
    postRes (.irqBit b) (postState (.irqBit b) e) = if testBit (fromLe32 e.rxbuf) b then .ok else .again :=
  ⟨rfl, rfl⟩

theorem post_count : postState .count e =
      { e with rval := fromLe32 e.rxbuf, rxcnt := rxCount e.cfg (fromLe32 e.rxbuf) } ∧
    postRes .count (postState .count e) = .ok :=
  ⟨rfl, rfl⟩

theorem post_countIs : postState .countIs e =
      { e with rval := fromLe32 e.rxbuf, rxcnt := rxCount e.cfg (fromLe32 e.rxbuf) } ∧
    postRes .countIs (postState .countIs e) =
      if (rxCount e.cfg (fromLe32 e.rxbuf)).toNat = e.cfg.card.acRespLen.toNat then .ok else .fail .dgNoCardCount :=
  ⟨rfl, rfl⟩

theorem post_countStop : postState .countStop e =
      { e with rval := fromLe32 e.rxbuf, rxcnt := rxCount e.cfg (fromLe32 e.rxbuf) } ∧
    postRes .countStop (postState .countStop e) = if rxCount e.cfg (fromLe32 e.rxbuf) = 0 then .stop else .ok :=
  ⟨rfl, rfl⟩

/-- The count after SELECT is zero: the 4-byte result of R183. -/
theorem post_countSelect_zero (h : rxCount e.cfg (fromLe32 e.rxbuf) = 0) :
    postState .countSelect e =
      { e with rval := fromLe32 e.rxbuf, rxcnt := rxCount e.cfg (fromLe32 e.rxbuf), uidOut := e.cb.uidNoAnswer,
               uidLen := .len4, coarse := .csSelected4 } ∧
    postRes .countSelect (postState .countSelect e) = .finish .stUid4 := by
  have h1 : postState .countSelect e = setUid4 e.cb.uidNoAnswer (setRxcnt e) := if_pos h
  exact ⟨h1, by rw [h1]; exact if_pos h⟩

/-- The count after SELECT is not zero: there is a SAK byte. -/
theorem post_countSelect_nonzero (h : rxCount e.cfg (fromLe32 e.rxbuf) ≠ 0) :
    postState .countSelect e = { e with rval := fromLe32 e.rxbuf, rxcnt := rxCount e.cfg (fromLe32 e.rxbuf) } ∧
    postRes .countSelect (postState .countSelect e) = .ok := by
  have h1 : postState .countSelect e = setRxcnt e := if_neg h
  exact ⟨h1, by rw [h1]; exact if_neg h⟩

theorem post_coarse (k : Coarse) : postState (.coarse k) e = { e with coarse := k } ∧
    postRes (.coarse k) (postState (.coarse k) e) = .ok :=
  ⟨rfl, rfl⟩

theorem post_level1 : postState .level1 e = { e with cb := e.cb.setL1 e.rxbuf } ∧
    postRes .level1 (postState .level1 e) =
      if e.cfg.bccCheck && !(e.cb.setL1 e.rxbuf).l1Ok then .fail .dgChecksum else .ok :=
  ⟨rfl, rfl⟩

theorem post_level2 : postState .level2 e = { e with cb := e.cb.setL2 e.rxbuf } ∧
    postRes .level2 (postState .level2 e) =
      if e.cfg.bccCheck && !(e.cb.setL2 e.rxbuf).l2Ok then .fail .dgChecksum else .ok :=
  ⟨rfl, rfl⟩

/-- The level-2 answer inside READ_CARD_SERIAL fails its checksum. -/
theorem post_level2Done_bad (h : (e.cfg.bccCheck && !(e.cb.setL2 e.rxbuf).l2Ok) = true) :
    postState .level2Done e = { e with cb := e.cb.setL2 e.rxbuf } ∧
    postRes .level2Done (postState .level2Done e) = .fail .dgChecksum := by
  have h1 : postState .level2Done e = setLevel2 e := if_pos h
  exact ⟨h1, by rw [h1]; exact if_pos h⟩

/-- The level-2 answer inside READ_CARD_SERIAL: the 7-byte UID. -/
theorem post_level2Done_ok (h : (e.cfg.bccCheck && !(e.cb.setL2 e.rxbuf).l2Ok) = false) :
    postState .level2Done e =
      { e with cb := e.cb.setL2 e.rxbuf, uidOut := (e.cb.setL2 e.rxbuf).uid7, uidLen := .len7, coarse := .csSelected7 } ∧
    postRes .level2Done (postState .level2Done e) = .finish .stUid7 := by
  have h0 : ¬(e.cfg.bccCheck && !(e.cb.setL2 e.rxbuf).l2Ok) = true := by rw [h]; decide
  have h1 : postState .level2Done e = setUid7 (setLevel2 e) := if_neg h0
  exact ⟨h1, by rw [h1]; exact if_neg h0⟩

theorem post_sak : postState .sak e = { e with sak := byteAt e.rxbuf 0 } ∧ postRes .sak (postState .sak e) = .ok :=
  ⟨rfl, rfl⟩

/-- The SAK's cascade bit is set: on to level 2, or no cascade tag. -/
theorem post_sakDecide_cascade (h : cascadeContinues e.cfg (byteAt e.rxbuf 0) = true) :
    postState .sakDecide e = { e with sak := byteAt e.rxbuf 0 } ∧
    postRes .sakDecide (postState .sakDecide e) =
      if e.cb.c0 = e.cfg.card.cascadeTag then .ok else .fail .dgProtocolCascadeTag := by
  have h1 : postState .sakDecide e = setSak e := if_pos h
  exact ⟨h1, by rw [h1]; exact if_pos h⟩

/-- The SAK's cascade bit is clear: the 4-byte UID. -/
theorem post_sakDecide_last (h : cascadeContinues e.cfg (byteAt e.rxbuf 0) = false) :
    postState .sakDecide e =
      { e with sak := byteAt e.rxbuf 0, uidOut := e.cb.uid4, uidLen := .len4, coarse := .csSelected4 } ∧
    postRes .sakDecide (postState .sakDecide e) = .finish .stUid4 := by
  have h0 : ¬cascadeContinues e.cfg (byteAt e.rxbuf 0) = true := by rw [h]; decide
  have h1 : postState .sakDecide e = setUid4 e.cb.uid4 (setSak e) := if_neg h0
  exact ⟨h1, by rw [h1]; exact if_neg h0⟩

theorem post_version : postState .version e = { e with ver0 := byteAt e.rxbuf 0, ver1 := byteAt e.rxbuf 1 } ∧
    postRes .version (postState .version e) = .finish .stOk :=
  ⟨rfl, rfl⟩

end Sys2Proof.Machine
end

