-- ==== Sys2Proof/Laws/Remote.lean ====
section
/-! SUPPORT. The sparse lists of the chip's spaces: what a read gives after a store, and that every operation keeps the
canonical form `Remote.wf`. -/

namespace Sys2Proof.Machine

/-! ### One cell -/

theorem risingFrom_mono {α : Type} {lo lo' : Nat} (l : List (Nat × α)) (hle : lo' ≤ lo) (h : risingFrom lo l = true) :
    risingFrom lo' l = true := by
  cases l with
  | nil => rfl
  | cons p rest =>
    obtain ⟨b, y⟩ := p
    simp only [risingFrom, Bool.and_eq_true, decide_eq_true_eq] at h ⊢
    exact ⟨by omega, h.2⟩

/-- A store keeps the order. -/
theorem putCell_rising {α : Type} {lo a : Nat} {v : Option α} (l : List (Nat × α)) (ha : lo ≤ a)
    (h : risingFrom lo l = true) : risingFrom lo (putCell l a v) = true := by
  induction l generalizing lo with
  | nil => cases v <;> simp [putCell, risingFrom, ha]
  | cons p rest ih =>
    obtain ⟨b, y⟩ := p
    simp only [risingFrom, Bool.and_eq_true, decide_eq_true_eq] at h
    simp only [putCell]
    split
    · rename_i hab
      cases v with
      | none => simp [risingFrom, h]
      | some x => simp [risingFrom, ha, h]; omega
    · split
      · rename_i hab
        cases v with
        | none => exact risingFrom_mono rest (by omega) h.2
        | some x => subst hab; simp [risingFrom, h]
      · simp only [risingFrom, Bool.and_eq_true, decide_eq_true_eq]
        exact ⟨h.1, ih (by omega) h.2⟩

/-- A store puts only its own entry into the list. -/
theorem putCell_all {α : Type} {f : Nat × α → Bool} {a : Nat} {v : Option α} (l : List (Nat × α)) (h : l.all f = true)
    (hv : ∀ x, v = some x → f (a, x) = true) : (putCell l a v).all f = true := by
  induction l with
  | nil => cases v <;> simp [putCell, hv]
  | cons p rest ih =>
    obtain ⟨b, y⟩ := p
    simp only [List.all_cons, Bool.and_eq_true] at h
    simp only [putCell]
    split
    · cases v <;> simp [h, hv]
    · split
      · cases v <;> simp [h, hv]
      · simp [h, ih h.2]

theorem cellAt_above {α : Type} {lo a : Nat} (l : List (Nat × α)) (h : risingFrom lo l = true) (ha : a < lo) :
    cellAt l a = none := by
  induction l generalizing lo with
  | nil => rfl
  | cons p rest ih =>
    obtain ⟨b, y⟩ := p
    simp only [risingFrom, Bool.and_eq_true, decide_eq_true_eq] at h
    simp only [cellAt]
    rw [if_neg (by omega)]
    exact ih h.2 (by omega)

/-- A read after a store to the same address gives what was stored; a store leaves every other address alone. -/
theorem cellAt_putCell {α : Type} {lo a : Nat} {v : Option α} (l : List (Nat × α)) (h : risingFrom lo l = true) (a' : Nat) :
    cellAt (putCell l a v) a' = if a' = a then v else cellAt l a' := by
  induction l generalizing lo with
  | nil => cases v <;> simp [putCell, cellAt]
  | cons p rest ih =>
    obtain ⟨b, y⟩ := p
    simp only [risingFrom, Bool.and_eq_true, decide_eq_true_eq] at h
    simp only [putCell]
    split
    · rename_i hab
      cases v with
      | none =>
        by_cases e : a' = a
        · subst e
          simp only [cellAt, if_true]
          rw [if_neg (by omega)]
          exact cellAt_above rest h.2 (by omega)
        · simp [e]
      | some x => simp [cellAt]
    · split
      · rename_i hab
        subst hab
        cases v with
        | none =>
          by_cases e : a' = a
          · subst e; simp only [if_true]; exact cellAt_above rest h.2 (by omega)
          · simp [e, cellAt]
        | some x => by_cases e : a' = a <;> simp [e, cellAt]
      · rename_i h1 h2
        simp only [cellAt]
        rw [ih h.2]
        by_cases e : a' = b
        · rw [if_pos e, if_pos e, if_neg (by omega)]
        · rw [if_neg e, if_neg e]

/-! ### Knowledge of one register -/

theorem Known.nothing_wf : Known.nothing.wf = true := by decide

theorem Known.write_wf (v : Word) : (Known.write v).wf = true := by
  simp only [Known.write, Known.wf, BitVec.and_allOnes, beq_self_eq_true]

theorem Known.or_wf {k : Known} (h : k.wf = true) (m : Word) : (k.or m).wf = true := by
  simp only [Known.wf, Known.or, beq_iff_eq] at h ⊢
  apply BitVec.eq_of_getLsbD_eq
  intro i _
  have := congrArg (fun x => x.getLsbD i) h
  simp only [BitVec.getLsbD_and, BitVec.getLsbD_or] at this ⊢
  revert this
  cases k.val.getLsbD i <;> cases k.known.getLsbD i <;> cases m.getLsbD i <;> decide

theorem Known.and_wf {k : Known} (h : k.wf = true) (m : Word) : (k.and m).wf = true := by
  simp only [Known.wf, Known.and, beq_iff_eq] at h ⊢
  apply BitVec.eq_of_getLsbD_eq
  intro i hi
  have := congrArg (fun x => x.getLsbD i) h
  simp only [BitVec.getLsbD_and, BitVec.getLsbD_or, BitVec.getLsbD_not, hi, decide_true, Bool.true_and] at this ⊢
  revert this
  cases k.val.getLsbD i <;> cases k.known.getLsbD i <;> cases m.getLsbD i <;> decide

/-! ### The canonical form -/

theorem Remote.unknown_wf : Remote.unknown.wf = true := rfl

theorem Remote.wf_iff (r : Remote) : r.wf = true ↔
    (risingFrom 0 r.reg = true ∧ r.reg.all regCellWf = true) ∧
      risingFrom 0 r.ee = true ∧ (r.ee.all fun p => decide (p.1 < 256)) = true := by
  simp only [Remote.wf, Bool.and_eq_true]

theorem cellAt_mem {α : Type} {l : List (Nat × α)} {a : Nat} {x : α} (h : cellAt l a = some x) : (a, x) ∈ l := by
  induction l with
  | nil => cases h
  | cons p rest ih =>
    obtain ⟨b, y⟩ := p
    simp only [cellAt] at h
    split at h
    · rename_i e; cases h; subst e; exact List.mem_cons_self ..
    · exact List.mem_cons_of_mem _ (ih h)

theorem Remote.regAt_wf {r : Remote} (h : r.wf = true) (a : Byte) : (r.regAt a).wf = true := by
  unfold Remote.regAt
  cases hc : cellAt r.reg a.toNat with
  | none => exact Known.nothing_wf
  | some k =>
    have := List.all_eq_true.mp ((r.wf_iff.mp h).1.2) _ (cellAt_mem hc)
    simp only [regCellWf, Bool.and_eq_true] at this
    exact this.2.2

theorem Remote.setReg_wf {r : Remote} (h : r.wf = true) (a : Byte) {k : Known} (hk : k.wf = true) :
    (r.setReg a k).wf = true := by
  obtain ⟨⟨h1, h2⟩, h3, h4⟩ := r.wf_iff.mp h
  refine (Remote.wf_iff _).mpr ⟨⟨putCell_rising _ (Nat.zero_le _) h1, putCell_all _ h2 ?_⟩, h3, h4⟩
  intro x hx
  split at hx
  · cases hx
  · rename_i hne
    cases hx
    simp only [regCellWf, Bool.and_eq_true, decide_eq_true_eq]
    exact ⟨a.isLt, hne, hk⟩

theorem learnEe_wf (ee : List Host.Cell) (a : Nat) (bs : List Byte)
    (h : risingFrom 0 ee = true ∧ (ee.all fun p => decide (p.1 < 256)) = true) :
    risingFrom 0 (learnEe ee a bs) = true ∧ ((learnEe ee a bs).all fun p => decide (p.1 < 256)) = true := by
  induction bs generalizing ee a with
  | nil => exact h
  | cons b bs ih =>
    refine ih _ _ ?_
    split
    · rename_i ha
      exact ⟨putCell_rising _ (Nat.zero_le _) h.1, putCell_all _ h.2 (by intro x _; exact decide_eq_true ha)⟩
    · exact h

theorem Remote.writeReg_wf {r : Remote} (h : r.wf = true) (c : Cfg) (a : Byte) (v : Word) :
    (r.writeReg c a v).wf = true := by
  have h1 := Remote.setReg_wf h a (Known.write_wf v)
  unfold Remote.writeReg
  dsimp only
  split
  · exact Remote.setReg_wf h1 _ (Known.and_wf (Remote.regAt_wf h1 _) _)
  split
  · exact Remote.setReg_wf h a (Known.or_wf (Remote.regAt_wf h a) v)
  · exact h1

theorem Remote.andReg_wf {r : Remote} (h : r.wf = true) (c : Cfg) (a : Byte) (m : Word) : (r.andReg c a m).wf = true := by
  unfold Remote.andReg
  split
  · exact h
  · exact Remote.setReg_wf h a (Known.and_wf (Remote.regAt_wf h a) m)

/-- Every completed frame keeps the canonical form. -/
theorem Remote.receive_wf {r : Remote} (h : r.wf = true) (c : Cfg) (tx rx : List Byte) : (r.receive c tx rx).wf = true := by
  have hee : ∀ ee, risingFrom 0 ee = true ∧ (ee.all fun p => decide (p.1 < 256)) = true →
      ({ r with ee := ee } : Remote).wf = true := by
    intro ee he
    exact (Remote.wf_iff _).mpr ⟨(r.wf_iff.mp h).1, he⟩
  unfold Remote.receive
  generalize decodeFrame c tx rx.length = d
  cases d with
  | error _ => exact h
  | ok i =>
    cases i
    case writeRegister a v => exact Remote.writeReg_wf h c a v
    case writeRegisterOrMask a m => exact Remote.setReg_wf h a (Known.or_wf (Remote.regAt_wf h a) m)
    case writeRegisterAndMask a m => exact Remote.andReg_wf h c a m
    case readRegister a => exact Remote.setReg_wf h a (Known.write_wf _)
    case readEeprom a _ => exact hee _ (learnEe_wf _ _ _ (r.wf_iff.mp h).2)
    all_goals exact h

/-- The chip's knowledge at reset is in canonical form. -/
theorem reset_remote_wf : State.reset.remote.wf = true := rfl

end Sys2Proof.Machine
end

