-- ==== Sys2Proof/Tests/Slice0.lean ====
section
/-! SUPPORT. The model's own tests: ill-formed terms, words written out from the spec's encodings, one-step runs whose
results come from 95_test_vectors.md, and for every statement with hypotheses a state that meets them. -/

namespace Sys2Proof.Tests

open Sys2Proof Sys2Proof.Machine

/-! ### Well-formedness: one ill-formed term for each check -/

theorem test_wf_eeprom_length_zero : Instr.wf (.readEeprom 0x12 0) = false := by decide
theorem test_wf_valid_bits_eight : Instr.wf (.sendData 8 [0x26]) = false := by decide
theorem test_wf_no_data : Instr.wf (.sendData 0 []) = false := by decide
theorem test_wf_eight_data_bytes : Instr.wf (.sendData 0 [1, 2, 3, 4, 5, 6, 7, 8]) = false := by decide
theorem test_wf_read_data_zero : Instr.wf (.readData 0) = false := by decide
theorem test_wf_boundaries : Instr.wf (.sendData 7 [1, 2, 3, 4, 5, 6, 7]) = true ∧ Instr.wf (.readEeprom 0xFF 0xFF) = true ∧
    Instr.wf (.readData 1) = true := by decide

theorem test_cfg_wf : specCfg.wf = true := by decide
theorem test_cfg_wf_two_opcodes_equal : Cfg.wf { specCfg with op := { specCfg.op with rfOn := 0x11 } } = false := by decide
theorem test_cfg_wf_one_chip_select_level :
    Cfg.wf { specCfg with pin := { specCfg.pin with nssActive := .high } } = false := by decide
theorem test_cfg_wf_one_reset_level :
    Cfg.wf { specCfg with pin := { specCfg.pin with rstAssert := .high } } = false := by decide
theorem test_cfg_wf_answer_lengths :
    Cfg.wf { specCfg with card := { specCfg.card with acRespLen := 4 } } = false ∧
    Cfg.wf { specCfg with card := { specCfg.card with sakLen := 2 } } = false ∧
    Cfg.wf { specCfg with card := { specCfg.card with atqaLen := 0 } } = false ∧
    Cfg.wf { specCfg with arg := { specCfg.arg with versionLen := 1 } } = false := by decide
theorem test_cfg_wf_fields :
    Cfg.wf { specCfg with field := { specCfg.field with tsHi := 25 } } = false ∧
    Cfg.wf { specCfg with field := { specCfg.field with tsHi := 32, tsLo := 30 } } = false ∧
    Cfg.wf { specCfg with field := { specCfg.field with rxcntHi := 7 } } = false ∧
    Cfg.wf { specCfg with field := { specCfg.field with rxcntHi := 32, rxcntLo := 24 } } = false := by decide

/-! ### Decoding: every constructor by a word written out from its rule (30_encoding.md R71, R76, R83, R84, R89) -/

theorem test_decode_host :
    decode specCfg (.host 0b000) = .ok .beginCmd ∧ decode specCfg (.host 0b001) = .ok .resetCmd ∧
    decode specCfg (.host 0b010) = .ok .getFirmware ∧ decode specCfg (.host 0b011) = .ok .getProductVersion ∧
    decode specCfg (.host 0b100) = .ok .getEepromVersion ∧ decode specCfg (.host 0b101) = .ok .readCardSerial ∧
    decode specCfg (.host 0b110) = .ok .reserved110 ∧ decode specCfg (.host 0b111) = .ok .reserved111 :=
  ⟨rfl, rfl, rfl, rfl, rfl, rfl, rfl, rfl⟩

theorem test_decode_register_frames :
    decode specCfg (.op .frame [0x00, 0x03, 0xFF, 0xFF, 0x0F, 0x00] 0) = .ok (.writeRegister 0x03 0x000FFFFF) ∧
    decode specCfg (.op .frame [0x01, 0x19, 0x01, 0x00, 0x00, 0x00] 0) = .ok (.writeRegisterOrMask 0x19 0x00000001) ∧
    decode specCfg (.op .frame [0x02, 0x00, 0xBF, 0xFF, 0xFF, 0xFF] 0) = .ok (.writeRegisterAndMask 0x00 0xFFFFFFBF) ∧
    decode specCfg (.op .frame [0x04, 0x02] 4) = .ok (.readRegister 0x02) :=
  ⟨rfl, rfl, rfl, rfl⟩

theorem test_decode_other_frames :
    decode specCfg (.op .frame [0x07, 0x14, 0x02] 2) = .ok (.readEeprom 0x14 0x02) ∧
    decode specCfg (.op .frame [0x09, 0x07, 0x26] 0) = .ok (.sendData 7 [0x26]) ∧
    decode specCfg (.op .frame [0x09, 0x00, 0x93, 0x70, 0x01, 0x02, 0x03, 0x04, 0x04] 0) =
      .ok (.sendData 0 [0x93, 0x70, 0x01, 0x02, 0x03, 0x04, 0x04]) ∧
    decode specCfg (.op .frame [0x0A, 0x00] 2) = .ok (.readData 2) ∧
    decode specCfg (.op .frame [0x11, 0x00, 0x80] 0) = .ok (.loadRfConfig 0x00 0x80) ∧
    decode specCfg (.op .frame [0x16, 0x00] 0) = .ok .rfOn :=
  ⟨rfl, rfl, rfl, rfl, rfl, rfl⟩

theorem test_decode_card :
    decode specCfg (.op .card [0x26] 0) = .ok .reqa ∧ decode specCfg (.op .card [0x93, 0x20] 0) = .ok .anticollL1 ∧
    decode specCfg (.op .card [0x93, 0x70, 0x88, 0x02, 0x03, 0x04, 0x8D] 0) =
      .ok (.selectL1 0x88 0x02 0x03 0x04 0x8D) ∧
    decode specCfg (.op .card [0x95, 0x20] 0) = .ok .anticollL2 :=
  ⟨rfl, rfl, rfl, rfl⟩

theorem test_decode_pseudo :
    decode specCfg (.op .pseudo [0x04, 0x02] 4) = .ok .getIrqStatus ∧
    decode specCfg (.op .pseudo [0x00, 0x03, 0x00, 0x02, 0x00, 0x00] 0) = .ok (.clearIrqStatus 0x00000200) ∧
    decode specCfg (.op .pseudo [0x04, 0x1D] 4) = .ok .getTransceiveState ∧
    decode specCfg (.op .pseudo [0x04, 0x13] 4) = .ok .getRxCount ∧
    decode specCfg (.op .check [0x04, 0x1D] 4) = .ok .checkWaitTransmit ∧
    decode specCfg (.op .pseudo [0x02, 0x00, 0xBF, 0xFF, 0xFF, 0xFF] 0) = .ok .cryptoOff ∧
    decode specCfg (.op .pseudo [0x02, 0x12, 0xFE, 0xFF, 0xFF, 0xFF] 0) = .ok .crcOff ∧
    decode specCfg (.op .pseudo [0x01, 0x12, 0x01, 0x00, 0x00, 0x00] 0) = .ok .crcOn ∧
    decode specCfg (.op .pseudo [0x02, 0x00, 0xF8, 0xFF, 0xFF, 0xFF] 0) = .ok .setIdle ∧
    decode specCfg (.op .pseudo [0x01, 0x00, 0x03, 0x00, 0x00, 0x00] 0) = .ok .setTransceive :=
  ⟨rfl, rfl, rfl, rfl, rfl, rfl, rfl, rfl, rfl, rfl⟩

theorem test_decode_rejects :
    decode specCfg (.op .frame [] 0) = .error .emptyFrame ∧
    decode specCfg (.op .frame [0x03, 0x00] 0) = .error .unknownOpcode ∧
    decode specCfg (.op .frame [0x00, 0x03, 0x00] 0) = .error .badLength ∧
    decode specCfg (.op .frame [0x04, 0x02] 3) = .error .badResponseLength ∧
    decode specCfg (.op .frame [0x09, 0x08, 0x26] 0) = .error .badValidBits ∧
    decode specCfg (.op .frame [0x16, 0x01] 0) = .error .badArgument ∧
    decode specCfg (.op .card [0x52] 0) = .error .unknownCardCommand ∧
    decode specCfg (.op .pseudo [0x04, 0x05] 4) = .error .unknownPseudoOperation :=
  ⟨rfl, rfl, rfl, rfl, rfl, rfl, rfl, rfl⟩

/-- The words of spec/opcode_table.json; CHECK_WAIT_TRANSMIT has the word of GET_TRANSCEIVE_STATE (log entry 11). -/
theorem test_table_words :
    decodeTableWord 3 0b101 = some .readCardSerial ∧ decodeTableWord 3 0b111 = some .reserved111 ∧
    decodeTableWord 8 0x00 = some (.writeRegister 0 0) ∧ decodeTableWord 8 0x07 = some (.readEeprom 0 0) ∧
    decodeTableWord 8 0x09 = some (.sendData 0 [0]) ∧ decodeTableWord 8 0x0A = some (.readData 1) ∧
    decodeTableWord 8 0x26 = some .reqa ∧ decodeTableWord 16 0x9370 = some (.selectL1 0 0 0 0 0) ∧
    decodeTableWord 16 0x0003 = some (.clearIrqStatus 0) ∧ decodeTableWord 16 0x041D = some .getTransceiveState ∧
    decodeTableWord 48 0x0200BFFFFFFF = some .cryptoOff ∧ decodeTableWord 48 0x011201000000 = some .crcOn ∧
    decodeTableWord 8 0x16 = some .rfOn ∧ decodeTableWord 8 0x17 = none := by decide

/-! ### One step, with results from 95_test_vectors.md -/

/-- An engine after reset that runs ahead as far as ENV's answers go (log entry 3). -/
def ahead : State :=
  { State.reset with runAhead := true }

/-- Such an engine whose environment answers the lines `ls` promptly, with the clock at 0. -/
def promptState (ls : List Line) (polls : Nat) : State :=
  { ahead with
    busyIn := promptLevels (lineLens ls), nowIn := List.replicate (clockReads (lineLens ls) + polls) 0,
    rxIn := lineBytes ls }

/-- What an instruction answers. -/
def after (i : Instr) (s : State) : State :=
  match exec i s with
  | .next t => t
  | .fault _ => State.reset
  | .refused _ => State.reset

/-- What a step answers. -/
def stepped (s : State) : State :=
  match step s with
  | .next t => t
  | .fault _ => State.reset
  | .refused _ => State.reset

/-- The exchange of one frame. -/
def one (x : Xfer) (rx : List Byte) : State :=
  promptState [.xfer x rx] 0

/-- V40.1 and the listing of 40_transport.md R108. -/
theorem test_readRegister_trace :
    (after (.readRegister 0x1D) (one (xReadRegister specCfg 0x1D) [0x00, 0x00, 0x00, 0x01])).trace =
      [.pinRead .low, .now 0, .pinWrite .nss .high, .pinRead .high, .now 0, .busRead [0x00, 0x00, 0x00, 0x01],
        .pinWrite .nss .low, .pinRead .low, .now 0, .pinWrite .nss .high, .pinRead .high, .now 0,
        .busWrite [0x04, 0x1D], .pinWrite .nss .low, .pinRead .low, .now 0] := by decide

/-- V41.9: little-endian. -/
theorem test_readRegister_value :
    (after (.readRegister 0x02) (one (xReadRegister specCfg 0x02) [0x78, 0x56, 0x34, 0x12])).rval = 0x12345678 := by decide

/-- V41.2. -/
theorem test_writeRegister :
    busWrites (after (.writeRegister 0x03 0x000FFFFF) (one (xWriteRegister specCfg 0x03 0x000FFFFF) [])).trace =
      [[0x00, 0x03, 0xFF, 0xFF, 0x0F, 0x00]] := by decide

/-- V41.7. -/
theorem test_writeRegisterOrMask :
    busWrites (after (.writeRegisterOrMask 0x19 1) (one (xWriteRegisterOrMask specCfg 0x19 1) [])).trace =
      [[0x01, 0x19, 0x01, 0x00, 0x00, 0x00]] := by decide

/-- V41.5. -/
theorem test_writeRegisterAndMask :
    busWrites (after (.writeRegisterAndMask 0 0xFFFFFFBF) (one (xWriteRegisterAndMask specCfg 0 0xFFFFFFBF) [])).trace =
      [[0x02, 0x00, 0xBF, 0xFF, 0xFF, 0xFF]] := by decide

/-- V41.3: what is known of a register written before. -/
theorem test_or_mask_on_chip :
    ((Remote.unknown.receive specCfg [0x00, 0x00, 0x40, 0x01, 0x00, 0x00] []).receive specCfg
      [0x01, 0x00, 0x03, 0x00, 0x00, 0x00] []).regAt 0x00 = ⟨0xFFFFFFFF, 0x00000143⟩ := by decide

/-- V41.4. -/
theorem test_and_mask_on_chip :
    ((Remote.unknown.receive specCfg [0x00, 0x00, 0x43, 0x01, 0x00, 0x00] []).receive specCfg
      [0x02, 0x00, 0xF8, 0xFF, 0xFF, 0xFF] []).regAt 0x00 = ⟨0xFFFFFFFF, 0x00000140⟩ := by decide

/-- V41.18. -/
theorem test_readEeprom :
    (after (.readEeprom 0x12 2) (one (xReadEeprom specCfg 0x12 2) [0x00, 0x04])).rxbuf = [0x00, 0x04] := by decide

/-- V41.20: the longest frame. -/
theorem test_sendData :
    busWrites (after (.sendData 0 [0x93, 0x70, 1, 2, 3, 4, 4]) (one (xSendData specCfg 0 [0x93, 0x70, 1, 2, 3, 4, 4]) [])).trace =
      [[0x09, 0x00, 0x93, 0x70, 0x01, 0x02, 0x03, 0x04, 0x04]] := by decide

/-- V41.21. -/
theorem test_readData :
    (after (.readData 5) (one (xReadData specCfg 5) [1, 2, 3, 4, 4])).rxbuf = [1, 2, 3, 4, 4] := by decide

/-- V41.22. -/
theorem test_loadRfConfig :
    busWrites (after (.loadRfConfig 0x00 0x80) (one (xLoadRfConfig specCfg 0x00 0x80) [])).trace = [[0x11, 0x00, 0x80]] := by
  decide

/-- V40.2. -/
theorem test_rfOn_trace :
    pinActions (after .rfOn (one (xRfOn specCfg) [])).trace =
      [.pinRead .low, .pinWrite .nss .high, .pinRead .high, .busWrite [0x16, 0x00], .pinWrite .nss .low, .pinRead .low] := by
  decide

/-- V40.3: the line stays HIGH; no pin write, no bus action; the candidate is T1. -/
theorem test_rfOn_line_stuck :
    let t := after .rfOn { ahead with
      busyIn := [.high, .high, .high], nowIn := [0, 25, 50, 51] }
    t.trace = [.now 51, .pinRead .high, .now 50, .pinRead .high, .now 25, .pinRead .high, .now 0] ∧
      t.result = .fail .dgTimeout ∧ t.cand = .t1 := by decide

/-- V40.10: the clock wraps between W1 and W4. -/
theorem test_wait_across_wrap :
    let t := after .rfOn { ahead with
      busyIn := [.low, .low, .low], nowIn := [0, 0xFFFFFFF0, 0x100000010, 0x100000023] }
    t.result = .fail .dgTimeout ∧ t.cand = .t4 ∧ t.trace.take 3 = [.pinWrite .nss .high, .now 0x00000023, .pinRead .low] := by decide

/-- V41.8. -/
theorem test_getIrqStatus :
    (after .getIrqStatus (one (xGetIrqStatus specCfg) [0x04, 0x02, 0x00, 0x00])).rval = 0x00000204 := by decide

/-- V41.1. -/
theorem test_clearIrqStatus :
    busWrites (after (.clearIrqStatus 0x200) (one (xClearIrqStatus specCfg 0x200) [])).trace =
      [[0x00, 0x03, 0x00, 0x02, 0x00, 0x00]] := by decide

/-- V41.1: bit 9 of IRQ_STATUS is known to be clear afterwards. -/
theorem test_clearIrqStatus_on_chip :
    (Remote.unknown.receive specCfg [0x00, 0x03, 0x00, 0x02, 0x00, 0x00] []).regAt 0x02 = ⟨0x200, 0⟩ := by decide

/-- 20_memory.md R55: IRQ_STATUS (0x02) shows bits 0 and 2; neither an AND-mask frame of zeros on it nor a plain write of zero
clears them. -/
theorem test_irqStatus_cleared_only_by_irqClear :
    let r := Remote.unknown.receive specCfg [0x04, 0x02] [0x05, 0x00, 0x00, 0x00]
    (r.receive specCfg [0x02, 0x02, 0x00, 0x00, 0x00, 0x00] []).regAt 0x02 = ⟨0xFFFFFFFF, 5⟩ ∧
    (r.receive specCfg [0x00, 0x02, 0x00, 0x00, 0x00, 0x00] []).regAt 0x02 = ⟨0xFFFFFFFF, 5⟩ ∧
    (r.receive specCfg [0x00, 0x03, 0x01, 0x00, 0x00, 0x00] []).regAt 0x02 = ⟨0xFFFFFFFF, 4⟩ := by decide

/-- V41.11. -/
theorem test_getTransceiveState :
    (after .getTransceiveState (one (xGetTransceiveState specCfg) [0x00, 0x00, 0x00, 0xFB])).result = .okState 3 := by decide

/-- V41.13. -/
theorem test_checkWaitTransmit_fails :
    (after .checkWaitTransmit (one (xGetTransceiveState specCfg) [0x00, 0x00, 0x00, 0x07])).result =
      .fail .dgProtocolState := by decide

/-- V41.10 for CHECK_WAIT_TRANSMIT. -/
theorem test_checkWaitTransmit_passes :
    (after .checkWaitTransmit (one (xGetTransceiveState specCfg) [0x00, 0x00, 0x00, 0x01])).result = .ok := by decide

/-- V41.15. -/
theorem test_getRxCount :
    (after .getRxCount (one (xGetRxCount specCfg) [0x05, 0x01, 0x00, 0x00])).rxcnt = 261 := by decide

/-- V41.16: bits above 8 are ignored. -/
theorem test_getRxCount_high_bits :
    (after .getRxCount (one (xGetRxCount specCfg) [0x05, 0x02, 0x01, 0x00])).rxcnt = 5 := by decide

/-- The frames of 30_encoding.md R89 for CRYPTO_OFF, SET_IDLE and SET_TRANSCEIVE. -/
theorem test_mask_pseudo_frames :
    busWrites (after .cryptoOff (one (xCryptoOff specCfg) [])).trace = [[0x02, 0x00, 0xBF, 0xFF, 0xFF, 0xFF]] ∧
    busWrites (after .setIdle (one (xSetIdle specCfg) [])).trace = [[0x02, 0x00, 0xF8, 0xFF, 0xFF, 0xFF]] ∧
    busWrites (after .setTransceive (one (xSetTransceive specCfg) [])).trace = [[0x01, 0x00, 0x03, 0x00, 0x00, 0x00]] := by
  decide

/-- The two frames of CRC_OFF, the receive register first (newest frame first here). -/
theorem test_crcOff :
    busWrites (after .crcOff (promptState [.xfer (xCrcRxOff specCfg) [], .xfer (xCrcTxOff specCfg) []] 0)).trace =
      [[0x02, 0x19, 0xFE, 0xFF, 0xFF, 0xFF], [0x02, 0x12, 0xFE, 0xFF, 0xFF, 0xFF]] := by decide

/-- The two frames of CRC_ON. -/
theorem test_crcOn :
    busWrites (after .crcOn (promptState [.xfer (xCrcRxOn specCfg) [], .xfer (xCrcTxOn specCfg) []] 0)).trace =
      [[0x01, 0x19, 0x01, 0x00, 0x00, 0x00], [0x01, 0x12, 0x01, 0x00, 0x00, 0x00]] := by decide

/-- Lines 16 to 18 of program P1. -/
theorem test_reqa :
    let t := after .reqa (promptState (reqaLines specCfg [0x04, 0x00]) 0)
    busWrites t.trace = [[0x0A, 0x00], [0x09, 0x07, 0x26]] ∧ t.coarse.num = 3 ∧ t.rxbuf = [0x04, 0x00] := by decide

/-- The lines of the first anticollision. -/
def l1Lines (cnt l1 : List Byte) : List Line :=
  countL1Lines specCfg cnt ++ [.xfer (xReadData specCfg 5) l1]

/-- Lines 21 to 24 of program P1. -/
theorem test_anticollL1 :
    let t := after .anticollL1 (promptState (l1Lines [5, 0, 0, 0] [1, 2, 3, 4, 6]) 0)
    busWrites t.trace = [[0x0A, 0x00], [0x04, 0x13], [0x09, 0x04, 0x93, 0x20]] ∧ t.cb.c0 = 1 ∧ t.cb.c3 = 4 ∧
      t.cb.c8 = 6 := by decide

/-- V43.4: the count 261 is no answer. -/
theorem test_anticollL1_count :
    let t := after .anticollL1 (promptState (l1Lines [5, 1, 0, 0] [1, 2, 3, 4, 6]) 0)
    t.result = .fail .dgNoCardCount ∧ t.rxIn = [1, 2, 3, 4, 6] := by decide

/-- Lines 27 to 31 of program P1. -/
theorem test_selectL1 :
    let t := after (.selectL1 1 2 3 4 6) (promptState (.xfer (xGetTransceiveState specCfg) [0, 0, 0, 1] ::
      selectLines specCfg 1 2 3 4 6 [1, 0, 0, 0] ++ [.xfer (xReadData specCfg 1) [0x08]]) 0)
    busWrites t.trace =
      [[0x0A, 0x00], [0x04, 0x13], [0x09, 0x00, 0x93, 0x70, 0x01, 0x02, 0x03, 0x04, 0x06], [0x04, 0x1D]] ∧ t.sak = 0x08 := by
  decide

/-- V43.14: outside WaitTransmit SELECT is not sent. -/
theorem test_selectL1_state :
    let t := after (.selectL1 1 2 3 4 6) (promptState [.xfer (xGetTransceiveState specCfg) [0, 0, 0, 5]] 0)
    busWrites t.trace = [[0x04, 0x1D]] ∧ t.result = .fail .dgProtocolState := by decide

/-- Lines 32 to 38 of program P2. -/
theorem test_anticollL2 :
    let t := after .anticollL2 (promptState (checkL2Lines specCfg [0, 0, 0, 1] ++ countL2Lines specCfg [5, 0, 0, 0] ++
      [.xfer (xReadData specCfg 5) [0x11, 0x12, 0x13, 0x14, 0x16]]) 0)
    busWrites t.trace = [[0x0A, 0x00], [0x04, 0x13], [0x09, 0x04, 0x95, 0x20], [0x04, 0x1D],
        [0x02, 0x19, 0xFE, 0xFF, 0xFF, 0xFF], [0x02, 0x12, 0xFE, 0xFF, 0xFF, 0xFF]] ∧
      t.cb.c4 = 0x11 ∧ t.cb.c7 = 0x14 ∧ t.cb.c9 = 0x16 := by decide

/-- V42.6. -/
theorem test_begin :
    let t := after .beginCmd (promptState (beginLines specCfg [4, 0, 0, 0]) 1)
    t.status = .stOk ∧ t.trace.reverse.take 7 = [.accept 0, .pinWrite .nss .high, .pinWrite .rst .high,
      .pinWrite .rst .low, .sleep 10, .pinWrite .rst .high, .sleep 10] := by decide

/-- V42.5: the test is on bit 2 alone. -/
theorem test_reset_poll_bit :
    let t := after .resetCmd { promptState (resetLines specCfg [0xFB, 0xFF, 0xFF, 0xFF]) 1 with
      nowIn := [0, 0, 0, 0, 0, 0, 51] }
    t.status = .stResetTimeout ∧ t.diagCode.num = 2 ∧ t.diagStep.num = 0x05 ∧ t.diagTph.num = 0 := by decide

/-- V42.4. -/
theorem test_reset_line_stuck :
    let t := after .resetCmd { ahead with busyIn := [.high], nowIn := [0, 0, 51] }
    t.status = .stResetTimeout ∧ t.diagCode.num = 2 ∧ t.diagStep.num = 0x05 ∧ t.diagTph.num = 1 := by decide

/-- V42.10. -/
theorem test_getFirmware :
    let t := after .getFirmware (one (xReadEeprom specCfg 0x12 2) [0x00, 0x04])
    t.status = .stOk ∧ t.ver0 = 0x00 ∧ t.ver1 = 0x04 ∧ busWrites t.trace = [[0x07, 0x12, 0x02]] ∧ t.coarse.num = 8 := by
  decide

/-- V42.11. -/
theorem test_getProductVersion :
    let t := after .getProductVersion (one (xReadEeprom specCfg 0x10 2) [0x01, 0x03])
    t.ver0 = 0x01 ∧ t.ver1 = 0x03 ∧ busWrites t.trace = [[0x07, 0x10, 0x02]] := by decide

/-- V42.12, program P5. -/
theorem test_getEepromVersion_timeout :
    let t := after .getEepromVersion { ahead with busyIn := [.low, .low], nowIn := [0, 0, 51] }
    t.status = .stVersionError ∧ t.diagCode.num = 1 ∧ t.diagStep.num = 0x30 ∧ t.diagTph.num = 4 ∧
      busWrites t.trace = [[0x07, 0x14, 0x02]] := by decide

/-- V30.1, through the command port and one step. -/
theorem test_reserved110_step :
    let t := stepped { ahead with port := some (.host 0b110) }
    t.status.num = 7 ∧ t.diagCode.num = 9 ∧ t.diagStep.num = 0 ∧ t.coarse.num = 8 := by decide

/-- V30.2, from a table word. -/
theorem test_reserved111_step :
    let t := stepped (State.reset.withFetchWord 3 0b111)
    t.status.num = 7 ∧ t.cmd = 7 := by decide

/-- An engine in the middle of a command, one event for each step. -/
def running : State :=
  { State.reset with ready := false, cmd := 1, stepLbl := .rstLow }

/-- 00_scope.md R5 and 70_reset_and_hazards.md R230: a step is one event, so that `RST_Q` stands asserted after RST_LOW, and
a reset there ends the command with the line released, with no `Done` and no further pin write. -/
theorem test_reset_inside_the_pulse :
    let t := stepped running
    let u := stepped { t with resetIn := true }
    (t.rstQ = .low ∧ t.stepLbl.num = 0x02 ∧ t.ready = false ∧ t.trace = [.pinWrite .rst .low]) ∧
      (u.rstQ = .high ∧ u.stepLbl.num = 0 ∧ u.ready = true ∧ u.status.num = 0 ∧ u.trace = [.pinWrite .rst .low]) := by decide

/-- 10_state.md R31: `CS_SELECTED_4` stands between the last event of the SAK read and `Done`. -/
theorem test_selected4_stands :
    let s : State := { running with
      cmd := 5, stepLbl := .selRead, tph := .t12, sub := .sample, rlen := 1, rxbuf := [0x08], cb := ⟨1, 2, 3, 4, 0, 0, 0, 0, 4, 0⟩,
      coarse := .csAc1Sent, busyIn := [.low] }
    (stepped s).coarse.num = 5 ∧ (stepped s).ready = false ∧ (stepped (stepped s)).coarse.num = 8 ∧
      (stepped (stepped s)).status.num = 2 := by decide

/-- The lines of program P1 and P2 up to the SAK. -/
def cardLines (l1 cnt : List Byte) : List Line :=
  uptoReqaCheck specCfg [4, 0, 0, 0] [4, 2, 0, 0] [0, 0, 0, 1] ++ uptoCountL1 specCfg [4, 0] [0, 0, 0, 1] [5, 0, 0, 0] ++
    uptoSelCheck specCfg l1 [0, 0, 0, 1] ++
    selectLines specCfg (byteAt l1 0) (byteAt l1 1) (byteAt l1 2) (byteAt l1 3) (byteAt l1 4) cnt

def p1Lines : List Line :=
  cardLines [1, 2, 3, 4, 6] [1, 0, 0, 0] ++ [.xfer (xReadData specCfg 1) [0x08]]

def p2Lines : List Line :=
  cardLines [0x88, 2, 3, 4, 6] [1, 0, 0, 0] ++ [.xfer (xReadData specCfg 1) [0x04]] ++
    checkL2Lines specCfg [0, 0, 0, 1] ++ countL2Lines specCfg [5, 0, 0, 0] ++
    [.xfer (xReadData specCfg 5) [0x11, 0x12, 0x13, 0x14, 0x16]]

/-- Program P1 (scenario A). -/
theorem test_readCardSerial_four :
    let t := after .readCardSerial (promptState p1Lines 3)
    (t.status.num = 2 ∧ t.uidOut.bytes t.uidLen = [0x01, 0x02, 0x03, 0x04] ∧ t.sak = 0x08 ∧ t.rxcnt = 1 ∧ t.coarse.num = 8) ∧
      busWrites t.trace = [[0x0A, 0x00], [0x04, 0x13], [0x09, 0x00, 0x93, 0x70, 0x01, 0x02, 0x03, 0x04, 0x06],
        [0x04, 0x1D], [0x01, 0x19, 0x01, 0x00, 0x00, 0x00], [0x01, 0x12, 0x01, 0x00, 0x00, 0x00], [0x0A, 0x00],
        [0x04, 0x13], [0x09, 0x04, 0x93, 0x20], [0x00, 0x03, 0xFF, 0xFF, 0x0F, 0x00], [0x04, 0x1D], [0x0A, 0x00],
        [0x09, 0x07, 0x26], [0x04, 0x1D], [0x01, 0x00, 0x03, 0x00, 0x00, 0x00], [0x02, 0x00, 0xF8, 0xFF, 0xFF, 0xFF],
        [0x02, 0x19, 0xFE, 0xFF, 0xFF, 0xFF], [0x02, 0x12, 0xFE, 0xFF, 0xFF, 0xFF], [0x02, 0x00, 0xBF, 0xFF, 0xFF, 0xFF],
        [0x00, 0x03, 0x00, 0x02, 0x00, 0x00], [0x04, 0x02], [0x16, 0x00], [0x11, 0x00, 0x80], [0x04, 0x02]] := by
  decide +kernel

/-- Program P2 (scenario B). -/
theorem test_readCardSerial_seven :
    let t := after .readCardSerial (promptState p2Lines 3)
    t.status.num = 3 ∧ t.uidOut.bytes t.uidLen = [0x02, 0x03, 0x04, 0x11, 0x12, 0x13, 0x14] ∧
      t.cb = ⟨0x88, 2, 3, 4, 0x11, 0x12, 0x13, 0x14, 6, 0x16⟩ ∧ t.sak = 0x04 ∧ t.rxcnt = 5 ∧ t.rxIn = [] := by
  decide +kernel

/-! ### Every statement's hypotheses are met by some state -/

/-- An environment that answers the lines `ls` promptly and then has the times `after`, for the configuration `c`. -/
def envState (c : Cfg) (ls : List Line) (polls : Nat) (after : List Time) : State :=
  { ahead with
    cfg := c, busyIn := promptLevels (lineLens ls),
    nowIn := List.replicate (clockReads (lineLens ls) + polls) 0 ++ after, rxIn := lineBytes ls }

/-- Whether every answer has the length its frame asks for. -/
def fits : List Line → Bool
  | [] => true
  | .xfer x rx :: ls => decide (rx.length = x.n) && fits ls
  | .pin _ _ :: ls | .sleep _ :: ls => fits ls

theorem fits_linesFit (ls : List Line) (h : fits ls = true) : linesFit ls := by
  induction ls with
  | nil => intro x rx hm; cases hm
  | cons l ls ih =>
    intro x rx hm
    cases l with
    | xfer y ry =>
      simp only [fits, Bool.and_eq_true, decide_eq_true_eq] at h
      rcases List.mem_cons.mp hm with e | hm
      · cases e; exact h.1
      · exact ih h.2 x rx hm
    | pin p v =>
      rcases List.mem_cons.mp hm with e | hm
      · cases e
      · exact ih h x rx hm
    | sleep ms =>
      rcases List.mem_cons.mp hm with e | hm
      · cases e
      · exact ih h x rx hm

theorem envState_prompt (c : Cfg) (ls : List Line) (polls : Nat) (after : List Time) (h : fits ls = true) :
    Prompt (envState c ls polls after) { State.reset with nowIn := after } ls polls :=
  ⟨(List.append_nil _).symm, (List.append_nil _).symm, fits_linesFit ls h, _, List.length_replicate, rfl⟩

theorem promptState_answers (ls : List Line) (polls : Nat) (h : fits ls = true) : Answers (promptState ls polls) ls polls :=
  ⟨rfl, State.reset, (List.append_nil _).symm, (List.append_nil _).symm, fits_linesFit ls h, _, List.length_replicate,
    (List.append_nil _).symm⟩

theorem envState_answers (c : Cfg) (ls : List Line) (polls : Nat) (h : fits ls = true) :
    Answers (envState c ls polls []) ls polls :=
  ⟨rfl, _, envState_prompt c ls polls [] h⟩

theorem witness_EngineResetAbandons :
    (∃ s : State, s.resetIn = true ∧ s.ready = true) ∧ ∃ s : State, s.resetIn = true ∧ s.ready = false :=
  ⟨⟨{ State.reset with resetIn := true }, rfl, rfl⟩, ⟨{ State.reset with resetIn := true, ready := false }, rfl, rfl⟩⟩

theorem witness_StepRunsPresentedInstruction :
    ∃ (s : State) (p : Presented) (i : Instr), s.resetIn = false ∧ s.ready = true ∧ s.otherBusy = false ∧
      s.port = some p ∧ decode s.cfg p = .ok i :=
  ⟨{ State.reset with port := some (.host 5) }, .host 5, .readCardSerial, rfl, rfl, rfl, rfl, rfl⟩

theorem witness_StepWithoutInstruction :
    (∃ s : State, s.resetIn = false ∧ s.ready = true ∧ s.port = none) ∧
    (∃ (s : State) (p : Presented) (e : DecodeError), s.resetIn = false ∧ s.ready = true ∧ s.otherBusy = false ∧
      s.port = some p ∧ decode s.cfg p = .error e) ∧
    (∃ s : State, s.resetIn = false ∧ s.ready = true ∧ s.otherBusy = true ∧ s.port ≠ none) ∧
    (∃ s : State, s.resetIn = false ∧ s.ready = false ∧ s.otherBusy = false ∧ s.runAhead = false) ∧
    (∃ s : State, s.resetIn = false ∧ s.ready = false ∧ s.otherBusy = false ∧ s.runAhead = true) ∧
    ∃ s : State, s.resetIn = false ∧ s.ready = false ∧ s.otherBusy = true :=
  ⟨⟨State.reset, rfl, rfl, rfl⟩,
    ⟨{ State.reset with port := some (.op .frame [0x03] 0) }, _, .unknownOpcode, rfl, rfl, rfl, rfl, rfl⟩,
    ⟨{ State.reset with port := some (.host 5), otherBusy := true }, rfl, rfl, rfl, by intro h; cases h⟩,
    ⟨{ State.reset with ready := false }, rfl, rfl, rfl, rfl⟩,
    ⟨{ ahead with ready := false }, rfl, rfl, rfl, rfl⟩,
    ⟨{ State.reset with ready := false, otherBusy := true }, rfl, rfl, rfl⟩⟩

theorem witness_BusyEngineAcceptsNothing : ∃ s t : State, s.ready = false ∧ step s = .next t :=
  ⟨running, _, rfl, rfl⟩

theorem witness_DecodeEncodeAgree :
    Instr.wf (.sendData 7 [0, 1, 2, 3, 4, 5, 0xFF]) = true ∧ Instr.wf (.readEeprom 0 1) = true ∧
      Instr.wf (.readData 0xFF) = true := by decide

/-- The longest interval of a 32-bit clock, and of one that is 1 bit wide. -/
theorem witness_ElapsedIsTrueInterval :
    (∃ interval : Nat, interval < 2 ^ specCfg.time.clockBits ∧ interval + 1 = 2 ^ 32) ∧
    ∃ (c : Cfg) (interval : Nat), interval < 2 ^ c.time.clockBits ∧ interval = 1 :=
  ⟨⟨2 ^ 32 - 1, by decide, by decide⟩, ⟨{ specCfg with time := { specCfg.time with clockBits := 1 } }, 1, by decide, rfl⟩⟩

theorem witness_AcceptClearsResults : (∃ c : BitVec 3, c = 6 ∨ c = 7) ∧ ∃ s : State, s.ready = false :=
  ⟨⟨7, .inr rfl⟩, ⟨running, rfl⟩⟩

/-- A single operation in progress: a frame about to be sent. -/
def operating : State :=
  { State.reset with
    ready := false, call := some [.xfer (xRfOn specCfg) .plain], txbuf := (xRfOn specCfg).tx, tph := .t1 }

theorem operating_resultInv : operating.ResultInv :=
  ⟨rfl, fun _ => rfl, fun _ h => (by cases h), fun _ h => (by cases h),
    fun gs h => (by cases h; exact ⟨by simp, rfl, rfl⟩)⟩

theorem witness_DonePostsResults : ∃ s : State, s.ready = true ∧ s.resetIn = false ∧ s.port = none :=
  ⟨State.reset, rfl, rfl, rfl⟩

theorem witness_ResultFormat : State.reset.ready = true := rfl

/-- 70_reset_and_hazards.md R236: after the Accept of a reserved code `DIAG_CODE` is 9 already, and the host still reads 0; a
UID that is written is not read before `Done`. -/
theorem test_results_read_cleared_while_busy :
    let s := accept 6 State.reset
    s.diagCode = .dgIllegalCmd ∧ s.hostView.diagCode = 0 ∧ (events 2 s).hostView.diagCode = 9 ∧
    (let u := setUid4 ⟨1, 2, 3, 4, 0, 0, 0⟩ running
    u.hostView.uid = 0 ∧ u.hostView.uidLen = 0 ∧ u.hostView.coarse = 5 ∧
      (done .stUid4 u).hostView.uid = 0x04030201 ∧ (done .stUid4 u).hostView.status = 2) := by decide

theorem witness_ResultsWhileBusy :
    (∃ s : State, s.ready = false) ∧
    (∃ (i : Instr) (s t : State), (∀ c, encode s.cfg i ≠ .host c) ∧ exec i s = .next t) ∧
    ∃ s t : State, s.ResultInv ∧ s.resetIn = false ∧ s.ready = false ∧ s.call ≠ none ∧ step s = .next t :=
  ⟨⟨running, rfl⟩, ⟨.rfOn, running, _, fun c h => (by cases h), rfl⟩,
    ⟨operating, _, operating_resultInv, rfl, rfl, (by intro h; cases h), rfl⟩⟩

theorem witness_ReservedCodesComplete : State.reset.ready = true := rfl

/-- An idle engine that stands still after `Accept`, and one that runs ahead: a version command to its `Done`, a frame to
its return. -/
theorem witness_HostCommandIsAcceptThenEvents :
    (State.reset.ready = true ∧ State.reset.runAhead = false ∧ (after .getFirmware State.reset).ready = false ∧
      (after .getFirmware State.reset).trace = [.accept 2]) ∧
    (∃ s : State, s.ready = true ∧ s.runAhead = true ∧ (after .getFirmware s).status = .stOk) ∧
    ∃ s : State, s.ready = true ∧ (after .rfOn { s with runAhead := false }).ready = false ∧
      (after .rfOn { s with runAhead := true }).result = .ok :=
  ⟨by decide, ⟨one (xReadEeprom specCfg 0x12 2) [0, 4], by decide⟩, ⟨one (xRfOn specCfg) [], by decide⟩⟩

/-- W1 of the wait at T1, the line HIGH for one sample with the clock exactly at `TIMEOUT_MS`. -/
theorem witness_WaitPassesWhenLevelSeen :
    ∃ (s : State) (l : Level) (a : Time) (ms : List (Level × Time)) (bs : List Level) (ts : List Time),
      s.sub = .start ∧ waitLevel s.tph = some l ∧
      s.busyIn = ms.map Prod.fst ++ l :: bs ∧ s.nowIn = a :: (ms.map Prod.snd ++ ts) ∧
      ∀ m ∈ ms, m.1 ≠ l ∧ late s.cfg a m.2 s.cfg.time.timeoutMs = false :=
  ⟨{ operating with busyIn := [.high, .low], nowIn := [0, 50] }, .low, 0, [(.high, 50)], [], [], rfl, rfl, rfl, rfl, by
    decide⟩

/-- The same line HIGH for another sample, one millisecond later; chip-select is inactive at T1 and active at T4; the
wait stands in a single operation or in a host command. -/
theorem witness_WaitTimesOut :
    (∃ (s : State) (l w : Level) (a z : Time) (ms : List (Level × Time)) (bs : List Level) (ts : List Time),
      s.sub = .start ∧ waitLevel s.tph = some l ∧ w ≠ l ∧
      s.busyIn = ms.map Prod.fst ++ w :: bs ∧ s.nowIn = a :: (ms.map Prod.snd ++ z :: ts) ∧
      (∀ m ∈ ms, m.1 ≠ l ∧ late s.cfg a m.2 s.cfg.time.timeoutMs = false) ∧ late s.cfg a z s.cfg.time.timeoutMs = true ∧
      s.nssQ ≠ s.cfg.pin.nssActive ∧ s.call ≠ none) ∧
    ∃ (s : State) (l w : Level) (a z : Time) (ms : List (Level × Time)) (bs : List Level) (ts : List Time),
      s.sub = .start ∧ waitLevel s.tph = some l ∧ w ≠ l ∧
      s.busyIn = ms.map Prod.fst ++ w :: bs ∧ s.nowIn = a :: (ms.map Prod.snd ++ z :: ts) ∧
      (∀ m ∈ ms, m.1 ≠ l ∧ late s.cfg a m.2 s.cfg.time.timeoutMs = false) ∧ late s.cfg a z s.cfg.time.timeoutMs = true ∧
      s.nssQ = s.cfg.pin.nssActive ∧ s.call = none :=
  ⟨⟨{ operating with busyIn := [.high, .high], nowIn := [0, 50, 51] }, .low, .high, 0, 51, [(.high, 50)], [], [], rfl, rfl,
      by decide, rfl, rfl, by decide, by decide, by decide, by intro h; cases h⟩,
    ⟨{ running with stepLbl := .verRead, cmd := 2, tph := .t4, nssQ := .low, busyIn := [.low], nowIn := [0, 51] }, .high,
      .low, 0, 51, [], [], [], rfl, rfl, by decide, rfl, rfl, by decide, by decide, rfl, rfl⟩⟩

/-- A wait with `TIMEOUT_MS = 0`, two clock reads for each millisecond at most. -/
theorem witness_WaitEndsWhenClockAdvances :
    let c : Cfg := { specCfg with time := { specCfg.time with timeoutMs := 0 } }
    let s : State := { operating with cfg := c, nowIn := [7, 8, 9] }
    s.sub = .start ∧ waitLevel s.tph = some .low ∧ ClockProgress 2 [7, 8, 9] ∧
      2 * (s.cfg.time.timeoutMs + 1) < [7, 8, 9].length ∧ [7, 8, 9].getLastD 0 < [7, 8, 9].headD 0 + 2 ^ s.cfg.time.clockBits ∧
      s.nowIn = [7, 8, 9] ++ [] := by
  refine ⟨rfl, rfl, ⟨fun i h => ?_, fun i h => ?_⟩, by decide, by decide, rfl⟩
  all_goals
    have h2 : i = 0 ∨ i = 1 := by simp at h; omega
    rcases h2 with rfl | rfl <;> decide

theorem witness_RegisterWritesComplete :
    (one (xWriteRegister specCfg 0xFF 0xFFFFFFFF) []).ready = true ∧
    Answers (one (xWriteRegister specCfg 0xFF 0xFFFFFFFF) []) [.xfer ⟨specCfg.op.writeRegister :: 0xFF :: le32 0xFFFFFFFF, 0⟩ []] 0 ∧
    Answers (one (xWriteRegisterOrMask specCfg 0 1) []) [.xfer ⟨specCfg.op.writeRegisterOrMask :: 0 :: le32 1, 0⟩ []] 0 ∧
    Answers (one (xWriteRegisterAndMask specCfg 0 1) []) [.xfer ⟨specCfg.op.writeRegisterAndMask :: 0 :: le32 1, 0⟩ []] 0 :=
  ⟨rfl, promptState_answers _ 0 rfl, promptState_answers _ 0 rfl, promptState_answers _ 0 rfl⟩

theorem witness_RadioWritesComplete :
    Answers (one (xSendData specCfg 7 [0x26]) []) [.xfer ⟨specCfg.op.sendData :: 7 :: [0x26], 0⟩ []] 0 ∧
    Answers (one (xLoadRfConfig specCfg 0 0x80) []) [.xfer ⟨[specCfg.op.loadRfConfig, 0, 0x80], 0⟩ []] 0 ∧
    Answers (one (xRfOn specCfg) []) [.xfer ⟨[specCfg.op.rfOn, specCfg.arg.rfOnArg], 0⟩ []] 0 :=
  ⟨promptState_answers _ 0 rfl, promptState_answers _ 0 rfl, promptState_answers _ 0 rfl⟩

theorem witness_RegisterReadsComplete :
    Answers (one (xReadRegister specCfg 0xFF) [1, 2, 3, 4]) [.xfer ⟨[specCfg.op.readRegister, 0xFF], 4⟩ [1, 2, 3, 4]] 0 ∧
    Answers (one (xGetIrqStatus specCfg) [1, 2, 3, 4])
      [.xfer ⟨[specCfg.op.readRegister, specCfg.reg.irqStatus], 4⟩ [1, 2, 3, 4]] 0 :=
  ⟨promptState_answers _ 0 rfl, promptState_answers _ 0 rfl⟩

theorem witness_ByteReadsComplete :
    Answers (one (xReadEeprom specCfg 0xFF 2) [1, 2]) [.xfer ⟨[specCfg.op.readEeprom, 0xFF, 2], 2⟩ [1, 2]] 0 ∧
    Answers (one (xReadData specCfg 1) [1]) [.xfer ⟨[specCfg.op.readData, specCfg.arg.readDataArg], 1⟩ [1]] 0 ∧
    Answers (one (xReadData specCfg 0) []) [.xfer ⟨[specCfg.op.readData, specCfg.arg.readDataArg], 0⟩ []] 0 :=
  ⟨promptState_answers _ 0 rfl, promptState_answers _ 0 rfl, promptState_answers _ 0 rfl⟩

theorem witness_MaskPseudoOperationsComplete :
    Answers (one (xClearIrqStatus specCfg 0xFFFFF) []) [.xfer (xWriteRegister specCfg specCfg.reg.irqClear 0xFFFFF) []] 0 ∧
    Answers (one (xCryptoOff specCfg) [])
      [.xfer (xWriteRegisterAndMask specCfg specCfg.reg.systemConfig specCfg.field.cryptoOffMask) []] 0 ∧
    Answers (one (xSetIdle specCfg) [])
      [.xfer (xWriteRegisterAndMask specCfg specCfg.reg.systemConfig specCfg.field.idleAndMask) []] 0 ∧
    Answers (one (xSetTransceive specCfg) [])
      [.xfer (xWriteRegisterOrMask specCfg specCfg.reg.systemConfig specCfg.field.transceiveOrMask) []] 0 :=
  ⟨promptState_answers _ 0 rfl, promptState_answers _ 0 rfl, promptState_answers _ 0 rfl, promptState_answers _ 0 rfl⟩

theorem witness_MaskPseudoOperationsComplete_crc :
    (∃ s, s.ready = true ∧ Answers s [.xfer (xCrcRxOff s.cfg) [], .xfer (xCrcTxOff s.cfg) []] 0) ∧
    ∃ s, s.ready = true ∧ Answers s [.xfer (xCrcRxOn s.cfg) [], .xfer (xCrcTxOn s.cfg) []] 0 :=
  ⟨⟨promptState _ 0, rfl, promptState_answers [.xfer (xCrcRxOff specCfg) [], .xfer (xCrcTxOff specCfg) []] 0 rfl⟩,
    ⟨promptState _ 0, rfl, promptState_answers [.xfer (xCrcRxOn specCfg) [], .xfer (xCrcTxOn specCfg) []] 0 rfl⟩⟩

theorem witness_TransceiveStateOperations :
    ∃ s, s.ready = true ∧ Answers s [.xfer (xGetTransceiveState s.cfg) [0, 0, 0, 1]] 0 :=
  ⟨promptState _ 0, rfl, promptState_answers [.xfer (xGetTransceiveState specCfg) [0, 0, 0, 1]] 0 rfl⟩

theorem witness_RxCountCompletes : ∃ s, s.ready = true ∧ Answers s [.xfer (xGetRxCount s.cfg) [0xFF, 0xFF, 0, 0]] 0 :=
  ⟨promptState _ 0, rfl, promptState_answers [.xfer (xGetRxCount specCfg) [0xFF, 0xFF, 0, 0]] 0 rfl⟩

theorem witness_FrameEffectsOnChip :
    specCfg.wf = true ∧ ((0x00 : Byte) ≠ specCfg.reg.irqClear ∧ (0x00 : Byte) ≠ specCfg.reg.irqStatus) ∧
      specCfg.reg.irqStatus ≠ specCfg.reg.irqClear ∧ [1, 2, 3, 4].length = 4 ∧ [1].length = (1 : Byte).toNat ∧
      Instr.wf (.sendData 7 [0x26]) = true := by decide

/-- Bit 0 is known to be set, the others are unknown. -/
theorem witness_MaskFramesAreSound : Known.agrees ⟨1, 1⟩ 0xFFFFFFFF = true ∧ Known.agrees ⟨1, 1⟩ 0x00000001 = true := by
  decide

theorem witness_FrameTimesOutAtHighWait :
    ∃ (s : State) (i : Instr) (tx : List Byte) (n : Nat) (a b z : Time) (bs : List Level) (ts : List Time),
      s.ready = true ∧ s.runAhead = true ∧ encode s.cfg i = .op .frame tx n ∧ s.busyIn = .low :: .low :: bs ∧ s.nowIn = a :: b :: z :: ts ∧
      late s.cfg b z s.cfg.time.timeoutMs = true :=
  ⟨{ ahead with busyIn := [.low, .low], nowIn := [0, 0, 51] }, .rfOn, _, _, 0, 0, 51, [], [], rfl, rfl, rfl, rfl, rfl,
    by decide⟩

theorem witness_ReqaCompletes : ∃ (s : State) (atqa : List Byte), s.ready = true ∧ s.cfg.wf = true ∧
    Answers s [.xfer (xSendData s.cfg s.cfg.card.reqaValidBits [s.cfg.card.reqaByte]) [], .sleep s.cfg.time.cardWaitMs,
      .xfer (xReadData s.cfg s.cfg.card.atqaLen) atqa] 0 :=
  ⟨promptState (reqaLines specCfg [4, 0]) 0, [4, 0], rfl, test_cfg_wf, promptState_answers (reqaLines specCfg [4, 0]) 0 rfl⟩

theorem witness_AnticollL1Completes :
    (∃ (s : State) (cnt : List Byte), s.ready = true ∧ s.cfg.wf = true ∧ Answers s (countL1Lines s.cfg cnt) 0 ∧
      countOf s.cfg cnt ≠ 5) ∧
    ∃ (s : State) (cnt : List Byte), s.ready = true ∧ s.cfg.wf = true ∧
      Answers s (countL1Lines s.cfg cnt ++ [.xfer (xReadData s.cfg s.cfg.card.acRespLen) [1, 2, 3, 4, 4]]) 0 ∧
      countOf s.cfg cnt = 5 :=
  ⟨⟨promptState _ 0, [4, 0, 0, 0], rfl, test_cfg_wf, promptState_answers (countL1Lines specCfg [4, 0, 0, 0]) 0 rfl, by decide⟩,
    ⟨promptState _ 0, [5, 0, 0, 0], rfl, test_cfg_wf, promptState_answers (l1Lines [5, 0, 0, 0] [1, 2, 3, 4, 4]) 0 rfl,
      by decide⟩⟩

theorem witness_SelectL1Completes :
    (∃ (s : State) (st : List Byte), s.ready = true ∧ s.cfg.wf = true ∧
      Answers s [.xfer (xGetTransceiveState s.cfg) st] 0 ∧ ¬ShowsWaitTransmit s.cfg st) ∧
    (∃ (s : State) (st cnt : List Byte), s.ready = true ∧ s.cfg.wf = true ∧
      Answers s (.xfer (xGetTransceiveState s.cfg) st :: selectLines s.cfg 1 2 3 4 4 cnt) 0 ∧
      ShowsWaitTransmit s.cfg st ∧ countOf s.cfg cnt = 0) ∧
    ∃ (s : State) (st cnt : List Byte), s.ready = true ∧ s.cfg.wf = true ∧
      Answers s (.xfer (xGetTransceiveState s.cfg) st :: (selectLines s.cfg 1 2 3 4 4 cnt ++
        [.xfer (xReadData s.cfg s.cfg.card.sakLen) [8]])) 0 ∧
      ShowsWaitTransmit s.cfg st ∧ countOf s.cfg cnt ≠ 0 :=
  ⟨⟨promptState _ 0, [0, 0, 0, 5], rfl, test_cfg_wf,
      promptState_answers [.xfer (xGetTransceiveState specCfg) [0, 0, 0, 5]] 0 rfl, by unfold ShowsWaitTransmit; decide⟩,
    ⟨promptState _ 0, [0, 0, 0, 1], [0, 0, 0, 0], rfl, test_cfg_wf,
      promptState_answers (.xfer (xGetTransceiveState specCfg) [0, 0, 0, 1] ::
        selectLines specCfg 1 2 3 4 4 [0, 0, 0, 0]) 0 rfl, by unfold ShowsWaitTransmit; decide, by decide⟩,
    ⟨promptState _ 0, [0, 0, 0, 1], [1, 0, 0, 0], rfl, test_cfg_wf,
      promptState_answers (.xfer (xGetTransceiveState specCfg) [0, 0, 0, 1] ::
        (selectLines specCfg 1 2 3 4 4 [1, 0, 0, 0] ++ [.xfer (xReadData specCfg specCfg.card.sakLen) [8]])) 0 rfl,
      by unfold ShowsWaitTransmit; decide, by decide⟩⟩

theorem witness_AnticollL2Completes :
    (∃ (s : State) (st : List Byte), s.ready = true ∧ s.cfg.wf = true ∧ Answers s (checkL2Lines s.cfg st) 0 ∧
      ¬ShowsWaitTransmit s.cfg st) ∧
    (∃ (s : State) (st cnt : List Byte), s.ready = true ∧ s.cfg.wf = true ∧
      Answers s (checkL2Lines s.cfg st ++ countL2Lines s.cfg cnt) 0 ∧ ShowsWaitTransmit s.cfg st ∧ countOf s.cfg cnt ≠ 5) ∧
    ∃ (s : State) (st cnt : List Byte), s.ready = true ∧ s.cfg.wf = true ∧
      Answers s (checkL2Lines s.cfg st ++ countL2Lines s.cfg cnt ++
        [.xfer (xReadData s.cfg s.cfg.card.acRespLen) [1, 2, 3, 4, 4]]) 0 ∧
      ShowsWaitTransmit s.cfg st ∧ countOf s.cfg cnt = 5 :=
  ⟨⟨promptState _ 0, [0, 0, 0, 2], rfl, test_cfg_wf, promptState_answers (checkL2Lines specCfg [0, 0, 0, 2]) 0 rfl,
      by unfold ShowsWaitTransmit; decide⟩,
    ⟨promptState _ 0, [0, 0, 0, 1], [6, 0, 0, 0], rfl, test_cfg_wf,
      promptState_answers (checkL2Lines specCfg [0, 0, 0, 1] ++ countL2Lines specCfg [6, 0, 0, 0]) 0 rfl,
      by unfold ShowsWaitTransmit; decide, by decide⟩,
    ⟨promptState _ 0, [0, 0, 0, 1], [5, 0, 0, 0], rfl, test_cfg_wf,
      promptState_answers (checkL2Lines specCfg [0, 0, 0, 1] ++ countL2Lines specCfg [5, 0, 0, 0] ++
        [.xfer (xReadData specCfg specCfg.card.acRespLen) [1, 2, 3, 4, 4]]) 0 rfl,
      by unfold ShowsWaitTransmit; decide, by decide⟩⟩

theorem witness_BeginAndResetComplete :
    ∃ irq : List Byte, testBit (fromLe32 irq) specCfg.field.idleIrqBit = true ∧
      Answers (promptState (beginLines specCfg irq) 1) (beginLines specCfg irq) 1 ∧
      Answers (promptState (resetLines specCfg irq) 1) (resetLines specCfg irq) 1 :=
  ⟨[4, 0, 0, 0], by decide, promptState_answers _ 1 rfl, promptState_answers _ 1 rfl⟩

theorem witness_ResetPollExpires :
    ∃ (s u : State) (irq : List Byte) (a z : Time) (ts ts' : List Time), s.ready = true ∧ s.runAhead = true ∧
      testBit (fromLe32 irq) s.cfg.field.idleIrqBit = false ∧ Prompt s u (resetLines s.cfg irq) 1 ∧
      s.nowIn = a :: ts ∧ u.nowIn = z :: ts' ∧ late s.cfg a z s.cfg.time.timeoutMs = true :=
  ⟨envState specCfg (resetLines specCfg [0xFB, 0xFF, 0xFF, 0xFF]) 1 [51], _, [0xFB, 0xFF, 0xFF, 0xFF], 0, 51, _, [], rfl, rfl,
    by decide, envState_prompt specCfg _ 1 [51] rfl, rfl, rfl, by decide⟩

/-- The time test of each of the three polls, at its limit and one millisecond after it. -/
theorem witness_PollTimeTest :
    let s1 : State := { running with stepLbl := .rstPoll, sub := .time, nowIn := [50] }
    let s2 : State := { running with stepLbl := .radPoll, cmd := 5, sub := .time, nowIn := [51] }
    let s3 : State := { running with stepLbl := .ac1Poll, cmd := 5, sub := .time, nowIn := [3] }
    (s1.call = none ∧ s1.sub = .time ∧ s1.tph = .t0 ∧ s1.cand = .t0 ∧ s1.stepLbl = .rstPoll ∧
      late s1.cfg s1.tp0 s1.nextTime s1.cfg.time.timeoutMs = false) ∧
    (s2.call = none ∧ s2.sub = .time ∧ s2.tph = .t0 ∧ s2.cand = .t0 ∧ s2.stepLbl = .radPoll ∧
      late s2.cfg s2.tp0 s2.nextTime s2.cfg.time.timeoutMs = true) ∧
    (s3.call = none ∧ s3.sub = .time ∧ s3.tph = .t0 ∧ s3.cand = .t0 ∧ s3.stepLbl = .ac1Poll ∧
      late s3.cfg s3.tp0 s3.nextTime s3.cfg.time.statePollMs = true) := by
  decide

theorem witness_VersionCommandsComplete :
    ∃ s : State, s.ready = true ∧ s.cfg.wf = true ∧
      Answers s [.xfer ⟨[s.cfg.op.readEeprom, s.cfg.arg.eeFirmwareVersion, 2], 2⟩ [0, 4]] 0 :=
  ⟨promptState _ 0, rfl, test_cfg_wf,
    promptState_answers [.xfer ⟨[specCfg.op.readEeprom, specCfg.arg.eeFirmwareVersion, 2], 2⟩ [0, 4]] 0 rfl⟩

theorem witness_VersionTimesOut :
    ∃ (s : State) (a b z : Time) (bs : List Level) (ts : List Time), s.ready = true ∧ s.runAhead = true ∧
      s.busyIn = .low :: .low :: bs ∧ s.nowIn = a :: b :: z :: ts ∧ late s.cfg b z s.cfg.time.timeoutMs = true :=
  ⟨{ ahead with busyIn := [.low, .low], nowIn := [0, 0, 51] }, 0, 0, 51, [], [], rfl, rfl, rfl, rfl, by decide⟩

/-! #### READ_CARD_SERIAL -/

theorem read_irqs :
    testBit (fromLe32 [4, 0, 0, 0]) specCfg.field.idleIrqBit = true ∧
    testBit (fromLe32 [4, 2, 0, 0]) specCfg.field.txRfonIrqBit = true ∧
    transceiveState specCfg (fromLe32 [0, 0, 0, 1]) = waitTransmit ∧ countOf specCfg [5, 0, 0, 0] = 5 ∧
    countOf specCfg [1, 0, 0, 0] ≠ 0 ∧ countOf specCfg [0, 0, 0, 0] = 0 ∧ countOf specCfg [5, 1, 0, 0] ≠ 5 ∧
    ¬transceiveState specCfg (fromLe32 [0, 0, 0, 3]) = waitTransmit := by decide

/-- The configuration with `BCC_CHECK`. -/
def checkCfg : Cfg := { specCfg with bccCheck := true }

/-- Bytes that pass the checksum, and bytes that need no check. -/
theorem checksums :
    ChecksumPasses checkCfg 0x88 2 3 4 0x8D ∧ ChecksumPasses checkCfg 1 2 3 4 4 ∧ ChecksumPasses specCfg 0x88 2 3 4 6 ∧
      ChecksumPasses checkCfg 0x11 0x12 0x13 0x14 4 ∧ checkCfg.wf = true := by
  unfold ChecksumPasses; decide

/-- What the statements about a resolution share: the answers up to SELECT. With either configuration the same bytes show
the same bits. -/
theorem read_common :
    specCfg.wf = true ∧ specCfg.bccCheck = false ∧
    testBit (fromLe32 [4, 0, 0, 0]) specCfg.field.idleIrqBit = true ∧
    testBit (fromLe32 [4, 2, 0, 0]) specCfg.field.txRfonIrqBit = true ∧ ShowsWaitTransmit specCfg [0, 0, 0, 1] ∧
    countOf specCfg [5, 0, 0, 0] = 5 ∧ countOf specCfg [1, 0, 0, 0] ≠ 0 ∧ countOf specCfg [0, 0, 0, 0] = 0 ∧
    (0x04 : Byte) &&& specCfg.card.sakCascadeMask ≠ 0 ∧ (0x88 : Byte) = specCfg.card.cascadeTag :=
  ⟨test_cfg_wf, rfl, read_irqs.1, read_irqs.2.1, read_irqs.2.2.1, read_irqs.2.2.2.1, read_irqs.2.2.2.2.1,
    read_irqs.2.2.2.2.2.1, by decide, rfl⟩

/-- The lines of a resolution with the cascade tag, up to and with the SAK read, for the configuration `c`. -/
def cascadeLines (c : Cfg) (bcc : Byte) : List Line :=
  uptoReqaCheck c [4, 0, 0, 0] [4, 2, 0, 0] [0, 0, 0, 1] ++ uptoCountL1 c [4, 0] [0, 0, 0, 1] [5, 0, 0, 0] ++
    uptoSelCheck c [0x88, 2, 3, 4, bcc] [0, 0, 0, 1] ++ selectLines c 0x88 2 3 4 bcc [1, 0, 0, 0] ++
    [.xfer (xReadData c c.card.sakLen) [0x04]]

/-- Before REQA, before SELECT and before the second anticollision: with `read_common`, `checksums`. -/
theorem witness_ReadStopsOutsideWaitTransmit :
    (∃ (s : State) (irq1 irq2 st : List Byte), s.ready = true ∧ s.cfg.wf = true ∧
      testBit (fromLe32 irq1) s.cfg.field.idleIrqBit = true ∧ testBit (fromLe32 irq2) s.cfg.field.txRfonIrqBit = true ∧
      ¬ShowsWaitTransmit s.cfg st ∧ Answers s (uptoReqaCheck s.cfg irq1 irq2 st) 2) ∧
    ¬ShowsWaitTransmit specCfg [0, 0, 0, 3] ∧
    (∃ s : State, s.ready = true ∧ Answers s
      (uptoReqaCheck specCfg [4, 0, 0, 0] [4, 2, 0, 0] [0, 0, 0, 1] ++ uptoCountL1 specCfg [4, 0] [0, 0, 0, 1] [5, 0, 0, 0] ++
        uptoSelCheck specCfg [1, 2, 3, 4, 6] [0, 0, 0, 3]) 3) ∧
    ∃ s : State, s.ready = true ∧ Answers s (cascadeLines specCfg 6 ++ checkL2Lines specCfg [0, 0, 0, 3]) 3 :=
  ⟨⟨promptState _ 2, [4, 0, 0, 0], [4, 2, 0, 0], [0, 0, 0, 0], rfl, test_cfg_wf, read_irqs.1, read_irqs.2.1,
      by unfold ShowsWaitTransmit; decide,
      promptState_answers (uptoReqaCheck specCfg [4, 0, 0, 0] [4, 2, 0, 0] [0, 0, 0, 0]) 2 rfl⟩,
    read_irqs.2.2.2.2.2.2.2, ⟨promptState _ 3, rfl, promptState_answers _ 3 rfl⟩,
    ⟨promptState _ 3, rfl, promptState_answers _ 3 rfl⟩⟩

/-- At level 1, and with `read_common` and `checksums` at level 2, the count 261. -/
theorem witness_ReadStopsOnWrongCount :
    (∃ (s : State) (irq1 irq2 st1 atqa st2 cnt : List Byte), s.ready = true ∧ s.cfg.wf = true ∧
      testBit (fromLe32 irq1) s.cfg.field.idleIrqBit = true ∧ testBit (fromLe32 irq2) s.cfg.field.txRfonIrqBit = true ∧
      ShowsWaitTransmit s.cfg st1 ∧ ShowsWaitTransmit s.cfg st2 ∧ countOf s.cfg cnt ≠ 5 ∧
      Answers s (uptoReqaCheck s.cfg irq1 irq2 st1 ++ uptoCountL1 s.cfg atqa st2 cnt) 3) ∧
    ∃ s : State, s.ready = true ∧ countOf specCfg [5, 1, 0, 0] ≠ 5 ∧
      Answers s (cascadeLines specCfg 6 ++ checkL2Lines specCfg [0, 0, 0, 1] ++ countL2Lines specCfg [5, 1, 0, 0]) 3 :=
  ⟨⟨promptState _ 3, [4, 0, 0, 0], [4, 2, 0, 0], [0, 0, 0, 1], [4, 0], [0, 0, 0, 1], [5, 1, 0, 0], rfl, test_cfg_wf,
      read_irqs.1, read_irqs.2.1, read_irqs.2.2.1, read_irqs.2.2.1, by decide,
      promptState_answers (uptoReqaCheck specCfg [4, 0, 0, 0] [4, 2, 0, 0] [0, 0, 0, 1] ++
        uptoCountL1 specCfg [4, 0] [0, 0, 0, 1] [5, 1, 0, 0]) 3 rfl⟩,
    ⟨promptState _ 3, rfl, by decide, promptState_answers _ 3 rfl⟩⟩

/-- At level 1 (V43.9), and with `checksums` at level 2 (V43.20). -/
theorem witness_ReadStopsOnChecksum :
    (∃ (s : State) (irq1 irq2 st1 atqa st2 cnt : List Byte) (u0 u1 u2 u3 bcc : Byte), s.ready = true ∧ s.cfg.wf = true ∧
      s.cfg.bccCheck = true ∧ u0 ^^^ u1 ^^^ u2 ^^^ u3 ≠ bcc ∧
      testBit (fromLe32 irq1) s.cfg.field.idleIrqBit = true ∧ testBit (fromLe32 irq2) s.cfg.field.txRfonIrqBit = true ∧
      ShowsWaitTransmit s.cfg st1 ∧ ShowsWaitTransmit s.cfg st2 ∧ countOf s.cfg cnt = 5 ∧
      Answers s (uptoReqaCheck s.cfg irq1 irq2 st1 ++ uptoCountL1 s.cfg atqa st2 cnt ++
        [.xfer (xReadData s.cfg s.cfg.card.acRespLen) [u0, u1, u2, u3, bcc]]) 3) ∧
    ∃ s : State, s.ready = true ∧ s.cfg.bccCheck = true ∧ (0x88 : Byte) ^^^ 2 ^^^ 3 ^^^ 4 = 0x8D ∧
      (0x11 : Byte) ^^^ 0x12 ^^^ 0x13 ^^^ 0x14 ≠ 0x16 ∧
      Answers s (cascadeLines checkCfg 0x8D ++ checkL2Lines checkCfg [0, 0, 0, 1] ++ countL2Lines checkCfg [5, 0, 0, 0] ++
        [.xfer (xReadData checkCfg checkCfg.card.acRespLen) [0x11, 0x12, 0x13, 0x14, 0x16]]) 3 :=
  ⟨⟨envState checkCfg _ 3 [], [4, 0, 0, 0], [4, 2, 0, 0], [0, 0, 0, 1], [4, 0], [0, 0, 0, 1], [5, 0, 0, 0], 1, 2, 3, 4, 6,
      rfl, by decide, rfl, by decide, read_irqs.1, read_irqs.2.1, read_irqs.2.2.1, read_irqs.2.2.1, read_irqs.2.2.2.1,
      envState_answers checkCfg (uptoReqaCheck checkCfg [4, 0, 0, 0] [4, 2, 0, 0] [0, 0, 0, 1] ++
        uptoCountL1 checkCfg [4, 0] [0, 0, 0, 1] [5, 0, 0, 0] ++
        [.xfer (xReadData checkCfg checkCfg.card.acRespLen) [1, 2, 3, 4, 6]]) 3 rfl⟩,
    ⟨envState checkCfg _ 3 [], rfl, rfl, by decide, by decide, envState_answers checkCfg _ 3 rfl⟩⟩

/-- With `read_common` and `checksums`: the answers of program P1 for a SAK with the cascade bit clear. -/
theorem witness_ReadsFourByteUid : (promptState p1Lines 3).ready = true ∧ Answers (promptState p1Lines 3) p1Lines 3 ∧
    ChecksumPasses specCfg 1 2 3 4 6 ∧ (0x08 : Byte) &&& specCfg.card.sakCascadeMask = 0 :=
  ⟨rfl, promptState_answers p1Lines 3 rfl, by unfold ChecksumPasses; decide, by decide⟩

/-- With `read_common`: V43.10, with `BCC_CHECK` and a right fifth byte. -/
theorem witness_ReadsFourByteUid_checked :
    ∃ s : State, s.ready = true ∧ s.cfg = checkCfg ∧ ChecksumPasses checkCfg 1 2 3 4 4 ∧
      Answers s (uptoReqaCheck checkCfg [4, 0, 0, 0] [4, 2, 0, 0] [0, 0, 0, 1] ++
        uptoCountL1 checkCfg [4, 0] [0, 0, 0, 1] [5, 0, 0, 0] ++ uptoSelCheck checkCfg [1, 2, 3, 4, 4] [0, 0, 0, 1] ++
        selectLines checkCfg 1 2 3 4 4 [1, 0, 0, 0] ++ [.xfer (xReadData checkCfg checkCfg.card.sakLen) [0x08]]) 3 :=
  ⟨envState checkCfg _ 3 [], rfl, rfl, checksums.2.1, envState_answers checkCfg _ 3 rfl⟩

/-- With `read_common` and `checksums`: V43.5. -/
theorem witness_ReadReturnsLastFourOnNoAnswer :
    ∃ s : State, s.ready = true ∧ Answers s (cardLines [1, 2, 3, 4, 4] [0, 0, 0, 0]) 3 :=
  ⟨promptState _ 3, rfl, promptState_answers (cardLines [1, 2, 3, 4, 4] [0, 0, 0, 0]) 3 rfl⟩

/-- With `read_common` and `checksums`: program P6. -/
theorem witness_ReadStopsWithoutCascadeTag :
    (∃ s : State, s.ready = true ∧
      Answers s (cardLines [1, 2, 3, 4, 4] [1, 0, 0, 0] ++ [.xfer (xReadData specCfg specCfg.card.sakLen) [0x04]]) 3) ∧
    (0x04 : Byte) &&& specCfg.card.sakCascadeMask ≠ 0 ∧ (1 : Byte) ≠ specCfg.card.cascadeTag :=
  ⟨⟨promptState _ 3, rfl, promptState_answers
      (cardLines [1, 2, 3, 4, 4] [1, 0, 0, 0] ++ [.xfer (xReadData specCfg specCfg.card.sakLen) [0x04]]) 3 rfl⟩,
    by decide, by decide⟩

/-- With `read_common` and `checksums`: program P2, without `BCC_CHECK`, and with it and right fifth bytes. -/
theorem witness_ReadsSevenByteUid :
    ((promptState p2Lines 3).ready = true ∧ Answers (promptState p2Lines 3) p2Lines 3) ∧
    ∃ s : State, s.ready = true ∧ s.cfg = checkCfg ∧
      Answers s (cascadeLines checkCfg 0x8D ++ checkL2Lines checkCfg [0, 0, 0, 1] ++ countL2Lines checkCfg [5, 0, 0, 0] ++
        [.xfer (xReadData checkCfg checkCfg.card.acRespLen) [0x11, 0x12, 0x13, 0x14, 4]]) 3 :=
  ⟨⟨rfl, promptState_answers p2Lines 3 rfl⟩, ⟨envState checkCfg _ 3 [], rfl, rfl, envState_answers checkCfg _ 3 rfl⟩⟩

/-- The lines up to the state poll, with the state WaitReceive. -/
def pollLines : List Line :=
  uptoReqaCheck specCfg [4, 0, 0, 0] [4, 2, 0, 0] [0, 0, 0, 1] ++ reqaLines specCfg [4, 0] ++
    [.xfer (xGetTransceiveState specCfg) [0, 0, 0, 3]]

/-- With `read_common`: V43.16 with one read. -/
theorem witness_ReadStopsWhenStatePollExpires :
    ∃ (s u : State) (a z : Time) (ts ts' : List Time), s.ready = true ∧ s.runAhead = true ∧ s.cfg = specCfg ∧
      ¬ShowsWaitTransmit s.cfg [0, 0, 0, 3] ∧ Prompt s u pollLines 3 ∧
      s.nowIn.drop (clockReads (lineLens (uptoReqaCheck s.cfg [4, 0, 0, 0] [4, 2, 0, 0] [0, 0, 0, 1] ++
        reqaLines s.cfg [4, 0])) + 2) = a :: ts ∧ u.nowIn = z :: ts' ∧ late s.cfg a z s.cfg.time.statePollMs = true :=
  ⟨envState specCfg pollLines 3 [3], _, 0, 3, _, [], rfl, rfl, rfl, by unfold ShowsWaitTransmit; decide,
    envState_prompt specCfg pollLines 3 [3] rfl, rfl, rfl, by decide⟩

/-- A host command whose run is known to end ends after some number of events, and not before. -/
theorem run_ends (c : BitVec 3) (s : State) (h : (runOn (accept c s)).ready = true) :
    ∃ n, (∀ m, m < n → (events m (accept c s)).ready = false) ∧ (events n (accept c s)).ready = true := by
  obtain ⟨n, e, _, hm⟩ := runOn_eq_events (accept c s)
  exact ⟨n, fun m hlt => (hm m hlt).1, e ▸ h⟩

/-- One run to `Done` for each of the three outcomes: program P1, program P2, and V43.19's kind of timeout. -/
theorem witness_UidComesFromTheCard :
    ∀ s ∈ [promptState p1Lines 3, promptState p2Lines 3, { ahead with busyIn := [.high], nowIn := [0, 0, 51] }],
      s.ready = true ∧ s.cfg.wf = true ∧
        ∃ n, (∀ m, m < n → (events m (accept 5 s)).ready = false) ∧ (events n (accept 5 s)).ready = true := by
  intro s hs
  have h : s.ready = true ∧ s.cfg.wf = true ∧ (runOn (accept 5 s)).ready = true := by
    revert s
    simp only [List.mem_cons, List.not_mem_nil, or_false, forall_eq_or_imp, forall_eq]
    decide +kernel
  exact ⟨h.1, h.2.1, run_ends 5 s h.2.2⟩

/-- A failure (reserved code) and a success (a version command). -/
theorem witness_EveryFailureIsLoggedOnce :
    (∃ (n : Nat) (s : State), s.ready = true ∧ (∀ m, m < n → (events m (accept 6 s)).ready = false) ∧
      (events n (accept 6 s)).ready = true) ∧
    ∃ (n : Nat) (s : State), s.ready = true ∧ (∀ m, m < n → (events m (accept 2 s)).ready = false) ∧
      (events n (accept 2 s)).ready = true := by
  constructor
  · obtain ⟨n, h⟩ := run_ends 6 ahead (by decide)
    exact ⟨n, ahead, rfl, h⟩
  · obtain ⟨n, h⟩ := run_ends 2 (one (xReadEeprom specCfg 0x12 2) [0, 4]) (by decide)
    exact ⟨n, _, rfl, h⟩

/-! #### Invariants: a command in progress meets each of them -/

theorem witness_PinInvariantKept : ∃ s t : State, s.PinInv ∧ s.ready = false ∧ step s = .next t :=
  ⟨running, _, ⟨fun h => (by cases h), rfl, rfl, fun _ => ⟨rfl, rfl, .inr (.inl rfl)⟩, fun h => (by cases h),
    fun gs h => (by cases h)⟩, rfl, rfl⟩

theorem running_posInv : running.PosInv :=
  ⟨fun h => (by cases h), fun h => (by cases h), fun h => (by cases h), ⟨by decide, by decide⟩,
    fun _ _ _ => .inl ⟨_, _, rfl⟩, fun gs h => (by cases h), fun _ => rfl, by decide, by decide⟩

theorem witness_PositionInvariantKept : ∃ s t : State, s.PosInv ∧ s.ready = false ∧ step s = .next t :=
  ⟨running, _, running_posInv, rfl, rfl⟩

/-- `COARSE` in the middle of the pulse, and between REQA and the first anticollision. -/
theorem witness_CoarseFollowsStep :
    (∃ s t : State, s.CoarseInv ∧ s.ready = false ∧ s.cmd = 1 ∧ step s = .next t) ∧
    ∃ s t : State, s.CoarseInv ∧ s.ready = false ∧ s.cmd = 5 ∧ s.coarse = .csReqaSent ∧ step s = .next t :=
  ⟨⟨{ running with coarse := .csReset }, _, ⟨fun _ _ => rfl, fun _ _ _ => rfl⟩, rfl, rfl, rfl⟩,
    ⟨{ running with cmd := 5, stepLbl := .reqaWait, coarse := .csReqaSent }, _, ⟨fun _ _ => rfl, fun _ _ _ => rfl⟩, rfl,
      rfl, rfl, rfl⟩⟩

theorem witness_OneEventIsOneAction : ∃ s : State, s.PosInv ∧ s.ready = false :=
  ⟨running, running_posInv, rfl⟩

theorem witness_ResultInvariantKept :
    (∃ s t : State, s.ResultInv ∧ s.ready = false ∧ step s = .next t) ∧
    ∃ s t : State, s.ResultInv ∧ step s = .next t ∧ t.ready = false ∧ t.call = none :=
  ⟨⟨operating, _, operating_resultInv, rfl, rfl⟩,
    ⟨{ State.reset with port := some (.host 5) }, _,
      ⟨rfl, fun _ => rfl, fun h => (by cases h), fun h => (by cases h), fun _ h => (by cases h)⟩, rfl, rfl, rfl⟩⟩

theorem witness_OnlyListedFramesAreWritten : ∃ s t : State, s.FrameInv ∧ s.ready = false ∧ step s = .next t :=
  ⟨operating, _, ⟨fun _ => by decide, fun gs h => (by cases h; decide)⟩, rfl, rfl⟩

theorem witness_RemoteFormKept : ∃ s t : State, s.remote.wf = true ∧ s.ready = false ∧ step s = .next t :=
  ⟨running, _, rfl, rfl, rfl⟩

theorem witness_ConfigurationIsConstant :
    (∃ s t : State, s.ready = false ∧ step s = .next t) ∧ ∃ (s t : State) (i : Instr), s.ready = true ∧ exec i s = .next t ∧ t.ready = false :=
  ⟨⟨running, _, rfl, rfl⟩, ⟨State.reset, _, .resetCmd, rfl, rfl, rfl⟩⟩

theorem witness_ChipKnowledgeIsNeverRead :
    (∃ s t : State, step s = .next t) ∧ ∃ (s : State) (x : Refusal), step s = .refused x :=
  ⟨⟨running, _, rfl⟩, ⟨{ running with otherBusy := true }, .busShared, rfl⟩⟩

end Sys2Proof.Tests
end

section
/-! Proofs: the clock's true interval, one event as one action, and what `exec` is with and without `runAhead`
(00_scope.md). -/

namespace Sys2Proof.Machine

/-! ### The clock (00_scope.md R11) -/

/-- `elapsed` is subtraction modulo `2 ^ CLOCK_BITS`: the model's sum differs from the true difference by a multiple of
the modulus. -/
theorem elapsed_cast (c : Cfg) (t0 t : Time) :
    ((elapsed c t0 t : Nat) : Int) = ((t : Int) - (t0 : Int)) % 2 ^ c.time.clockBits := by
  have hle : t0 % 2 ^ c.time.clockBits ≤ 2 ^ c.time.clockBits := (Nat.mod_lt _ (Nat.two_pow_pos _)).le
  have hsum : ((t : Int) + (2 ^ c.time.clockBits - (t0 : Int) % 2 ^ c.time.clockBits)) =
      (t : Int) - t0 + 2 ^ c.time.clockBits * (1 + (t0 : Int) / 2 ^ c.time.clockBits) := by
    rw [Int.emod_def]; ring
  calc ((elapsed c t0 t : Nat) : Int)
      = ((t : Int) + (2 ^ c.time.clockBits - (t0 : Int) % 2 ^ c.time.clockBits)) % 2 ^ c.time.clockBits := by
        simp only [elapsed, clockValue]; push_cast [hle]; rfl
    _ = ((t : Int) - t0) % 2 ^ c.time.clockBits := by rw [hsum, Int.add_mul_emod_self_left]

/-- An interval below `2 ^ CLOCK_BITS` ms is measured exactly. -/
theorem elapsed_add_of_lt (c : Cfg) (start : Time) {interval : Nat} (h : interval < 2 ^ c.time.clockBits) :
    elapsed c start (start + interval) = interval := by
  have hcast := elapsed_cast c start (start + interval)
  have hdiff : ((start + interval : Nat) : Int) - (start : Nat) = interval := by push_cast; ring
  rw [hdiff, Int.emod_eq_of_lt (Int.natCast_nonneg _) (by exact_mod_cast h)] at hcast
  exact_mod_cast hcast

/-- Settles O12: the sum in `elapsed` is the difference up to a multiple of the modulus, and neither `elapsed` nor `late`
sees whether a time is the true one or the one that the clock shows. -/
theorem elapsedIsTrueInterval : Obligations.ElapsedIsTrueInterval := by
  refine ⟨elapsed_cast, fun c start interval limit h => ?_⟩
  have htrue := elapsed_add_of_lt c start h
  exact ⟨by simpa using htrue, by simp [late, htrue]⟩

/-! ### Which parts of an event add no action -/

@[simp] theorem enterStage_trace (g : Stage) (s : State) : (enterStage g s).trace = s.trace := by
  cases g <;> rfl

@[simp] theorem enterStep_trace (l : StepLabel) (s : State) : (enterStep l s).trace = s.trace :=
  enterStage_trace _ _

@[simp] theorem enterCall_trace (gs : List Stage) (s : State) : (enterCall gs s).trace = s.trace := by
  cases gs with
  | nil => rfl
  | cons g gs => exact enterStage_trace _ _

@[simp] theorem advance_trace (s : State) : (advance s).trace = s.trace := by
  unfold advance
  split
  · exact enterStep_trace _ _
  · rfl

@[simp] theorem nextStage_trace (s : State) : (nextStage s).trace = s.trace := by
  unfold nextStage
  split
  · exact advance_trace s
  · exact enterCall_trace _ s

@[simp] theorem failWith_trace (d : DiagCode) (s : State) : (failWith d s).trace = s.trace := by
  unfold failWith
  split <;> rfl

@[simp] theorem afterPost_trace (r : PostRes) (s : State) : (afterPost r s).trace = s.trace := by
  cases r with
  | ok => exact nextStage_trace s
  | fail d => exact failWith_trace d s
  | again | finish st => rfl
  | okState v | stop =>
    simp only [afterPost]
    split
    · exact advance_trace s
    · rfl

@[simp] theorem postState_trace (p : Post) (s : State) : (postState p s).trace = s.trace := by
  cases p
  case countSelect | level2Done | sakDecide => simp only [postState]; split <;> rfl
  all_goals rfl

@[simp] theorem xferDone_trace (s : State) : (xferDone s).trace = s.trace := by
  simp [xferDone, delivered]

@[simp] theorem xferFail_trace (s : State) : (xferFail s).trace = s.trace := by
  simp [xferFail]

@[simp] theorem waitFailed_trace (s : State) : (waitFailed s).trace = s.trace := by
  unfold waitFailed
  split
  · rfl
  · exact xferFail_trace s

@[simp] theorem waitPassed_trace (s : State) : (waitPassed s).trace = s.trace := by
  unfold waitPassed
  split
  case h_3 => split <;> simp
  all_goals simp

/-! ### The one action of an event (00_scope.md R5) -/

/-- The first line of a stage that has an action of its own: a pin write, a sleep, or the clock read of a poll. -/
theorem stageEvent_trace {g : Stage} (s : State)
    (hg : (∃ p l, g = .pin p l) ∨ (∃ ms, g = .sleep ms) ∨ ∃ x p ms, g = .poll x p ms) :
    ∃ a, (stageEvent g s).trace = a :: s.trace := by
  rcases hg with ⟨p, l, rfl⟩ | ⟨ms, rfl⟩ | ⟨x, p, ms, rfl⟩
  · cases p <;> exact ⟨_, nextStage_trace _⟩
  · exact ⟨_, nextStage_trace _⟩
  · exact ⟨_, rfl⟩

/-- The first line of a label is one action, but for T7 and T13, where no line rests. -/
theorem startEvent_trace {s : State} (hinner : s.tph ≠ .t7 ∧ s.tph ≠ .t13)
    (hstage : s.tph = .t0 → ∃ a, (stageEvent (curStage s) s).trace = a :: s.trace) :
    ∃ a, (startEvent s).trace = a :: s.trace := by
  unfold startEvent
  split
  case h_1 ht => exact hstage ht
  case h_10 ht => exact absurd ht hinner.1
  case h_14 ht => exact absurd ht hinner.2
  all_goals exact ⟨_, rfl⟩

/-- W2 of a wait is one sample. -/
theorem sampleEvent_trace {s : State} (h : waitLevel s.tph ≠ none) :
    ∃ a, (sampleEvent s).trace = a :: s.trace := by
  unfold sampleEvent
  split
  · split
    · exact ⟨_, waitPassed_trace _⟩
    · exact ⟨_, rfl⟩
  · contradiction

theorem pollTimeEvent_trace (x : Xfer) (limitMs : Nat) (s : State) :
    (pollTimeEvent x limitMs s).trace = .now s.nextTime :: s.trace := by
  unfold pollTimeEvent
  split
  · exact failWith_trace _ _
  · rfl

/-- The time test of a wait or of a poll is one clock read. -/
theorem timeEvent_trace {s : State}
    (h : waitLevel s.tph ≠ none ∨ s.tph = .t0 ∧ ∃ x p ms, curStage s = .poll x p ms) :
    ∃ a, (timeEvent s).trace = a :: s.trace := by
  unfold timeEvent
  split
  · split
    · exact ⟨_, waitFailed_trace _⟩
    · exact ⟨_, rfl⟩
  · rename_i hw
    obtain ⟨ht, x, p, ms, hg⟩ := h.resolve_left (absurd hw)
    rw [ht, hg]
    exact ⟨_, pollTimeEvent_trace x ms s⟩

/-- Settles O55, by the line that comes next: the position invariant rules out the lines with no action. -/
theorem oneEventIsOneAction : Obligations.OneEventIsOneAction := by
  intro s hinv hbusy
  unfold event
  split
  case h_1 hs => exact startEvent_trace hinv.inner fun ht => stageEvent_trace s (hinv.action hbusy hs ht)
  case h_2 hs => exact sampleEvent_trace (hinv.sample hs)
  case h_3 hs => exact timeEvent_trace (hinv.time hs)
  case h_4 => exact ⟨_, xferFail_trace _⟩
  case h_5 => exact ⟨_, logAbort_trace s⟩
  case h_6 st _ => exact ⟨_, done_trace s st⟩

/-! ### `exec` with and without `runAhead` (log entry 3) -/

theorem exec_decodeHost (c : BitVec 3) (s : State) : exec (decodeHost c) s = hostCommand c s := by
  have hall : ∀ c : BitVec 3, c = 0 ∨ c = 1 ∨ c = 2 ∨ c = 3 ∨ c = 4 ∨ c = 5 ∨ c = 6 ∨ c = 7 := by decide
  rcases hall c with rfl | rfl | rfl | rfl | rfl | rfl | rfl | rfl <;> rfl

theorem enterStage_ready (g : Stage) (s : State) : (enterStage g s).ready = s.ready := by
  cases g <;> rfl

theorem accept_ready (c : BitVec 3) (s : State) : (accept c s).ready = false := by
  unfold accept
  split
  · exact enterStage_ready _ _
  · rfl

theorem launch_ready {gs : List Stage} (h : gs ≠ []) (s : State) : (launch gs s).ready = false := by
  cases gs with
  | nil => exact absurd rfl h
  | cons g gs => exact enterStage_ready _ _

theorem enterStage_withRunAhead (g : Stage) (s : State) (b : Bool) :
    enterStage g { s with runAhead := b } = { enterStage g s with runAhead := b } := by
  cases g <;> rfl

/-- Accept does not look at `runAhead`. -/
theorem accept_withRunAhead (c : BitVec 3) (s : State) (b : Bool) :
    accept c { s with runAhead := b } = { accept c s with runAhead := b } := by
  unfold accept
  split
  case h_1 l _ => exact enterStage_withRunAhead _ { acceptRegs c s with stepLbl := l } b
  case h_2 => rfl

/-- The launch of a single operation does not look at `runAhead`. -/
theorem launch_withRunAhead {gs : List Stage} (h : gs ≠ []) (s : State) (b : Bool) :
    launch gs { s with runAhead := b } = { launch gs s with runAhead := b } := by
  cases gs with
  | nil => exact absurd rfl h
  | cons g gs => cases g <;> rfl

/-- Which host command an instruction is, or which stages it has (those that it has in `s`), does not depend on
`runAhead`. -/
theorem exec_cases_withRunAhead (i : Instr) (s : State) :
    (∃ c, ∀ b, exec i { s with runAhead := b } = hostCommand c { s with runAhead := b }) ∨
      ∃ gs, exec i s = operation gs s ∧ gs ≠ [] ∧
        ∀ b, exec i { s with runAhead := b } = operation gs { s with runAhead := b } := by
  cases i
  case beginCmd => exact .inl ⟨0, fun _ => rfl⟩
  case resetCmd => exact .inl ⟨1, fun _ => rfl⟩
  case getFirmware => exact .inl ⟨2, fun _ => rfl⟩
  case getProductVersion => exact .inl ⟨3, fun _ => rfl⟩
  case getEepromVersion => exact .inl ⟨4, fun _ => rfl⟩
  case readCardSerial => exact .inl ⟨5, fun _ => rfl⟩
  case reserved110 => exact .inl ⟨6, fun _ => rfl⟩
  case reserved111 => exact .inl ⟨7, fun _ => rfl⟩
  all_goals exact .inr ⟨_, rfl, by simp, fun _ => rfl⟩

/-- An instruction is one start, the Accept of a host command or the launch of a single operation, and then `runOn`; the
start does not depend on `runAhead`. -/
theorem exec_eq_runOn_start (i : Instr) {s : State} (hr : s.ready = true) :
    ∃ u : State, u.ready = false ∧ ∀ b, exec i { s with runAhead := b } = .next (runOn { u with runAhead := b }) := by
  rcases exec_cases_withRunAhead i s with ⟨c, h⟩ | ⟨gs, -, hne, h⟩
  · refine ⟨accept c s, accept_ready c s, fun b => ?_⟩
    rw [h b, ← accept_withRunAhead]
    simp only [hostCommand, hr, if_true]
  · refine ⟨launch gs s, launch_ready hne s, fun b => ?_⟩
    rw [h b, ← launch_withRunAhead hne]
    simp only [operation, hr, if_true]

/-- Settles O18: `runOn` is nothing without `runAhead`, and with it the events up to the first state that is done or lacks
an answer. -/
theorem hostCommandIsAcceptThenEvents : Obligations.HostCommandIsAcceptThenEvents := by
  refine ⟨fun c s hr => ?_, fun i s hr => ?_⟩
  · have hexec : exec (decodeHost c) s = .next (runOn (accept c s)) := by
      simp only [exec_decodeHost, hostCommand, hr, if_true]
    refine ⟨fun hsingle => ?_, fun hahead => ?_⟩
    · rw [hexec, runOn_of_single ((accept_runAhead c s).trans hsingle)]
    · obtain ⟨n, hn, -, hrunning⟩ := runOn_eq_events (accept c s)
      have hstop := runOn_settles ((accept_runAhead c s).trans hahead)
      exact ⟨n, by rw [hexec, hn], by rwa [hn] at hstop, hrunning⟩
  · obtain ⟨u, hbusy, hexec⟩ := exec_eq_runOn_start i hr
    obtain ⟨n, hn, -, -⟩ := runOn_eq_events { u with runAhead := true }
    exact ⟨n, { u with runAhead := false }, by rw [hexec false, runOn_of_single rfl], hbusy, by rw [hexec true, hn]⟩

end Sys2Proof.Machine
end

section
/-! Proofs: what one event of a running command can do, said once (`event_move`), and the inputs and the trace, which
no event changes but to use them up (10_state.md R36, 00_scope.md R10). -/

namespace Sys2Proof.Machine

/-! ### What moving from stage to stage leaves alone -/

/-- The configuration and the inputs. -/
def State.outside (s : State) : Cfg × Option Presented × Bool × Bool × Bool × List Level × List Time × List Byte :=
  (s.cfg, s.port, s.resetIn, s.otherBusy, s.runAhead, s.busyIn, s.nowIn, s.rxIn)

@[simp] theorem enterStage_outside (g : Stage) (s : State) : (enterStage g s).outside = s.outside := by
  cases g <;> rfl

@[simp] theorem enterStep_outside (l : StepLabel) (s : State) : (enterStep l s).outside = s.outside :=
  enterStage_outside _ _

@[simp] theorem enterCall_outside (gs : List Stage) (s : State) : (enterCall gs s).outside = s.outside := by
  cases gs with
  | nil => rfl
  | cons g gs => exact enterStage_outside _ _

@[simp] theorem advance_outside (s : State) : (advance s).outside = s.outside := by
  unfold advance
  split
  · exact enterStep_outside _ _
  · rfl

@[simp] theorem nextStage_outside (s : State) : (nextStage s).outside = s.outside := by
  unfold nextStage
  split
  · exact advance_outside s
  · exact enterCall_outside _ s

@[simp] theorem failWith_outside (d : DiagCode) (s : State) : (failWith d s).outside = s.outside := by
  unfold failWith
  split <;> rfl

@[simp] theorem afterPost_outside (r : PostRes) (s : State) : (afterPost r s).outside = s.outside := by
  cases r with
  | ok => exact nextStage_outside s
  | fail d => exact failWith_outside d s
  | again | finish st => rfl
  | okState v | stop =>
    simp only [afterPost]
    split
    · exact advance_outside s
    · rfl

@[simp] theorem postState_outside (p : Post) (s : State) : (postState p s).outside = s.outside := by
  cases p
  case countSelect | level2Done | sakDecide => simp only [postState]; split <;> rfl
  all_goals rfl

@[simp] theorem xferDone_outside (s : State) : (xferDone s).outside = s.outside := by
  simp only [xferDone, afterPost_outside, postState_outside]
  rfl

@[simp] theorem xferFail_outside (s : State) : (xferFail s).outside = s.outside := by
  simp only [xferFail, failWith_outside]
  rfl

/-! ### Inputs are used up, the trace grows -/

/-- From `s` to `t` the inputs are only used up from the front, the trace only grows, and the configuration and the
command port stay. -/
structure UsesUp (s t : State) : Prop where
  cfg : t.cfg = s.cfg
  port : t.port = s.port
  resetIn : s.resetIn = false → t.resetIn = false
  otherBusy : t.otherBusy = s.otherBusy
  runAhead : t.runAhead = s.runAhead
  busyIn : t.busyIn <:+ s.busyIn
  nowIn : t.nowIn <:+ s.nowIn
  rxIn : t.rxIn <:+ s.rxIn
  trace : s.trace <:+ t.trace

theorem UsesUp.refl (s : State) : UsesUp s s :=
  ⟨rfl, rfl, id, rfl, rfl, List.suffix_rfl, List.suffix_rfl, List.suffix_rfl, List.suffix_rfl⟩

theorem UsesUp.trans {s t u : State} (h : UsesUp s t) (k : UsesUp t u) : UsesUp s u where
  cfg := k.cfg.trans h.cfg
  port := k.port.trans h.port
  resetIn := k.resetIn ∘ h.resetIn
  otherBusy := k.otherBusy.trans h.otherBusy
  runAhead := k.runAhead.trans h.runAhead
  busyIn := k.busyIn.trans h.busyIn
  nowIn := k.nowIn.trans h.nowIn
  rxIn := k.rxIn.trans h.rxIn
  trace := h.trace.trans k.trace

/-- `UsesUp` sees the inputs and the trace only. -/
theorem UsesUp.congr {s t u : State} (h : UsesUp s t) (ho : u.outside = t.outside) (ht : u.trace = t.trace) :
    UsesUp s u := by
  simp only [State.outside, Prod.mk.injEq] at ho
  obtain ⟨hcfg, hport, hreset, hother, hahead, hbusy, hnow, hrx⟩ := ho
  constructor
  case resetIn => exact hreset ▸ h.resetIn
  case busyIn => exact hbusy ▸ h.busyIn
  case nowIn => exact hnow ▸ h.nowIn
  case rxIn => exact hrx ▸ h.rxIn
  case trace => exact ht ▸ h.trace
  case cfg => exact hcfg.trans h.cfg
  case port => exact hport.trans h.port
  case otherBusy => exact hother.trans h.otherBusy
  case runAhead => exact hahead.trans h.runAhead

/-- An action that takes no answer of ENV. -/
theorem UsesUp.of_action {s t : State} {a : Action} (ho : t.outside = s.outside) (ht : t.trace = a :: s.trace) :
    UsesUp s t :=
  UsesUp.congr (t := { s with trace := a :: s.trace }) { UsesUp.refl s with trace := List.suffix_cons _ _ } ho ht

theorem drivePin_usesUp (p : Pin) (l : Level) (s : State) : UsesUp s (drivePin p l s) := by
  cases p <;> exact .of_action rfl rfl

theorem sampleBusy_usesUp (s : State) : UsesUp s (sampleBusy s) :=
  { UsesUp.refl s with busyIn := List.tail_suffix _, trace := List.suffix_cons _ _ }

theorem readClock_usesUp (s : State) : UsesUp s (readClock s) :=
  { UsesUp.refl s with nowIn := List.tail_suffix _, trace := List.suffix_cons _ _ }

theorem busRead_usesUp (n : Nat) (s : State) : UsesUp s (busRead n s) :=
  { UsesUp.refl s with rxIn := List.drop_suffix _ _, trace := List.suffix_cons _ _ }

/-! ### The moves of a running command -/

/-- All of the state but the registers that the lines of an exchange write, and the inputs and the trace. -/
def State.core (s : State) : State :=
  { s with nssQ := .low, tph := .t0, sub := .start, tw0 := 0, rxbuf := [], busyIn := [], nowIn := [], rxIn := [],
           draws := 0, trace := [] }

/-- The engine stands inside an exchange, or at a time test: no stage begins and no command closes. -/
structure Midway (s : State) : Prop where
  active : s.sub.closing = false
  away : s.sub = .start → s.tph ≠ .t0

/-- A line of an exchange (40_transport.md R101 to R104) that does not end it. -/
structure Inside (s t : State) : Prop where
  core : t.core = s.core
  active : t.sub.closing = false
  nss : s.nssQ = nssAt s.cfg s.tph → t.nssQ = nssAt s.cfg t.tph
  used : UsesUp s t

/-- What depends on no register of an exchange is as it was. -/
theorem Inside.field {s t : State} {α : Type} (h : Inside s t) (f : State → α) (hf : ∀ u : State, f u.core = f u) :
    f t = f s := by
  rw [← hf t, h.core, hf s]

/-- Everything one event of a running command can do. -/
inductive Move (s : State) : State → Prop
  /-- AB3 and AB4 (60_exceptions.md R210). -/
  | log : s.sub = .log → Move s (logAbort s)
  /-- `Done(st)` (10_state.md R34). -/
  | done (st : Status) : s.sub = .fin st → Move s (done st s)
  /-- No stage stands there (log entry 19). -/
  | nothing : s.sub = .start → s.tph = .t0 → curStage s = .nothing → Move s { s with sub := .fin .stNone }
  /-- A pin write, with which its stage has passed. -/
  | pin (p : Pin) (l : Level) : s.sub = .start → s.tph = .t0 → curStage s = .pin p l →
      Move s (nextStage (drivePin p l s))
  /-- A sleep, with which its stage has passed. -/
  | sleep (ms : Nat) : s.sub = .start → s.tph = .t0 → curStage s = .sleep ms → Move s (nextStage (sleepFor ms s))
  /-- An exchange begins. -/
  | xfer (x : Xfer) (p : Post) : s.sub = .start → s.tph = .t0 → curStage s = .xfer x p → Move s (startXfer x s)
  /-- A poll begins: TP0 and its first exchange. -/
  | poll (x : Xfer) (p : Post) (ms : Nat) : s.sub = .start → s.tph = .t0 → curStage s = .poll x p ms →
      Move s (startXfer x { readClock s with tp0 := s.nextTime })
  /-- The time test of a poll passes: the next exchange begins. -/
  | repeated (x : Xfer) (p : Post) (ms : Nat) : s.sub = .time → s.tph = .t0 → curStage s = .poll x p ms →
      Move s (startXfer x (readClock s))
  /-- The bound of a poll has passed. -/
  | expired (x : Xfer) (p : Post) (ms : Nat) : s.sub = .time → s.tph = .t0 → curStage s = .poll x p ms →
      Move s (failWith (expiredCode s.stepLbl) (readClock s))
  /-- A line inside an exchange. -/
  | line (t : State) : Midway s → Inside s t → Move s t
  /-- The exchange has returned `Ok(rx)`, after its last sample or at T7 and T13. -/
  | passed (u : State) : Midway s → u = s ∨ u = sampleBusy s → nssAt s.cfg s.tph = s.cfg.pin.nssInactive →
      Move s (xferDone u)
  /-- The exchange has returned `Fail(Timeout)`, chip-select not active or released. -/
  | failed (u : State) : Midway s → u = readClock s ∧ s.nssQ ≠ s.cfg.pin.nssActive ∨
      u = driveNss s.cfg.pin.nssInactive s → Move s (xferFail u)

theorem stageEvent_move {s : State} (hs : s.sub = .start) (ht : s.tph = .t0) : Move s (stageEvent (curStage s) s) := by
  cases hg : curStage s with
  | nothing => exact .nothing hs ht hg
  | pin p l => exact .pin p l hs ht hg
  | sleep ms => exact .sleep ms hs ht hg
  | xfer x p => exact .xfer x p hs ht hg
  | poll x p ms => exact .poll x p ms hs ht hg

/-- The first line of a label is a line of an exchange, but at `t0`, where a stage begins, and where the exchange
ends. -/
theorem Move.label {s t : State} (hs : s.sub = .start) (ht : s.tph ≠ .t0) (h : Inside s t) : Move s t :=
  .line t ⟨by rw [hs]; rfl, fun _ => ht⟩ h

theorem Move.returned {s : State} (hs : s.sub = .start) (ht : s.tph = .t7 ∨ s.tph = .t13) : Move s (xferDone s) := by
  refine .passed s ⟨by rw [hs]; rfl, fun _ => ?_⟩ (.inl rfl) ?_ <;> rcases ht with ht | ht <;> simp [ht, nssAt]

theorem startEvent_move {s : State} (hs : s.sub = .start) : Move s (startEvent s) := by
  have hactive : s.sub.closing = false := by rw [hs]; rfl
  unfold startEvent
  split
  case h_1 ht => exact stageEvent_move hs ht
  case h_2 ht | h_3 ht | h_4 ht | h_5 ht | h_6 ht =>
    exact .label hs (by simp [ht]) ⟨rfl, rfl, id, (readClock_usesUp s).congr rfl rfl⟩
  case h_7 ht | h_8 ht | h_9 ht | h_11 ht | h_13 ht =>
    exact .label hs (by simp [ht]) ⟨rfl, hactive, by simp [ht, nssAt], .of_action rfl rfl⟩
  case h_10 ht =>
    split
    · exact .returned hs (.inl ht)
    · exact .label hs (by simp [ht]) ⟨rfl, hactive, by simp [ht, nssAt], (UsesUp.refl s).congr rfl rfl⟩
  case h_12 ht =>
    exact .label hs (by simp [ht]) ⟨rfl, hactive, by simp [ht, nssAt], (busRead_usesUp s.rlen s).congr rfl rfl⟩
  case h_14 ht => exact .returned hs (.inr ht)

/-- A line that is not the first of its label. -/
theorem Move.later {s t : State} (hs : s.sub ≠ .start) (hactive : s.sub.closing = false) (h : Inside s t) : Move s t :=
  .line t ⟨hactive, fun h0 => absurd h0 hs⟩ h

theorem sampleEvent_move {s : State} (hs : s.sub = .sample) : Move s (sampleEvent s) := by
  have hstart : s.sub ≠ .start := by simp [hs]
  have hactive : s.sub.closing = false := by rw [hs]; rfl
  have hused : UsesUp s (sampleBusy s) := sampleBusy_usesUp s
  unfold sampleEvent
  split
  case h_1 l hl =>
    split
    · unfold waitPassed
      split
      case h_1 ht | h_2 ht | h_4 ht =>
        rw [sampleBusy_tph] at ht
        exact .later hstart hactive ⟨rfl, rfl, by simp [ht, nssAt], hused.congr rfl rfl⟩
      case h_3 ht =>
        rw [sampleBusy_tph] at ht
        split
        · exact .passed _ ⟨hactive, fun h => absurd h hstart⟩ (.inr rfl) (by rw [ht]; rfl)
        · exact .later hstart hactive ⟨rfl, rfl, by simp [ht, nssAt], hused.congr rfl rfl⟩
      case h_5 ht =>
        rw [sampleBusy_tph] at ht
        exact .passed _ ⟨hactive, fun h => absurd h hstart⟩ (.inr rfl) (by rw [ht]; rfl)
      case h_6 => exact .later hstart hactive ⟨rfl, rfl, id, hused.congr rfl rfl⟩
    · exact .later hstart hactive ⟨rfl, rfl, id, hused.congr rfl rfl⟩
  case h_2 => exact .later hstart hactive ⟨rfl, rfl, id, (UsesUp.refl s).congr rfl rfl⟩

theorem timeEvent_move {s : State} (hs : s.sub = .time) : Move s (timeEvent s) := by
  have hstart : s.sub ≠ .start := by simp [hs]
  have hactive : s.sub.closing = false := by rw [hs]; rfl
  have hused : UsesUp s (readClock s) := readClock_usesUp s
  unfold timeEvent
  split
  case h_1 =>
    split
    · unfold waitFailed
      split
      · exact .later hstart hactive ⟨rfl, rfl, id, hused.congr rfl rfl⟩
      case isFalse hnss => exact .failed _ ⟨hactive, fun h => absurd h hstart⟩ (.inl ⟨rfl, hnss⟩)
    · exact .later hstart hactive ⟨rfl, rfl, id, hused.congr rfl rfl⟩
  case h_2 =>
    split
    case h_1 x p ms ht hg =>
      unfold pollTimeEvent
      split
      · exact .expired x p ms hs ht hg
      · exact .repeated x p ms hs ht hg
    case h_2 => exact .later hstart hactive ⟨rfl, rfl, id, (UsesUp.refl s).congr rfl rfl⟩

/-- What one event can do, whatever the state. -/
theorem event_move (s : State) : Move s (event s) := by
  unfold event
  split
  case h_1 hs => exact startEvent_move hs
  case h_2 hs => exact sampleEvent_move hs
  case h_3 hs => exact timeEvent_move hs
  case h_4 hs => exact .failed _ ⟨by rw [hs]; rfl, fun h => absurd h (by simp [hs])⟩ (.inr rfl)
  case h_5 hs => exact .log hs
  case h_6 st hs => exact .done st hs

/-! ### A step, by what the engine does and what is presented -/

theorem step_of_busy {s : State} (hb : s.ready = false) :
    step s = if s.resetIn then .next (hwReset s) else if s.otherBusy then .refused .busShared
      else .next (runOn (event s)) := by
  simp [step, hb]

theorem step_of_nothing {s : State} (hr : s.ready = true) (hp : s.port = none) :
    step s = if s.resetIn then .next (hwReset s) else .next s := by
  simp [step, hr, hp]

theorem step_of_presented {s : State} {q : Presented} (hr : s.ready = true) (hp : s.port = some q) :
    step s = if s.resetIn then .next (hwReset s) else if s.otherBusy then .refused .busShared else runPort q s := by
  simp [step, hr, hp]

/-! ### The configuration, the inputs and the trace over a step -/

theorem Move.usesUp {s t : State} (h : Move s t) : UsesUp s t := by
  cases h with
  | log => exact .of_action rfl (logAbort_trace s)
  | done st => exact .of_action rfl (done_trace s st)
  | nothing => exact (UsesUp.refl s).congr rfl rfl
  | pin p l => exact (drivePin_usesUp p l s).congr (nextStage_outside _) (nextStage_trace _)
  | sleep ms => exact .of_action (nextStage_outside _) (nextStage_trace _)
  | xfer x p => exact (UsesUp.refl s).congr rfl rfl
  | poll x p ms | repeated x p ms => exact (readClock_usesUp s).congr rfl rfl
  | expired x p ms => exact (readClock_usesUp s).congr (failWith_outside _ _) (failWith_trace _ _)
  | line t _ hin => exact hin.used
  | passed u _ hu =>
    have hsu : UsesUp s u := by
      rcases hu with rfl | rfl
      · exact .refl _
      · exact sampleBusy_usesUp s
    exact hsu.congr (xferDone_outside u) (xferDone_trace u)
  | failed u _ hu =>
    have hsu : UsesUp s u := by
      rcases hu with ⟨rfl, -⟩ | rfl
      · exact readClock_usesUp s
      · exact .of_action rfl rfl
    exact hsu.congr (xferFail_outside u) (xferFail_trace u)

theorem runOn_usesUp (s : State) : UsesUp s (runOn s) :=
  runOn_keeps (fun u _ h => h.trans (event_move u).usesUp) (.refl s)

/-- Accept takes the code off the port and leaves the other inputs. -/
theorem accept_usesUp (c : BitVec 3) (s : State) : UsesUp { s with port := none } (accept c s) := by
  have hregs : UsesUp { s with port := none } (acceptRegs c s) := .of_action rfl rfl
  unfold accept
  split
  · exact hregs.congr (enterStep_outside _ _) (enterStep_trace _ _)
  · exact hregs.congr rfl rfl

/-- So does the launch of a single operation. -/
theorem launch_usesUp (gs : List Stage) (s : State) : UsesUp { s with port := none } (launch gs s) :=
  (UsesUp.refl _).congr (enterCall_outside gs _) (enterCall_trace gs _)

theorem hwReset_usesUp (s : State) : UsesUp s (hwReset s) :=
  { UsesUp.refl s with resetIn := fun _ => rfl }

/-- What a step or an instruction may do to the inputs: use them up, or, with `READY = 1`, take the code off the port
first. -/
theorem usesUp_of_step_or_exec {s t : State} (h : step s = .next t ∨ ∃ i, exec i s = .next t) :
    UsesUp s t ∨ s.ready = true ∧ UsesUp { s with port := none } t := by
  have haccept (c : BitVec 3) : UsesUp { s with port := none } (runOn (accept c s)) :=
    (accept_usesUp c s).trans (runOn_usesUp _)
  have hlaunch (gs : List Stage) : UsesUp { s with port := none } (runOn (launch gs s)) :=
    (launch_usesUp gs s).trans (runOn_usesUp _)
  rcases h with h | ⟨i, h⟩
  · rcases step_cases h with ⟨-, rfl⟩ | ⟨-, rfl⟩ | ⟨hr, c, rfl⟩ | ⟨hr, gs, -, -, rfl⟩ | ⟨-, rfl⟩
    · exact .inl (hwReset_usesUp s)
    · exact .inl (.refl _)
    · exact .inr ⟨hr, haccept c⟩
    · exact .inr ⟨hr, hlaunch gs⟩
    · exact .inl ((event_move s).usesUp.trans (runOn_usesUp _))
  · obtain ⟨u, hu, hcases⟩ := exec_next i s
    obtain rfl : u = t := by rw [hu] at h; cases h; rfl
    rcases hcases with ⟨-, rfl⟩ | ⟨hr, c, rfl⟩ | ⟨hr, gs, -, -, rfl⟩
    · exact .inl (.refl _)
    · exact .inr ⟨hr, haccept c⟩
    · exact .inr ⟨hr, hlaunch gs⟩

/-- What `UsesUp` says of the inputs other than the port, in the words of the statement. -/
theorem UsesUp.inputs {s t : State} (h : UsesUp s t) :
    t.cfg = s.cfg ∧ (∃ new, t.trace = new ++ s.trace) ∧
      (t.runAhead = s.runAhead ∧ t.otherBusy = s.otherBusy ∧ (s.resetIn = false → t.resetIn = false)) ∧
      ∃ bs ts rs, s.busyIn = bs ++ t.busyIn ∧ s.nowIn = ts ++ t.nowIn ∧ s.rxIn = rs ++ t.rxIn := by
  obtain ⟨new, hnew⟩ := h.trace
  obtain ⟨bs, hbs⟩ := h.busyIn
  obtain ⟨ts, hts⟩ := h.nowIn
  obtain ⟨rs, hrs⟩ := h.rxIn
  exact ⟨h.cfg, ⟨new, hnew.symm⟩, ⟨h.runAhead, h.otherBusy, h.resetIn⟩, bs, ts, rs, hbs.symm, hts.symm, hrs.symm⟩

/-- Settles O59: every event only uses inputs up, and only Accept and a launch take the code off the port. -/
theorem configurationIsConstant : Obligations.ConfigurationIsConstant := by
  intro s t h
  rcases usesUp_of_step_or_exec h with hused | ⟨hr, hused⟩
  · obtain ⟨hcfg, htrace, hflags, hanswers⟩ := hused.inputs
    exact ⟨hcfg, htrace, hflags, .inl hused.port, hanswers⟩
  · obtain ⟨hcfg, htrace, hflags, hanswers⟩ := hused.inputs
    exact ⟨hcfg, htrace, hflags, .inr ⟨hr, hused.port⟩, hanswers⟩

end Sys2Proof.Machine
end

section
/-! Proofs: the order of the steps, and the invariant of the sequence position and the pins (10_state.md R29, R30,
R35). -/

namespace Sys2Proof.Machine

/-! ### The order of the steps -/

theorem nextStep_cases {cmd : BitVec 3} {l l' : StepLabel} (h : nextStep cmd l = some l') :
    cmd = 0 ∧ beginNext l = some l' ∨ cmd = 1 ∧ resetNext l = some l' ∨ cmd = 5 ∧ readNext l = some l' := by
  unfold nextStep at h
  split at h
  case h_1 hc => exact .inl ⟨BitVec.eq_of_toNat_eq hc, h⟩
  case h_2 hc => exact .inr (.inl ⟨BitVec.eq_of_toNat_eq hc, h⟩)
  case h_3 hc => exact .inr (.inr ⟨BitVec.eq_of_toNat_eq hc, h⟩)
  case h_4 => cases h

/-- Only BEGIN, RESET and READ_CARD_SERIAL have a second step. -/
theorem cmd_of_nextStep {cmd : BitVec 3} {l l' : StepLabel} (h : nextStep cmd l = some l') :
    cmd = 0 ∨ cmd = 1 ∨ cmd = 5 := by
  rcases nextStep_cases h with ⟨hc, -⟩ | ⟨hc, -⟩ | ⟨hc, -⟩ <;> simp [hc]

@[simp] theorem nextStep_noStep (cmd : BitVec 3) : nextStep cmd .noStep = none := by
  unfold nextStep
  split <;> rfl

/-- The reset line after a step, on entry to the next: asserted after RST_LOW and RST_HOLD (10_state.md R35). -/
theorem rstAt_nextStep (c : Cfg) {cmd : BitVec 3} {l l' : StepLabel} (h : nextStep cmd l = some l') :
    rstAt c l' = if l = .rstLow ∨ l = .rstHold then c.pin.rstAssert else c.pin.rstRelease := by
  rcases nextStep_cases h with ⟨-, h⟩ | ⟨-, h⟩ | ⟨-, h⟩ <;> cases l <;>
    simp [beginNext, resetNext, readNext] at h <;> subst h <;> simp [rstAt]

/-- A sleep leaves the reset line for the next step. -/
theorem rstAt_nextStep_of_sleep {c : Cfg} {cb : CascadeBuffer} {cmd : BitVec 3} {l l' : StepLabel} {ms : Nat}
    (hg : stageOf c cb cmd l = .sleep ms) (hn : nextStep cmd l = some l') : rstAt c l' = rstAt c l := by
  rw [rstAt_nextStep c hn]
  cases l <;> simp [stageOf] at hg <;> simp [rstAt]

/-- The pulse goes on to its next step in every command that has it. -/
theorem nextStep_of_inPulse {cmd : BitVec 3} {l : StepLabel} (hl : inPulse l = true)
    (hc : cmd = 0 ∨ cmd = 1 ∨ cmd = 5) : nextStep cmd l ≠ none := by
  rcases hc with rfl | rfl | rfl <;> cases l <;> simp [inPulse] at hl <;> decide

/-- The steps of the pulse are pin writes and a sleep. -/
theorem stageOf_inPulse (c : Cfg) (cb : CascadeBuffer) (cmd : BitVec 3) {l : StepLabel} (hl : inPulse l = true) :
    (∃ p v, stageOf c cb cmd l = .pin p v) ∨ ∃ ms, stageOf c cb cmd l = .sleep ms := by
  cases l <;> simp [inPulse] at hl <;> simp [stageOf]

theorem rstAt_of_not_inPulse (c : Cfg) {l : StepLabel} (hl : inPulse l = false) : rstAt c l = c.pin.rstRelease := by
  cases l <;> simp [inPulse] at hl <;> rfl

/-- The two output lines at the end of a step that is a pin write: chip-select inactive, the reset line as the next step
has it. -/
theorem pin_of_stageOf {c : Cfg} {cb : CascadeBuffer} {cmd : BitVec 3} {l : StepLabel} {p : Pin} {v : Level}
    (h : stageOf c cb cmd l = .pin p v) :
    (l = .beginNss ∧ p = .nss ∧ v = c.pin.nssInactive) ∨ (l = .rstLow ∧ p = .rst ∧ v = c.pin.rstAssert) ∨
      ((l = .beginRst ∨ l = .rstHigh) ∧ p = .rst ∧ v = c.pin.rstRelease) := by
  cases l <;> simp [stageOf] at h <;> simp [h]

/-! ### The pins at the end of a stage -/

/-- All that the invariant of the pins speaks of, but for the line inside the step. -/
def State.pins (s : State) : Cfg × Level × Level × StepLabel × Bool × Option (List Stage) :=
  (s.cfg, s.nssQ, s.rstQ, s.stepLbl, s.ready, s.call)

/-- The pins of a running command outside the pulse and outside an exchange. -/
structure State.PinsQuiet (s : State) : Prop where
  busy : s.ready = false
  nss : s.nssQ = s.cfg.pin.nssInactive
  rst : s.rstQ = s.cfg.pin.rstRelease
  pulse : inPulse s.stepLbl = false
  alone : ∀ gs, s.call = some gs → s.stepLbl = .noStep ∧ gs.all Stage.alone = true

theorem State.PinsQuiet.congr {s u : State} (h : s.PinsQuiet) (hu : u.pins = s.pins) : u.PinsQuiet := by
  simp only [State.pins, Prod.mk.injEq] at hu
  obtain ⟨hcfg, hnss, hrst, hlbl, hready, hcall⟩ := hu
  exact ⟨hready.trans h.busy, by rw [hnss, hcfg, h.nss], by rw [hrst, hcfg, h.rst], by rw [hlbl, h.pulse],
    by rw [hcall, hlbl]; exact h.alone⟩

/-- Outside the pulse the engine can stand at any line with `TPH = 0`. -/
theorem State.PinsQuiet.pinInv {s : State} (h : s.PinsQuiet) (ht : s.tph = .t0) : s.PinInv where
  idle hr := by simp [h.busy] at hr
  nss := by rw [h.nss, ht]; rfl
  rst := h.rst.trans (rstAt_of_not_inPulse s.cfg h.pulse).symm
  pulse hp := by simp [h.pulse] at hp
  closed _ := ht
  alone := h.alone

/-- Outside the pulse an exchange can begin. -/
theorem State.PinsQuiet.startXfer_pinInv {s : State} (h : s.PinsQuiet) (x : Xfer) : (startXfer x s).PinInv where
  idle hr := by simp [h.busy] at hr
  nss := h.nss
  rst := h.rst.trans (rstAt_of_not_inPulse s.cfg h.pulse).symm
  pulse hp := by simp [h.pulse] at hp
  closed hc := by simp [Sub.closing] at hc
  alone := h.alone

/-! ### Entering a stage -/

/-- The pins at the end of a stage, before the engine moves on: what `PinInv` needs wherever it goes. -/
structure State.PinsDone (s : State) : Prop where
  busy : s.ready = false
  nss : s.nssQ = s.cfg.pin.nssInactive
  next : ∀ l, nextStep s.cmd s.stepLbl = some l → s.rstQ = rstAt s.cfg l
  last : nextStep s.cmd s.stepLbl = none → s.rstQ = s.cfg.pin.rstRelease ∧ inPulse s.stepLbl = false
  alone : ∀ gs, s.call = some gs → s.stepLbl = .noStep ∧ gs.all Stage.alone = true

/-- A step of the pulse is entered at its first line; every other stage is entered outside the pulse. -/
theorem enterStage_pinInv {g : Stage} {s : State} (hbusy : s.ready = false) (hnss : s.nssQ = s.cfg.pin.nssInactive)
    (hrst : s.rstQ = rstAt s.cfg s.stepLbl)
    (hpulse : inPulse s.stepLbl = true → (s.cmd = 0 ∨ s.cmd = 1 ∨ s.cmd = 5) ∧ ∀ x p, g ≠ .xfer x p)
    (halone : ∀ gs, s.call = some gs → s.stepLbl = .noStep ∧ gs.all Stage.alone = true) : (enterStage g s).PinInv := by
  cases g with
  | xfer x p =>
    have hp : inPulse s.stepLbl = false := by
      by_contra hp
      exact (hpulse (by simpa using hp)).2 x p rfl
    exact State.PinsQuiet.startXfer_pinInv ⟨hbusy, hnss, hrst.trans (rstAt_of_not_inPulse s.cfg hp), hp, halone⟩ x
  | nothing | pin p l | sleep ms | poll x p ms =>
    exact { idle := fun hr => by simp [enterStage, hbusy] at hr, nss := hnss, rst := hrst,
            pulse := fun hl => ⟨rfl, rfl, (hpulse hl).1⟩, closed := fun _ => rfl, alone := halone }

theorem advance_pinInv {s : State} (h : s.PinsDone) (hhost : s.call = none) : (advance s).PinInv := by
  unfold advance
  split
  · next l hl =>
    refine enterStage_pinInv h.busy h.nss (h.next l hl) (fun hp => ⟨cmd_of_nextStep hl, fun x p hg => ?_⟩)
      fun gs hgs => ?_
    · rcases stageOf_inPulse s.cfg s.cb s.cmd hp with ⟨p', v, hg'⟩ | ⟨ms, hg'⟩ <;> cases hg.symm.trans hg'
    · simp [hhost] at hgs
  · next hl =>
    obtain ⟨hrst, hpulse⟩ := h.last hl
    exact State.PinsQuiet.pinInv ⟨h.busy, h.nss, hrst, hpulse, h.alone⟩ rfl

/-- A single operation has no step, so the reset line is released. -/
theorem State.PinsDone.rst_of_call {s : State} (h : s.PinsDone) {gs : List Stage} (hgs : s.call = some gs) :
    s.stepLbl = .noStep ∧ s.rstQ = s.cfg.pin.rstRelease := by
  obtain ⟨hl, -⟩ := h.alone gs hgs
  exact ⟨hl, (h.last (by rw [hl, nextStep_noStep])).1⟩

theorem endCall_pinInv {s : State} (h : s.PinsDone) (hcall : s.call ≠ none) (r : OpResult) : (endCall r s).PinInv := by
  obtain ⟨gs, hgs⟩ := Option.ne_none_iff_exists'.mp hcall
  obtain ⟨hl, hrst⟩ := h.rst_of_call hgs
  exact { idle := fun _ => ⟨hl, rfl, rfl, rfl⟩, nss := h.nss, rst := by simp [hl, hrst, rstAt],
          pulse := fun hp => by simp [hl, inPulse] at hp, closed := fun _ => rfl, alone := fun _ h0 => by simp at h0 }

/-- The stages left after the first one are of the operation's own kind, too. -/
theorem all_alone_tail {gs : List Stage} (h : gs.all Stage.alone = true) : gs.tail.all Stage.alone = true :=
  List.all_eq_true.mpr fun g hg => List.all_eq_true.mp h g (List.mem_of_mem_tail hg)

theorem nextStage_pinInv {s : State} (h : s.PinsDone) : (nextStage s).PinInv := by
  unfold nextStage
  split
  · next hcall => exact advance_pinInv h hcall
  · next gs hgs =>
    obtain ⟨hl, halone⟩ := h.alone gs hgs
    obtain ⟨-, hrst⟩ := h.rst_of_call hgs
    unfold enterCall
    split
    · exact endCall_pinInv h (by simp [hgs]) .ok
    · next g rest htl =>
      refine enterStage_pinInv h.busy h.nss ?_ (fun hp => ?_) fun gs' hgs' => ?_
      · simp [hl, hrst, rstAt]
      · simp [hl, inPulse] at hp
      · cases hgs'
        exact ⟨hl, htl ▸ all_alone_tail halone⟩

/-! ### The end of an exchange, outside the pulse -/

theorem State.PinsQuiet.pinsDone {s : State} (h : s.PinsQuiet) : s.PinsDone where
  busy := h.busy
  nss := h.nss
  next l hl := by
    have hne : ¬(s.stepLbl = .rstLow ∨ s.stepLbl = .rstHold) := by
      rintro (hl | hl) <;> simpa [hl, inPulse] using h.pulse
    rw [rstAt_nextStep _ hl, if_neg hne, h.rst]
  last _ := ⟨h.rst, h.pulse⟩
  alone := h.alone

theorem failWith_pinInv {s : State} (h : s.PinsQuiet) (d : DiagCode) : (failWith d s).PinInv := by
  unfold failWith
  split
  · exact State.PinsQuiet.pinInv (h.congr rfl) rfl
  · next hgs => exact endCall_pinInv h.pinsDone (by simp [hgs]) _

theorem afterPost_pinInv {s : State} (h : s.PinsQuiet) (r : PostRes) : (afterPost r s).PinInv := by
  cases r with
  | ok => exact nextStage_pinInv h.pinsDone
  | fail d => exact failWith_pinInv h d
  | again | finish st => exact State.PinsQuiet.pinInv (h.congr rfl) rfl
  | okState v | stop =>
    simp only [afterPost]
    split
    · next hcall => exact advance_pinInv h.pinsDone hcall
    · next hgs => exact endCall_pinInv h.pinsDone (by simp [hgs]) _

theorem postState_pins (p : Post) (s : State) : (postState p s).pins = s.pins := by
  cases p
  case countSelect | level2Done | sakDecide => simp only [postState]; split <;> rfl
  all_goals rfl

theorem xferDone_pinInv {s : State} (h : s.PinsQuiet) : (xferDone s).PinInv :=
  afterPost_pinInv ((h.congr (u := delivered s) rfl).congr (postState_pins _ _)) _

theorem xferFail_pinInv {s : State} (h : s.PinsQuiet) : (xferFail s).PinInv := by
  unfold xferFail
  exact failWith_pinInv (h.congr (by rfl)) _

/-! ### Every event keeps the invariant -/

/-- Which command or operation runs, its place and `COARSE`. -/
def State.sequence (s : State) : Bool × Option (List Stage) × BitVec 3 × StepLabel × Coarse :=
  (s.ready, s.call, s.cmd, s.stepLbl, s.coarse)

/-- A host command stands at the stage of its step. -/
theorem curStage_host {s : State} (h : s.call = none) : curStage s = stageOf s.cfg s.cb s.cmd s.stepLbl := by
  simp only [curStage, h]

/-- Only a stage of the pulse begins inside the pulse. -/
theorem State.PinInv.not_inPulse {s : State} (h : s.PinInv) (hs : ¬(s.sub = .start ∧ s.tph = .t0)) :
    inPulse s.stepLbl = false := by
  by_contra hp
  obtain ⟨h1, h2, -⟩ := h.pulse (by simpa using hp)
  exact hs ⟨h1, h2⟩

theorem State.PinInv.pinsQuiet {s : State} (h : s.PinInv) (hbusy : s.ready = false)
    (hnss : nssAt s.cfg s.tph = s.cfg.pin.nssInactive) (hpulse : inPulse s.stepLbl = false) : s.PinsQuiet :=
  ⟨hbusy, h.nss.trans hnss, h.rst.trans (rstAt_of_not_inPulse s.cfg hpulse), hpulse, h.alone⟩

/-- The stage that begins in a step of the pulse is a pin write or a sleep. -/
theorem State.PinInv.curStage_inPulse {s : State} (h : s.PinInv) (hp : inPulse s.stepLbl = true) :
    (∃ p v, curStage s = .pin p v) ∨ ∃ ms, curStage s = .sleep ms := by
  unfold curStage
  split
  case h_3 => exact stageOf_inPulse _ _ _ hp
  all_goals
    next hgs => simp [(h.alone _ hgs).1, inPulse] at hp

theorem State.PinInv.not_inPulse_of_stage {s : State} (h : s.PinInv) (hpin : ∀ p v, curStage s ≠ .pin p v)
    (hsleep : ∀ ms, curStage s ≠ .sleep ms) : inPulse s.stepLbl = false := by
  by_contra hp
  rcases h.curStage_inPulse (by simpa using hp) with ⟨p, v, hg⟩ | ⟨ms, hg⟩
  · exact hpin p v hg
  · exact hsleep ms hg

/-- A pin write or a sleep is the end of its step when it leaves the reset line as the next step has it. -/
theorem State.PinInv.pinsDone {s u : State} (h : s.PinInv) (hbusy : s.ready = false) (hu : u.sequence = s.sequence)
    (hnss : u.nssQ = u.cfg.pin.nssInactive) (hlast : inPulse s.stepLbl = false → u.rstQ = u.cfg.pin.rstRelease)
    (hnext : ∀ l, nextStep s.cmd s.stepLbl = some l → u.rstQ = rstAt u.cfg l) : u.PinsDone := by
  simp only [State.sequence, Prod.mk.injEq] at hu
  obtain ⟨hready, hcall, hcmd, hlbl, -⟩ := hu
  constructor
  case busy => rw [hready, hbusy]
  case nss => exact hnss
  case next => rw [hcmd, hlbl]; exact hnext
  case last =>
    rw [hcmd, hlbl]
    intro hn
    have hp : inPulse s.stepLbl = false := by
      by_contra hp
      have hp : inPulse s.stepLbl = true := by simpa using hp
      exact nextStep_of_inPulse hp (h.pulse hp).2.2 hn
    exact ⟨hlast hp, hp⟩
  case alone => rw [hcall, hlbl]; exact h.alone

theorem pinStage_pinsDone {s : State} {p : Pin} {v : Level} (h : s.PinInv) (hbusy : s.ready = false)
    (ht : s.tph = .t0) (hg : curStage s = .pin p v) : (drivePin p v s).PinsDone := by
  have hnss : s.nssQ = s.cfg.pin.nssInactive := by rw [h.nss, ht]; rfl
  have hstage : stageOf s.cfg s.cb s.cmd s.stepLbl = .pin p v := by
    unfold curStage at hg
    split at hg
    case h_1 hgs => simpa [hg, Stage.alone] using (h.alone _ hgs).2
    case h_2 => cases hg
    case h_3 => exact hg
  rcases pin_of_stageOf hstage with ⟨hl, rfl, rfl⟩ | ⟨hl, rfl, rfl⟩ | ⟨hl, rfl, rfl⟩
  · have hrst : s.rstQ = s.cfg.pin.rstRelease := by rw [h.rst, hl]; rfl
    exact h.pinsDone hbusy rfl rfl (fun _ => hrst) fun l hn => by
      simp [drivePin, rstAt_nextStep _ hn, hl, hrst]
  · exact h.pinsDone hbusy rfl hnss (fun hp => by simp [hl, inPulse] at hp) fun l hn => by
      simp [drivePin, rstAt_nextStep _ hn, hl]
  · exact h.pinsDone hbusy rfl hnss (fun _ => rfl) fun l hn => by
      rcases hl with hl | hl <;> simp [drivePin, rstAt_nextStep _ hn, hl]

theorem sleepStage_pinsDone {s : State} {ms : Nat} (h : s.PinInv) (hbusy : s.ready = false) (ht : s.tph = .t0)
    (hg : curStage s = .sleep ms) : (sleepFor ms s).PinsDone := by
  have hnss : s.nssQ = s.cfg.pin.nssInactive := by rw [h.nss, ht]; rfl
  refine h.pinsDone hbusy rfl hnss (fun hp => h.rst.trans (rstAt_of_not_inPulse s.cfg hp))
    fun l hn => ?_
  have hhost : s.call = none := by
    by_contra hne
    obtain ⟨gs, hgs⟩ := Option.ne_none_iff_exists'.mp hne
    simp [(h.alone gs hgs).1] at hn
  exact h.rst.trans (rstAt_nextStep_of_sleep ((curStage_host hhost).symm.trans hg) hn).symm

/-- Chip-select has one of its two levels at every label. -/
theorem nssAt_of_ne_active {c : Cfg} {t : Tph} (h : nssAt c t ≠ c.pin.nssActive) : nssAt c t = c.pin.nssInactive := by
  cases t <;> simp [nssAt] at h <;> rfl

theorem Inside.pinInv {s t : State} (hbusy : s.ready = false) (h : s.PinInv) (hpulse : inPulse s.stepLbl = false)
    (hin : Inside s t) : t.PinInv := by
  have hready : t.ready = s.ready := hin.field State.ready fun _ => rfl
  have hlbl : t.stepLbl = s.stepLbl := hin.field State.stepLbl fun _ => rfl
  have hcall : t.call = s.call := hin.field State.call fun _ => rfl
  have hrst : t.rstQ = s.rstQ := hin.field State.rstQ fun _ => rfl
  constructor
  case idle => simp [hready, hbusy]
  case nss => rw [hin.used.cfg]; exact hin.nss h.nss
  case rst => rw [hrst, hin.used.cfg, hlbl]; exact h.rst
  case pulse => simp [hlbl, hpulse]
  case closed => simp [hin.active]
  case alone => rw [hcall, hlbl]; exact h.alone

theorem Move.pinInv {s t : State} (hbusy : s.ready = false) (h : s.PinInv) (m : Move s t) : t.PinInv := by
  have quiet (ht : nssAt s.cfg s.tph = s.cfg.pin.nssInactive) (hpulse : inPulse s.stepLbl = false) : s.PinsQuiet :=
    h.pinsQuiet hbusy ht hpulse
  have quiet_t0 (ht : s.tph = .t0) (hpulse : inPulse s.stepLbl = false) : s.PinsQuiet := quiet (by rw [ht]; rfl) hpulse
  cases m with
  | log hs =>
    have ht := h.closed (by rw [hs]; rfl)
    have hq := quiet_t0 ht (h.not_inPulse (by simp [hs]))
    exact State.PinsQuiet.pinInv (hq.congr rfl) ht
  | done st hs =>
    have hq := quiet_t0 (h.closed (by rw [hs]; rfl)) (h.not_inPulse (by simp [hs]))
    exact { idle := fun _ => ⟨rfl, rfl, rfl, rfl⟩, nss := hq.nss, rst := hq.rst,
            pulse := fun hp => by simp [inPulse] at hp, closed := fun _ => rfl, alone := fun _ h0 => by simp at h0 }
  | nothing hs ht hg =>
    have hq := quiet_t0 ht (h.not_inPulse_of_stage (by simp [hg]) (by simp [hg]))
    exact State.PinsQuiet.pinInv (hq.congr rfl) ht
  | pin p l hs ht hg => exact nextStage_pinInv (pinStage_pinsDone h hbusy ht hg)
  | sleep ms hs ht hg => exact nextStage_pinInv (sleepStage_pinsDone h hbusy ht hg)
  | xfer x p hs ht hg | poll x p ms hs ht hg | repeated x p ms hs ht hg =>
    have hq := quiet_t0 ht (h.not_inPulse_of_stage (by simp [hg]) (by simp [hg]))
    exact State.PinsQuiet.startXfer_pinInv (hq.congr (by rfl)) x
  | expired x p ms hs ht hg =>
    have hq := quiet_t0 ht (h.not_inPulse (by simp [hs]))
    exact failWith_pinInv (hq.congr (by rfl)) _
  | line t hmid hin => exact hin.pinInv hbusy h (h.not_inPulse fun h0 => hmid.away h0.1 h0.2)
  | passed u hmid hu hnss =>
    have hq := quiet hnss (h.not_inPulse fun h0 => hmid.away h0.1 h0.2)
    rcases hu with rfl | rfl
    · exact xferDone_pinInv hq
    · exact xferDone_pinInv (hq.congr rfl)
  | failed u hmid hu =>
    have hpulse := h.not_inPulse fun h0 => hmid.away h0.1 h0.2
    rcases hu with ⟨rfl, hne⟩ | rfl
    · have hq := quiet (nssAt_of_ne_active (h.nss ▸ hne)) hpulse
      exact xferFail_pinInv (hq.congr rfl)
    · exact xferFail_pinInv ⟨hbusy, rfl, h.rst.trans (rstAt_of_not_inPulse s.cfg hpulse), hpulse, h.alone⟩

/-! ### Every step keeps the invariant -/

theorem hwReset_pinInv (s : State) : (hwReset s).PinInv where
  idle _ := ⟨rfl, rfl, rfl, rfl⟩
  nss := rfl
  rst := rfl
  pulse hp := by cases hp
  closed _ := rfl
  alone _ h0 := by cases h0

/-- The pins while `READY = 1`. -/
theorem State.PinInv.pins_of_ready {s : State} (h : s.PinInv) (hr : s.ready = true) :
    s.nssQ = s.cfg.pin.nssInactive ∧ s.rstQ = s.cfg.pin.rstRelease := by
  obtain ⟨hl, ht, -, -⟩ := h.idle hr
  exact ⟨by rw [h.nss, ht]; rfl, by rw [h.rst, hl]; rfl⟩

theorem firstStep_cases {c : BitVec 3} {l : StepLabel} (h : firstStep c = some l) :
    c = 0 ∧ l = .beginNss ∨ (c = 1 ∨ c = 5) ∧ l = .rstLow ∨ (c = 2 ∨ c = 3 ∨ c = 4) ∧ l = .verRead := by
  revert h
  have hall : ∀ c : BitVec 3, c = 0 ∨ c = 1 ∨ c = 2 ∨ c = 3 ∨ c = 4 ∨ c = 5 ∨ c = 6 ∨ c = 7 := by decide
  rcases hall c with rfl | rfl | rfl | rfl | rfl | rfl | rfl | rfl <;> intro h <;> cases h <;> decide

theorem accept_pinInv (c : BitVec 3) {s : State} (hr : s.ready = true) (h : s.PinInv) : (accept c s).PinInv := by
  obtain ⟨hnss, hrst⟩ := h.pins_of_ready hr
  unfold accept
  split
  · next l hl =>
    refine enterStage_pinInv rfl hnss ?_ (fun hp => ?_) (fun _ h0 => by cases h0)
    all_goals
      rcases firstStep_cases hl with ⟨hc, rfl⟩ | ⟨hc, rfl⟩ | ⟨hc, rfl⟩
    · exact hrst
    · exact hrst
    · exact hrst
    · cases hp
    · exact ⟨.inr hc, by simp [stageOf]⟩
    · cases hp
  · exact State.PinsQuiet.pinInv ⟨rfl, hnss, hrst, rfl, fun _ h0 => by cases h0⟩ rfl

theorem launch_pinInv {gs : List Stage} {s : State} (hne : gs ≠ []) (halone : gs.all Stage.alone = true)
    (hr : s.ready = true) (h : s.PinInv) : (launch gs s).PinInv := by
  obtain ⟨hnss, hrst⟩ := h.pins_of_ready hr
  cases gs with
  | nil => exact absurd rfl hne
  | cons g gs =>
    exact enterStage_pinInv rfl hnss hrst (fun hp => by cases hp) fun _ h0 => by cases h0; exact ⟨rfl, halone⟩

/-- Settles O52, by what one event can do: the pulse is left only through its own steps, and the end of a wait finds
chip-select where the label has it. -/
theorem pinInvariantKept : Obligations.PinInvariantKept := by
  intro s t hs hstep
  have h : t.PinInv := step_keeps (P := State.PinInv) (fun u _ => hwReset_pinInv u)
    (fun c _ hr hu => accept_pinInv c hr hu) (fun _ _ hne halone hr hu => launch_pinInv hne halone hr hu)
    (fun u hr hu => (event_move u).pinInv hr hu) hstep hs
  refine ⟨h, fun ht => ?_, fun hhold hhigh => ?_, fun hr => ?_⟩
  · rw [h.nss, ht]; rfl
  · rw [h.rst]
    unfold rstAt
    split
    · contradiction
    · contradiction
    · rfl
  · obtain ⟨hl, ht, -, -⟩ := h.idle hr
    exact ⟨hl, ht⟩

end Sys2Proof.Machine
end

section
/-! Proofs: single operations write no result register, and the invariants of `COARSE` and of the result registers
(10_state.md R23, R30, R31, R34; 70_reset_and_hazards.md R236). -/

namespace Sys2Proof.Machine

/-- Entering a stage writes `TPH`, `TXBUF` and the model's own position, nothing else. -/
theorem enterStage_eq (g : Stage) (s : State) :
    ∃ l tx n, enterStage g s = { s with tph := l, sub := .start, txbuf := tx, rlen := n } := by
  cases g <;> exact ⟨_, _, _, rfl⟩

theorem enterStep_eq (l : StepLabel) (s : State) :
    ∃ t tx n, enterStep l s = { s with stepLbl := l, tph := t, sub := .start, txbuf := tx, rlen := n } :=
  enterStage_eq _ { s with stepLbl := l }

/-! ### Single operations (log entry 5) -/

/-- A single operation is in progress: it has stages left, of its own kind. -/
structure State.RunsAlone (s : State) : Prop where
  stages : ∃ gs, s.call = some gs ∧ gs ≠ [] ∧ gs.all Stage.alone = true
  active : s.sub.closing = false

/-- A single operation has gone on, or returned, with no result register written. -/
def RanAlone (s t : State) : Prop :=
  SameResults s t ∧ (t.ready = true ∧ t.call = none ∨ t.RunsAlone)

theorem SameResults.refl (s : State) : SameResults s s := ⟨rfl, rfl, rfl, rfl, rfl, rfl, rfl, rfl⟩

theorem endCall_ranAlone (r : OpResult) (s : State) : RanAlone s (endCall r s) :=
  ⟨.refl s, .inl ⟨rfl, rfl⟩⟩

/-- The stages `gs` that are left are run, or there are none and the operation returns. -/
theorem enterCall_ranAlone {gs : List Stage} (halone : gs.all Stage.alone = true) (s : State) :
    RanAlone s (enterCall gs s) := by
  cases gs with
  | nil => exact endCall_ranAlone .ok s
  | cons g rest =>
    obtain ⟨l, tx, n, h⟩ := enterStage_eq g { s with call := some (g :: rest) }
    rw [enterCall, h]
    exact ⟨.refl s, .inr ⟨⟨_, rfl, by simp, halone⟩, rfl⟩⟩

theorem nextStage_ranAlone {s : State} {gs : List Stage} (hgs : s.call = some gs)
    (halone : gs.all Stage.alone = true) : RanAlone s (nextStage s) := by
  simp only [nextStage, hgs]
  exact enterCall_ranAlone (all_alone_tail halone) s

theorem failWith_ranAlone {s : State} {gs : List Stage} (hgs : s.call = some gs) (d : DiagCode) :
    RanAlone s (failWith d s) := by
  simp only [failWith, hgs]
  exact endCall_ranAlone _ s

/-- No operation run alone completes a host command. -/
theorem postRes_alone {p : Post} (h : p.alone = true) (s : State) (st : Status) : postRes p s ≠ .finish st := by
  cases p <;> simp [Post.alone] at h <;> simp only [postRes]
  case check | countIs | countStop | level1 | level2 => split <;> simp
  all_goals simp

theorem afterPost_ranAlone {s : State} {gs : List Stage} (hgs : s.call = some gs) (hne : gs ≠ [])
    (halone : gs.all Stage.alone = true) {r : PostRes} (hr : ∀ st, r ≠ .finish st) : RanAlone s (afterPost r s) := by
  cases r with
  | ok => exact nextStage_ranAlone hgs halone
  | fail d => exact failWith_ranAlone hgs d
  | again => exact ⟨.refl s, .inr ⟨⟨gs, hgs, hne, halone⟩, rfl⟩⟩
  | finish st => exact absurd rfl (hr st)
  | okState v | stop =>
    simp only [afterPost, hgs]
    exact endCall_ranAlone _ s

/-- The stage that a single operation stands at is of its own kind. -/
theorem State.RunsAlone.curStage_alone {s : State} (h : s.RunsAlone) : (curStage s).alone = true := by
  obtain ⟨gs, hgs, hne, halone⟩ := h.stages
  cases gs with
  | nil => exact absurd rfl hne
  | cons g rest =>
    have hg : curStage s = g := by simp only [curStage, hgs]
    exact hg ▸ (Bool.and_eq_true_iff.mp halone).1

theorem Stage.post_alone {g : Stage} (h : g.alone = true) : g.post.alone = true := by
  cases g with
  | xfer x p => exact h
  | sleep ms => rfl
  | nothing | pin p l | poll x p ms => cases h

theorem SameResults.ranAlone {s u t : State} (h : SameResults s u) (k : RanAlone u t) : RanAlone s t :=
  ⟨h.trans k.1, k.2⟩

theorem xferDone_ranAlone {s : State} {gs : List Stage} (hgs : s.call = some gs) (hne : gs ≠ [])
    (halone : gs.all Stage.alone = true) (hg : (curStage s).alone = true) : RanAlone s (xferDone s) := by
  have hp : (curStage (delivered s)).post.alone = true := Stage.post_alone hg
  obtain ⟨⟨hcall, -⟩, -⟩ := postState_keeps (curStage (delivered s)).post (delivered s)
  exact (postState_results hp (delivered s)).ranAlone
    (afterPost_ranAlone (hcall.trans hgs) hne halone (postRes_alone hp _))

theorem Inside.sameResults {s t : State} (h : Inside s t) : SameResults s t :=
  ⟨h.field State.uidOut fun _ => rfl, h.field State.uidLen fun _ => rfl, h.field State.ver0 fun _ => rfl,
    h.field State.ver1 fun _ => rfl, h.field State.status fun _ => rfl, h.field State.diagCode fun _ => rfl,
    h.field State.diagStep fun _ => rfl, h.field State.diagTph fun _ => rfl⟩

/-- One event of a single operation. -/
theorem Move.ranAlone {s t : State} (h : s.RunsAlone) (m : Move s t) : RanAlone s t := by
  obtain ⟨gs, hgs, hne, halone⟩ := h.stages
  have hg := h.curStage_alone
  cases m with
  | log hs | done st hs => simpa [hs, Sub.closing] using h.active
  | nothing _ _ hg' | pin p l _ _ hg' | poll x p ms _ _ hg' | repeated x p ms _ _ hg' | expired x p ms _ _ hg' =>
    simp [hg', Stage.alone] at hg
  | sleep ms => exact SameResults.ranAlone (.refl s) (nextStage_ranAlone (s := sleepFor ms s) hgs halone)
  | xfer x p => exact ⟨.refl s, .inr ⟨⟨gs, hgs, hne, halone⟩, rfl⟩⟩
  | line t _ hin =>
    exact ⟨hin.sameResults, .inr ⟨⟨gs, (hin.field State.call fun _ => rfl).trans hgs, hne, halone⟩, hin.active⟩⟩
  | passed u _ hu =>
    rcases hu with rfl | rfl
    · exact xferDone_ranAlone hgs hne halone hg
    · exact SameResults.ranAlone (.refl s) (xferDone_ranAlone (s := sampleBusy s) hgs hne halone hg)
  | failed u _ hu =>
    rcases hu with ⟨rfl, -⟩ | rfl <;> exact SameResults.ranAlone (.refl s) (failWith_ranAlone (by exact hgs) _)

/-- A single operation writes no result register, however far it runs on. -/
theorem runOn_sameResults {s u : State} (hsu : SameResults s u) (h : u.ready = true ∨ u.RunsAlone) :
    SameResults s (runOn u) := by
  have hkeeps : SameResults s (runOn u) ∧ ((runOn u).ready = true ∨ (runOn u).RunsAlone) := by
    refine runOn_keeps (P := fun v => SameResults s v ∧ (v.ready = true ∨ v.RunsAlone)) (fun v hb hv => ?_) ⟨hsu, h⟩
    obtain ⟨hsv, hv⟩ := hv
    obtain ⟨hsame, hgo⟩ := (event_move v).ranAlone (hv.resolve_left (by simp [hb]))
    exact ⟨hsv.trans hsame, hgo.imp And.left id⟩
  exact hkeeps.1

theorem launch_ranAlone {gs : List Stage} (halone : gs.all Stage.alone = true) (s : State) :
    RanAlone s (launch gs s) :=
  SameResults.ranAlone (.refl s) (enterCall_ranAlone halone _)

/-- An instruction is a host command, by its code, or a single operation with stages of its own kind; which of them does
not depend on what is known of the chip. -/
theorem exec_kind (i : Instr) (s : State) :
    (∃ c, encode s.cfg i = .host c ∧ ∀ r, exec i { s with remote := r } = hostCommand c { s with remote := r }) ∨
      ∃ gs, gs.all Stage.alone = true ∧ exec i s = operation gs s ∧
        ∀ r, exec i { s with remote := r } = operation gs { s with remote := r } := by
  cases i
  case beginCmd => exact .inl ⟨0, rfl, fun _ => rfl⟩
  case resetCmd => exact .inl ⟨1, rfl, fun _ => rfl⟩
  case getFirmware => exact .inl ⟨2, rfl, fun _ => rfl⟩
  case getProductVersion => exact .inl ⟨3, rfl, fun _ => rfl⟩
  case getEepromVersion => exact .inl ⟨4, rfl, fun _ => rfl⟩
  case readCardSerial => exact .inl ⟨5, rfl, fun _ => rfl⟩
  case reserved110 => exact .inl ⟨6, rfl, fun _ => rfl⟩
  case reserved111 => exact .inl ⟨7, rfl, fun _ => rfl⟩
  all_goals exact .inr ⟨_, rfl, rfl, fun _ => rfl⟩

theorem operation_sameResults {gs : List Stage} {s t : State} (halone : gs.all Stage.alone = true)
    (h : operation gs s = .next t) : SameResults s t := by
  unfold operation at h
  obtain ⟨hsame, hgo⟩ := launch_ranAlone halone s
  split at h <;> cases h
  · exact runOn_sameResults hsame (hgo.imp And.left id)
  · exact .refl s

/-- The invariant of the result registers says that a single operation that runs has stages left. -/
theorem State.ResultInv.runsAlone {s : State} (h : s.ResultInv) (hcall : s.call ≠ none) : s.RunsAlone := by
  obtain ⟨gs, hgs⟩ := Option.ne_none_iff_exists'.mp hcall
  obtain ⟨hne, halone, hactive⟩ := h.alone gs hgs
  exact ⟨⟨gs, hgs, hne, halone⟩, hactive⟩

/-- Settles O15: the ports show cleared results while `READY = 0`, and no stage of a single operation writes one. -/
theorem resultsWhileBusy : Obligations.ResultsWhileBusy := by
  refine ⟨fun s hb => hostView_of_busy s hb, fun i s t hi h => ?_, fun s t hinv hreset hb hcall h => ?_⟩
  · rcases exec_kind i s with ⟨c, hc, -⟩ | ⟨gs, halone, hexec, -⟩
    · exact absurd hc (hi c)
    · exact operation_sameResults halone (hexec ▸ h)
  · obtain ⟨hsame, hgo⟩ := (event_move s).ranAlone (hinv.runsAlone hcall)
    rcases step_cases h with ⟨hr, -⟩ | ⟨hr, -⟩ | ⟨hr, -⟩ | ⟨hr, -⟩ | ⟨-, rfl⟩
    · simp [hreset] at hr
    · simp [hb] at hr
    · simp [hb] at hr
    · simp [hb] at hr
    · exact runOn_sameResults hsame (hgo.imp And.left id)

/-! ### The result registers of a host command -/

/-- All that the invariant of the result registers speaks of, but for the line inside the step. -/
def State.results (s : State) : Bool × Option (List Stage) × Status × Uid × UidLen × Byte × Byte × DiagCode ×
    StepLabel × Tph :=
  (s.ready, s.call, s.status, s.uidOut, s.uidLen, s.ver0, s.ver1, s.diagCode, s.diagStep, s.diagTph)

/-- A host command runs and its results are as `Accept` cleared them. -/
def State.Fresh (s : State) : Prop :=
  s.results = (false, none, .stNone, Uid.zero, .len0, 0, 0, .dgNone, .noStep, .t0)

theorem State.Fresh.congr {s u : State} (h : s.Fresh) (hu : u.results = s.results) : u.Fresh := hu.trans h

/-- Fresh results agree with every line that does not end the command with a UID. -/
theorem State.Fresh.resultInv {s : State} (h : s.Fresh) (hlen : s.sub.len = .len0) : s.ResultInv := by
  simp only [State.Fresh, State.results, Prod.mk.injEq] at h
  obtain ⟨hb, hcall, hst, hu, hl, h0, h1, hd, hds, hdt⟩ := h
  constructor
  case shape => rw [hl]; exact hu
  case posted => simp [hb, hcall]
  case running => exact fun _ _ => hl.trans hlen.symm
  case cleared => exact fun _ _ => ⟨hst, fun _ => ⟨h0, h1, hd, hds, hdt⟩⟩
  case alone => simp [hcall]

/-- The invariant of a host command that closes: `VER` and the diagnosis are free. -/
theorem resultInv_of_closing {s : State} (hb : s.ready = false) (hcall : s.call = none)
    (hclosing : s.sub.closing = true) (hst : s.status = .stNone) (hshape : uidShape s.uidOut s.uidLen)
    (hlen : s.uidLen = s.sub.len) : s.ResultInv where
  shape := hshape
  posted h := by simp [hb, hcall] at h
  running _ _ := hlen
  cleared _ _ := ⟨hst, fun h => by simp [hclosing] at h⟩
  alone gs h := by simp [hcall] at h

theorem Sub.len_of_not_closing {sub : Sub} (h : sub.closing = false) : sub.len = .len0 := by
  cases sub with
  | start | sample | time | release => rfl
  | log | fin st => cases h

theorem State.ResultInv.fresh {s : State} (h : s.ResultInv) (hb : s.ready = false) (hcall : s.call = none)
    (hactive : s.sub.closing = false) : s.Fresh := by
  have hlen : s.uidLen = .len0 := (h.running hb hcall).trans (Sub.len_of_not_closing hactive)
  have huid : s.uidOut = Uid.zero := by
    have hshape := h.shape
    rwa [hlen] at hshape
  obtain ⟨hst, hcleared⟩ := h.cleared hb hcall
  obtain ⟨h0, h1, hd, hds, hdt⟩ := hcleared hactive
  simp only [State.Fresh, State.results, hb, hcall, hst, huid, hlen, h0, h1, hd, hds, hdt]

theorem State.Fresh.advance {s : State} (h : s.Fresh) : (advance s).ResultInv := by
  unfold Machine.advance
  split
  · next l _ =>
    obtain ⟨t, tx, n, he⟩ := enterStep_eq l s
    rw [he]
    exact State.Fresh.resultInv (h.congr rfl) rfl
  · exact State.Fresh.resultInv (h.congr rfl) rfl

theorem State.Fresh.call {s : State} (h : s.Fresh) : s.call = none := by
  simp only [State.Fresh, State.results, Prod.mk.injEq] at h
  exact h.2.1

theorem State.Fresh.nextStage {s : State} (h : s.Fresh) : (nextStage s).ResultInv := by
  simp only [Machine.nextStage, h.call]
  exact h.advance

/-- A raise writes the diagnosis only. -/
theorem State.Fresh.failWith {s : State} (h : s.Fresh) (d : DiagCode) : (failWith d s).ResultInv := by
  simp only [Machine.failWith, h.call]
  simp only [State.Fresh, State.results, Prod.mk.injEq] at h
  obtain ⟨hb, hcall, hst, hu, hl, -⟩ := h
  exact resultInv_of_closing hb hcall rfl hst (by simp [hl, hu, uidShape]) hl

/-- An operation's test and the result registers it leaves: a host command that it completes has the UID of its status,
and one that goes on or fails has none. -/
def Tested (r : PostRes) (s : State) : Prop :=
  (∃ st, r = .finish st ∧ State.ResultInv { s with tph := .t0, sub := .fin st }) ∨ (∀ st, r ≠ .finish st) ∧ s.Fresh

theorem postState_tested (p : Post) {s : State} (h : s.Fresh) :
    Tested (postRes p (postState p s)) (postState p s) := by
  have hparts := h
  simp only [State.Fresh, State.results, Prod.mk.injEq] at hparts
  obtain ⟨hb, hcall, hst, hu, hl, -⟩ := hparts
  cases p
  case countSelect =>
    by_cases hc : rxCount s.cfg (fromLe32 s.rxbuf) = 0
    · obtain ⟨hs, hr⟩ := post_countSelect_zero s hc
      rw [hr, hs]
      exact .inl ⟨_, rfl, resultInv_of_closing hb hcall rfl hst ⟨rfl, rfl, rfl⟩ rfl⟩
    · obtain ⟨hs, hr⟩ := post_countSelect_nonzero s hc
      rw [hr, hs]
      exact .inr ⟨by simp, h.congr rfl⟩
  case sakDecide =>
    cases hc : cascadeContinues s.cfg (byteAt s.rxbuf 0) with
    | false =>
      obtain ⟨hs, hr⟩ := post_sakDecide_last s hc
      rw [hr, hs]
      exact .inl ⟨_, rfl, resultInv_of_closing hb hcall rfl hst ⟨rfl, rfl, rfl⟩ rfl⟩
    | true =>
      obtain ⟨hs, hr⟩ := post_sakDecide_cascade s hc
      rw [hr, hs]
      exact .inr ⟨by split <;> simp, h.congr rfl⟩
  case level2Done =>
    cases hc : s.cfg.bccCheck && !(s.cb.setL2 s.rxbuf).l2Ok with
    | false =>
      obtain ⟨hs, hr⟩ := post_level2Done_ok s hc
      rw [hr, hs]
      exact .inl ⟨_, rfl, resultInv_of_closing hb hcall rfl hst trivial rfl⟩
    | true =>
      obtain ⟨hs, hr⟩ := post_level2Done_bad s hc
      rw [hr, hs]
      exact .inr ⟨by simp, h.congr rfl⟩
  case version =>
    exact .inl ⟨_, rfl, resultInv_of_closing hb hcall rfl hst (by simp [postState, setVersion, hl, hu, uidShape]) hl⟩
  case pollState | irqBit b => exact .inr ⟨by simp only [postRes]; split <;> simp, h.congr rfl⟩
  all_goals exact .inr ⟨postRes_alone (by rfl) _, h.congr rfl⟩

theorem afterPost_resultInv {r : PostRes} {s : State} (h : Tested r s) : (afterPost r s).ResultInv := by
  rcases h with ⟨st, rfl, hinv⟩ | ⟨hr, hfresh⟩
  · exact hinv
  · cases r with
    | finish st => exact absurd rfl (hr st)
    | ok => exact hfresh.nextStage
    | fail d => exact hfresh.failWith d
    | again => exact State.Fresh.resultInv (hfresh.congr rfl) rfl
    | okState v | stop =>
      simp only [afterPost, hfresh.call]
      exact hfresh.advance

theorem xferDone_resultInv {s : State} (h : s.Fresh) : (xferDone s).ResultInv :=
  afterPost_resultInv (postState_tested _ (h.congr (u := delivered s) rfl))

/-! ### Every step keeps the invariant of the result registers -/

/-- After an event of a single operation. -/
theorem RanAlone.resultInv {s t : State} (h : s.ResultInv) (hcall : s.call ≠ none) (k : RanAlone s t) :
    t.ResultInv := by
  obtain ⟨⟨hu, hl, -, -, hst, -⟩, hgo⟩ := k
  have hnot : ¬(t.ready = false ∧ t.call = none) := by
    rintro ⟨hr, hc⟩
    rcases hgo with ⟨hr', -⟩ | ⟨⟨gs, hgs, -⟩, -⟩
    · simp [hr] at hr'
    · simp [hc] at hgs
  constructor
  case shape => rw [hu, hl]; exact h.shape
  case posted => exact fun _ => by rw [hl, hst]; exact h.posted (.inr hcall)
  case running => exact fun hr hc => absurd ⟨hr, hc⟩ hnot
  case cleared => exact fun hr hc => absurd ⟨hr, hc⟩ hnot
  case alone =>
    intro gs hgs
    rcases hgo with ⟨-, hc⟩ | ⟨⟨gs', hgs', hne, halone⟩, hactive⟩
    · simp [hc] at hgs
    · obtain rfl : gs' = gs := by simpa [hgs'] using hgs
      exact ⟨hne, halone, hactive⟩

/-- No abort ends with a UID (60_exceptions.md R211). -/
theorem abortStatus_cases (cmd : BitVec 3) : abortStatus cmd = .stResetTimeout ∨ abortStatus cmd = .stVersionError ∨
    abortStatus cmd = .stNoCard ∨ abortStatus cmd = .stIllegalCmd := by
  unfold abortStatus
  split <;> simp

theorem logAbort_resultInv {s : State} (hb : s.ready = false) (hcall : s.call = none) (hst : s.status = .stNone) :
    (logAbort s).ResultInv := by
  refine resultInv_of_closing hb hcall rfl hst rfl ?_
  rcases abortStatus_cases s.cmd with h | h | h | h <;> simp [h, Sub.len, lenOf]

theorem done_resultInv {s : State} {st : Status} (h : s.ResultInv) (hlen : s.uidLen = lenOf st) :
    (done st s).ResultInv where
  shape := h.shape
  posted _ := hlen
  running hr := by simp at hr
  cleared hr := by simp at hr
  alone gs hgs := by simp at hgs

theorem Move.resultInv {s t : State} (hb : s.ready = false) (h : s.ResultInv) (m : Move s t) : t.ResultInv := by
  by_cases hcall : s.call = none
  case neg => exact (m.ranAlone (h.runsAlone hcall)).resultInv h hcall
  have fresh (hactive : s.sub.closing = false) : s.Fresh := h.fresh hb hcall hactive
  cases m with
  | log hs => exact logAbort_resultInv hb hcall (h.cleared hb hcall).1
  | done st hs => exact done_resultInv h (by rw [h.running hb hcall, hs]; rfl)
  | nothing hs => exact State.Fresh.resultInv ((fresh (by rw [hs]; rfl)).congr rfl) rfl
  | pin p l hs =>
    cases p <;> exact State.Fresh.nextStage ((fresh (by rw [hs]; rfl)).congr rfl)
  | sleep ms hs => exact State.Fresh.nextStage ((fresh (by rw [hs]; rfl)).congr rfl)
  | xfer x p hs | poll x p ms hs | repeated x p ms hs =>
    exact State.Fresh.resultInv ((fresh (by rw [hs]; rfl)).congr rfl) rfl
  | expired x p ms hs => exact State.Fresh.failWith ((fresh (by rw [hs]; rfl)).congr (by rfl)) _
  | line t hmid hin =>
    exact State.Fresh.resultInv ((fresh hmid.active).congr (hin.field State.results fun _ => rfl))
      (Sub.len_of_not_closing hin.active)
  | passed u hmid hu =>
    rcases hu with rfl | rfl
    · exact xferDone_resultInv (fresh hmid.active)
    · exact xferDone_resultInv ((fresh hmid.active).congr (by rfl))
  | failed u hmid hu =>
    rcases hu with ⟨rfl, -⟩ | rfl <;> exact State.Fresh.failWith ((fresh hmid.active).congr (by rfl)) _

theorem hwReset_resultInv (s : State) : (hwReset s).ResultInv where
  shape := rfl
  posted _ := rfl
  running hr := by cases hr
  cleared hr := by cases hr
  alone _ h0 := by cases h0

theorem accept_resultInv (c : BitVec 3) (s : State) : (accept c s).ResultInv := by
  unfold accept
  split
  · next l _ =>
    have hfresh : State.Fresh (acceptRegs c s) := rfl
    obtain ⟨t, tx, n, he⟩ := enterStep_eq l (acceptRegs c s)
    rw [he]
    exact State.Fresh.resultInv (hfresh.congr rfl) rfl
  · exact resultInv_of_closing rfl rfl rfl rfl rfl rfl

theorem launch_resultInv {gs : List Stage} {s : State} (hne : gs ≠ []) (halone : gs.all Stage.alone = true)
    (hr : s.ready = true) (h : s.ResultInv) : (launch gs s).ResultInv := by
  have hcalled : State.ResultInv { s with call := some gs, sub := .start } :=
    { shape := h.shape, posted := fun _ => h.posted (.inl hr), running := fun _ hc => by simp at hc,
      cleared := fun _ hc => by simp at hc, alone := fun gs' hgs => by cases hgs; exact ⟨hne, halone, rfl⟩ }
  exact (SameResults.ranAlone (.refl _) (launch_ranAlone halone s)).resultInv hcalled (by simp)

/-- Settles O56: a host command has fresh results until it closes, the test that completes it writes the UID that goes
with its status, and a single operation writes none. -/
theorem resultInvariantKept : Obligations.ResultInvariantKept := by
  intro s t hs hstep
  have h : t.ResultInv := step_keeps (P := State.ResultInv) (fun u _ => hwReset_resultInv u)
    (fun c u _ _ => accept_resultInv c u) (fun _ _ hne halone hr hu => launch_resultInv hne halone hr hu)
    (fun u hr hu => (event_move u).resultInv hr hu) hstep hs
  exact ⟨h, fun hr => hostView_of_busy t hr⟩

end Sys2Proof.Machine
end

section
/-! Proofs: `COARSE` goes with the step (10_state.md R30, R31). -/

namespace Sys2Proof.Machine

/-! ### `COARSE` and the order of the steps -/

/-- `COARSE` when a step has passed (R31): the step after it has this value. -/
def coarseNext : StepLabel → Coarse
  | .radClear => .csRadioOn
  | .reqaSend => .csReqaSent
  | .ac1Send => .csAc1Sent
  | .ac2Send => .csAc2Sent
  | l => coarseAt l

/-- `COARSE` after an operation's test, from the value `k` before: a frame that R31 names moves it when the test passes,
and a UID when the command is complete with it. -/
def coarseAfter (p : Post) (r : PostRes) (k : Coarse) : Coarse :=
  match r, p with
  | .finish .stUid4, _ => .csSelected4
  | .finish .stUid7, _ => .csSelected7
  | .ok, .coarse k' | .okState _, .coarse k' | .stop, .coarse k' => k'
  | _, _ => k

theorem coarseAt_nextStep {cmd : BitVec 3} {l l' : StepLabel} (h : nextStep cmd l = some l') :
    coarseAt l' = coarseNext l := by
  rcases nextStep_cases h with ⟨-, hl⟩ | ⟨-, hl⟩ | ⟨-, hl⟩ <;> cases l <;> cases hl <;> rfl

/-- Every step that follows another is a step of the command. -/
theorem stepOfCommand_nextStep {cmd : BitVec 3} {l l' : StepLabel} (h : nextStep cmd l = some l') :
    stepOfCommand cmd l' = true := by
  rcases nextStep_cases h with ⟨rfl, hl⟩ | ⟨rfl, hl⟩ | ⟨rfl, hl⟩ <;> cases l <;> cases hl <;> rfl

/-- The last step of a command leaves `COARSE`, unless its test writes a UID. -/
theorem coarseNext_last {cmd : BitVec 3} {l : StepLabel} (hc : cmd = 0 ∨ cmd = 1 ∨ cmd = 5)
    (hplace : stepOfCommand cmd l = true) (h : nextStep cmd l = none) : coarseNext l = coarseAt l := by
  cases l
  case radClear | reqaSend | ac1Send | ac2Send =>
    rcases hc with rfl | rfl | rfl
    · cases hplace
    · cases hplace
    · cases h
  all_goals rfl

theorem coarseNext_eq (c : Cfg) (cb : CascadeBuffer) (cmd : BitVec 3) (l : StepLabel) :
    coarseNext l = coarseAfter (stageOf c cb cmd l).post .ok (coarseAt l) := by
  cases l <;> rfl

theorem stepOfCommand_firstStep {c : BitVec 3} {l : StepLabel} (h : firstStep c = some l) :
    stepOfCommand c l = true ∧ coarseAt l = .csReset := by
  rcases firstStep_cases h with ⟨rfl, rfl⟩ | ⟨hc, rfl⟩ | ⟨hc, rfl⟩
  · exact ⟨rfl, rfl⟩
  · rcases hc with rfl | rfl <;> exact ⟨rfl, rfl⟩
  · rcases hc with rfl | rfl | rfl <;> exact ⟨rfl, rfl⟩

/-- A command with no first step, a reserved one, stands at no step. -/
theorem stepOfCommand_reserved {c : BitVec 3} (h : firstStep c = none) : stepOfCommand c .noStep = true := by
  revert h
  revert c
  decide

theorem postState_coarse (p : Post) (s : State) :
    (postState p s).coarse = coarseAfter p (postRes p (postState p s)) s.coarse := by
  cases p
  case countSelect =>
    by_cases hc : rxCount s.cfg (fromLe32 s.rxbuf) = 0
    · obtain ⟨hs, hr⟩ := post_countSelect_zero s hc
      rw [hr, hs]; rfl
    · obtain ⟨hs, hr⟩ := post_countSelect_nonzero s hc
      rw [hr, hs]; rfl
  case sakDecide =>
    cases hc : cascadeContinues s.cfg (byteAt s.rxbuf 0) with
    | false =>
      obtain ⟨hs, hr⟩ := post_sakDecide_last s hc
      rw [hr, hs]; rfl
    | true =>
      obtain ⟨hs, hr⟩ := post_sakDecide_cascade s hc
      rw [hr, hs]; split <;> rfl
  case level2Done =>
    cases hc : s.cfg.bccCheck && !(s.cb.setL2 s.rxbuf).l2Ok with
    | false =>
      obtain ⟨hs, hr⟩ := post_level2Done_ok s hc
      rw [hr, hs]; rfl
    | true =>
      obtain ⟨hs, hr⟩ := post_level2Done_bad s hc
      rw [hr, hs]; rfl
  case check | pollState | irqBit b | countIs | countStop | level1 | level2 =>
    simp only [postRes]; split <;> rfl
  all_goals rfl

/-! ### Moving from stage to stage -/

/-- A host command stands at a step of its own; if it resets `COARSE`, that has the value `k`. -/
structure State.Stands (s : State) (k : Coarse) : Prop where
  call : s.call = none
  place : stepOfCommand s.cmd s.stepLbl = true
  coarse : s.cmd = 0 ∨ s.cmd = 1 ∨ s.cmd = 5 → s.coarse = k

theorem State.Stands.congr {s u : State} {k : Coarse} (h : s.Stands k) (hu : u.sequence = s.sequence) :
    u.Stands k := by
  simp only [State.sequence, Prod.mk.injEq] at hu
  obtain ⟨-, hcall, hcmd, hlbl, hcoarse⟩ := hu
  exact ⟨hcall.trans h.call, by rw [hcmd, hlbl]; exact h.place, by rw [hcmd, hcoarse]; exact h.coarse⟩

theorem State.Stands.coarseInv {s : State} (h : s.Stands (coarseIn s)) : s.CoarseInv :=
  ⟨fun _ _ => h.place, fun _ _ => h.coarse⟩

theorem State.Stands.advance {s : State} (h : s.Stands (coarseNext s.stepLbl)) : (advance s).CoarseInv := by
  unfold Machine.advance
  split
  · next l hl =>
    obtain ⟨t, tx, n, he⟩ := enterStep_eq l s
    rw [he]
    exact State.Stands.coarseInv
      ⟨h.call, stepOfCommand_nextStep hl, fun hc => (h.coarse hc).trans (coarseAt_nextStep hl).symm⟩
  · next hl =>
    exact State.Stands.coarseInv
      ⟨h.call, h.place, fun hc => (h.coarse hc).trans (coarseNext_last hc h.place hl)⟩

theorem State.Stands.nextStage {s : State} (h : s.Stands (coarseNext s.stepLbl)) : (nextStage s).CoarseInv := by
  simp only [Machine.nextStage, h.call]
  exact h.advance

theorem State.Stands.failWith {s : State} (h : s.Stands (coarseAt s.stepLbl)) (d : DiagCode) :
    (failWith d s).CoarseInv := by
  simp only [Machine.failWith, h.call]
  exact State.Stands.coarseInv (h.congr rfl)

theorem afterPost_coarseInv {s : State} {p : Post} {r : PostRes}
    (hnext : coarseNext s.stepLbl = coarseAfter p .ok (coarseAt s.stepLbl))
    (h : s.Stands (coarseAfter p r (coarseAt s.stepLbl))) : (afterPost r s).CoarseInv := by
  cases r with
  | ok => exact State.Stands.nextStage (hnext ▸ h)
  | fail d => exact State.Stands.failWith h d
  | again => exact State.Stands.coarseInv (h.congr rfl)
  | finish st =>
    refine State.Stands.coarseInv ⟨h.call, h.place, fun hc => (h.coarse hc).trans ?_⟩
    cases st <;> rfl
  | okState v | stop =>
    simp only [afterPost, h.call]
    refine State.Stands.advance ?_
    rw [hnext]
    cases p <;> exact h

theorem xferDone_coarseInv {s : State} (h : s.Stands (coarseAt s.stepLbl)) : (xferDone s).CoarseInv := by
  have hg : curStage (delivered s) = stageOf s.cfg s.cb s.cmd s.stepLbl := curStage_host (s := delivered s) h.call
  obtain ⟨⟨hcall, hcmd, hlbl, -⟩, -⟩ := postState_keeps (curStage (delivered s)).post (delivered s)
  refine afterPost_coarseInv (p := (curStage (delivered s)).post) ?_ ⟨hcall.trans h.call, ?_, fun hc => ?_⟩
  · rw [hlbl, hg]
    exact coarseNext_eq ..
  · rw [hcmd, hlbl]
    exact h.place
  · rw [postState_coarse, hlbl]
    rw [hcmd] at hc
    exact congrArg _ (h.coarse hc)

theorem xferFail_coarseInv {s : State} (h : s.Stands (coarseAt s.stepLbl)) : (xferFail s).CoarseInv := by
  unfold xferFail
  refine State.Stands.failWith ?_ _
  exact h.congr rfl

/-- A step that is a pin write or a sleep leaves `COARSE`. -/
theorem State.Stands.nextStage_plain {s u : State} (h : s.Stands (coarseAt s.stepLbl))
    (hpost : (curStage s).post = .plain) (hu : u.sequence = s.sequence) : (Machine.nextStage u).CoarseInv := by
  have hsame := hu
  simp only [State.sequence, Prod.mk.injEq] at hsame
  obtain ⟨-, -, -, hlbl, -⟩ := hsame
  have hnext : coarseNext s.stepLbl = coarseAt s.stepLbl := by
    rw [coarseNext_eq s.cfg s.cb s.cmd, ← curStage_host h.call, hpost]
    rfl
  refine State.Stands.nextStage ?_
  rw [hlbl, hnext]
  exact h.congr hu

/-! ### A single operation does not become a host command -/

/-- No host command runs. -/
def State.NoHost (s : State) : Prop :=
  s.ready = true ∨ s.call ≠ none

theorem State.NoHost.coarseInv {s : State} (h : s.NoHost) : s.CoarseInv := by
  constructor <;> intro hb hcall <;> simp [State.NoHost, hb, hcall] at h

theorem enterCall_noHost (gs : List Stage) (s : State) : (enterCall gs s).NoHost := by
  cases gs with
  | nil => exact .inl rfl
  | cons g rest =>
    obtain ⟨l, tx, n, h⟩ := enterStage_eq g { s with call := some (g :: rest) }
    rw [enterCall, h]
    exact .inr (by simp)

theorem nextStage_noHost {s : State} (h : s.call ≠ none) : (nextStage s).NoHost := by
  unfold nextStage
  split
  · contradiction
  · exact enterCall_noHost _ s

theorem failWith_noHost {s : State} (h : s.call ≠ none) (d : DiagCode) : (failWith d s).NoHost := by
  unfold failWith
  split
  · contradiction
  · exact .inl rfl

theorem afterPost_noHost {s : State} (h : s.call ≠ none) (r : PostRes) : (afterPost r s).NoHost := by
  cases r with
  | ok => exact nextStage_noHost h
  | fail d => exact failWith_noHost h d
  | again | finish st => exact .inr h
  | okState v | stop =>
    simp only [afterPost]
    split
    · contradiction
    · exact .inl rfl

theorem xferDone_noHost {s : State} (h : s.call ≠ none) : (xferDone s).NoHost :=
  afterPost_noHost (by rw [(postState_keeps _ _).1.1]; exact h) _

theorem Move.noHost {s t : State} (h : s.call ≠ none) (m : Move s t) : t.NoHost := by
  cases m with
  | done st => exact .inl rfl
  | log | nothing | xfer x p | poll x p ms | repeated x p ms => exact .inr h
  | pin p l => cases p <;> exact nextStage_noHost h
  | sleep ms => exact nextStage_noHost (by exact h)
  | expired x p ms => exact failWith_noHost (by exact h) _
  | line t _ hin => exact .inr (hin.field State.call (fun _ => rfl) ▸ h)
  | passed u _ hu => rcases hu with rfl | rfl <;> exact xferDone_noHost h
  | failed u _ hu => rcases hu with ⟨rfl, -⟩ | rfl <;> exact failWith_noHost (by exact h) _

/-! ### Every event and every step keeps the invariant -/

theorem coarseIn_of_active {s : State} (h : s.sub.closing = false) : coarseIn s = coarseAt s.stepLbl := by
  unfold coarseIn
  split
  · next hs => simp [hs, Sub.closing] at h
  · next hs => simp [hs, Sub.closing] at h
  · rfl

theorem Move.coarseInv {s t : State} (hb : s.ready = false) (h : s.CoarseInv) (m : Move s t) : t.CoarseInv := by
  by_cases hcall : s.call = none
  case neg => exact (m.noHost hcall).coarseInv
  have stands : s.Stands (coarseIn s) := ⟨hcall, h.place hb hcall, h.coarse hb hcall⟩
  have active (hs : s.sub.closing = false) : s.Stands (coarseAt s.stepLbl) := coarseIn_of_active hs ▸ stands
  cases m with
  | log hs =>
    have hin : coarseIn (logAbort s) = coarseIn s := by
      rcases abortStatus_cases s.cmd with hst | hst | hst | hst <;> simp [coarseIn, hs, hst]
    exact State.Stands.coarseInv (hin ▸ stands.congr (by rfl))
  | done st => exact State.NoHost.coarseInv (.inl rfl)
  | nothing hs | xfer x p hs | poll x p ms hs | repeated x p ms hs =>
    exact State.Stands.coarseInv ((active (by rw [hs]; rfl)).congr rfl)
  | pin p l hs ht hg =>
    exact (active (by rw [hs]; rfl)).nextStage_plain (by rw [hg]; rfl) (by cases p <;> rfl)
  | sleep ms hs ht hg => exact (active (by rw [hs]; rfl)).nextStage_plain (by rw [hg]; rfl) rfl
  | expired x p ms hs =>
    refine State.Stands.failWith ?_ _
    exact (active (by rw [hs]; rfl)).congr rfl
  | line t hmid hin =>
    have hseq : t.sequence = s.sequence := hin.field State.sequence fun _ => rfl
    have hlbl : t.stepLbl = s.stepLbl := hin.field State.stepLbl fun _ => rfl
    have ht : t.Stands (coarseAt t.stepLbl) := hlbl ▸ (active hmid.active).congr hseq
    exact State.Stands.coarseInv (coarseIn_of_active hin.active ▸ ht)
  | passed u hmid hu =>
    rcases hu with rfl | rfl
    · exact xferDone_coarseInv (active hmid.active)
    · exact xferDone_coarseInv ((active hmid.active).congr rfl)
  | failed u hmid hu =>
    have hs := active hmid.active
    rcases hu with ⟨rfl, -⟩ | rfl
    · exact xferFail_coarseInv (hs.congr rfl)
    · exact xferFail_coarseInv (hs.congr rfl)

theorem resetsCoarse_eq (c : BitVec 3) : resetsCoarse c = decide (c = 0 ∨ c = 1 ∨ c = 5) := by
  revert c
  decide

/-- The registers of Accept at a step where `COARSE` is CS_RESET. -/
theorem acceptRegs_stands {c : BitVec 3} {l : StepLabel} (hplace : stepOfCommand c l = true)
    (hat : coarseAt l = .csReset) (s : State) : State.Stands { acceptRegs c s with stepLbl := l } (coarseAt l) where
  call := rfl
  place := hplace
  coarse hc := by
    have hreset : resetsCoarse c = true := (resetsCoarse_eq c).trans (decide_eq_true hc)
    exact hat ▸ if_pos hreset

theorem accept_coarseInv (c : BitVec 3) (s : State) : (accept c s).CoarseInv := by
  unfold accept
  split
  · next l hl =>
    obtain ⟨hplace, hat⟩ := stepOfCommand_firstStep hl
    obtain ⟨t, tx, n, he⟩ := enterStep_eq l (acceptRegs c s)
    rw [he]
    exact State.Stands.coarseInv ((acceptRegs_stands hplace hat s).congr rfl)
  · next hnone =>
    exact State.Stands.coarseInv ((acceptRegs_stands (stepOfCommand_reserved hnone) rfl s).congr rfl)

/-- Settles O54: within a command `COARSE` moves only with the test of the frame that R31 names, or of a UID. -/
theorem coarseFollowsStep : Obligations.CoarseFollowsStep := by
  intro s t hs hstep
  exact step_keeps (P := State.CoarseInv) (fun u _ => State.NoHost.coarseInv (.inl rfl))
    (fun c u _ _ => accept_coarseInv c u) (fun gs u _ _ _ _ => (enterCall_noHost gs _).coarseInv)
    (fun u hr hu => (event_move u).coarseInv hr hu) hstep hs

end Sys2Proof.Machine
end

section
/-! Proofs: no step of a running command looks at the command port (10_state.md R33, 70_reset_and_hazards.md R234), and
none looks at what is known of the chip (10_state.md R41). -/

namespace Sys2Proof.Machine

/-- The state with `p` on the command port and `r` as what is known of the chip. -/
def State.overlay (p : Option Presented) (r : Remote) (s : State) : State :=
  { s with port := p, remote := r }

section Overlay

variable (p : Option Presented) (r : Remote) (s : State)

@[simp] theorem overlay_cmd : (s.overlay p r).cmd = s.cmd := rfl
@[simp] theorem overlay_stepLbl : (s.overlay p r).stepLbl = s.stepLbl := rfl
@[simp] theorem overlay_tph : (s.overlay p r).tph = s.tph := rfl
@[simp] theorem overlay_sub : (s.overlay p r).sub = s.sub := rfl
@[simp] theorem overlay_call : (s.overlay p r).call = s.call := rfl
@[simp] theorem overlay_curStage : curStage (s.overlay p r) = curStage s := rfl

/-! ### Moving from stage to stage -/

@[simp] theorem enterStage_overlay (g : Stage) : enterStage g (s.overlay p r) = (enterStage g s).overlay p r := by
  cases g <;> rfl

@[simp] theorem enterStep_overlay (l : StepLabel) : enterStep l (s.overlay p r) = (enterStep l s).overlay p r :=
  enterStage_overlay p r { s with stepLbl := l } _

@[simp] theorem enterCall_overlay (gs : List Stage) : enterCall gs (s.overlay p r) = (enterCall gs s).overlay p r := by
  cases gs with
  | nil => rfl
  | cons g rest => exact enterStage_overlay p r { s with call := some (g :: rest) } g

@[simp] theorem advance_overlay : advance (s.overlay p r) = (advance s).overlay p r := by
  unfold advance
  simp only [overlay_cmd, overlay_stepLbl]
  split
  · exact enterStep_overlay p r s _
  · rfl

@[simp] theorem nextStage_overlay : nextStage (s.overlay p r) = (nextStage s).overlay p r := by
  unfold nextStage
  simp only [overlay_call]
  split
  · exact advance_overlay p r s
  · exact enterCall_overlay p r s _

@[simp] theorem failWith_overlay (d : DiagCode) : failWith d (s.overlay p r) = (failWith d s).overlay p r := by
  unfold failWith
  simp only [overlay_call]
  split <;> rfl

@[simp] theorem afterPost_overlay (q : PostRes) : afterPost q (s.overlay p r) = (afterPost q s).overlay p r := by
  cases q with
  | ok => exact nextStage_overlay p r s
  | fail d => exact failWith_overlay p r s d
  | again | finish st => rfl
  | okState v | stop =>
    simp only [afterPost, overlay_call]
    split
    · exact advance_overlay p r s
    · rfl

@[simp] theorem postState_overlay (q : Post) : postState q (s.overlay p r) = (postState q s).overlay p r := by
  cases q
  case countSelect | level2Done | sakDecide =>
    simp only [postState, apply_ite (State.overlay p r)]
    rfl
  all_goals rfl

@[simp] theorem postRes_overlay (q : Post) : postRes q (s.overlay p r) = postRes q s := by
  cases q <;> rfl

/-! ### Events -/

/-- `t'` is `t` with `p` on the port and some knowledge of the chip: with the same knowledge where `r` is that of
`s`. -/
def Overlaid (t' t : State) : Prop :=
  ∃ r', (r = s.remote → r' = t.remote) ∧ t' = t.overlay p r'

variable {p r s}

/-- What knows nothing new of the chip. -/
theorem Overlaid.same {t' t : State} (hr : t.remote = s.remote) (h : t' = t.overlay p r) : Overlaid p r s t' t :=
  ⟨r, fun h0 => h0.trans hr.symm, h⟩

theorem remote_of_overlay {f : State → State} (hf : ∀ p r s, f (s.overlay p r) = (f s).overlay p r) (s : State) :
    (f s).remote = s.remote := by
  have h := congrArg State.remote (hf s.port s.remote s)
  exact h

/-- What comes after an overlaid state and does not look at the overlay is overlaid. -/
theorem Overlaid.map {t' t : State} {f : State → State} (hf : ∀ p r s, f (s.overlay p r) = (f s).overlay p r)
    (h : Overlaid p r s t' t) : Overlaid p r s (f t') (f t) := by
  obtain ⟨r', hr', rfl⟩ := h
  exact ⟨r', fun h0 => (hr' h0).trans (remote_of_overlay hf t).symm, hf p r' t⟩

/-- A test that does not look at the overlay. -/
theorem Overlaid.ite {t' t u' u : State} {c : Prop} [Decidable c] (ht : Overlaid p r s t' t)
    (hu : Overlaid p r s u' u) : Overlaid p r s (if c then t' else u') (if c then t else u) := by
  by_cases h : c
  · rwa [if_pos h, if_pos h]
  · rwa [if_neg h, if_neg h]

variable (p r s)

theorem drivePin_overlaid (q : Pin) (l : Level) : Overlaid p r s (drivePin q l (s.overlay p r)) (drivePin q l s) := by
  cases q with
  | nss => exact .same rfl rfl
  | rst =>
    refine ⟨if l = s.cfg.pin.rstAssert then Remote.unknown else r, fun h0 => ?_, rfl⟩
    rw [h0]
    rfl

theorem xferDone_overlaid : Overlaid p r s (xferDone (s.overlay p r)) (xferDone s) := by
  have hd : Overlaid p r s (delivered (s.overlay p r)) (delivered s) :=
    ⟨r.receive s.cfg s.txbuf s.response, fun h0 => by rw [h0]; rfl, rfl⟩
  exact hd.map (f := fun u => afterPost (postRes (curStage (delivered s)).post (postState _ u)) (postState _ u))
    fun p r s => by simp

theorem xferFail_overlaid : Overlaid p r s (xferFail (s.overlay p r)) (xferFail s) := by
  have hf : Overlaid p r s
      { s.overlay p r with cand := s.tph, tph := .t0, sub := .start,
                           remote := if s.tph = .t1 then r else Remote.unknown }
      { s with cand := s.tph, tph := .t0, sub := .start,
               remote := if s.tph = .t1 then s.remote else Remote.unknown } :=
    ⟨if s.tph = .t1 then r else Remote.unknown, fun h0 => by rw [h0], rfl⟩
  exact hf.map (f := failWith _) fun p r s => failWith_overlay p r s _

theorem waitFailed_overlaid : Overlaid p r s (waitFailed (s.overlay p r)) (waitFailed s) := by
  unfold waitFailed
  exact .ite (.same rfl rfl) (xferFail_overlaid p r s)

theorem waitPassed_overlaid : Overlaid p r s (waitPassed (s.overlay p r)) (waitPassed s) := by
  unfold waitPassed
  simp only [overlay_tph]
  split
  case h_3 => exact .ite (xferDone_overlaid p r s) (.same rfl rfl)
  case h_5 => exact xferDone_overlaid p r s
  all_goals exact .same rfl rfl

theorem stageEvent_overlaid (g : Stage) : Overlaid p r s (stageEvent g (s.overlay p r)) (stageEvent g s) := by
  cases g with
  | nothing | xfer x q | poll x q ms => exact .same rfl rfl
  | pin q l => exact (drivePin_overlaid p r s q l).map (f := nextStage) nextStage_overlay
  | sleep ms => exact Overlaid.map (f := nextStage) nextStage_overlay (t := sleepFor ms s) (.same rfl rfl)

theorem startEvent_overlaid : Overlaid p r s (startEvent (s.overlay p r)) (startEvent s) := by
  unfold startEvent
  simp only [overlay_tph]
  split
  case h_1 => exact stageEvent_overlaid p r s _
  case h_10 => exact .ite (xferDone_overlaid p r s) (.same rfl rfl)
  case h_14 => exact xferDone_overlaid p r s
  all_goals exact .same rfl rfl

theorem sampleEvent_overlaid : Overlaid p r s (sampleEvent (s.overlay p r)) (sampleEvent s) := by
  unfold sampleEvent
  simp only [overlay_tph]
  split
  · exact .ite (waitPassed_overlaid p r (sampleBusy s)) (.same rfl rfl)
  · exact .same rfl rfl

theorem pollTimeEvent_overlaid (x : Xfer) (ms : Nat) :
    Overlaid p r s (pollTimeEvent x ms (s.overlay p r)) (pollTimeEvent x ms s) := by
  unfold pollTimeEvent
  refine .ite ?_ (.same rfl rfl)
  exact Overlaid.map (f := failWith _) (fun p r s => failWith_overlay p r s _) (t := readClock s) (.same rfl rfl)

theorem timeEvent_overlaid : Overlaid p r s (timeEvent (s.overlay p r)) (timeEvent s) := by
  unfold timeEvent
  simp only [overlay_tph, overlay_curStage]
  split
  · exact .ite (waitFailed_overlaid p r (readClock s)) (.same rfl rfl)
  · split
    · exact pollTimeEvent_overlaid p r s _ _
    · exact .same rfl rfl

/-- One event looks neither at the port nor at what is known of the chip. -/
theorem event_overlaid : Overlaid p r s (event (s.overlay p r)) (event s) := by
  unfold event
  simp only [overlay_sub]
  split
  · exact startEvent_overlaid p r s
  · exact sampleEvent_overlaid p r s
  · exact timeEvent_overlaid p r s
  · exact xferFail_overlaid p r (driveNss s.cfg.pin.nssInactive s)
  · exact .same rfl rfl
  · exact .same rfl rfl

/-! ### Steps -/

theorem drive_overlaid (k : Nat) : Overlaid p r s (drive k (s.overlay p r)) (drive k s) := by
  induction k generalizing r s with
  | zero => exact .same rfl rfl
  | succ k ih =>
    unfold drive
    refine .ite ?_ (.same rfl rfl)
    obtain ⟨r', hr', he⟩ := event_overlaid p r s
    obtain ⟨r'', hr'', hd⟩ := ih r' (event s)
    exact ⟨r'', hr'' ∘ hr', he ▸ hd⟩

theorem runOn_overlaid : Overlaid p r s (runOn (s.overlay p r)) (runOn s) := by
  rw [runOn_eq_drive, runOn_eq_drive]
  exact drive_overlaid p r s _

variable {p r s}

theorem Overlaid.runOn {t' t : State} (h : Overlaid p r s t' t) : Overlaid p r s (runOn t') (runOn t) := by
  obtain ⟨r', hr', rfl⟩ := h
  obtain ⟨r'', hr'', hrun⟩ := runOn_overlaid p r' t
  exact ⟨r'', hr'' ∘ hr', hrun⟩

variable (p r s)

theorem hwReset_overlaid : Overlaid p r s (hwReset (s.overlay p r)) (hwReset s) :=
  ⟨if s.ready then r else Remote.unknown, fun h0 => by rw [h0]; rfl, rfl⟩

end Overlay

/-- With the chip's record as it was, only the port differs. -/
theorem Overlaid.withPort {p : Option Presented} {s t' t : State} (h : Overlaid p s.remote s t' t) :
    t' = { t with port := p } := by
  obtain ⟨r', hr', rfl⟩ := h
  rw [hr' rfl]
  rfl

/-- Settles O5: `exec` of a busy engine is nothing, and the events of the running command do not look at the port. -/
theorem busyEngineAcceptsNothing : Obligations.BusyEngineAcceptsNothing := by
  refine fun s hb => ⟨fun i => ?_, fun p t h => ?_⟩
  · obtain ⟨t, ht, hcases⟩ := exec_next i s
    rcases hcases with ⟨-, rfl⟩ | ⟨hr, -⟩ | ⟨hr, -⟩
    · exact ht
    · simp [hb] at hr
    · simp [hb] at hr
  · rw [step_of_busy hb] at h
    rw [step_of_busy (s := { s with port := p }) hb]
    split at h
    · next hreset =>
      cases h
      exact (if_pos hreset).trans (congrArg _ (hwReset_overlaid p s.remote s).withPort)
    · next hreset =>
      split at h
      · cases h
      · next hother =>
        cases h
        refine ((if_neg hreset).trans (if_neg hother)).trans (congrArg _ ?_)
        exact (event_overlaid p s.remote s).runOn.withPort

/-! ### What is known of the chip (10_state.md R41) -/

/-- Two outcomes that differ only in what is known of the chip. -/
inductive Alike : Result → Result → Prop
  | next (t : State) (r : Remote) : Alike (.next t) (.next { t with remote := r })
  | refused (x : Refusal) : Alike (.refused x) (.refused x)

theorem Alike.of_next {t : State} {b : Result} (h : Alike (.next t) b) : ∃ r, b = .next { t with remote := r } := by
  cases h with
  | next t r => exact ⟨r, rfl⟩

theorem Alike.of_refused {x : Refusal} {b : Result} (h : Alike (.refused x) b) : b = .refused x := by
  cases h with
  | refused x => rfl

theorem Alike.ite {a b a' b' : Result} {c : Prop} [Decidable c] (h : Alike a a') (k : Alike b b') :
    Alike (if c then a else b) (if c then a' else b') := by
  by_cases hc : c
  · rwa [if_pos hc, if_pos hc]
  · rwa [if_neg hc, if_neg hc]

theorem Overlaid.alike {p : Option Presented} {r : Remote} {s t' t : State} (h : Overlaid p r s t' t)
    (hp : t.port = p) : Alike (.next t) (.next t') := by
  obtain ⟨r', -, rfl⟩ := h
  subst hp
  exact .next t r'

theorem accept_overlaid (r : Remote) (s : State) (c : BitVec 3) :
    Overlaid none r s (accept c { s with remote := r }) (accept c s) := by
  have hregs : Overlaid none r s (acceptRegs c { s with remote := r }) (acceptRegs c s) := .same rfl rfl
  unfold accept
  split
  · exact hregs.map (f := enterStep _) fun p r u => enterStep_overlay p r u _
  · exact hregs.map (f := raise .dgIllegalCmd) fun _ _ _ => rfl

theorem launch_overlaid (r : Remote) (s : State) (gs : List Stage) :
    Overlaid none r s (launch gs { s with remote := r }) (launch gs s) := by
  have hregs : Overlaid none r s
      { s with ready := false, stepLbl := .noStep, tph := .t0, sub := .start, cand := .t0, result := .none,
               port := none, remote := r }
      { s with ready := false, stepLbl := .noStep, tph := .t0, sub := .start, cand := .t0, result := .none,
               port := none } := .same rfl rfl
  exact hregs.map (f := enterCall gs) fun p r u => enterCall_overlay p r u gs

theorem runOn_accept_port (s : State) (c : BitVec 3) : (runOn (accept c s)).port = none :=
  ((accept_usesUp c s).trans (runOn_usesUp _)).port

theorem runOn_launch_port (s : State) (gs : List Stage) : (runOn (launch gs s)).port = none :=
  ((launch_usesUp gs s).trans (runOn_usesUp _)).port

theorem hostCommand_eq (c : BitVec 3) (s : State) :
    hostCommand c s = if s.ready then .next (runOn (accept c s)) else .next s :=
  apply_ite ..

theorem operation_eq (gs : List Stage) (s : State) :
    operation gs s = if s.ready then .next (runOn (launch gs s)) else .next s :=
  apply_ite ..

theorem exec_alike (r : Remote) (s : State) (i : Instr) : Alike (exec i s) (exec i { s with remote := r }) := by
  rcases exec_kind i s with ⟨c, -, h⟩ | ⟨gs, -, h0, h⟩
  · rw [h r, show exec i s = hostCommand c s from h s.remote, hostCommand_eq, hostCommand_eq]
    exact .ite ((accept_overlaid r s c).runOn.alike (runOn_accept_port s c)) (.next s r)
  · rw [h r, h0, operation_eq, operation_eq]
    exact .ite ((launch_overlaid r s gs).runOn.alike (runOn_launch_port s gs)) (.next s r)

theorem runPort_alike (r : Remote) (s : State) (q : Presented) :
    Alike (runPort q s) (runPort q { s with remote := r }) := by
  unfold runPort
  cases decode s.cfg q with
  | ok i => exact exec_alike r s i
  | error e => exact .refused _

theorem step_alike (r : Remote) (s : State) : Alike (step s) (step { s with remote := r }) := by
  have hreset : Alike (.next (hwReset s)) (.next (hwReset { s with remote := r })) :=
    (hwReset_overlaid s.port r s).alike rfl
  by_cases hb : s.ready = false
  · have hport : (runOn (event s)).port = s.port := ((event_move s).usesUp.trans (runOn_usesUp _)).port
    have hrun : Alike (.next (runOn (event s))) (.next (runOn (event { s with remote := r }))) :=
      (event_overlaid s.port r s).runOn.alike hport
    rw [step_of_busy hb, step_of_busy (s := { s with remote := r }) hb]
    exact .ite hreset (.ite (.refused _) hrun)
  · have hr : s.ready = true := by simpa using hb
    rcases Option.eq_none_or_eq_some s.port with hp | ⟨q, hp⟩
    · rw [step_of_nothing hr hp, step_of_nothing (s := { s with remote := r }) hr hp]
      exact .ite hreset (.next s r)
    · rw [step_of_presented hr hp, step_of_presented (s := { s with remote := r }) hr hp]
      exact .ite hreset (.ite (.refused _) (runPort_alike r s q))

/-- Settles O60: no event looks at what is known of the chip, and neither does the start of an instruction. -/
theorem chipKnowledgeIsNeverRead : Obligations.ChipKnowledgeIsNeverRead := by
  intro s r
  have h := step_alike r s
  refine ⟨fun t ht => ?_, fun x hx => ?_⟩
  · rw [ht] at h
    exact h.of_next
  · rw [hx] at h
    exact h.of_refused

end Sys2Proof.Machine
end

section
/-! Proofs: reset, Accept and Done (10_state.md R33, R34, R42). -/

namespace Sys2Proof.Machine

/-! ### Reset -/

/-- Settles O1: each value is written in `State.reset`, and no code is presented there. -/
theorem resetState : Obligations.ResetState :=
  ⟨⟨rfl, rfl, rfl, rfl, rfl, rfl⟩, ⟨rfl, rfl, rfl, ⟨rfl, rfl, rfl, rfl, rfl, rfl, rfl⟩, rfl⟩, ⟨rfl, rfl⟩, rfl,
    step_of_nothing rfl rfl⟩

theorem reset_posInv : State.reset.PosInv where
  sample h := by cases h
  time h := by cases h
  release h := by cases h
  inner := ⟨by decide, by decide⟩
  action h := by cases h
  running gs h := by cases h
  noCand h := by cases h
  width := ⟨Nat.two_pow_pos _, Nat.two_pow_pos _⟩

theorem reset_frameInv : State.reset.FrameInv where
  inHand h := by rcases h with h | h | h <;> cases h
  toCome gs h := by cases h

/-- Settles O51: after reset no command runs and no exchange is open, so what the invariants ask of a running command
asks nothing. -/
theorem resetMeetsInvariants : Obligations.ResetMeetsInvariants :=
  ⟨hwReset_pinInv State.reset, reset_posInv, State.NoHost.coarseInv (.inl rfl), hwReset_resultInv State.reset,
    reset_frameInv, reset_remote_wf⟩

/-! ### The start of a command -/

/-- Settles O3: with `READY = 1` a step runs what stands on the port. -/
theorem stepRunsPresentedInstruction : Obligations.StepRunsPresentedInstruction := by
  intro s q i hreset hr hother hp hdecode
  rw [step_of_presented hr hp, if_neg (by simp [hreset]), if_neg (by simp [hother]), runPort, hdecode]

/-- Accept is `acceptRegs` and the entry into the first step, or the raise of a reserved code. -/
theorem accept_eq (c : BitVec 3) (s : State) :
    ∃ t sub tx n, accept c s =
      { acceptRegs c s with
        stepLbl := (firstStep c).getD .noStep, tph := t, sub := sub, txbuf := tx, rlen := n,
        diagCode := if (firstStep c).isSome then .dgNone else .dgIllegalCmd } := by
  unfold accept
  split
  · next l hl =>
    obtain ⟨t, tx, n, he⟩ := enterStep_eq l (acceptRegs c s)
    exact ⟨t, .start, tx, n, by rw [he, hl]; rfl⟩
  · next hl => exact ⟨_, _, _, _, by rw [hl]; rfl⟩

/-- Only the two reserved codes have no first step (30_encoding.md R72). -/
theorem diagCode_of_firstStep (c : BitVec 3) :
    (if (firstStep c).isSome then DiagCode.dgNone else .dgIllegalCmd) =
      if c = 6 ∨ c = 7 then .dgIllegalCmd else .dgNone := by
  revert c
  decide

/-- Settles O13: Accept writes the registers of `acceptRegs` and enters the first step, or raises. -/
theorem acceptClearsResults : Obligations.AcceptClearsResults := by
  refine ⟨fun c s => ?_, fun c s hb => ?_⟩
  · obtain ⟨t, sub, tx, n, he⟩ := accept_eq c s
    rw [he]
    exact ⟨⟨rfl, rfl, rfl, diagCode_of_firstStep c, rfl, rfl⟩, ⟨rfl, rfl, rfl, rfl, rfl, rfl, rfl⟩,
      by simp [acceptRegs, resetsCoarse_eq], ⟨rfl, rfl⟩, rfl, rfl, rfl, rfl, rfl, rfl, rfl⟩
  · rw [exec_decodeHost, hostCommand_eq, if_neg (by simp [hb])]

/-! ### Done -/

/-- Settles O14: `Done` writes none of the other results, and with nothing presented the engine waits. -/
theorem donePostsResults : Obligations.DonePostsResults := by
  refine ⟨fun st s => ⟨⟨rfl, rfl, rfl, rfl, rfl⟩, rfl, rfl, rfl, rfl, rfl, rfl, rfl⟩, fun s hr hreset hp => ?_⟩
  rw [step_of_nothing hr hp, if_neg (by simp [hreset])]

end Sys2Proof.Machine
end

section
/-! Proofs: byte order and the register fields (20_memory.md R52), what each frame tells of the chip (20_memory.md R51),
and the canonical form of that record over a step. -/

namespace Sys2Proof

/-! ### The frames are read back (30_encoding.md R75 to R82) -/

theorem opcodes_nodup {c : Cfg} (h : c.wf = true) : c.opcodes.Nodup := by
  simp only [Cfg.wf, Bool.and_eq_true, decide_eq_true_eq] at h
  obtain ⟨⟨⟨⟨hop, -⟩, -⟩, -⟩, -⟩ := h
  exact hop

/-- The operand ranges of R125 are what the reader of SEND_DATA tests. -/
theorem decodeSendData_of_wf {vb : Byte} {d : List Byte} (h : Instr.wf (.sendData vb d) = true) :
    decodeSendData (vb :: d) 0 = .ok (.sendData vb d) := by
  simp only [Instr.wf, Bool.and_eq_true, decide_eq_true_eq] at h
  obtain ⟨hvb, hmin, hmax⟩ := h
  simp only [decodeSendData]
  rw [if_neg (by simp), if_neg (by omega), if_neg (by omega)]

/-- A frame is read by the reader of its own opcode, because the nine opcodes differ. Of the operand ranges only those of
R125 are tested: a response length 0 is read as well. -/
theorem decodeFrame_of_encode {c : Cfg} {i : Instr} {tx : List Byte} {n : Nat} (h : c.wf = true)
    (hd : ∀ vb d, i = .sendData vb d → i.wf = true) (he : encode c i = .op .frame tx n) :
    decodeFrame c tx n = .ok i := by
  have hop := (opcodes_nodup h).imp Ne.symm
  simp only [Cfg.opcodes, List.pairwise_cons, List.forall_mem_cons] at hop
  cases i <;> cases he
  case writeRegister a v => simp [decodeFrame, xWriteRegister, decodeRegWrite_le32]
  case writeRegisterOrMask a m => simp [decodeFrame, xWriteRegisterOrMask, hop, decodeRegWrite_le32]
  case writeRegisterAndMask a m => simp [decodeFrame, xWriteRegisterAndMask, hop, decodeRegWrite_le32]
  case readRegister a => simp [decodeFrame, xReadRegister, hop, decodeReadRegister]
  case readEeprom a n => simp [decodeFrame, xReadEeprom, hop, decodeReadEeprom]
  case sendData vb d => simp [decodeFrame, xSendData, hop, decodeSendData_of_wf (hd vb d rfl)]
  case readData n =>
    have hn : n.toNat ≤ 255 := Nat.le_of_lt_succ n.isLt
    simp [decodeFrame, xReadData, hop, decodeReadData, hn]
  case loadRfConfig t r => simp [decodeFrame, xLoadRfConfig, hop, decodeLoadRfConfig]
  case rfOn => simp [decodeFrame, xRfOn, hop, decodeRfOn]

end Sys2Proof

namespace Sys2Proof.Machine

/-! ### What a completed frame tells (20_memory.md R51) -/

/-- What a frame tells, by the instruction that it decodes to. -/
def Remote.learn (c : Cfg) (rx : List Byte) (r : Remote) : Instr → Remote
  | .writeRegister a v => r.writeReg c a v
  | .writeRegisterOrMask a m => r.setReg a ((r.regAt a).or m)
  | .writeRegisterAndMask a m => r.andReg c a m
  | .readRegister a => r.setReg a (Known.write (fromLe32 rx))
  | .readEeprom a _ => { r with ee := learnEe r.ee a.toNat rx }
  | .sendData vb d => { r with sent := some (vb, d) }
  | .readData _ => { r with received := rx }
  | .loadRfConfig t x => { r with rfConf := some (t, x) }
  | .rfOn => { r with rfOn := true }
  | _ => r

/-- A completed frame tells what its instruction says, when the response has the frame's length. -/
theorem receive_of_encode {c : Cfg} (i : Instr) {tx rx : List Byte} {n : Nat} (h : c.wf = true)
    (hd : ∀ vb d, i = .sendData vb d → i.wf = true) (he : encode c i = .op .frame tx n) (hn : rx.length = n)
    (r : Remote) : r.receive c tx rx = r.learn c rx i := by
  subst hn
  unfold Remote.receive
  rw [decodeFrame_of_encode h hd he]
  cases i <;> rfl

/-- Settles O29: each frame decodes to its own instruction, and the instruction says what is learnt. -/
theorem frameEffectsOnChip : Obligations.FrameEffectsOnChip := by
  intro c r h
  have hwrite : ∀ a v, r.receive c (xWriteRegister c a v).tx [] = r.writeReg c a v :=
    fun a v => receive_of_encode (.writeRegister a v) h nofun rfl rfl r
  refine ⟨fun a v hclear hstatus => ?_, fun v hne => ?_, fun m => ?_, ?_⟩
  · rw [hwrite, Remote.writeReg, if_neg hclear, if_neg hstatus]
  · rw [hwrite, Remote.writeReg, if_neg hne, if_pos rfl]
  · exact (hwrite _ m).trans (if_pos rfl)
  · exact ⟨fun a m => receive_of_encode (.writeRegisterOrMask a m) h nofun rfl rfl r,
      fun a m => receive_of_encode (.writeRegisterAndMask a m) h nofun rfl rfl r,
      fun a rx hrx => receive_of_encode (.readRegister a) h nofun rfl hrx r,
      fun a n rx hrx => receive_of_encode (.readEeprom a n) h nofun rfl hrx r,
      fun vb d hd => receive_of_encode (.sendData vb d) h (fun _ _ _ => hd) rfl rfl r,
      fun n rx hrx => receive_of_encode (.readData n) h nofun rfl hrx r,
      fun t x => receive_of_encode (.loadRfConfig t x) h nofun rfl rfl r,
      receive_of_encode .rfOn h nofun rfl rfl r⟩

/-! ### The record over a step (log entry 9) -/

theorem nextStage_remote (s : State) : (nextStage s).remote = s.remote :=
  remote_of_overlay nextStage_overlay s

theorem failWith_remote (d : DiagCode) (s : State) : (failWith d s).remote = s.remote :=
  remote_of_overlay (fun p r s => failWith_overlay p r s d) s

/-- What follows an exchange does not look at the record: `xferDone` only receives the frame. -/
theorem xferDone_remote (s : State) : (xferDone s).remote = s.remote.receive s.cfg s.txbuf s.response :=
  remote_of_overlay (f := fun u => afterPost (postRes (curStage (delivered s)).post (postState _ u)) (postState _ u))
    (fun p r u => by simp) (delivered s)

theorem xferFail_remote (s : State) : (xferFail s).remote = if s.tph = .t1 then s.remote else Remote.unknown :=
  failWith_remote _ _

theorem drivePin_remote (p : Pin) (l : Level) (s : State) :
    (drivePin p l s).remote = s.remote ∨ (drivePin p l s).remote = Remote.unknown := by
  cases p with
  | nss => exact .inl rfl
  | rst => exact (ite_eq_or_eq _ _ _).symm

/-- An event leaves the record, ends all knowledge, or receives the frame that the exchange has sent. -/
theorem Move.remote_cases {s t : State} (m : Move s t) :
    t.remote = s.remote ∨ t.remote = Remote.unknown ∨ ∃ rx, t.remote = s.remote.receive s.cfg s.txbuf rx := by
  cases m with
  | log | done | nothing | xfer | poll | repeated => exact .inl rfl
  | pin p l => rw [nextStage_remote]; exact (drivePin_remote p l s).imp_right .inl
  | sleep ms => exact .inl (nextStage_remote _)
  | expired => exact .inl (failWith_remote _ _)
  | line t _ hin => exact .inl (hin.field State.remote fun _ => rfl)
  | passed u _ hu => rcases hu with rfl | rfl <;> exact .inr (.inr ⟨_, xferDone_remote _⟩)
  | failed u _ hu =>
    rw [xferFail_remote]
    rcases hu with ⟨rfl, -⟩ | rfl <;> exact (ite_eq_or_eq _ _ _).imp_right .inl

theorem Move.remote_wf {s t : State} (m : Move s t) (h : s.remote.wf = true) : t.remote.wf = true := by
  rcases m.remote_cases with ht | ht | ⟨rx, ht⟩ <;> rw [ht]
  · exact h
  · exact Remote.unknown_wf
  · exact Remote.receive_wf h s.cfg s.txbuf rx

theorem hwReset_remote_wf {s : State} (h : s.remote.wf = true) : (hwReset s).remote.wf = true := by
  show (if s.ready then s.remote else Remote.unknown).wf = true
  split
  · exact h
  · exact Remote.unknown_wf

theorem accept_remote (c : BitVec 3) (s : State) : (accept c s).remote = s.remote := by
  obtain ⟨t, sub, tx, n, he⟩ := accept_eq c s
  rw [he]
  rfl

theorem launch_remote (gs : List Stage) (s : State) : (launch gs s).remote = s.remote :=
  remote_of_overlay (fun p r s => enterCall_overlay p r s gs) _

/-- Settles O58: an event keeps the canonical form because each frame does, and no start of an instruction writes the
record. -/
theorem remoteFormKept : Obligations.RemoteFormKept := by
  intro s t h hstep
  refine step_keeps (P := fun s => s.remote.wf = true) ?_ ?_ ?_ ?_ hstep h
  · exact fun _ => hwReset_remote_wf
  · exact fun c s _ hs => (accept_remote c s).symm ▸ hs
  · exact fun gs s _ _ _ hs => (launch_remote gs s).symm ▸ hs
  · exact fun s _ => (event_move s).remote_wf

/-! ### Fields of a register (20_memory.md R52, 41_primitives.md R129, R131, R132) -/

/-- A field as a bit vector of its own width is a slice of the register. -/
theorem ofNat_field (v : Word) (hi lo : Nat) :
    BitVec.ofNat (hi - lo + 1) (field v hi lo) = v.extractLsb' lo (hi - lo + 1) := by
  apply BitVec.eq_of_toNat_eq
  simp [field, Nat.shiftRight_eq_div_pow]

/-- Settles O10: a field is a slice of the register, and each bit of `from_le32` is a bit of one of its bytes. -/
theorem littleEndianFields : Obligations.LittleEndianFields := by
  refine ⟨word32_le32, fun b0 b1 b2 b3 => ⟨le32_word32 b0 b1 b2 b3, ?_, ?_, ?_, ?_⟩⟩
  · refine (ofNat_field _ 26 24).trans ?_
    ext j hj
    interval_cases j <;> simp [fromLe32, byteAt, word32]
  · refine (ofNat_field _ 8 0).trans ?_
    ext j hj
    interval_cases j <;> simp [fromLe32, byteAt, word32]
  all_goals simp [testBit, specCfg, fromLe32, byteAt, word32]

end Sys2Proof.Machine
end

section
/-! Proofs: the decoder reads every well-formed instruction back from its encoding, and the host's codes and results
(30_encoding.md R71 to R73, R76 to R82, R84, R89). -/

namespace Sys2Proof

/-! ### Decode of encode -/

theorem specCfg_wf : specCfg.wf = true := by decide

/-- A WRITE_REGISTER frame of `REG_IRQ_CLEAR` is none of the other pseudo-operations' frames: those have other opcodes. -/
theorem decodePseudo_clearIrqStatus (m : Word) :
    decodePseudo specCfg (xClearIrqStatus specCfg m) = .ok (.clearIrqStatus m) := by
  have hne (x : Xfer) (h : x.tx.head? ≠ some specCfg.op.writeRegister) : xClearIrqStatus specCfg m ≠ x := by
    rintro rfl
    exact h rfl
  rw [decodePseudo]
  iterate 8 rw [if_neg (hne _ (by decide))]
  simp [decodeClearIrq, xClearIrqStatus, xWriteRegister, le32, word32_le32]

/-- A frame's code is read as the frame that it encodes. -/
theorem decode_encode_of_frame {c : Cfg} {i : Instr} {tx : List Byte} {n : Nat} (h : c.wf = true)
    (hd : ∀ vb d, i = .sendData vb d → i.wf = true) (he : encode c i = .op .frame tx n) :
    decode c (encode c i) = .ok i := by
  rw [he]
  exact decodeFrame_of_encode h hd he

/-- Settles O8, layer by layer: a host code and a frame or payload with fixed operands are read by evaluation, a frame with
operands by the reader of its own opcode. -/
theorem decodeEncodeAgree : Obligations.DecodeEncodeAgree := by
  intro i hi
  cases i
  case writeRegister | writeRegisterOrMask | writeRegisterAndMask | readRegister | readEeprom | readData | loadRfConfig |
      rfOn =>
    exact decode_encode_of_frame specCfg_wf nofun rfl
  case sendData vb d => exact decode_encode_of_frame specCfg_wf (fun _ _ _ => hi) rfl
  case clearIrqStatus m => exact decodePseudo_clearIrqStatus m
  all_goals rfl

/-- Settles O7: all but the last of the words are encodings, and 0x03 is the opcode of no frame. -/
theorem writtenWordsDecode : Obligations.WrittenWordsDecode :=
  ⟨decodeEncodeAgree .readCardSerial rfl, decodeEncodeAgree .reserved110 rfl,
    decodeEncodeAgree (.writeRegister 0x03 0x000FFFFF) rfl, decodeEncodeAgree (.writeRegisterOrMask 0x00 0x00000003) rfl,
    decodeEncodeAgree (.writeRegisterAndMask 0x00 0xFFFFFFF8) rfl, decodeEncodeAgree (.readRegister 0x1D) rfl,
    decodeEncodeAgree (.readEeprom 0x12 0x02) rfl, decodeEncodeAgree (.sendData 4 [0x93, 0x20]) rfl,
    decodeEncodeAgree (.readData 5) rfl, decodeEncodeAgree (.loadRfConfig 0x00 0x80) rfl, decodeEncodeAgree .rfOn rfl,
    decodeEncodeAgree (.selectL1 1 2 3 4 6) rfl, decodeEncodeAgree .crcOff rfl, rfl⟩

/-! ### The host's codes (R71, R72) -/

theorem encode_decodeHost (c : Cfg) (code : BitVec 3) : encode c (decodeHost code) = .host code := by
  have hall : ∀ b : BitVec 3, b = 0 ∨ b = 1 ∨ b = 2 ∨ b = 3 ∨ b = 4 ∨ b = 5 ∨ b = 6 ∨ b = 7 := by decide
  rcases hall code with rfl | rfl | rfl | rfl | rfl | rfl | rfl | rfl <;> rfl

theorem decodeHost_wf : ∀ code : BitVec 3, (decodeHost code).wf = true := by decide

/-- Settles O9: the reading of a code does not look at the configuration. -/
theorem hostCodesAreTotal : Obligations.HostCodesAreTotal :=
  fun c code => ⟨decodeHost code, rfl, decodeHost_wf code, encode_decodeHost c code⟩

end Sys2Proof

namespace Sys2Proof.Machine

/-! ### The host's results (R73) -/

/-- The bytes above the lowest one. -/
theorem extractLsb'_append_byte {v : Nat} {hi : BitVec v} {lo : Byte} (k : Nat) :
    (hi ++ lo).extractLsb' (k + 8) 8 = hi.extractLsb' k 8 := by
  rw [BitVec.extractLsb'_append_eq_of_le (Nat.le_add_left 8 k), Nat.add_sub_cancel]

/-- The seven bytes of the packed UID, lowest first: each is the lowest one when those below it are taken away. -/
theorem extractLsb'_packed (u : Uid) :
    u.packed.extractLsb' 0 8 = u.u0 ∧ u.packed.extractLsb' 8 8 = u.u1 ∧ u.packed.extractLsb' 16 8 = u.u2 ∧
      u.packed.extractLsb' 24 8 = u.u3 ∧ u.packed.extractLsb' 32 8 = u.u4 ∧ u.packed.extractLsb' 40 8 = u.u5 ∧
      u.packed.extractLsb' 48 8 = u.u6 := by
  have low {v : Nat} {hi : BitVec v} {lo : Byte} : (hi ++ lo).extractLsb' 0 8 = lo := BitVec.extractLsb'_append_eq_right
  have up {v : Nat} {hi : BitVec v} {lo : Byte} (k : Nat) := extractLsb'_append_byte (hi := hi) (lo := lo) k
  exact ⟨low, (up 0).trans low, (up 8).trans <| (up 0).trans low, (up 16).trans <| (up 8).trans <| (up 0).trans low,
    (up 24).trans <| (up 16).trans <| (up 8).trans <| (up 0).trans low,
    (up 32).trans <| (up 24).trans <| (up 16).trans <| (up 8).trans <| (up 0).trans low,
    (up 40).trans <| (up 32).trans <| (up 24).trans <| (up 16).trans <| (up 8).trans <| (up 0).trans
      BitVec.extractLsb'_eq_self⟩

/-- Settles O11: with `READY = 1` the view is the registers, byte under byte; the numbers are the tables' own. -/
theorem resultFormat : Obligations.ResultFormat := by
  refine ⟨fun s hr => ?_, rfl, rfl, rfl, rfl, rfl, rfl, rfl, rfl, rfl, rfl, rfl⟩
  rw [HostReads, hostView_of_ready s hr]
  exact ⟨⟨rfl, rfl, rfl, rfl, rfl, rfl⟩, extractLsb'_packed s.uidOut, BitVec.extractLsb'_append_eq_right,
    BitVec.extractLsb'_append_eq_left⟩

end Sys2Proof.Machine
end

section
/-! Proofs: the reserved host codes (30_encoding.md R72), and the pseudo-operations that write a register (R89). -/

namespace Sys2Proof.Machine

/-! ### The reserved codes (R72) -/

/-- A reserved code has no first step: Accept raises at once. -/
theorem accept_reserved {c : BitVec 3} (hc : c = 6 ∨ c = 7) (s : State) :
    accept c s = raise .dgIllegalCmd (acceptRegs c s) := by
  rcases hc with rfl | rfl <;> rfl

/-- After a raise of a running command two events follow, the `Log` record and `Done`, which need no answer of ENV. -/
theorem reaches_raise {s : State} (d : DiagCode) (hb : s.ready = false) :
    Reaches 2 (raise d s) (events 2 (raise d s)) := by
  have hlog : answered (raise d s) = true := by simp [answered, needsTime, needsLevel, needsBytes]
  have hfin : answered (logAbort (raise d s)) = true := by simp [answered, needsTime, needsLevel, needsBytes]
  exact (Reaches.event (by exact hb) hlog).trans (Reaches.event (by exact hb) hfin)

/-- Settles O17: Accept raises IllegalCommand, and no event after a raise looks at ENV. -/
theorem reservedCodesComplete : Obligations.ReservedCodesComplete := by
  intro s hr i c hi
  have hc : c = 6 ∨ c = 7 := hi.imp And.right And.right
  have hexec : exec i s = hostCommand c s := by rcases hi with ⟨rfl, rfl⟩ | ⟨rfl, rfl⟩ <;> rfl
  have hstatus : abortStatus c = .stIllegalCmd := by rcases hc with rfl | rfl <;> rfl
  have hreach := reaches_raise (s := acceptRegs c s) .dgIllegalCmd rfl
  rw [← accept_reserved hc] at hreach
  refine ⟨_, rfl, ?_, ?_⟩
  · rw [hexec]
    cases ha : s.runAhead with
    | false => rw [hostCommand_eq, if_pos hr, runOn_of_single ((accept_runAhead c s).trans ha)]; rfl
    | true => exact hostCommand_runs hr ha hreach (by rw [accept_reserved hc]; rfl)
  · rw [accept_reserved hc]
    exact ⟨⟨rfl, hstatus, rfl, rfl, rfl, rfl, rfl, rfl, rfl⟩, ⟨rfl, rfl, rfl, rfl, rfl, rfl, rfl⟩,
      by rw [← hstatus]; rfl, rfl, rfl, rfl, rfl, rfl, rfl, rfl, rfl, rfl, rfl, rfl, rfl⟩

/-! ### Operations with no test of their own (41_primitives.md R120 to R122, R124 to R128) -/

/-- An operation that runs to its return with the registers of card resolution as they were. -/
theorem runsPlain_of_reaches {i : Instr} {s t : State} {ls : List Line} {gs : List Stage} {k : Nat}
    (hr : s.ready = true) (ha : s.runAhead = true) (he : exec i s = operation gs s)
    (h : Reaches k (launch gs s) t) (hret : Returned s t ls .ok) (hwork : t.work = s.work) : RunsPlain i s ls := by
  obtain ⟨hready, -⟩ := hret.1
  simp only [State.work, Prod.mk.injEq] at hwork
  obtain ⟨hcb, hsak, hcnt, hrval, hcoarse⟩ := hwork
  exact ⟨t, he.trans (operation_runs hr ha h hready), hret, ⟨hcb, hsak, hcnt, hrval⟩, hcoarse⟩

/-- One exchange with no test of its own. -/
theorem runsPlain_xfer {i : Instr} {s : State} {x : Xfer} {rx : List Byte} (hr : s.ready = true)
    (he : exec i s = operation [.xfer x .plain] s) (h : Answers s [.xfer x rx] 0) : RunsPlain i s [.xfer x rx] := by
  obtain ⟨ha, u, hp⟩ := h
  obtain ⟨k, t, hreach, hret, hwork⟩ :=
    (launch_op (p := .plain) (gs := []) hp).ends rfl hp (.inl ⟨rfl, rfl, rfl⟩) fun e he => ⟨rfl, he.1⟩
  exact runsPlain_of_reaches hr ha he hreach hret hwork

/-- Two exchanges with no test of their own. -/
theorem runsPlain_xfer_xfer {i : Instr} {s : State} {x y : Xfer} {rx ry : List Byte} (hr : s.ready = true)
    (he : exec i s = operation [.xfer x .plain, .xfer y .plain] s) (h : Answers s [.xfer x rx, .xfer y ry] 0) :
    RunsPlain i s [.xfer x rx, .xfer y ry] := by
  obtain ⟨ha, u, hp⟩ := h
  obtain ⟨k, v, hfirst, hop, hwork⟩ :=
    (launch_op (p := .plain) hp).pass rfl (.inl ⟨y, .plain, rfl⟩) fun e he => ⟨rfl, he.1⟩
  obtain ⟨k', t, hsecond, hret, hwork'⟩ := hop.ends rfl hp (.inl ⟨rfl, rfl, rfl⟩) fun e he => ⟨rfl, he.1⟩
  exact runsPlain_of_reaches hr ha he (hfirst.trans hsecond) hret (hwork'.trans hwork)

/-- Settles O26: the first four are one register-write exchange, CRC_OFF and CRC_ON are two, none with a test. -/
theorem maskPseudoOperationsComplete : Obligations.MaskPseudoOperationsComplete :=
  fun _ hr => ⟨fun _ => runsPlain_xfer hr rfl, runsPlain_xfer hr rfl, runsPlain_xfer hr rfl, runsPlain_xfer hr rfl,
    runsPlain_xfer_xfer hr rfl, runsPlain_xfer_xfer hr rfl⟩

end Sys2Proof.Machine
end

section
/-! Proofs: the engine writes only frames that begin with one of the nine opcodes (30_encoding.md R76, R87): every frame
it can put together is one, and nothing else comes into `TXBUF`. -/

namespace Sys2Proof.Machine

/-! ### The frames that the engine puts together -/

/-- The code of a frame begins with the frame's opcode, one of the nine. -/
theorem listed_of_encode {c : Cfg} {tx : List Byte} {n : Nat} (i : Instr) (h : encode c i = .op .frame tx n) :
    listedFrame c tx = true := by
  have hcons (b : Byte) (bs : List Byte) (hb : b ∈ c.opcodes) : listedFrame c (b :: bs) = true :=
    List.contains_iff_mem.mpr hb
  cases i <;> cases h <;> exact hcons _ _ (by simp [Cfg.opcodes])

section Listed

variable (c : Cfg)

@[simp] theorem listed_xWriteRegister (a : Byte) (v : Word) : listedFrame c (xWriteRegister c a v).tx = true :=
  listed_of_encode (.writeRegister a v) rfl

@[simp] theorem listed_xWriteRegisterOrMask (a : Byte) (m : Word) :
    listedFrame c (xWriteRegisterOrMask c a m).tx = true :=
  listed_of_encode (.writeRegisterOrMask a m) rfl

@[simp] theorem listed_xWriteRegisterAndMask (a : Byte) (m : Word) :
    listedFrame c (xWriteRegisterAndMask c a m).tx = true :=
  listed_of_encode (.writeRegisterAndMask a m) rfl

@[simp] theorem listed_xReadRegister (a : Byte) : listedFrame c (xReadRegister c a).tx = true :=
  listed_of_encode (.readRegister a) rfl

@[simp] theorem listed_xReadEeprom (a n : Byte) : listedFrame c (xReadEeprom c a n).tx = true :=
  listed_of_encode (.readEeprom a n) rfl

@[simp] theorem listed_xSendData (vb : Byte) (d : List Byte) : listedFrame c (xSendData c vb d).tx = true :=
  listed_of_encode (.sendData vb d) rfl

@[simp] theorem listed_xReadData (n : Byte) : listedFrame c (xReadData c n).tx = true :=
  listed_of_encode (.readData n) rfl

@[simp] theorem listed_xLoadRfConfig (t r : Byte) : listedFrame c (xLoadRfConfig c t r).tx = true :=
  listed_of_encode (.loadRfConfig t r) rfl

@[simp] theorem listed_xRfOn : listedFrame c (xRfOn c).tx = true :=
  listed_of_encode .rfOn rfl

end Listed

/-- The frame of every step is a listed one. -/
theorem stageOf_listed (c : Cfg) (cb : CascadeBuffer) (cmd : BitVec 3) (l : StepLabel) :
    (stageOf c cb cmd l).listed c = true := by
  cases l
  case radLoad | radOn | reqaRead | ac1Read | selRead | ac2Read | verRead => simp [stageOf, Stage.listed]
  case radClear | ac1IrqClr => simp [stageOf, Stage.listed, xClearIrqStatus]
  case rstPoll | radPoll => simp [stageOf, Stage.listed, xGetIrqStatus]
  case reqaCheck | ac1Poll | selCheck | ac2Check => simp [stageOf, Stage.listed, xGetTransceiveState]
  case ac1Count | selCount | ac2Count => simp [stageOf, Stage.listed, xGetRxCount]
  case cfgCryptoOff | cfgIdle | cfgTransceive => simp [stageOf, Stage.listed, xCryptoOff, xSetIdle, xSetTransceive]
  case cfgCrcRxOff | cfgCrcTxOff | ac2CrcRxOff | ac2CrcTxOff => simp [stageOf, Stage.listed, xCrcRxOff, xCrcTxOff]
  case selCrcRxOn | selCrcTxOn => simp [stageOf, Stage.listed, xCrcRxOn, xCrcTxOn]
  case reqaSend | ac1Send | selSend | ac2Send =>
    simp [stageOf, Stage.listed, xReqa, xAnticollL1, xSelectL1, xAnticollL2]
  all_goals rfl

/-- So is the frame of every stage of an instruction run alone. -/
theorem exec_listed (i : Instr) (s : State) :
    (∃ c, exec i s = hostCommand c s) ∨ ∃ gs, gs.all (Stage.listed s.cfg) = true ∧ exec i s = operation gs s := by
  cases i
  case beginCmd => exact .inl ⟨0, rfl⟩
  case resetCmd => exact .inl ⟨1, rfl⟩
  case getFirmware => exact .inl ⟨2, rfl⟩
  case getProductVersion => exact .inl ⟨3, rfl⟩
  case getEepromVersion => exact .inl ⟨4, rfl⟩
  case readCardSerial => exact .inl ⟨5, rfl⟩
  case reserved110 => exact .inl ⟨6, rfl⟩
  case reserved111 => exact .inl ⟨7, rfl⟩
  all_goals
    refine .inr ⟨_, ?_, rfl⟩
    simp [Stage.listed, xReqa, xAnticollL1, xSelectL1, xAnticollL2, xGetIrqStatus, xClearIrqStatus, xGetTransceiveState,
      xGetRxCount, xCryptoOff, xCrcRxOff, xCrcTxOff, xCrcRxOn, xCrcTxOn, xSetIdle, xSetTransceive]

/-! ### What is in hand and what is to come -/

/-- The frames still to come in a single operation are listed ones. -/
def State.ListedToCome (s : State) : Prop :=
  ∀ gs, s.call = some gs → gs.all (Stage.listed s.cfg) = true

/-- All that the invariant of the frames speaks of. -/
def State.frames (s : State) : Cfg × Option (List Stage) × Tph × List Byte :=
  (s.cfg, s.call, s.tph, s.txbuf)

theorem State.FrameInv.congr {s u : State} (h : s.FrameInv) (hu : u.frames = s.frames) : u.FrameInv := by
  simp only [State.frames, Prod.mk.injEq] at hu
  obtain ⟨hcfg, hcall, htph, htx⟩ := hu
  exact ⟨by rw [htph, hcfg, htx]; exact h.inHand, by rw [hcall, hcfg]; exact h.toCome⟩

/-- Outside T1 to T3 no frame is in hand. -/
theorem State.ListedToCome.frameInv {s : State} (h : s.ListedToCome) (ht : ¬(s.tph = .t1 ∨ s.tph = .t2 ∨ s.tph = .t3)) :
    s.FrameInv :=
  ⟨fun hin => absurd hin ht, h⟩

theorem startXfer_frameInv {s : State} {x : Xfer} (h : s.ListedToCome) (hx : listedFrame s.cfg x.tx = true) :
    (startXfer x s).FrameInv :=
  ⟨fun _ => hx, h⟩

theorem enterStage_frameInv {g : Stage} {s : State} (h : s.ListedToCome) (hg : g.listed s.cfg = true) :
    (enterStage g s).FrameInv := by
  cases g with
  | xfer x p => exact startXfer_frameInv h hg
  | nothing | pin p l | sleep ms | poll x p ms => exact State.ListedToCome.frameInv h (by simp [enterStage])

theorem advance_frameInv {s : State} (h : s.ListedToCome) : (advance s).FrameInv := by
  unfold advance
  split
  · exact enterStage_frameInv h (stageOf_listed ..)
  · exact State.ListedToCome.frameInv h (by simp)

theorem endCall_frameInv (r : OpResult) (s : State) : (endCall r s).FrameInv :=
  State.ListedToCome.frameInv (by simp [State.ListedToCome]) (by simp)

theorem enterCall_frameInv {gs : List Stage} {s : State} (h : gs.all (Stage.listed s.cfg) = true) :
    (enterCall gs s).FrameInv := by
  cases gs with
  | nil => exact endCall_frameInv .ok s
  | cons g rest =>
    exact enterStage_frameInv (s := { s with call := some (g :: rest) }) (fun gs' hgs => by cases hgs; exact h)
      (Bool.and_eq_true_iff.mp h).1

theorem nextStage_frameInv {s : State} (h : s.ListedToCome) : (nextStage s).FrameInv := by
  unfold nextStage
  split
  · exact advance_frameInv h
  · next gs hgs =>
    exact enterCall_frameInv (List.all_eq_true.mpr fun g hg => List.all_eq_true.mp (h gs hgs) g (List.mem_of_mem_tail hg))

theorem failWith_frameInv {s : State} (h : s.ListedToCome) (d : DiagCode) : (failWith d s).FrameInv := by
  unfold failWith
  split
  · exact State.ListedToCome.frameInv h (by simp)
  · exact endCall_frameInv _ s

theorem afterPost_frameInv {s : State} (h : s.ListedToCome) (r : PostRes) : (afterPost r s).FrameInv := by
  cases r with
  | ok => exact nextStage_frameInv h
  | fail d => exact failWith_frameInv h d
  | again | finish st => exact State.ListedToCome.frameInv h (by simp [afterPost])
  | okState v | stop =>
    simp only [afterPost]
    split
    · exact advance_frameInv h
    · exact endCall_frameInv _ s

theorem xferDone_frameInv {s : State} (h : s.ListedToCome) : (xferDone s).FrameInv := by
  obtain ⟨⟨hcall, -⟩, -, -, -, -, -, hcfg⟩ := postState_keeps (curStage (delivered s)).post (delivered s)
  refine afterPost_frameInv ?_ _
  rw [State.ListedToCome, hcall, hcfg]
  exact h

theorem xferFail_frameInv {s : State} (h : s.ListedToCome) : (xferFail s).FrameInv :=
  failWith_frameInv (by exact h) _

/-! ### Every event keeps the invariant -/

theorem curStage_listed {s : State} (h : s.ListedToCome) : (curStage s).listed s.cfg = true := by
  unfold curStage
  split
  · next g rest hgs => exact (Bool.and_eq_true_iff.mp (h _ hgs)).1
  · rfl
  · exact stageOf_listed ..

theorem stageEvent_frameInv {g : Stage} {s : State} (h : s.FrameInv) (hg : g.listed s.cfg = true) :
    (stageEvent g s).FrameInv := by
  cases g with
  | nothing => exact h.congr rfl
  | pin p l => cases p <;> exact nextStage_frameInv h.toCome
  | sleep ms => exact nextStage_frameInv (s := sleepFor ms s) h.toCome
  | xfer x p => exact startXfer_frameInv h.toCome hg
  | poll x p ms => exact startXfer_frameInv (s := { readClock s with tp0 := s.nextTime }) h.toCome hg

/-- The frame in hand at T2 and T3 is the one of the label before. -/
theorem startEvent_frameInv {s : State} (h : s.FrameInv) : (startEvent s).FrameInv := by
  unfold startEvent
  split
  case h_1 => exact stageEvent_frameInv h (curStage_listed h.toCome)
  case h_2 | h_3 | h_4 | h_5 | h_6 => exact h.congr rfl
  case h_7 ht => exact ⟨fun _ => h.inHand (.inr (.inl ht)), h.toCome⟩
  case h_10 =>
    split
    · exact xferDone_frameInv h.toCome
    · exact State.ListedToCome.frameInv h.toCome (by simp)
  case h_14 => exact xferDone_frameInv h.toCome
  all_goals exact State.ListedToCome.frameInv h.toCome (by simp)

theorem waitPassed_frameInv {s : State} (h : s.FrameInv) : (waitPassed s).FrameInv := by
  unfold waitPassed
  split
  case h_1 ht => exact ⟨fun _ => h.inHand (.inl ht), h.toCome⟩
  case h_3 =>
    split
    · exact xferDone_frameInv h.toCome
    · exact State.ListedToCome.frameInv h.toCome (by simp)
  case h_5 => exact xferDone_frameInv h.toCome
  case h_6 => exact h.congr rfl
  all_goals exact State.ListedToCome.frameInv h.toCome (by simp)

theorem sampleEvent_frameInv {s : State} (h : s.FrameInv) : (sampleEvent s).FrameInv := by
  unfold sampleEvent
  split
  · split
    · exact waitPassed_frameInv (h.congr rfl)
    · exact h.congr rfl
  · exact h.congr rfl

theorem waitFailed_frameInv {s : State} (h : s.FrameInv) : (waitFailed s).FrameInv := by
  unfold waitFailed
  split
  · exact h.congr rfl
  · exact xferFail_frameInv h.toCome

theorem timeEvent_frameInv {s : State} (h : s.FrameInv) : (timeEvent s).FrameInv := by
  unfold timeEvent
  split
  · split
    · exact waitFailed_frameInv (h.congr rfl)
    · exact h.congr rfl
  · split
    · next x p ms _ hg =>
      have hx : listedFrame s.cfg x.tx = true := by
        have hlisted := curStage_listed h.toCome
        rwa [hg] at hlisted
      unfold pollTimeEvent
      split
      · exact failWith_frameInv (s := readClock s) h.toCome _
      · exact startXfer_frameInv (s := readClock s) h.toCome hx
    · exact h.congr rfl

theorem event_frameInv {s : State} (h : s.FrameInv) : (event s).FrameInv := by
  unfold event
  split
  · exact startEvent_frameInv h
  · exact sampleEvent_frameInv h
  · exact timeEvent_frameInv h
  · exact xferFail_frameInv (s := driveNss s.cfg.pin.nssInactive s) h.toCome
  · exact h.congr rfl
  · exact State.ListedToCome.frameInv (by simp [State.ListedToCome]) (by simp)

/-! ### What an event writes -/

theorem busWrites_append (t u : List Action) : busWrites (t ++ u) = busWrites t ++ busWrites u := by
  induction t with
  | nil => rfl
  | cons a t ih => cases a <;> simp [busWrites, ih]

theorem stageEvent_busWrites (g : Stage) (s : State) : busWrites (stageEvent g s).trace = busWrites s.trace := by
  cases g with
  | nothing | xfer x p | poll x p ms => rfl
  | pin p l => cases p <;> simp [stageEvent, drivePin, busWrites]
  | sleep ms => simp [stageEvent, busWrites]

/-- Of the first lines of the labels only T3 writes a frame, that in `TXBUF` (40_transport.md R102). -/
theorem startEvent_busWrites (s : State) : busWrites (startEvent s).trace = busWrites s.trace ∨
    s.tph = .t3 ∧ busWrites (startEvent s).trace = s.txbuf :: busWrites s.trace := by
  unfold startEvent
  split
  case h_1 => exact .inl (stageEvent_busWrites _ s)
  case h_8 ht => exact .inr ⟨ht, rfl⟩
  case h_10 =>
    split
    · exact .inl (congrArg busWrites (xferDone_trace s))
    · exact .inl rfl
  case h_14 => exact .inl (congrArg busWrites (xferDone_trace s))
  all_goals exact .inl rfl

theorem sampleEvent_busWrites (s : State) : busWrites (sampleEvent s).trace = busWrites s.trace := by
  unfold sampleEvent
  split
  · split <;> simp [busWrites]
  · rfl

theorem timeEvent_busWrites (s : State) : busWrites (timeEvent s).trace = busWrites s.trace := by
  unfold timeEvent
  split
  · split <;> simp [busWrites]
  · split
    · simp [pollTimeEvent_trace, busWrites]
    · rfl

theorem event_busWrites (s : State) : busWrites (event s).trace = busWrites s.trace ∨
    s.tph = .t3 ∧ busWrites (event s).trace = s.txbuf :: busWrites s.trace := by
  unfold event
  split
  · exact startEvent_busWrites s
  · exact .inl (sampleEvent_busWrites s)
  · exact .inl (timeEvent_busWrites s)
  · exact .inl (by simp [busWrites])
  · exact .inl rfl
  · exact .inl rfl

/-! ### Every step writes listed frames only -/

/-- In `t` the invariant holds, and what has been written since `s` are listed frames. -/
structure WroteListed (s t : State) : Prop where
  inv : t.FrameInv
  cfg : t.cfg = s.cfg
  writes : ∃ fs, busWrites t.trace = fs ++ busWrites s.trace ∧ ∀ tx ∈ fs, listedFrame s.cfg tx = true

/-- Nothing has been written. -/
theorem WroteListed.of_busWrites_eq {s t : State} (h : t.FrameInv) (hcfg : t.cfg = s.cfg)
    (ht : busWrites t.trace = busWrites s.trace) : WroteListed s t :=
  ⟨h, hcfg, [], ht, by simp⟩

/-- The event T3 writes the frame in hand, which is a listed one. -/
theorem WroteListed.event {s t : State} (h : WroteListed s t) : WroteListed s (event t) := by
  obtain ⟨fs, hfs, hlisted⟩ := h.writes
  refine ⟨event_frameInv h.inv, (event_move t).usesUp.cfg.trans h.cfg, ?_⟩
  rcases event_busWrites t with he | ⟨ht, he⟩
  · exact ⟨fs, he.trans hfs, hlisted⟩
  · have hin : listedFrame s.cfg t.txbuf = true := h.cfg ▸ h.inv.inHand (.inr (.inr ht))
    exact ⟨t.txbuf :: fs, by rw [he, hfs]; rfl, List.forall_mem_cons.mpr ⟨hin, hlisted⟩⟩

theorem WroteListed.runOn {s t : State} (h : WroteListed s t) : WroteListed s (runOn t) :=
  runOn_keeps (P := WroteListed s) (fun _ _ hu => hu.event) h

theorem accept_frameInv (c : BitVec 3) (s : State) : (accept c s).FrameInv := by
  have hcome : (acceptRegs c s).ListedToCome := nofun
  unfold accept
  split
  · exact enterStage_frameInv hcome (stageOf_listed ..)
  · exact State.ListedToCome.frameInv hcome (by simp)

theorem accept_wroteListed (c : BitVec 3) (s : State) : WroteListed s (accept c s) := by
  refine .of_busWrites_eq (accept_frameInv c s) (accept_usesUp c s).cfg ?_
  obtain ⟨t, sub, tx, n, he⟩ := accept_eq c s
  rw [he]
  rfl

theorem launch_wroteListed {gs : List Stage} {s : State} (h : gs.all (Stage.listed s.cfg) = true) :
    WroteListed s (launch gs s) :=
  .of_busWrites_eq (enterCall_frameInv h) (launch_usesUp gs s).cfg (congrArg busWrites (enterCall_trace gs _))

theorem hwReset_wroteListed (s : State) : WroteListed s (hwReset s) :=
  .of_busWrites_eq (State.ListedToCome.frameInv nofun (by simp [hwReset, State.reset])) rfl rfl

theorem exec_wroteListed {i : Instr} {s t : State} (hs : s.FrameInv) (h : exec i s = .next t) : WroteListed s t := by
  rcases exec_listed i s with ⟨c, he⟩ | ⟨gs, hgs, he⟩
  · rw [he, hostCommand_eq] at h
    split at h <;> cases h
    · exact (accept_wroteListed c s).runOn
    · exact .of_busWrites_eq hs rfl rfl
  · rw [he, operation_eq] at h
    split at h <;> cases h
    · exact (launch_wroteListed hgs).runOn
    · exact .of_busWrites_eq hs rfl rfl

/-- A step is an engine reset, nothing, an instruction, or the next event of a running command. -/
theorem step_next_cases {s t : State} (h : step s = .next t) :
    t = hwReset s ∨ t = s ∨ (∃ i, exec i s = .next t) ∨ t = runOn (event s) := by
  cases hr : s.ready with
  | false =>
    rw [step_of_busy hr] at h
    split_ifs at h <;> cases h <;> simp
  | true =>
    rcases Option.eq_none_or_eq_some s.port with hp | ⟨q, hp⟩
    · rw [step_of_nothing hr hp] at h
      split_ifs at h <;> cases h <;> simp
    · rw [step_of_presented hr hp] at h
      split_ifs at h
      · cases h; exact .inl rfl
      · unfold runPort at h
        split at h
        · exact .inr (.inr (.inl ⟨_, h⟩))
        · cases h

theorem step_wroteListed {s t : State} (hs : s.FrameInv) (h : step s = .next t) : WroteListed s t := by
  have hself : WroteListed s s := .of_busWrites_eq hs rfl rfl
  rcases step_next_cases h with rfl | rfl | ⟨i, hi⟩ | rfl
  · exact hwReset_wroteListed s
  · exact hself
  · exact exec_wroteListed hs hi
  · exact hself.event.runOn

/-- Settles O57: every frame that comes into hand is one that the engine put together, and T3 alone writes it. -/
theorem onlyListedFramesAreWritten : Obligations.OnlyListedFramesAreWritten := by
  intro s t hs hstep
  obtain ⟨hinv, -, fs, hfs, hlisted⟩ := step_wroteListed hs hstep
  obtain ⟨-, ⟨new, hnew⟩, -⟩ := configurationIsConstant s t (.inl hstep)
  rw [hnew, busWrites_append] at hfs
  exact ⟨hinv, new, hnew, List.append_cancel_right hfs ▸ hlisted⟩

end Sys2Proof.Machine
end

section
/-! Proofs: the model's own position stands only at lines of the pseudocode (log entry 3; 40_transport.md R101, R102,
R104). -/

namespace Sys2Proof.Machine

/-! ### A command that runs, wherever it stands -/

/-- What the invariant of the position asks of a running command wherever it stands, but for the candidate. -/
structure State.Runs (s : State) : Prop where
  busy : s.ready = false
  stages : ∀ gs, s.call = some gs → gs ≠ [] ∧ gs.all Stage.alone = true
  width : s.tw0 < 2 ^ s.cfg.time.clockBits ∧ s.tp0 < 2 ^ s.cfg.time.clockBits

/-- The same with no candidate for `DIAG_TPH` remembered. -/
structure State.GoesOn (s : State) : Prop extends s.Runs where
  noCand : s.cand = .t0

/-- All that `GoesOn` speaks of. -/
def State.going (s : State) : Cfg × Bool × Option (List Stage) × Time × Time × Tph :=
  (s.cfg, s.ready, s.call, s.tw0, s.tp0, s.cand)

theorem State.GoesOn.congr {s u : State} (h : s.GoesOn) (hu : u.going = s.going) : u.GoesOn := by
  simp only [State.going, Prod.mk.injEq] at hu
  obtain ⟨hcfg, hready, hcall, htw, htp, hcand⟩ := hu
  exact { busy := hready.trans h.busy, stages := hcall ▸ h.stages, width := by rw [hcfg, htw, htp]; exact h.width,
          noCand := hcand.trans h.noCand }

theorem State.PosInv.goesOn {s : State} (h : s.PosInv) (hb : s.ready = false) : s.GoesOn :=
  { busy := hb, stages := fun gs hgs => (h.running gs hgs).2, width := h.width, noCand := h.noCand hb }

/-- What the clock shows fits `TW0` and `TP0` (10_state.md R27). -/
theorem nextTime_lt (s : State) : s.nextTime < 2 ^ s.cfg.time.clockBits := clockValue_lt ..

/-- Between commands only the two registers of the clock are spoken of. -/
theorem posInv_of_idle {s : State} (hready : s.ready = true) (hcall : s.call = none) (hs : s.sub = .start)
    (ht : s.tph = .t0) (hwidth : s.tw0 < 2 ^ s.cfg.time.clockBits ∧ s.tp0 < 2 ^ s.cfg.time.clockBits) : s.PosInv where
  sample h := by simp [hs] at h
  time h := by simp [hs] at h
  release h := by simp [hs] at h
  inner := by simp [ht]
  action h := by simp [hready] at h
  running gs h := by simp [hcall] at h
  noCand h := by simp [hready] at h
  width := hwidth

/-- A command that closes does not look at its label any more. -/
theorem State.GoesOn.posInv_of_closing {s : State} (h : s.GoesOn) (hinner : s.tph ≠ .t7 ∧ s.tph ≠ .t13)
    (hs : s.sub.closing = true) : s.PosInv where
  sample hsub := by simp [hsub, Sub.closing] at hs
  time hsub := by simp [hsub, Sub.closing] at hs
  release hsub := by simp [hsub, Sub.closing] at hs
  inner := hinner
  action _ hsub := by simp [hsub, Sub.closing] at hs
  running gs hgs := ⟨h.busy, h.stages gs hgs⟩
  noCand _ := h.noCand
  width := h.width

/-- Inside an exchange a command can stand at the first line of every label but T7 and T13, and at any line of a wait. -/
theorem State.GoesOn.posInv_inside {s : State} (h : s.GoesOn) (ht : s.tph ≠ .t0 ∧ s.tph ≠ .t7 ∧ s.tph ≠ .t13)
    (hs : s.sub ≠ .start → waitLevel s.tph ≠ none) : s.PosInv where
  sample hsub := hs (by simp [hsub])
  time hsub := .inl (hs (by simp [hsub]))
  release hsub := hs (by simp [hsub])
  inner := ht.2
  action _ _ h0 := absurd h0 ht.1
  running gs hgs := ⟨h.busy, h.stages gs hgs⟩
  noCand _ := h.noCand
  width := h.width

/-! ### Entering a stage -/

theorem startXfer_posInv {s : State} (h : s.GoesOn) (x : Xfer) : (startXfer x s).PosInv :=
  State.GoesOn.posInv_inside (h.congr rfl) (by simp) (by simp)

/-- Outside an exchange a command can stand at the beginning of a pin write, a sleep or a poll. -/
theorem State.GoesOn.posInv_of_stage {s : State} (h : s.GoesOn) (hs : s.sub = .start) (ht : s.tph = .t0)
    (hg : (∃ p l, curStage s = .pin p l) ∨ (∃ ms, curStage s = .sleep ms) ∨ ∃ x p ms, curStage s = .poll x p ms) :
    s.PosInv where
  sample hsub := by simp [hs] at hsub
  time hsub := by simp [hs] at hsub
  release hsub := by simp [hs] at hsub
  inner := by simp [ht]
  action _ _ _ := hg
  running gs hgs := ⟨h.busy, h.stages gs hgs⟩
  noCand _ := h.noCand
  width := h.width

/-- The stage in hand is entered at a line that has an action, whatever stage it is. -/
theorem enterStage_posInv {g : Stage} {s : State} (h : s.GoesOn) (hg : curStage s = g) (hne : g ≠ .nothing) :
    (enterStage g s).PosInv := by
  cases g with
  | nothing => contradiction
  | xfer x p => exact startXfer_posInv h x
  | pin p l => exact State.GoesOn.posInv_of_stage (h.congr rfl) rfl rfl (.inl ⟨p, l, hg⟩)
  | sleep ms => exact State.GoesOn.posInv_of_stage (h.congr rfl) rfl rfl (.inr (.inl ⟨ms, hg⟩))
  | poll x p ms => exact State.GoesOn.posInv_of_stage (h.congr rfl) rfl rfl (.inr (.inr ⟨x, p, ms, hg⟩))

/-- Only the label NONE has no stage. -/
theorem stageOf_ne_nothing (c : Cfg) (cb : CascadeBuffer) (cmd : BitVec 3) {l : StepLabel} (hl : l ≠ .noStep) :
    stageOf c cb cmd l ≠ .nothing := by
  cases l <;> simp [stageOf] at hl ⊢

theorem nextStep_ne_noStep {cmd : BitVec 3} {l l' : StepLabel} (h : nextStep cmd l = some l') : l' ≠ .noStep := by
  rintro rfl
  rcases nextStep_cases h with ⟨-, hl⟩ | ⟨-, hl⟩ | ⟨-, hl⟩ <;> cases l <;> cases hl

theorem firstStep_ne_noStep {c : BitVec 3} {l : StepLabel} (h : firstStep c = some l) : l ≠ .noStep := by
  rcases firstStep_cases h with ⟨-, rfl⟩ | ⟨-, rfl⟩ | ⟨-, rfl⟩ <;> simp

theorem enterStep_posInv {l : StepLabel} {s : State} (h : s.GoesOn) (hcall : s.call = none) (hl : l ≠ .noStep) :
    (enterStep l s).PosInv :=
  enterStage_posInv (h.congr rfl) (curStage_host (s := { s with stepLbl := l }) hcall) (stageOf_ne_nothing _ _ _ hl)

theorem advance_posInv {s : State} (h : s.GoesOn) (hcall : s.call = none) : (advance s).PosInv := by
  unfold advance
  split
  · next l hl => exact enterStep_posInv h hcall (nextStep_ne_noStep hl)
  · exact State.GoesOn.posInv_of_closing (h.congr rfl) (by simp) rfl

theorem endCall_posInv {s : State} (h : s.Runs) (r : OpResult) : (endCall r s).PosInv :=
  posInv_of_idle rfl rfl rfl rfl h.width

theorem Stage.ne_nothing_of_alone {g : Stage} (h : g.alone = true) : g ≠ .nothing := by
  rintro rfl
  cases h

/-- The stages `gs` of a single operation are gone on with. -/
theorem enterCall_posInv {gs : List Stage} {s : State} (h : s.GoesOn) (halone : gs.all Stage.alone = true) :
    (enterCall gs s).PosInv := by
  cases gs with
  | nil => exact endCall_posInv h.toRuns .ok
  | cons g rest =>
    have hgo : State.GoesOn { s with call := some (g :: rest) } :=
      { h with stages := fun gs hgs => by cases hgs; exact ⟨by simp, halone⟩ }
    exact enterStage_posInv hgo rfl (Stage.ne_nothing_of_alone (Bool.and_eq_true_iff.mp halone).1)

theorem nextStage_posInv {s : State} (h : s.GoesOn) : (nextStage s).PosInv := by
  unfold nextStage
  split
  · next hcall => exact advance_posInv h hcall
  · next gs hgs => exact enterCall_posInv h (all_alone_tail (h.stages gs hgs).2)

/-! ### The end of an exchange -/

/-- A raise uses the candidate up (60_exceptions.md R210). -/
theorem raise_posInv {s : State} (h : s.Runs) (d : DiagCode) : (raise d s).PosInv :=
  State.GoesOn.posInv_of_closing { busy := h.busy, stages := h.stages, width := h.width, noCand := rfl } (by simp) rfl

theorem failWith_posInv {s : State} (h : s.Runs) (d : DiagCode) : (failWith d s).PosInv := by
  unfold failWith
  split
  · exact raise_posInv h d
  · exact endCall_posInv h _

theorem xferFail_posInv {s : State} (h : s.Runs) : (xferFail s).PosInv := by
  unfold xferFail
  refine failWith_posInv ?_ _
  exact ⟨h.busy, h.stages, h.width⟩

/-- Only the tests of the polls try again. -/
theorem post_of_again {p : Post} {s : State} (h : postRes p s = .again) : p = .pollState ∨ ∃ b, p = .irqBit b := by
  cases p
  case pollState => exact .inl rfl
  case irqBit b => exact .inr ⟨b, rfl⟩
  case check | countIs | countStop | countSelect | level1 | level2 | level2Done | sakDecide =>
    simp only [postRes] at h
    split_ifs at h
  all_goals cases h

/-- The test of a poll stands in a poll. -/
theorem State.Runs.curStage_poll {s : State} (h : s.Runs)
    (hp : (curStage s).post = .pollState ∨ ∃ b, (curStage s).post = .irqBit b) :
    ∃ x p ms, curStage s = .poll x p ms := by
  cases hcall : s.call with
  | none =>
    rw [curStage_host hcall] at hp ⊢
    cases hl : s.stepLbl <;> simp [hl, stageOf, Stage.post] at hp ⊢
  | some gs =>
    obtain ⟨hne, halone⟩ := h.stages gs hcall
    cases gs with
    | nil => contradiction
    | cons g rest =>
      have hg : curStage s = g := by simp only [curStage, hcall]
      have hpost := Stage.post_alone (Bool.and_eq_true_iff.mp halone).1
      rw [← hg] at hpost
      rcases hp with hp | ⟨b, hp⟩ <;> simp [hp, Post.alone] at hpost

theorem afterPost_posInv {s : State} {r : PostRes} (h : s.GoesOn)
    (hagain : r = .again → ∃ x p ms, curStage s = .poll x p ms) : (afterPost r s).PosInv := by
  cases r with
  | ok => exact nextStage_posInv h
  | fail d => exact failWith_posInv h.toRuns d
  | again =>
    exact { sample := nofun, time := fun _ => .inr ⟨rfl, hagain rfl⟩, release := nofun, inner := ⟨nofun, nofun⟩,
            action := nofun, running := fun gs hgs => ⟨h.busy, h.stages gs hgs⟩, noCand := fun _ => h.noCand,
            width := h.width }
  | finish st => exact State.GoesOn.posInv_of_closing (h.congr rfl) ⟨nofun, nofun⟩ rfl
  | okState v | stop =>
    simp only [afterPost]
    split
    · next hcall => exact advance_posInv h hcall
    · exact endCall_posInv h.toRuns _

theorem postState_going (p : Post) (s : State) : (postState p s).going = s.going := by
  cases p
  case countSelect | level2Done | sakDecide => simp only [postState]; split <;> rfl
  all_goals rfl

theorem xferDone_posInv {s : State} (h : s.GoesOn) : (xferDone s).PosInv := by
  have hdel : (delivered s).GoesOn := h.congr rfl
  refine afterPost_posInv (hdel.congr (postState_going _ _)) fun hr => ?_
  have hpost := post_of_again hr
  obtain ⟨x, p, ms, hg⟩ := hdel.curStage_poll hpost
  refine ⟨x, p, ms, ?_⟩
  rcases hpost with hp | ⟨b, hp⟩ <;> rw [hp] <;> exact hg

/-! ### Every event keeps the invariant -/

/-- The line of the pseudocode at which the stage begins has an action, so the next one is well placed, too. -/
theorem stageEvent_posInv {g : Stage} {s : State} (h : s.GoesOn) (hne : g ≠ .nothing) : (stageEvent g s).PosInv := by
  cases g with
  | nothing => contradiction
  | pin p l => cases p <;> exact nextStage_posInv (h.congr rfl)
  | sleep ms => exact nextStage_posInv (h.congr rfl)
  | xfer x p => exact startXfer_posInv h x
  | poll x p ms =>
    exact startXfer_posInv (s := { readClock s with tp0 := s.nextTime })
      { h with width := ⟨h.width.1, nextTime_lt s⟩ } x

theorem startEvent_posInv {s : State} (hs : s.sub = .start) (h : s.GoesOn) (hinner : s.tph ≠ .t7 ∧ s.tph ≠ .t13)
    (hstage : s.tph = .t0 → curStage s ≠ .nothing) : (startEvent s).PosInv := by
  unfold startEvent
  split
  case h_1 ht => exact stageEvent_posInv h (hstage ht)
  case h_2 ht | h_3 ht | h_4 ht | h_5 ht | h_6 ht =>
    exact State.GoesOn.posInv_inside { h with width := ⟨nextTime_lt s, h.width.2⟩ } (by simp [ht])
      (by simp [ht, waitLevel])
  case h_10 ht => exact absurd ht hinner.1
  case h_14 ht => exact absurd ht hinner.2
  all_goals exact State.GoesOn.posInv_inside (h.congr rfl) (by simp) (by simp [hs])

/-- Inside a wait every label is one of T1, T4, T6, T10 and T12. -/
theorem ne_of_waitLevel {t : Tph} (h : waitLevel t ≠ none) : t ≠ .t0 ∧ t ≠ .t7 ∧ t ≠ .t13 := by
  cases t <;> simp [waitLevel] at h ⊢

theorem waitPassed_posInv {s : State} (h : s.GoesOn) (hw : waitLevel s.tph ≠ none) : (waitPassed s).PosInv := by
  unfold waitPassed
  split
  case h_3 =>
    split
    · exact xferDone_posInv h
    · exact State.GoesOn.posInv_inside (h.congr rfl) (by simp) (by simp)
  case h_5 => exact xferDone_posInv h
  case h_6 => exact State.GoesOn.posInv_inside (h.congr rfl) (ne_of_waitLevel hw) (by simp)
  all_goals exact State.GoesOn.posInv_inside (h.congr rfl) (by simp) (by simp)

theorem sampleEvent_posInv {s : State} (h : s.GoesOn) (hw : waitLevel s.tph ≠ none) : (sampleEvent s).PosInv := by
  unfold sampleEvent
  split
  · split
    · exact waitPassed_posInv (h.congr rfl) hw
    · exact State.GoesOn.posInv_inside (h.congr rfl) (ne_of_waitLevel hw) fun _ => hw
  · contradiction

theorem waitFailed_posInv {s : State} (h : s.GoesOn) (hw : waitLevel s.tph ≠ none) : (waitFailed s).PosInv := by
  unfold waitFailed
  split
  · exact State.GoesOn.posInv_inside (h.congr rfl) (ne_of_waitLevel hw) fun _ => hw
  · exact xferFail_posInv h.toRuns

theorem pollTimeEvent_posInv {s : State} (h : s.GoesOn) (x : Xfer) (limitMs : Nat) :
    (pollTimeEvent x limitMs s).PosInv := by
  have hread : (readClock s).GoesOn := h.congr rfl
  unfold pollTimeEvent
  split
  · exact failWith_posInv hread.toRuns _
  · exact startXfer_posInv hread x

theorem timeEvent_posInv {s : State} (h : s.GoesOn)
    (hplace : waitLevel s.tph ≠ none ∨ s.tph = .t0 ∧ ∃ x p ms, curStage s = .poll x p ms) : (timeEvent s).PosInv := by
  unfold timeEvent
  split
  · next hl =>
    have hw : waitLevel s.tph ≠ none := by simp [hl]
    split
    · exact waitFailed_posInv (h.congr rfl) hw
    · exact State.GoesOn.posInv_inside (h.congr rfl) (ne_of_waitLevel hw) fun _ => hw
  · next hw =>
    obtain ⟨ht, x, p, ms, hg⟩ := hplace.resolve_left (absurd hw)
    rw [ht, hg]
    exact pollTimeEvent_posInv h x ms

theorem event_posInv {s : State} (hb : s.ready = false) (h : s.PosInv) : (event s).PosInv := by
  have hgo := h.goesOn hb
  have hdriven : (driveNss s.cfg.pin.nssInactive s).GoesOn := hgo.congr rfl
  unfold event
  split
  case h_1 hs =>
    refine startEvent_posInv hs hgo h.inner fun ht => ?_
    rcases h.action hb hs ht with ⟨p, l, hg⟩ | ⟨ms, hg⟩ | ⟨x, p, ms, hg⟩ <;> simp [hg]
  case h_2 hs => exact sampleEvent_posInv hgo (h.sample hs)
  case h_3 hs => exact timeEvent_posInv hgo (h.time hs)
  case h_4 => exact xferFail_posInv hdriven.toRuns
  case h_5 => exact State.GoesOn.posInv_of_closing (hgo.congr rfl) h.inner rfl
  case h_6 => exact posInv_of_idle rfl rfl rfl rfl h.width

/-! ### Every step keeps the invariant -/

theorem hwReset_posInv (s : State) : (hwReset s).PosInv :=
  posInv_of_idle rfl rfl rfl rfl ⟨Nat.two_pow_pos _, Nat.two_pow_pos _⟩

theorem accept_posInv (c : BitVec 3) {s : State} (h : s.PosInv) : (accept c s).PosInv := by
  have hgo : (acceptRegs c s).GoesOn := { busy := rfl, stages := nofun, width := h.width, noCand := rfl }
  unfold accept
  split
  · next l hl => exact enterStep_posInv hgo rfl (firstStep_ne_noStep hl)
  · exact raise_posInv hgo.toRuns _

theorem launch_posInv {gs : List Stage} {s : State} (halone : gs.all Stage.alone = true) (hr : s.ready = true)
    (h : s.PosInv) : (launch gs s).PosInv :=
  enterCall_posInv
    { busy := rfl, stages := fun gs' hgs => by simpa [hr] using h.running gs' hgs, width := h.width, noCand := rfl }
    halone

/-- Settles O53, by the line that comes next: each line with an action leads to another one, and a candidate is used up
or returned in the event that sets it. -/
theorem positionInvariantKept : Obligations.PositionInvariantKept := by
  intro s t hs hstep
  exact step_keeps (P := State.PosInv) (fun u _ => hwReset_posInv u) (fun c _ _ hu => accept_posInv c hu)
    (fun _ _ _ halone hr hu => launch_posInv halone hr hu) (fun _ hb hu => event_posInv hb hu) hstep hs

end Sys2Proof.Machine
end

section
/-! Proofs: WAIT_BUSY with any number of wrong samples, and how it fails (40_transport.md R101, R104, R108). -/

namespace Sys2Proof.Machine

/-! ### The events of a wait (R101) -/

theorem events_succ (n : Nat) (s : State) : events (n + 1) s = event (events n s) := by
  induction n generalizing s with
  | zero => rfl
  | succ n ih => exact ih (event s)

theorem events_add (m n : Nat) (s : State) : events (m + n) s = events n (events m s) := by
  induction n with
  | zero => rfl
  | succ n ih => rw [← Nat.add_assoc, events_succ, ih, ← events_succ]

/-- A wait at W2 has missed its level `ms` times more, with the answers `bs` and `ts` to come. -/
def State.missed (s : State) (ms : List (Level × Time)) (bs : List Level) (ts : List Time) : State :=
  { s with busyIn := bs, nowIn := ts, trace := missTrace s.cfg ms ++ s.trace }

/-- W2 of a wait that began at `a`, after the misses `ms`, with the answers `bs` and `ts` to come. -/
def State.waiting (s : State) (a : Time) (ms : List (Level × Time)) (bs : List Level) (ts : List Time) : State :=
  State.missed { s with tw0 := clockValue s.cfg a, sub := .sample, trace := .now (clockValue s.cfg a) :: s.trace }
    ms bs ts

section Wait

variable {s : State} {l w : Level} {a z : Time} {ms : List (Level × Time)} {bs : List Level} {ts : List Time}

/-- W1. -/
theorem event_of_wait_start (hs : s.sub = .start) (hl : waitLevel s.tph = some l) (hn : s.nowIn = a :: ts) :
    event s = s.waiting a [] s.busyIn ts := by
  have hread : event s = { readClock s with tw0 := s.nextTime, sub := .sample } := by
    cases ht : s.tph <;> simp [ht, waitLevel] at hl <;> simp only [event, hs, startEvent, ht]
  rw [hread]
  simp [readClock, nextTime_cons hn, hn, State.waiting, State.missed, missTrace]

/-- W2 and W3 on the wanted level. -/
theorem event_of_hit (hs : s.sub = .sample) (hl : waitLevel s.tph = some l) (hb : s.busyIn = l :: bs) :
    event s = waitPassed { s with busyIn := bs, trace := .pinRead l :: s.trace } := by
  simp [event, hs, sampleEvent, hl, sampleBusy, State.nextLevel, hb]

/-- W2 and W3 on the other level. -/
theorem event_of_miss (hs : s.sub = .sample) (hl : waitLevel s.tph = some l) (hw : w ≠ l) (hb : s.busyIn = w :: bs) :
    event s = { s with sub := .time, busyIn := bs, trace := .pinRead w :: s.trace } := by
  simp [event, hs, sampleEvent, hl, sampleBusy, State.nextLevel, hb, hw]

/-- W4 to W6 in time. -/
theorem event_of_in_time (hs : s.sub = .time) (hl : waitLevel s.tph = some l) (hn : s.nowIn = z :: ts)
    (hz : late s.cfg s.tw0 z s.cfg.time.timeoutMs = false) :
    event s = { s with sub := .sample, nowIn := ts, trace := .now (clockValue s.cfg z) :: s.trace } := by
  simp [event, hs, timeEvent, hl, readClock, nextTime_cons hn, hn, hz]

/-- W4 and W5 too late. -/
theorem event_of_late (hs : s.sub = .time) (hl : waitLevel s.tph = some l) (hn : s.nowIn = z :: ts)
    (hz : late s.cfg s.tw0 z s.cfg.time.timeoutMs = true) :
    event s = waitFailed { s with nowIn := ts, trace := .now (clockValue s.cfg z) :: s.trace } := by
  simp [event, hs, timeEvent, hl, readClock, nextTime_cons hn, hn, hz]

/-- One repetition of W2 to W6 is two events. -/
theorem events_of_miss (hs : s.sub = .sample) (hl : waitLevel s.tph = some l) (hw : w ≠ l) (hb : s.busyIn = w :: bs)
    (hn : s.nowIn = z :: ts) (hz : late s.cfg s.tw0 z s.cfg.time.timeoutMs = false) :
    event (event s) = s.missed [(w, z)] bs ts := by
  calc event (event s)
      = event { s with sub := .time, busyIn := bs, trace := .pinRead w :: s.trace } :=
        congrArg event (event_of_miss hs hl hw hb)
    _ = { s with sub := .sample, busyIn := bs, nowIn := ts,
                 trace := .now (clockValue s.cfg z) :: .pinRead w :: s.trace } := event_of_in_time rfl hl hn hz
    _ = s.missed [(w, z)] bs ts := by rw [← hs]; rfl

/-- Any number of repetitions. -/
theorem events_of_misses (hs : s.sub = .sample) (hl : waitLevel s.tph = some l)
    (hb : s.busyIn = ms.map Prod.fst ++ bs) (hn : s.nowIn = ms.map Prod.snd ++ ts)
    (hms : ∀ m ∈ ms, m.1 ≠ l ∧ late s.cfg s.tw0 m.2 s.cfg.time.timeoutMs = false) :
    events (2 * ms.length) s = s.missed ms bs ts := by
  induction ms generalizing s with
  | nil =>
    obtain rfl : s.busyIn = bs := hb
    obtain rfl : s.nowIn = ts := hn
    rfl
  | cons m ms ih =>
    obtain ⟨⟨hne, hin⟩, hrest⟩ := List.forall_mem_cons.mp hms
    calc events (2 * ms.length) (event (event s))
        = events (2 * ms.length) (s.missed [m] (ms.map Prod.fst ++ bs) (ms.map Prod.snd ++ ts)) :=
          congrArg _ (events_of_miss hs hl hne hb hn hin)
      _ = (s.missed [m] (ms.map Prod.fst ++ bs) (ms.map Prod.snd ++ ts)).missed ms bs ts := ih hs hl rfl rfl hrest
      _ = s.missed (m :: ms) bs ts := by simp [State.missed, missTrace]

/-- W1 and the repetitions. -/
theorem events_waiting (hs : s.sub = .start) (hl : waitLevel s.tph = some l)
    (hb : s.busyIn = ms.map Prod.fst ++ bs) (hn : s.nowIn = a :: (ms.map Prod.snd ++ ts))
    (hms : ∀ m ∈ ms, m.1 ≠ l ∧ late s.cfg a m.2 s.cfg.time.timeoutMs = false) :
    events (2 * ms.length + 1) s = s.waiting a ms bs ts := by
  calc events (2 * ms.length) (event s)
      = events (2 * ms.length) (s.waiting a [] s.busyIn (ms.map Prod.snd ++ ts)) :=
        congrArg _ (event_of_wait_start hs hl hn)
    _ = s.waiting a ms bs ts :=
        events_of_misses rfl hl hb rfl (by simpa [State.waiting, State.missed] using hms)

/-- The state in which an exchange fails: the late clock read is behind, and chip-select is released if it was active. -/
def State.givenUp (s : State) (w : Level) (z : Time) (bs : List Level) (ts : List Time) : State :=
  { s with busyIn := bs, nowIn := ts, nssQ := if s.nssQ = s.cfg.pin.nssActive then s.cfg.pin.nssInactive else s.nssQ,
           trace := (if s.nssQ = s.cfg.pin.nssActive then [.pinWrite .nss s.cfg.pin.nssInactive] else []) ++
             .now (clockValue s.cfg z) :: .pinRead w :: s.trace }

/-- The last repetition of a wait that fails: a sample of the other level, the late clock read, and TA1 if chip-select is
active. -/
theorem events_givenUp (hs : s.sub = .sample) (hl : waitLevel s.tph = some l) (hw : w ≠ l) (hb : s.busyIn = w :: bs)
    (hn : s.nowIn = z :: ts) (hz : late s.cfg s.tw0 z s.cfg.time.timeoutMs = true) :
    events (if s.nssQ = s.cfg.pin.nssActive then 3 else 2) s = xferFail (s.givenUp w z bs ts) := by
  have hlate : event (event s) = waitFailed { s with
      sub := .time, busyIn := bs, nowIn := ts, trace := .now (clockValue s.cfg z) :: .pinRead w :: s.trace } :=
    calc event (event s)
        = event { s with sub := .time, busyIn := bs, trace := .pinRead w :: s.trace } :=
          congrArg event (event_of_miss hs hl hw hb)
      _ = _ := event_of_late rfl hl hn hz
  by_cases hnss : s.nssQ = s.cfg.pin.nssActive
  · rw [if_pos hnss]
    show event (event (event s)) = _
    rw [hlate, waitFailed, if_pos hnss, State.givenUp, if_pos hnss, if_pos hnss]
    rfl
  · rw [if_neg hnss]
    show event (event s) = _
    rw [hlate, waitFailed, if_neg hnss, State.givenUp, if_neg hnss, if_neg hnss]
    rfl

/-- A wait that fails, from W1 on. -/
theorem events_of_timeout (hs : s.sub = .start) (hl : waitLevel s.tph = some l) (hw : w ≠ l)
    (hb : s.busyIn = ms.map Prod.fst ++ w :: bs) (hn : s.nowIn = a :: (ms.map Prod.snd ++ z :: ts))
    (hms : ∀ m ∈ ms, m.1 ≠ l ∧ late s.cfg a m.2 s.cfg.time.timeoutMs = false)
    (hz : late s.cfg a z s.cfg.time.timeoutMs = true) :
    events (if s.nssQ = s.cfg.pin.nssActive then 2 * ms.length + 4 else 2 * ms.length + 3) s =
      xferFail ((s.waiting a ms (w :: bs) (z :: ts)).givenUp w z bs ts) := by
  calc events (if s.nssQ = s.cfg.pin.nssActive then 2 * ms.length + 4 else 2 * ms.length + 3) s
      = events (2 * ms.length + 1 + if s.nssQ = s.cfg.pin.nssActive then 3 else 2) s := by split <;> rfl
    _ = events (if s.nssQ = s.cfg.pin.nssActive then 3 else 2) (s.waiting a ms (w :: bs) (z :: ts)) := by
        rw [events_add, events_waiting hs hl hb hn hms]
    _ = xferFail ((s.waiting a ms (w :: bs) (z :: ts)).givenUp w z bs ts) :=
        events_givenUp (s := s.waiting a ms (w :: bs) (z :: ts)) rfl hl hw rfl rfl ((late_clock_start ..).trans hz)

end Wait

/-- Settles O19: W1, two events for each miss, and the sample that shows the level. -/
theorem waitPassesWhenLevelSeen : Obligations.WaitPassesWhenLevelSeen := by
  intro s l a ms bs ts hs hl hb hn hms
  rw [events_succ, events_waiting hs hl hb hn hms]
  exact event_of_hit rfl hl rfl

/-! ### TA2 to TA4 (R104) -/

/-- In a host command the failure is raised, with the wait's label. -/
theorem xferFail_host {s : State} (h : s.call = none) :
    xferFail s = raise (timeoutCode s.stepLbl) { s with
      cand := s.tph, tph := .t0, sub := .start, remote := if s.tph = .t1 then s.remote else Remote.unknown } := by
  simp only [xferFail, failWith, h, if_true]

/-- A single operation returns it. -/
theorem xferFail_alone {s : State} (h : s.call ≠ none) :
    xferFail s = endCall (.fail .dgTimeout) { s with
      cand := s.tph, tph := .t0, sub := .start, remote := if s.tph = .t1 then s.remote else Remote.unknown } := by
  obtain ⟨gs, hgs⟩ := Option.ne_none_iff_exists'.mp h
  simp [xferFail, failWith, hgs]

/-- The code of a bus timeout, by the step (60_exceptions.md R200). -/
theorem timeoutCode_eq (l : StepLabel) :
    timeoutCode l = if l = .rstPoll then .dgResetTimeout
      else if l = .radLoad ∨ l = .radOn ∨ l = .radPoll ∨ l = .radClear then .dgRadioSetupFailed else .dgTimeout := by
  cases l <;> rfl

/-- A failed exchange stands outside the exchange and leaves the registers of card resolution alone. -/
theorem xferFail_keeps (s : State) :
    ((xferFail s).nssQ = s.nssQ ∧ (xferFail s).tph = .t0) ∧
    (xferFail s).busyIn = s.busyIn ∧ (xferFail s).nowIn = s.nowIn ∧ (xferFail s).rxIn = s.rxIn ∧
      (xferFail s).rval = s.rval ∧ (xferFail s).rxcnt = s.rxcnt ∧ (xferFail s).cb = s.cb ∧ (xferFail s).sak = s.sak ∧
      (xferFail s).uidOut = s.uidOut ∧ (xferFail s).uidLen = s.uidLen ∧ (xferFail s).status = s.status := by
  by_cases h : s.call = none
  · rw [xferFail_host h]
    exact ⟨⟨rfl, rfl⟩, rfl, rfl, rfl, rfl, rfl, rfl, rfl, rfl, rfl, rfl⟩
  · rw [xferFail_alone h]
    exact ⟨⟨rfl, rfl⟩, rfl, rfl, rfl, rfl, rfl, rfl, rfl, rfl, rfl, rfl⟩

/-- Settles O20: the misses, the last repetition with TA1, and what TA2 to TA4 make of it in a host command and in a
single operation. -/
theorem waitTimesOut : Obligations.WaitTimesOut := by
  intro s l w a z ms bs ts hs hl hw hb hn hms hz
  obtain ⟨⟨hnss, htph⟩, hkeeps⟩ := xferFail_keeps ((s.waiting a ms (w :: bs) (z :: ts)).givenUp w z bs ts)
  refine ⟨_, _, (events_of_timeout hs hl hw hb hn hms hz).symm, rfl, xferFail_trace _, fun h => hnss.trans (if_pos h),
    fun h => hnss.trans (if_neg h), ⟨htph, hkeeps⟩, fun hcall => ?_, fun hcall => ?_⟩
  · rw [xferFail_host (by exact hcall)]
    exact ⟨rfl, rfl, rfl, timeoutCode_eq _, rfl, rfl⟩
  · rw [xferFail_alone (by exact hcall)]
    exact ⟨rfl, rfl, rfl, rfl⟩

/-! ### A frame that gets no answer (R108) -/

/-- An instruction that is encoded as a frame is one exchange with that frame. -/
theorem exec_of_encode_frame {i : Instr} {s : State} {tx : List Byte} {n : Nat} (h : encode s.cfg i = .op .frame tx n) :
    ∃ p, exec i s = operation [.xfer ⟨tx, n⟩ p] s := by
  cases i <;> cases h <;> exact ⟨_, rfl⟩

/-- What a line of a wait needs of ENV: a sample at W2, a clock value at W1 and W4. -/
theorem answered_of_wait {s : State} {l : Level} (hl : waitLevel s.tph = some l)
    (hb : s.sub = .sample → s.busyIn ≠ []) (hn : s.sub = .start ∨ s.sub = .time → s.nowIn ≠ []) :
    answered s = true := by
  have hbytes : needsBytes s = 0 := by
    unfold needsBytes
    split
    · next ht => simp [ht, waitLevel] at hl
    · rfl
  cases hs : s.sub with
  | start => simp [answered, hbytes, needsLevel, hs, hn (.inl hs)]
  | sample => simp [answered, hbytes, needsTime, hs, hb hs]
  | time => simp [answered, hbytes, needsLevel, hs, hn (.inr hs)]
  | release | log | fin st => simp [answered, hbytes, needsTime, needsLevel, hs]

theorem reaches_of_event {s t : State} (hr : s.ready = false) (ha : answered s = true) (he : event s = t) :
    Reaches 1 s t :=
  he ▸ Reaches.event hr ha

section Wait

variable {s : State} {l w : Level} {a z : Time} {bs : List Level} {ts : List Time}

/-- A late clock read with chip-select active, and TA1. -/
theorem reaches_late (hr : s.ready = false) (hs : s.sub = .time) (hl : waitLevel s.tph = some l)
    (hn : s.nowIn = z :: ts) (hz : late s.cfg s.tw0 z s.cfg.time.timeoutMs = true)
    (hnss : s.nssQ = s.cfg.pin.nssActive) :
    Reaches 2 s (xferFail (driveNss s.cfg.pin.nssInactive
      { s with nowIn := ts, trace := .now (clockValue s.cfg z) :: s.trace })) := by
  have hfailed : event s = { s with sub := .release, nowIn := ts, trace := .now (clockValue s.cfg z) :: s.trace } :=
    (event_of_late hs hl hn hz).trans (if_pos hnss)
  refine (reaches_of_event hr (answered_of_wait hl (by simp [hs]) (by simp [hn])) hfailed).trans ?_
  exact reaches_of_event (by exact hr) (answered_of_wait (by exact hl) nofun (by simp)) rfl

/-- A wait with chip-select active that misses its level once and is late then. -/
theorem reaches_givenUp (hr : s.ready = false) (hs : s.sub = .start) (hl : waitLevel s.tph = some l) (hw : w ≠ l)
    (hb : s.busyIn = w :: bs) (hn : s.nowIn = a :: z :: ts) (hz : late s.cfg a z s.cfg.time.timeoutMs = true)
    (hnss : s.nssQ = s.cfg.pin.nssActive) :
    Reaches 4 s (xferFail (driveNss s.cfg.pin.nssInactive { s with
      tw0 := clockValue s.cfg a, busyIn := bs, nowIn := ts,
      trace := .now (clockValue s.cfg z) :: .pinRead w :: .now (clockValue s.cfg a) :: s.trace })) := by
  refine (reaches_of_event hr (answered_of_wait hl (by simp [hs]) (by simp [hn]))
    (event_of_wait_start hs hl hn)).trans ?_
  rw [hb]
  refine (reaches_of_event (s := s.waiting a [] (w :: bs) (z :: ts)) hr
    (answered_of_wait (by exact hl) nofun nofun) (event_of_miss rfl hl hw rfl)).trans ?_
  exact reaches_late (by exact hr) rfl (by exact hl) rfl ((late_clock_start ..).trans hz) (by exact hnss)

end Wait

/-- Settles O31: T1 passes, T2 and T3 write the frame, and T4 gives up; the one stage of the operation then returns
`Fail(Timeout)`. -/
theorem frameTimesOutAtHighWait : Obligations.FrameTimesOutAtHighWait := by
  intro s i tx n a b z bs ts hr ha hi hb hn hz
  obtain ⟨p, hexec⟩ := exec_of_encode_frame hi
  have hreach := (reaches_wait_next (s := launch [.xfer ⟨tx, n⟩ p] s) (l' := .t2) rfl rfl (.inl ⟨rfl, rfl, rfl⟩) hb
    hn).trans <|
      (reaches_select (l := .t3) (by rfl) (by rfl) (.inl ⟨rfl, rfl⟩)).trans <|
        (reaches_busWrite (by rfl) (by rfl) rfl).trans <|
          reaches_givenUp (l := .high) (by rfl) (by rfl) (by rfl) (by decide) rfl rfl (by exact hz) rfl
  rw [xferFail_alone (by simp [launch, enterCall, enterStage])] at hreach
  exact ⟨_, hexec.trans (operation_runs hr ha hreach rfl), ⟨rfl, rfl, rfl, rfl⟩, rfl, ⟨rfl, rfl, rfl, rfl, rfl, rfl⟩,
    ⟨rfl, rfl, rfl, rfl, rfl, rfl, rfl, rfl⟩, ⟨rfl, rfl, rfl, rfl⟩, rfl, rfl, rfl, rfl, rfl, rfl⟩

end Sys2Proof.Machine
end

section
/-! Proofs: the frames and pseudo-operations that are one exchange (41_primitives.md R120 to R133), run alone on a prompt
busy line: what each returns and which registers of card resolution it writes. -/

namespace Sys2Proof.Machine

/-! ### Writes and byte reads: no test of their own (R120 to R122, R124 to R128) -/

/-- Settles O22: each of the three is one write-only exchange with no test. -/
theorem registerWritesComplete : Obligations.RegisterWritesComplete :=
  fun _ _ _ hr => ⟨runsPlain_xfer hr rfl, runsPlain_xfer hr rfl, runsPlain_xfer hr rfl⟩

/-- Settles O23: each of the three is one write-only exchange with no test. -/
theorem radioWritesComplete : Obligations.RadioWritesComplete :=
  fun _ hr => ⟨fun _ _ => runsPlain_xfer hr rfl, fun _ _ => runsPlain_xfer hr rfl, runsPlain_xfer hr rfl⟩

/-- An instruction that runs one exchange leaves the answer in `RXBUF`, unless its response length is 0. -/
theorem RunsPlain.rxbuf {i : Instr} {s : State} {x : Xfer} {rx : List Byte} (h : RunsPlain i s [.xfer x rx]) :
    ∃ t, exec i s = .next t ∧ t.rxbuf = if x.n = 0 then s.rxbuf else rx := by
  obtain ⟨t, he, ⟨-, -, -, -, -, -, -, hrx⟩, -⟩ := h
  exact ⟨t, he, hrx⟩

/-- A byte read leaves the registers of card resolution, and its answer in `RXBUF` unless the length operand is 0. -/
theorem byteRead_completes {i : Instr} {s : State} {tx rx : List Byte} {n : Byte} (hr : s.ready = true)
    (he : exec i s = operation [.xfer ⟨tx, n.toNat⟩ .plain] s) (h : Answers s [.xfer ⟨tx, n.toNat⟩ rx] 0) :
    RunsPlain i s [.xfer ⟨tx, n.toNat⟩ rx] ∧ ∃ t, exec i s = .next t ∧ t.rxbuf = if n = 0 then s.rxbuf else rx := by
  have hruns := runsPlain_xfer hr he h
  have hzero : n.toNat = 0 ↔ n = 0 := BitVec.toNat_inj (y := 0)
  simpa only [hzero] using And.intro hruns hruns.rxbuf

/-- Settles O25: both are one exchange with no test, whose response length is the operand `n`. -/
theorem byteReadsComplete : Obligations.ByteReadsComplete :=
  fun _ _ _ _ hr => ⟨byteRead_completes hr rfl, byteRead_completes hr rfl⟩

/-! ### Register reads: `RVAL` takes the value read, then comes the operation's test (R123, R129, R131 to R133) -/

/-- What the outcome of the last test of a single operation gives to the caller. -/
inductive PostRes.Returns : PostRes → OpResult → Prop where
  | ok : Returns .ok .ok
  | okState (v : BitVec 3) : Returns (.okState v) (.okState v)
  | fail (d : DiagCode) : Returns (.fail d) (.fail d)

/-- A single operation of one exchange, with what its test is given and what the test answers. -/
theorem operation_xfer_returns {s : State} {x : Xfer} {p : Post} {rx : List Byte} {r : PostRes} {R : OpResult}
    {W : CascadeBuffer × Byte × BitVec 9 × Word × Coarse} (hr : s.ready = true) (hp : p.alone = true)
    (hR : r.Returns R) (hpost : ∀ e, GotWork s e x rx → postRes p (postState p e) = r ∧ (postState p e).work = W)
    (h : Answers s [.xfer x rx] 0) :
    ∃ t, operation [.xfer x p] s = .next t ∧ Returned s t [.xfer x rx] R ∧ t.work = W := by
  obtain ⟨ha, u, hprompt⟩ := h
  obtain ⟨k, t, hreach, hret, hwork⟩ := (launch_op (gs := []) hprompt).ends (R := R) hp hprompt
    (by cases hR <;> simp) hpost
  obtain ⟨hready, -⟩ := hret.1
  exact ⟨t, operation_runs hr ha hreach hready, hret, hwork⟩

/-- With a response, the test of an exchange finds the answer in `RXBUF` and the working registers as they were. -/
theorem GotWork.of_response {s e : State} {x : Xfer} {rx : List Byte} (h : GotWork s e x rx) (hn : x.n ≠ 0) :
    e.rxbuf = rx ∧ e.cfg = s.cfg ∧ e.cb = s.cb ∧ e.sak = s.sak ∧ e.rxcnt = s.rxcnt ∧ e.coarse = s.coarse := by
  obtain ⟨hwork, hcfg, hrx⟩ := h
  simp only [State.work, Prod.mk.injEq] at hwork
  obtain ⟨hcb, hsak, hcnt, -, hcoarse⟩ := hwork
  exact ⟨hrx.trans (if_neg hn), hcfg, hcb, hsak, hcnt, hcoarse⟩

/-- A single operation of one register read that writes `RVAL` alone, with what its test answers on the value read. -/
theorem readValue_returns {i : Instr} {s : State} {x : Xfer} {p : Post} {rx : List Byte} {r : PostRes} {R : OpResult}
    (hr : s.ready = true) (he : exec i s = operation [.xfer x p] s) (hn : x.n ≠ 0) (hp : p.alone = true)
    (hset : ∀ e, postState p e = setRval e)
    (htest : ∀ e : State, e.cfg = s.cfg → e.rval = fromLe32 rx → postRes p e = r) (hR : r.Returns R)
    (h : Answers s [.xfer x rx] 0) :
    ∃ t, exec i s = .next t ∧ Returned s t [.xfer x rx] R ∧
      t.rval = fromLe32 rx ∧ t.cb = s.cb ∧ t.sak = s.sak ∧ t.rxcnt = s.rxcnt ∧ t.coarse = s.coarse := by
  have hpost (e : State) (hgot : GotWork s e x rx) : postRes p (postState p e) = r ∧
      (postState p e).work = (s.cb, s.sak, s.rxcnt, fromLe32 rx, s.coarse) := by
    obtain ⟨hrx, hcfg, hcb, hsak, hcnt, hcoarse⟩ := hgot.of_response hn
    rw [hset]
    exact ⟨htest _ hcfg (congrArg fromLe32 hrx), by simp [State.work, setRval, hrx, hcb, hsak, hcnt, hcoarse]⟩
  obtain ⟨t, hop, hret, hwork⟩ := operation_xfer_returns hr hp hR hpost h
  simp only [State.work, Prod.mk.injEq] at hwork
  obtain ⟨hcb, hsak, hcnt, hrval, hcoarse⟩ := hwork
  exact ⟨t, he.trans hop, hret, hrval, hcb, hsak, hcnt, hcoarse⟩

/-- Settles O24: both are one register read, with no test. -/
theorem registerReadsComplete : Obligations.RegisterReadsComplete :=
  fun _ _ _ hr =>
    ⟨readValue_returns hr rfl nofun rfl (fun _ => rfl) (fun _ _ _ => rfl) .ok,
      readValue_returns hr rfl nofun rfl (fun _ => rfl) (fun _ _ _ => rfl) .ok⟩

/-- Settles O27: both are one read of RF_STATUS. The first returns the state; the second tests it, and passes exactly on
WaitTransmit. -/
theorem transceiveStateOperations : Obligations.TransceiveStateOperations := by
  intro s rx hr h
  refine ⟨readValue_returns hr rfl nofun rfl (fun _ => rfl) (fun e hcfg hval => ?_) (.okState _) h, ?_⟩
  · rw [postRes, hcfg, hval]
  · have htest (e : State) (hcfg : e.cfg = s.cfg) (hval : e.rval = fromLe32 rx) : postRes .check e =
        if transceiveState s.cfg (fromLe32 rx) = 1 then .ok else .fail .dgProtocolState := by
      rw [postRes, hcfg, hval, waitTransmit]
    refine readValue_returns hr rfl nofun rfl (fun _ => rfl) htest ?_ h
    split
    · exact .ok
    · exact .fail _

/-- Settles O28: one read of RX_STATUS, whose count field goes to `RXCNT`. -/
theorem rxCountCompletes : Obligations.RxCountCompletes := by
  intro s rx hr h
  have hpost (e : State) (hgot : GotWork s e (xGetRxCount s.cfg) rx) : postRes .count (postState .count e) = .ok ∧
      (postState .count e).work = (s.cb, s.sak, rxCount s.cfg (fromLe32 rx), fromLe32 rx, s.coarse) := by
    obtain ⟨hrx, hcfg, hcb, hsak, -, hcoarse⟩ := hgot.of_response nofun
    obtain ⟨hset, hres⟩ := post_count e
    exact ⟨hres, by simp [hset, State.work, hrx, hcfg, hcb, hsak, hcoarse]⟩
  obtain ⟨t, hop, hret, hwork⟩ := operation_xfer_returns hr rfl .ok hpost h
  simp only [State.work, Prod.mk.injEq] at hwork
  obtain ⟨hcb, hsak, hcnt, hrval, hcoarse⟩ := hwork
  exact ⟨t, hop, hret, hrval, hcnt, hcb, hsak, hcoarse⟩

/-! ### The knowledge that the mask frames leave (R121, R122, 20_memory.md R54, R55) -/

namespace Known

/-- An OR distributes over the known bits; the mask's own bits are known to be 1. -/
theorem or_agrees {k : Known} {v : Word} (h : k.agrees v = true) (m : Word) : (k.or m).agrees (v ||| m) = true := by
  simp only [agrees, beq_iff_eq] at h ⊢
  calc
    (v ||| m) &&& (k.known ||| m) = (v &&& k.known) ||| m := by ext j; cases hm : m[j] <;> simp [hm]
    _ = k.val ||| m := by rw [h]

/-- The bits that the mask clears are known to be 0; the others are known as before. -/
theorem and_agrees {k : Known} {v : Word} (h : k.agrees v = true) (m : Word) : (k.and m).agrees (v &&& m) = true := by
  simp only [agrees, beq_iff_eq] at h ⊢
  calc
    (v &&& m) &&& (k.known ||| ~~~m) = (v &&& k.known) &&& m := by ext j; cases hm : m[j] <;> simp [hm]
    _ = k.val &&& m := by rw [h]

theorem or_or_self (k : Known) (m : Word) : (k.or m).or m = k.or m := by
  simp [Known.or, BitVec.or_assoc]

theorem and_and_self (k : Known) (m : Word) : (k.and m).and m = k.and m := by
  simp [Known.and, BitVec.or_assoc, BitVec.and_assoc]

theorem or_zero (k : Known) : k.or 0 = k := by
  simp [Known.or]

theorem and_allOnes (k : Known) : k.and (BitVec.allOnes 32) = k := by
  simp [Known.and, -BitVec.reduceAllOnes]

end Known

/-- Settles O30: soundness, idempotence and the neutral masks by the laws of `Known`; the bits are those of OR and AND. -/
theorem maskFramesAreSound : Obligations.MaskFramesAreSound := by
  intro k v m h
  refine ⟨⟨Known.or_agrees h m, Known.and_agrees h m⟩, ⟨k.or_or_self m, k.and_and_self m⟩, ⟨k.or_zero, k.and_allOnes⟩,
    fun j => ⟨fun hm => ?_, fun hm => ?_, fun hm => ?_, fun hm => ?_⟩⟩
  all_goals simp [hm]

end Sys2Proof.Machine
end

section
/-! Proofs: the time test of the polls (42_system_ops.md R150, R152, 43_uid_resolution.md R176), and BEGIN and RESET
(R150, R151, R154). -/

namespace Sys2Proof.Machine

/-! ### The time test of a poll -/

/-- P3 of a poll: the event is the poll's time test. -/
theorem event_of_poll_time {s : State} {x : Xfer} {p : Post} {ms : Nat} (hs : s.sub = .time) (ht : s.tph = .t0)
    (hg : curStage s = .poll x p ms) : event s = pollTimeEvent x ms s := by
  simp only [event, hs, timeEvent, ht, waitLevel, hg]

/-- Settles O38: the three steps are polls of the named frames, bounds and codes, and what the event does depends on the
outcome of the time test alone. -/
theorem pollTimeTest : Obligations.PollTimeTest := by
  intro s x d ms hcall hs ht hcand hstep
  obtain ⟨p, hg, hd⟩ : ∃ p, curStage s = .poll x p ms ∧ expiredCode s.stepLbl = d := by
    rw [curStage_host hcall]
    rcases hstep with ⟨hl, rfl, rfl, rfl⟩ | ⟨hl, rfl, rfl, rfl⟩ | ⟨hl, rfl, rfl, rfl⟩
    all_goals rw [hl]; exact ⟨_, rfl, rfl⟩
  rw [event_of_poll_time hs ht hg, pollTimeEvent, hd]
  refine ⟨fun hin => ?_, fun hlate => ?_⟩
  · rw [if_neg (by simp [hin])]
    exact ⟨rfl, rfl, rfl, rfl, rfl, rfl⟩
  · have hraise : failWith d (readClock s) = raise d (readClock s) := by simp only [failWith, readClock_call, hcall]
    rw [if_pos hlate, hraise]
    exact ⟨rfl, rfl, rfl, hcand, rfl⟩

/-! ### `RESET_CHIP` (R150) -/

/-- The result and working registers with nothing stored but `RVAL` (10_state.md R33). -/
def heldRval (v : Word) : CascadeBuffer × Byte × BitVec 9 × Word × Uid × UidLen × Byte × Byte :=
  (CascadeBuffer.zero, 0, 0, v, Uid.zero, .len0, 0, 0)

section Reset

variable {s0 h s : State} {c : BitVec 3} {past : List Line}

/-- The pulse and the two sleeps of `RESET_CHIP`, up to the poll. -/
theorem At.resetPulse {rest : List Line} {polls : Nat} (hc : c = 0 ∨ c = 1 ∨ c = 5)
    (a : At s0 h s c .rstLow past (.pin .rst s0.cfg.pin.rstAssert :: .sleep s0.cfg.time.resetLowMs ::
      .pin .rst s0.cfg.pin.rstRelease :: .sleep s0.cfg.time.resetSettleMs :: rest) polls) :
    ∃ k t, Reaches k s t ∧
      At s0 h t c .rstPoll (past ++ [.pin .rst s0.cfg.pin.rstAssert] ++ [.sleep s0.cfg.time.resetLowMs] ++
        [.pin .rst s0.cfg.pin.rstRelease] ++ [.sleep s0.cfg.time.resetSettleMs]) rest polls ∧
      t.held = s.held ∧ t.nssQ = s.nssQ ∧ t.rstQ = s0.cfg.pin.rstRelease := by
  have hnext : nextStep c .rstLow = some .rstHold ∧ nextStep c .rstHold = some .rstHigh ∧
      nextStep c .rstHigh = some .rstSettle ∧ nextStep c .rstSettle = some .rstPoll := by
    rcases hc with rfl | rfl | rfl <;> exact ⟨rfl, rfl, rfl, rfl⟩
  obtain ⟨hlow, hhold, hhigh, hsettle⟩ := hnext
  obtain ⟨t1, r1, a1, held1, nss1, -⟩ := a.pin (by rw [a.walk.cfg]; rfl) hlow
  obtain ⟨t2, r2, a2, held2, nss2, -⟩ := a1.sleep (by rw [a1.walk.cfg]; rfl) hhold
  obtain ⟨t3, r3, a3, held3, nss3, rst3, -⟩ := a2.pin (by rw [a2.walk.cfg]; rfl) hhigh
  obtain ⟨t4, r4, a4, held4, nss4, rst4, -⟩ := a3.sleep (by rw [a3.walk.cfg]; rfl) hsettle
  exact ⟨_, t4, r1.trans (r2.trans (r3.trans r4)), a4, held4.trans (held3.trans (held2.trans held1)),
    nss4.trans (nss3.trans (nss2.trans nss1)), rst4.trans rst3⟩

/-- A poll that is the last step of its command and whose first read passes: `Done(ST_OK)`. -/
theorem At.passLastPoll {l : StepLabel} {polls ms : Nat} {x : Xfer} {p : Post} {rx : List Byte}
    {H : CascadeBuffer × Byte × BitVec 9 × Word × Uid × UidLen × Byte × Byte} (a : At s0 h s c l past [.xfer x rx] 1)
    (hg : stageOf s.cfg s.cb c l = .poll x p ms) (hn : nextStep c l = none)
    (hp : Prompt s0 h (past ++ [.xfer x rx]) polls)
    (hpost : ∀ e, GotAnswer s e x rx → postRes p (postState p e) = .ok ∧ (postState p e).held = H) :
    ∃ k t, Reaches k s t ∧ Finished s0 t c (past ++ [.xfer x rx]) polls .stOk .dgNone .noStep ∧ t.held = H ∧
      t.nssQ = s0.cfg.pin.nssInactive ∧ t.rstQ = s.rstQ := by
  obtain ⟨k, e, _, _, _, hreach, hw, ho, hheld, hnss, hrst, _, _, hrx⟩ := a.poll hg
  obtain ⟨hres, hH⟩ := hpost e ⟨hheld, hw.cfg.trans a.walk.cfg.symm, hrx⟩
  have ho' := postState_own p ho
  have hlast : nextStage (postState p e) = { postState p e with tph := .t0, sub := .fin .stOk } := by
    simp only [nextStage, ho'.call, advance, ho'.cmd, ho'.lbl, hn]
  obtain ⟨-, hnss', hrst', -⟩ := postState_keeps p e
  obtain ⟨t, hdone, hfin, hheld', hnss'', hrst'', -⟩ := finish_at .stOk (postState_walk p hw) ho' hp
  rw [hres, afterPost, hlast] at hreach
  exact ⟨_, t, hreach.trans hdone, hfin, hheld'.trans hH, hnss''.trans (hnss'.trans hnss),
    hrst''.trans (hrst'.trans hrst)⟩

/-- The test of an IRQ poll on the value `irq` read: `RVAL` takes it, and the poll passes as its bit says. -/
theorem GotAnswer.irqBit {e : State} {cfg : Cfg} {irq : List Byte} {b : Nat} {v : Word}
    (hgot : GotAnswer s e (xGetIrqStatus cfg) irq) (hheld : s.held = heldRval v) :
    postRes (.irqBit b) (postState (.irqBit b) e) = (if testBit (fromLe32 irq) b then .ok else .again) ∧
      (postState (.irqBit b) e).held = heldRval (fromLe32 irq) := by
  obtain ⟨hkept, -, hrx⟩ := hgot
  rw [if_neg (show (xGetIrqStatus cfg).n ≠ 0 from nofun)] at hrx
  obtain ⟨hset, hres⟩ := post_irqBit e b
  have hwork := hkept.trans hheld
  simp only [State.held, heldRval, Prod.mk.injEq] at hwork
  rw [hres, hset, hrx]
  exact ⟨rfl, by simp [State.held, heldRval, hwork]⟩

theorem Finished.pinsIdle {t : State} {ls : List Line} {polls : Nat} {st : Status} {d : DiagCode} {l : StepLabel}
    (hfin : Finished s t c ls polls st d l) (hnss : t.nssQ = s.cfg.pin.nssInactive)
    (hrst : t.rstQ = s.cfg.pin.rstRelease) : PinsIdle t := by
  obtain ⟨-, -, ⟨hcfg, -⟩, -⟩ := hfin
  exact ⟨hnss.trans (by rw [hcfg]), hrst.trans (by rw [hcfg])⟩

/-- `RESET_CHIP` as the end of BEGIN or RESET, when the first read of IRQ_STATUS shows the IDLE bit. -/
theorem At.resetChip_completes {irq : List Byte} {polls : Nat} (hc : c = 0 ∨ c = 1)
    (a : At s0 h s c .rstLow past (resetLines s0.cfg irq) 1) (hheld : s.held = heldRval 0)
    (hbit : testBit (fromLe32 irq) s0.cfg.field.idleIrqBit = true)
    (hp : Prompt s0 h (past ++ resetLines s0.cfg irq) polls) :
    ∃ k t, Reaches k s t ∧ Finished s0 t c (past ++ resetLines s0.cfg irq) polls .stOk .dgNone .noStep ∧
      Cleared t ∧ PinsIdle t ∧ t.rval = fromLe32 irq := by
  obtain ⟨k, u, hpulse, au, held_u, -, rst_u⟩ := a.resetPulse (hc.imp_right .inl)
  have hlast : nextStep c .rstPoll = none := by rcases hc with rfl | rfl <;> rfl
  obtain ⟨k', t, hpoll, hfin, hH, hnss, hrst⟩ := au.passLastPoll (by rw [au.walk.cfg]; rfl) hlast
    (by simpa [resetLines] using hp) fun e hgot => by
      obtain ⟨hres, hval⟩ := hgot.irqBit (held_u.trans hheld)
      exact ⟨hres.trans (if_pos hbit), hval⟩
  obtain ⟨hcleared, hrval⟩ := held_cleared hH
  exact ⟨_, t, hpulse.trans hpoll, by simpa [resetLines] using hfin, hcleared,
    hfin.pinsIdle hnss (hrst.trans rst_u), hrval⟩

end Reset

/-- A host command whose run ends is what its instruction answers. -/
theorem Finished.hostCommand_eq {s t : State} {c : BitVec 3} {ls : List Line} {polls k : Nat} {st : Status} {d : DiagCode}
    {l : StepLabel} (hfin : Finished s t c ls polls st d l) (hr : s.ready = true) (ha : s.runAhead = true)
    (h : Reaches k (accept c s) t) : hostCommand c s = .next t := by
  obtain ⟨⟨hready, -⟩, -⟩ := hfin
  exact hostCommand_runs hr ha h hready

/-- Settles O36: RESET is `RESET_CHIP`; BEGIN is the two pin writes and then `RESET_CHIP`. -/
theorem beginAndResetComplete : Obligations.BeginAndResetComplete := by
  intro s irq hr hbit
  refine ⟨fun ⟨ha, u, hp⟩ => ?_, fun ⟨ha, u, hp⟩ => ?_⟩
  · obtain ⟨a0, held0, -⟩ := accept_at (c := 0) rfl hp
    obtain ⟨t1, r1, a1, held1, -⟩ := a0.pin (by rw [a0.walk.cfg]; rfl) rfl
    obtain ⟨t2, r2, a2, held2, -⟩ := a1.pin (by rw [a1.walk.cfg]; rfl) rfl
    obtain ⟨k, t, r3, hfin, hres⟩ := a2.resetChip_completes (.inl rfl) (held2.trans (held1.trans held0)) hbit hp
    exact ⟨t, hfin.hostCommand_eq hr ha (r1.trans (r2.trans r3)), hfin, hres⟩
  · obtain ⟨a0, held0, -⟩ := accept_at (c := 1) rfl hp
    obtain ⟨k, t, r1, hfin, hres⟩ := a0.resetChip_completes (.inr rfl) held0 hbit hp
    exact ⟨t, hfin.hostCommand_eq hr ha r1, hfin, hres⟩

/-- Settles O37: the pulse reads no clock, so `TP0` is the first clock value; the poll's first time test is late. -/
theorem resetPollExpires : Obligations.ResetPollExpires := by
  intro s u irq a z ts ts' hr ha hbit hp hfirst hafter hlate
  obtain ⟨a0, held0, -⟩ := accept_at (c := 1) rfl hp
  obtain ⟨k, v, hpulse, av, held_v, -, rst_v⟩ := a0.resetPulse (.inr (.inl rfl))
  have htp0 (t : Time) (rest : List Time) (hn : v.nowIn = t :: rest) :
      late v.cfg t z s.cfg.time.timeoutMs = true := by
    have hnow : v.nowIn = a :: ts := (av.walk.nowIn (n := 0) hp rfl).trans hfirst
    obtain ⟨rfl, -⟩ := List.cons.inj (hn.symm.trans hnow)
    rw [av.walk.cfg]; exact hlate
  obtain ⟨k', t, hpoll, hfin, hwork, ⟨huid, hlen, hv0, hv1⟩, hnss, hrst, hnow⟩ :=
    av.expires (d := .dgResetTimeout) (by rw [av.walk.cfg]; rfl) (fun _ => rfl) rfl nofun hafter htp0 hp fun e hgot => by
      obtain ⟨hres, hval⟩ := hgot.irqBit (held_v.trans held0)
      exact ⟨hres.trans (if_neg (by simp [hbit])), hval⟩
  simp only [heldRval, Prod.mk.injEq] at hwork
  obtain ⟨hcb, hsak, hcnt, -⟩ := hwork
  exact ⟨t, hfin.hostCommand_eq hr ha (hpulse.trans hpoll), hfin, ⟨huid, hlen, hv0, hv1, hcb, hsak, hcnt⟩,
    hfin.pinsIdle hnss (hrst.trans rst_v), hnow⟩

end Sys2Proof.Machine
end

section
/-! Proofs: the version commands (42_system_ops.md R156 to R159), on a prompt busy line and on one that stays LOW. -/

namespace Sys2Proof.Machine

/-! ### The one exchange of a version command (R156) -/

/-- A version command has the one step VER_READ. -/
theorem firstStep_version {c : BitVec 3} (hc : c = 2 ∨ c = 3 ∨ c = 4) : firstStep c = some .verRead := by
  rcases hc with rfl | rfl | rfl <;> rfl

/-- The three version commands: the code, the instruction's meaning and the EEPROM address. -/
theorem version_cases {cfg : Cfg} {i : Instr} {c : BitVec 3} {a : Byte}
    (h : i = .getFirmware ∧ c = 2 ∧ a = cfg.arg.eeFirmwareVersion ∨
      i = .getProductVersion ∧ c = 3 ∧ a = cfg.arg.eeProductVersion ∨
      i = .getEepromVersion ∧ c = 4 ∧ a = cfg.arg.eeEepromVersion) :
    (c = 2 ∨ c = 3 ∨ c = 4) ∧ versionAddress cfg c = a ∧ ∀ s, exec i s = hostCommand c s := by
  rcases h with ⟨rfl, rfl, rfl⟩ | ⟨rfl, rfl, rfl⟩ | ⟨rfl, rfl, rfl⟩
  · exact ⟨.inl rfl, rfl, fun _ => rfl⟩
  · exact ⟨.inr (.inl rfl), rfl, fun _ => rfl⟩
  · exact ⟨.inr (.inr rfl), rfl, fun _ => rfl⟩

theorem versionLen_of_wf {c : Cfg} (h : c.wf = true) : c.arg.versionLen = 2 := by
  simp only [Cfg.wf, Bool.and_eq_true, decide_eq_true_eq] at h
  tauto

/-- Settles O39: the command is one READ_EEPROM exchange, whose test stores the two bytes and answers `finish`. -/
theorem versionCommandsComplete : Obligations.VersionCommandsComplete := by
  intro s v0 v1 hr hwf i c a hi ls ⟨ha, u, hp⟩
  obtain ⟨hc, haddr, hexec⟩ := version_cases hi
  obtain ⟨a0, held0, -, rst0⟩ := accept_at (firstStep_version hc) hp
  have hstage : stageOf (accept c s).cfg (accept c s).cb c .verRead =
      .xfer ⟨[s.cfg.op.readEeprom, a, 2], 2⟩ .version := by
    rw [a0.walk.cfg]
    simp only [stageOf, xReadEeprom, haddr, versionLen_of_wf hwf]
    rfl
  have hpost (e : State) (hgot : GotAnswer (accept c s) e ⟨[s.cfg.op.readEeprom, a, 2], 2⟩ [v0, v1]) :
      postRes .version (postState .version e) = .finish .stOk ∧
        (postState .version e).held = (CascadeBuffer.zero, 0, 0, 0, Uid.zero, .len0, v0, v1) := by
    obtain ⟨hheld, -, hrx⟩ := hgot
    obtain ⟨hset, hres⟩ := post_version e
    have hkept := hheld.trans held0
    simp only [State.held, Prod.mk.injEq] at hkept
    exact ⟨hres, by simp [hset, State.held, hkept, hrx, byteAt]⟩
  obtain ⟨k, t, hreach, hfin, hheld, hnss, hrst⟩ := a0.finishes hstage hp hpost
  simp only [State.held, Prod.mk.injEq] at hheld
  obtain ⟨hcb, hsak, hcnt, hrval, huid, hlen, hver0, hver1⟩ := hheld
  exact ⟨t, (hexec s).trans (hfin.hostCommand_eq hr ha hreach), hfin,
    ⟨hver0, hver1, huid, hlen, hcb, hsak, hcnt, hrval⟩, hnss, hrst.trans rst0⟩

/-! ### A busy line that stays LOW after the write (R159, 40_transport.md R104) -/

/-- Accept of a version command stands at T1 of its READ_EEPROM frame. -/
theorem accept_version {c : BitVec 3} (hc : c = 2 ∨ c = 3 ∨ c = 4) (s : State) :
    accept c s = startXfer (xReadEeprom s.cfg (versionAddress s.cfg c) s.cfg.arg.versionLen)
      { acceptRegs c s with stepLbl := .verRead } := by
  rcases hc with rfl | rfl | rfl <;> rfl

/-- An exchange whose line is LOW at T1 and still LOW at T4 with a late clock read: the frame is written, chip-select is
released, and the exchange fails (40_transport.md R104, R108). -/
theorem reaches_lowAtT4 {s : State} {a b z : Time} {bs : List Level} {ts : List Time} (hr : s.ready = false)
    (hs : s.sub = .start) (ht : s.tph = .t1) (hb : s.busyIn = .low :: .low :: bs) (hn : s.nowIn = a :: b :: z :: ts)
    (hz : late s.cfg b z s.cfg.time.timeoutMs = true) :
    Reaches 8 s (xferFail { s with
      tph := .t4, busyIn := bs, nowIn := ts, tw0 := clockValue s.cfg b, nssQ := s.cfg.pin.nssInactive,
      trace := .pinWrite .nss s.cfg.pin.nssInactive :: .now (clockValue s.cfg z) :: .pinRead .low ::
        .now (clockValue s.cfg b) :: .busWrite s.txbuf :: .pinWrite .nss s.cfg.pin.nssActive ::
        .pinRead .low :: .now (clockValue s.cfg a) :: s.trace }) :=
  (reaches_wait_next (l' := .t2) hr hs (.inl ⟨ht, rfl, rfl⟩) hb hn).trans <|
    (reaches_select (l := .t3) (by exact hr) (by exact hs) (.inl ⟨rfl, rfl⟩)).trans <|
      (reaches_busWrite (by exact hr) (by exact hs) rfl).trans <|
        reaches_givenUp (l := .high) (by exact hr) (by exact hs) (by rfl) (by decide) rfl rfl (by exact hz) rfl

/-- Settles O40: the one exchange fails at T4, and the failure is raised with the candidate T4. -/
theorem versionTimesOut : Obligations.VersionTimesOut := by
  intro s a b z bs ts hr ha hb hn hz i c e hi
  obtain ⟨hc, haddr, hexec⟩ := version_cases hi
  have hstatus : abortStatus c = .stVersionError := by rcases hc with rfl | rfl | rfl <;> rfl
  have hfail := reaches_lowAtT4 (s := startXfer (xReadEeprom s.cfg (versionAddress s.cfg c) s.cfg.arg.versionLen)
    { acceptRegs c s with stepLbl := .verRead }) rfl rfl rfl hb hn hz
  rw [← accept_version hc, xferFail_host (by rw [accept_version hc]; rfl)] at hfail
  have hreach := hfail.trans (reaches_raise _ (by rw [accept_version hc]; rfl))
  refine ⟨_, (hexec s).trans (hostCommand_runs hr ha hreach rfl), ?_⟩
  rw [accept_version hc, haddr]
  exact ⟨⟨rfl, hstatus, rfl, rfl, rfl, rfl, rfl, rfl, rfl, rfl, rfl, rfl, rfl, rfl⟩, by rw [← hstatus]; rfl,
    rfl, rfl, rfl, rfl, rfl⟩

end Sys2Proof.Machine
end

section
/-! Proofs: what each test does with the registers of card resolution, said for single operations and for READ_CARD_SERIAL
alike, and the four card commands run alone on a prompt busy line (43_uid_resolution.md R175 to R187; log entry 12). -/

namespace Sys2Proof.Machine

/-! ### What a test does with the registers of card resolution -/

/-- The working registers of card resolution: `CB`, `SAK`, `RXCNT`, `RVAL`. -/
structure Regs where
  cb : CascadeBuffer
  sak : Byte
  rxcnt : BitVec 9
  rval : Word

def State.regs (s : State) : Regs :=
  ⟨s.cb, s.sak, s.rxcnt, s.rval⟩

/-- With the registers `R` and the answer `rx` of the exchange `x`, the test of `p` answers `r` and leaves `R'`. -/
def Tests (c : Cfg) (p : Post) (x : Xfer) (rx : List Byte) (R : Regs) (r : PostRes) (R' : Regs) : Prop :=
  ∀ e : State, e.cfg = c → e.regs = R → (x.n ≠ 0 → e.rxbuf = rx) →
    postRes p (postState p e) = r ∧ (postState p e).regs = R'

theorem acRespLen_of_wf {c : Cfg} (h : c.wf = true) : c.card.acRespLen = 5 := by
  simp only [Cfg.wf, Bool.and_eq_true, decide_eq_true_eq] at h
  tauto

theorem sakLen_of_wf {c : Cfg} (h : c.wf = true) : c.card.sakLen = 1 := by
  simp only [Cfg.wf, Bool.and_eq_true, decide_eq_true_eq] at h
  tauto

/-- A read of an anticollision answer asks for five bytes (30_encoding.md R85). -/
theorem xReadData_acRespLen {c : Cfg} (h : c.wf = true) : (xReadData c c.card.acRespLen).n = 5 := by
  rw [xReadData, acRespLen_of_wf h]; rfl

theorem xReadData_sakLen {c : Cfg} (h : c.wf = true) : (xReadData c c.card.sakLen).n = 1 := by
  rw [xReadData, sakLen_of_wf h]; rfl

/-- The checksum test fails only with `BCC_CHECK` (43_uid_resolution.md R180). -/
theorem checksum_fails_iff (c : Cfg) (u0 u1 u2 u3 bcc : Byte) :
    (c.bccCheck && !bccOk u0 u1 u2 u3 bcc) = true ↔ c.bccCheck = true ∧ u0 ^^^ u1 ^^^ u2 ^^^ u3 ≠ bcc := by
  simp [bccOk]

theorem ChecksumPasses.not_fails {c : Cfg} {u0 u1 u2 u3 bcc : Byte} (h : ChecksumPasses c u0 u1 u2 u3 bcc) :
    ¬(c.bccCheck = true ∧ u0 ^^^ u1 ^^^ u2 ^^^ u3 ≠ bcc) :=
  fun ⟨hon, hne⟩ => hne (h hon)

namespace Tests

variable {c : Cfg} {R : Regs} {x : Xfer} {rx st cnt : List Byte} {u0 u1 u2 u3 bcc b : Byte}

theorem plain : Tests c .plain x rx R .ok R := fun _ _ hR _ => ⟨rfl, hR⟩

theorem coarse {k : Coarse} : Tests c (.coarse k) x rx R .ok R := fun _ _ hR _ => ⟨rfl, hR⟩

theorem check_ok (h : ShowsWaitTransmit c st) :
    Tests c .check (xGetTransceiveState c) st R .ok { R with rval := fromLe32 st } := by
  rintro e rfl rfl hrx
  obtain rfl := hrx nofun
  exact ⟨if_pos h, rfl⟩

theorem check_fail (h : ¬ShowsWaitTransmit c st) :
    Tests c .check (xGetTransceiveState c) st R (.fail .dgProtocolState) { R with rval := fromLe32 st } := by
  rintro e rfl rfl hrx
  obtain rfl := hrx nofun
  exact ⟨if_neg h, rfl⟩

theorem countIs_ok (hwf : c.wf = true) (h : countOf c cnt = 5) :
    Tests c .countIs (xGetRxCount c) cnt R .ok { R with rxcnt := 5, rval := fromLe32 cnt } := by
  rintro e rfl rfl hrx
  obtain rfl := hrx nofun
  obtain ⟨hs, hr⟩ := post_countIs e
  rw [hr, hs, acRespLen_of_wf hwf]
  exact ⟨if_pos (congrArg BitVec.toNat h), by rw [← h]; rfl⟩

theorem countIs_fail (hwf : c.wf = true) (h : countOf c cnt ≠ 5) :
    Tests c .countIs (xGetRxCount c) cnt R (.fail .dgNoCardCount)
      { R with rxcnt := countOf c cnt, rval := fromLe32 cnt } := by
  rintro e rfl rfl hrx
  obtain rfl := hrx nofun
  obtain ⟨hs, hr⟩ := post_countIs e
  rw [hr, hs, acRespLen_of_wf hwf]
  exact ⟨if_neg fun hc => h (BitVec.eq_of_toNat_eq hc), rfl⟩

theorem countStop_zero (h : countOf c cnt = 0) :
    Tests c .countStop (xGetRxCount c) cnt R .stop { R with rxcnt := 0, rval := fromLe32 cnt } := by
  rintro e rfl rfl hrx
  obtain rfl := hrx nofun
  refine ⟨if_pos h, ?_⟩
  rw [← h]; rfl

theorem countStop_ok (h : countOf c cnt ≠ 0) :
    Tests c .countStop (xGetRxCount c) cnt R .ok { R with rxcnt := countOf c cnt, rval := fromLe32 cnt } := by
  rintro e rfl rfl hrx
  obtain rfl := hrx nofun
  exact ⟨if_neg h, rfl⟩

theorem level1 (hwf : c.wf = true) :
    Tests c .level1 (xReadData c c.card.acRespLen) [u0, u1, u2, u3, bcc] R
      (if c.bccCheck = true ∧ u0 ^^^ u1 ^^^ u2 ^^^ u3 ≠ bcc then .fail .dgChecksum else .ok)
      { R with cb := { R.cb with c0 := u0, c1 := u1, c2 := u2, c3 := u3, c8 := bcc } } := by
  rintro e rfl rfl hrx
  obtain ⟨hs, hr⟩ := post_level1 e
  rw [hr, hs, hrx (by rw [xReadData_acRespLen hwf]; decide)]
  exact ⟨if_congr (checksum_fails_iff ..) rfl rfl, rfl⟩

theorem level2 (hwf : c.wf = true) :
    Tests c .level2 (xReadData c c.card.acRespLen) [u0, u1, u2, u3, bcc] R
      (if c.bccCheck = true ∧ u0 ^^^ u1 ^^^ u2 ^^^ u3 ≠ bcc then .fail .dgChecksum else .ok)
      { R with cb := { R.cb with c4 := u0, c5 := u1, c6 := u2, c7 := u3, c9 := bcc } } := by
  rintro e rfl rfl hrx
  obtain ⟨hs, hr⟩ := post_level2 e
  rw [hr, hs, hrx (by rw [xReadData_acRespLen hwf]; decide)]
  exact ⟨if_congr (checksum_fails_iff ..) rfl rfl, rfl⟩

theorem sak (hwf : c.wf = true) : Tests c .sak (xReadData c c.card.sakLen) [b] R .ok { R with sak := b } := by
  rintro e rfl rfl hrx
  obtain ⟨hs, hr⟩ := post_sak e
  rw [hr, hs, hrx (by rw [xReadData_sakLen hwf]; decide)]
  exact ⟨rfl, rfl⟩

end Tests

/-! ### A single operation on its way along its lines -/

/-- The instruction `i`, run alone in `s`, has the lines `ls` to run; on the prompt line whose later answers are those
of `h` it has come to the stages `gs`, with the lines `rest` ahead, the registers `R` and `COARSE` with the value `k`. -/
structure Underway (s h : State) (i : Instr) (ls rest : List Line) (gs : List Stage) (R : Regs) (k : Coarse) :
    Prop where
  ready : s.ready = true
  ahead : s.runAhead = true
  prompt : Prompt s h ls 0
  run : ∃ gs0 n t past, exec i s = operation gs0 s ∧ past ++ rest = ls ∧ Reaches n (launch gs0 s) t ∧
    Op s h t past rest gs ∧ t.regs = R ∧ t.coarse = k

theorem work_eq_iff {e : State} {R : Regs} {k : Coarse} :
    e.work = (R.cb, R.sak, R.rxcnt, R.rval, k) ↔ e.regs = R ∧ e.coarse = k := by
  cases R
  simp [State.work, State.regs, and_assoc]

/-- What the answer of a test of a single operation, with the stages `gs` left after it, returns to the caller. -/
inductive PostRes.Ends : PostRes → List Stage → OpResult → Prop where
  | ok : Ends .ok [] .ok
  | stop (gs : List Stage) : Ends .stop gs .ok
  | fail (d : DiagCode) (gs : List Stage) : Ends (.fail d) gs (.fail d)

/-- A test that may fail and is the last one. -/
theorem PostRes.Ends.ite {P : Prop} [Decidable P] {d : DiagCode} :
    (if P then .fail d else .ok : PostRes).Ends [] (if P then .fail d else .ok) := by
  split <;> constructor

theorem Stage.xfer_or_sleep_of_alone {g : Stage} (h : g.alone = true) :
    (∃ x p, g = .xfer x p) ∨ ∃ ms, g = .sleep ms := by
  cases g with
  | xfer x p => exact .inl ⟨x, p, rfl⟩
  | sleep ms => exact .inr ⟨ms, rfl⟩
  | nothing | pin p l | poll x p ms => cases h

namespace Underway

variable {s h : State} {i : Instr} {gs : List Stage} {ls rest : List Line} {x : Xfer} {rx : List Byte} {p : Post}
  {R R' : Regs} {k : Coarse}

/-- The launch of a single operation. -/
theorem start (i : Instr) (hr : s.ready = true) (ha : s.runAhead = true) (hp : Prompt s h ls 0)
    (he : exec i s = operation (.xfer x p :: gs) s) : Underway s h i ls ls (.xfer x p :: gs) s.regs s.coarse :=
  ⟨hr, ha, hp, _, 0, _, [], he, rfl, .refl _, launch_op hp, rfl, rfl⟩

/-- What the test of the exchange in hand finds and leaves. -/
theorem tested {t e : State} {r : PostRes} (hcfg : t.cfg = s.cfg) (hR : t.regs = R) (hk : t.coarse = k)
    (ht : Tests s.cfg p x rx R r R') (hgot : GotWork t e x rx) :
    postRes p (postState p e) = r ∧ (postState p e).regs = R' ∧ e.coarse = k := by
  obtain ⟨hwork, hcfg', hrx⟩ := hgot
  obtain ⟨hR', hk'⟩ := work_eq_iff.mp (hwork.trans (work_eq_iff.mpr ⟨hR, hk⟩))
  obtain ⟨hres, hregs⟩ := ht e (hcfg'.trans hcfg) hR' fun hn => hrx.trans (if_neg hn)
  exact ⟨hres, hregs, hk'⟩

/-- An exchange whose test passes. -/
theorem pass {g : Stage} (o : Underway s h i ls (.xfer x rx :: rest) (.xfer x p :: g :: gs) R k)
    (hp : p.alone = true) (hg : g.alone = true) (ht : Tests s.cfg p x rx R .ok R') :
    Underway s h i ls rest (g :: gs) R' (coarseAfter p .ok k) := by
  obtain ⟨gs0, n, t, past, he, rfl, hreach, op, hR, hk⟩ := o.run
  obtain ⟨m, u, hnext, op', hwork⟩ := op.pass hp (Stage.xfer_or_sleep_of_alone hg) fun e hgot => by
    obtain ⟨hres, hregs, hk'⟩ := tested op.walk.cfg hR hk ht hgot
    exact ⟨hres, work_eq_iff.mpr ⟨hregs, by rw [postState_coarse, hres, hk']⟩⟩
  exact ⟨o.ready, o.ahead, o.prompt, gs0, _, u, _, he, by simp, hreach.trans hnext, op', work_eq_iff.mp hwork⟩

theorem sleep {ms : Nat} (o : Underway s h i ls (.sleep ms :: rest) (.sleep ms :: .xfer x p :: gs) R k) :
    Underway s h i ls rest (.xfer x p :: gs) R k := by
  obtain ⟨gs0, n, t, past, he, rfl, hreach, op, hR, hk⟩ := o.run
  obtain ⟨u, hnext, op', hcb, hsak, hcnt, hrval, hcoarse, -⟩ := op.sleep
  refine ⟨o.ready, o.ahead, o.prompt, gs0, _, u, _, he, by simp, hreach.trans hnext, op', ?_, hcoarse.trans hk⟩
  rw [← hR, State.regs, hcb, hsak, hcnt, hrval, State.regs]

/-- The exchange that ends the operation, with a test that leaves `COARSE`. -/
theorem ends {r : PostRes} {res : OpResult} (o : Underway s h i ls [.xfer x rx] (.xfer x p :: gs) R k)
    (hp : p.alone = true) (hcoarse : ∀ e, (postState p e).coarse = e.coarse) (hr : r.Ends gs res)
    (ht : Tests s.cfg p x rx R r R') :
    ∃ t, exec i s = .next t ∧ Returned s t ls res ∧ t.regs = R' ∧ t.coarse = k := by
  obtain ⟨gs0, n, t, past, he, rfl, hreach, op, hR, hk⟩ := o.run
  obtain ⟨m, u, hend, hret, hwork⟩ := op.ends (r := r) (R := res) hp o.prompt (by cases hr <;> simp) fun e hgot => by
    obtain ⟨hres, hregs, hk'⟩ := tested op.walk.cfg hR hk ht hgot
    exact ⟨hres, work_eq_iff.mpr ⟨hregs, (hcoarse e).trans hk'⟩⟩
  obtain ⟨hready, -⟩ := hret.1
  exact ⟨u, he.trans (operation_runs o.ready o.ahead (hreach.trans hend) hready), hret, work_eq_iff.mp hwork⟩

end Underway

theorem regs_eq_iff {t : State} {R : Regs} :
    t.regs = R ↔ t.cb = R.cb ∧ t.sak = R.sak ∧ t.rxcnt = R.rxcnt ∧ t.rval = R.rval := by
  cases R
  simp [State.regs]

/-! ### The four card commands -/

/-- Settles O32: the send moves `COARSE`, and the answer that is read is tested by nothing. -/
theorem reqaCompletes : Obligations.ReqaCompletes := by
  intro s atqa hr _ ls ⟨ha, u, hp⟩
  obtain ⟨t, he, hret, hR, hk⟩ :=
    ((Underway.start .reqa hr ha hp rfl).pass rfl rfl .coarse).sleep.ends rfl (fun _ => rfl) .ok .plain
  exact ⟨t, he, hret, regs_eq_iff.mp hR, hk⟩

/-- Settles O33: the count test decides whether the answer is read, and the checksum test what is returned. -/
theorem anticollL1Completes : Obligations.AnticollL1Completes := by
  intro s cnt u0 u1 u2 u3 bcc hr hwf ls ls'
  refine ⟨fun ⟨ha, u, hp⟩ hcnt => ?_, fun ⟨ha, u, hp⟩ hcnt => ?_⟩
  all_goals have o := ((Underway.start .anticollL1 hr ha hp rfl).pass rfl rfl .coarse).sleep
  · obtain ⟨t, he, hret, hR, hk⟩ := o.ends rfl (fun _ => rfl) (.fail _ _) (.countIs_fail hwf hcnt)
    obtain ⟨hcb, hsak, hrxcnt, hrval⟩ := regs_eq_iff.mp hR
    exact ⟨t, he, hret, hrxcnt, hrval, hcb, hsak, hk⟩
  · obtain ⟨t, he, hret, hR, hk⟩ :=
      (o.pass rfl rfl (.countIs_ok hwf hcnt)).ends rfl (fun _ => rfl) .ite (.level1 hwf)
    obtain ⟨hcb, hsak, hrxcnt, hrval⟩ := regs_eq_iff.mp hR
    exact ⟨t, he, hret, hcb, hrxcnt, hrval, hsak, hk⟩

/-- Settles O34: the state check decides whether SELECT is sent, and the count whether the SAK is read. -/
theorem selectL1Completes : Obligations.SelectL1Completes := by
  intro s u0 u1 u2 u3 bcc b st cnt hr hwf check ls ls'
  refine ⟨fun ⟨ha, u, hp⟩ hst => ?_, fun ⟨ha, u, hp⟩ hst hcnt => ?_, fun ⟨ha, u, hp⟩ hst hcnt => ?_⟩
  · obtain ⟨t, he, hret, hR, hk⟩ :=
      (Underway.start (.selectL1 u0 u1 u2 u3 bcc) hr ha hp rfl).ends rfl (fun _ => rfl) (.fail _ _) (.check_fail hst)
    obtain ⟨hcb, hsak, hrxcnt, hrval⟩ := regs_eq_iff.mp hR
    exact ⟨t, he, hret, hrval, hrxcnt, hcb, hsak, hk⟩
  all_goals
    have o := (((Underway.start (.selectL1 u0 u1 u2 u3 bcc) hr ha hp rfl).pass rfl rfl (.check_ok hst)).pass rfl rfl
      .plain).sleep
  · obtain ⟨t, he, hret, hR, hk⟩ := o.ends rfl (fun _ => rfl) (.stop _) (.countStop_zero hcnt)
    obtain ⟨hcb, hsak, hrxcnt, hrval⟩ := regs_eq_iff.mp hR
    exact ⟨t, he, hret, hrval, hrxcnt, hcb, hsak, hk⟩
  · obtain ⟨t, he, hret, hR, hk⟩ :=
      (o.pass rfl rfl (.countStop_ok hcnt)).ends rfl (fun _ => rfl) .ok (.sak hwf)
    obtain ⟨hcb, hsak, hrxcnt, hrval⟩ := regs_eq_iff.mp hR
    exact ⟨t, he, hret, hrval, hrxcnt, hcb, hsak, hk⟩

/-- Settles O35: the state check decides whether the request is sent, the count test whether the answer is read, and the
checksum test what is returned. -/
theorem anticollL2Completes : Obligations.AnticollL2Completes := by
  intro s st cnt u0 u1 u2 u3 bcc hr hwf check ls ls'
  refine ⟨fun ⟨ha, u, hp⟩ hst => ?_, fun ⟨ha, u, hp⟩ hst hcnt => ?_, fun ⟨ha, u, hp⟩ hst hcnt => ?_⟩
  all_goals have o := ((Underway.start .anticollL2 hr ha hp rfl).pass rfl rfl .plain).pass rfl rfl .plain
  · obtain ⟨t, he, hret, hR, hk⟩ := o.ends rfl (fun _ => rfl) (.fail _ _) (.check_fail hst)
    obtain ⟨hcb, hsak, hrxcnt, hrval⟩ := regs_eq_iff.mp hR
    exact ⟨t, he, hret, hrval, hrxcnt, hcb, hsak, hk⟩
  all_goals have o' := ((o.pass rfl rfl (.check_ok hst)).pass rfl rfl .coarse).sleep
  · obtain ⟨t, he, hret, hR, hk⟩ := o'.ends rfl (fun _ => rfl) (.fail _ _) (.countIs_fail hwf hcnt)
    obtain ⟨hcb, hsak, hrxcnt, hrval⟩ := regs_eq_iff.mp hR
    exact ⟨t, he, hret, hrval, hrxcnt, hcb, hsak, hk⟩
  · obtain ⟨t, he, hret, hR, hk⟩ :=
      (o'.pass rfl rfl (.countIs_ok hwf hcnt)).ends rfl (fun _ => rfl) .ite (.level2 hwf)
    obtain ⟨hcb, hsak, hrxcnt, hrval⟩ := regs_eq_iff.mp hR
    exact ⟨t, he, hret, hcb, hrval, hrxcnt, hsak, hk⟩

end Sys2Proof.Machine
end

section
/-! Proofs: READ_CARD_SERIAL on a prompt busy line (43_uid_resolution.md R170 to R190): its way along the steps, part by
part, and its ends. -/

namespace Sys2Proof.Machine

/-! ### The tests of READ_CARD_SERIAL -/

/-- With the registers `R` and the answer `rx` of the exchange `x`, the test of `p` completes the command with the
status `st` and the UID `u`, and leaves the registers `R'`. -/
def Posts (c : Cfg) (p : Post) (x : Xfer) (rx : List Byte) (R : Regs) (st : Status) (R' : Regs) (u : Uid) : Prop :=
  ∀ e : State, e.cfg = c → e.regs = R → (x.n ≠ 0 → e.rxbuf = rx) →
    postRes p (postState p e) = .finish st ∧
      (postState p e).held = (R'.cb, R'.sak, R'.rxcnt, R'.rval, u, lenOf st, e.ver0, e.ver1)

namespace Tests

variable {c : Cfg} {R : Regs} {irq st cnt : List Byte} {u0 u1 u2 u3 bcc v0 v1 v2 v3 bcc2 sak : Byte}

theorem outcome {p : Post} {x : Xfer} {rx : List Byte} {r r' : PostRes} {R' : Regs} (h : Tests c p x rx R r R')
    (hr : r = r') : Tests c p x rx R r' R' :=
  hr ▸ h

theorem irqBit_ok {b : Nat} (h : testBit (fromLe32 irq) b = true) :
    Tests c (.irqBit b) (xGetIrqStatus c) irq R .ok { R with rval := fromLe32 irq } := by
  rintro e rfl rfl hrx
  obtain rfl := hrx nofun
  exact ⟨if_pos h, rfl⟩

theorem pollState_ok (h : ShowsWaitTransmit c st) :
    Tests c .pollState (xGetTransceiveState c) st R .ok { R with rval := fromLe32 st } := by
  rintro e rfl rfl hrx
  obtain rfl := hrx nofun
  exact ⟨if_pos h, rfl⟩

theorem pollState_again (h : ¬ShowsWaitTransmit c st) :
    Tests c .pollState (xGetTransceiveState c) st R .again { R with rval := fromLe32 st } := by
  rintro e rfl rfl hrx
  obtain rfl := hrx nofun
  exact ⟨if_neg h, rfl⟩

theorem level1_ok (hwf : c.wf = true) (h : ChecksumPasses c u0 u1 u2 u3 bcc) :
    Tests c .level1 (xReadData c c.card.acRespLen) [u0, u1, u2, u3, bcc] R .ok
      { R with cb := { R.cb with c0 := u0, c1 := u1, c2 := u2, c3 := u3, c8 := bcc } } :=
  (level1 hwf).outcome (if_neg h.not_fails)

theorem level1_fail (hwf : c.wf = true) (hon : c.bccCheck = true) (h : u0 ^^^ u1 ^^^ u2 ^^^ u3 ≠ bcc) :
    Tests c .level1 (xReadData c c.card.acRespLen) [u0, u1, u2, u3, bcc] R (.fail .dgChecksum)
      { R with cb := { R.cb with c0 := u0, c1 := u1, c2 := u2, c3 := u3, c8 := bcc } } :=
  (level1 hwf).outcome (if_pos ⟨hon, h⟩)

theorem countSelect_ok (h : countOf c cnt ≠ 0) :
    Tests c .countSelect (xGetRxCount c) cnt R .ok { R with rxcnt := countOf c cnt, rval := fromLe32 cnt } := by
  rintro e rfl rfl hrx
  obtain rfl := hrx nofun
  obtain ⟨hs, hr⟩ := post_countSelect_nonzero e h
  exact ⟨hr, by rw [hs]; rfl⟩

/-- The outcome of the test on a SAK whose cascade bit is set depends on the cascade tag (43_uid_resolution.md R185). -/
theorem sakDecide (hwf : c.wf = true) (h : sak &&& c.card.sakCascadeMask ≠ 0) :
    Tests c .sakDecide (xReadData c c.card.sakLen) [sak] R
      (if R.cb.c0 = c.card.cascadeTag then .ok else .fail .dgProtocolCascadeTag) { R with sak := sak } := by
  rintro e rfl rfl hrx
  have hrx := hrx (by rw [xReadData_sakLen hwf]; decide)
  obtain ⟨hs, hr⟩ := post_sakDecide_cascade e (by rw [hrx]; exact decide_eq_true h)
  exact ⟨hr, by rw [hs, hrx]; rfl⟩

theorem sakDecide_ok (hwf : c.wf = true) (h : sak &&& c.card.sakCascadeMask ≠ 0) (htag : R.cb.c0 = c.card.cascadeTag) :
    Tests c .sakDecide (xReadData c c.card.sakLen) [sak] R .ok { R with sak := sak } :=
  (sakDecide hwf h).outcome (if_pos htag)

theorem sakDecide_fail (hwf : c.wf = true) (h : sak &&& c.card.sakCascadeMask ≠ 0)
    (htag : R.cb.c0 ≠ c.card.cascadeTag) :
    Tests c .sakDecide (xReadData c c.card.sakLen) [sak] R (.fail .dgProtocolCascadeTag) { R with sak := sak } :=
  (sakDecide hwf h).outcome (if_neg htag)

theorem level2Done_fail (hwf : c.wf = true) (hon : c.bccCheck = true) (h : v0 ^^^ v1 ^^^ v2 ^^^ v3 ≠ bcc2) :
    Tests c .level2Done (xReadData c c.card.acRespLen) [v0, v1, v2, v3, bcc2] R (.fail .dgChecksum)
      { R with cb := { R.cb with c4 := v0, c5 := v1, c6 := v2, c7 := v3, c9 := bcc2 } } := by
  rintro e rfl rfl hrx
  have hrx := hrx (by rw [xReadData_acRespLen hwf]; decide)
  obtain ⟨hs, hr⟩ := post_level2Done_bad e (by rw [hrx]; exact (checksum_fails_iff ..).mpr ⟨hon, h⟩)
  exact ⟨hr, by rw [hs, hrx]; rfl⟩

end Tests

namespace Posts

variable {c : Cfg} {R : Regs} {cnt : List Byte} {v0 v1 v2 v3 bcc2 sak : Byte}

/-- No answer to SELECT: the result of R183 (suspect literal U1, log entry 17). -/
theorem countSelect (h : countOf c cnt = 0) :
    Posts c .countSelect (xGetRxCount c) cnt R .stUid4 { R with rxcnt := 0, rval := fromLe32 cnt }
      R.cb.uidNoAnswer := by
  rintro e rfl rfl hrx
  obtain rfl := hrx nofun
  obtain ⟨hs, hr⟩ := post_countSelect_zero e h
  exact ⟨hr, by rw [hs, ← h]; rfl⟩

theorem sakDecide (hwf : c.wf = true) (h : sak &&& c.card.sakCascadeMask = 0) :
    Posts c .sakDecide (xReadData c c.card.sakLen) [sak] R .stUid4 { R with sak := sak } R.cb.uid4 := by
  rintro e rfl rfl hrx
  have hrx := hrx (by rw [xReadData_sakLen hwf]; decide)
  obtain ⟨hs, hr⟩ := post_sakDecide_last e (by rw [hrx]; exact decide_eq_false (not_not.mpr h))
  exact ⟨hr, by rw [hs, hrx]; rfl⟩

theorem level2Done (hwf : c.wf = true) (h : ChecksumPasses c v0 v1 v2 v3 bcc2) :
    Posts c .level2Done (xReadData c c.card.acRespLen) [v0, v1, v2, v3, bcc2] R .stUid7
      { R with cb := { R.cb with c4 := v0, c5 := v1, c6 := v2, c7 := v3, c9 := bcc2 } }
      ⟨R.cb.c1, R.cb.c2, R.cb.c3, v0, v1, v2, v3⟩ := by
  rintro e rfl rfl hrx
  have hrx := hrx (by rw [xReadData_acRespLen hwf]; decide)
  obtain ⟨hs, hr⟩ := post_level2Done_ok e
    (Bool.eq_false_iff.mpr (by rw [hrx]; exact fun hb => h.not_fails ((checksum_fails_iff ..).mp hb)))
  exact ⟨hr, by rw [hs, hrx]; rfl⟩

end Posts

/-! ### The command on its way along its lines -/

/-- The result and working registers of a host command that has posted nothing yet. -/
def heldRegs (R : Regs) : CascadeBuffer × Byte × BitVec 9 × Word × Uid × UidLen × Byte × Byte :=
  (R.cb, R.sak, R.rxcnt, R.rval, Uid.zero, .len0, 0, 0)

theorem held_eq_iff {e : State} {R : Regs} : e.held = heldRegs R ↔
    e.regs = R ∧ e.uidOut = Uid.zero ∧ e.uidLen = .len0 ∧ e.ver0 = 0 ∧ e.ver1 = 0 := by
  cases R
  simp [State.held, heldRegs, State.regs, and_assoc]

/-- An operation that does not complete a host command posts no result. -/
theorem postState_unposted {p : Post} {e : State} (h : ∀ st, postRes p (postState p e) ≠ .finish st) :
    (postState p e).uidOut = e.uidOut ∧ (postState p e).uidLen = e.uidLen ∧ (postState p e).ver0 = e.ver0 ∧
      (postState p e).ver1 = e.ver1 := by
  cases p
  case countSelect =>
    by_cases hc : rxCount e.cfg (fromLe32 e.rxbuf) = 0
    · exact absurd (post_countSelect_zero e hc).2 (h _)
    · rw [(post_countSelect_nonzero e hc).1]; exact ⟨rfl, rfl, rfl, rfl⟩
  case sakDecide =>
    cases hc : cascadeContinues e.cfg (byteAt e.rxbuf 0) with
    | false => exact absurd (post_sakDecide_last e hc).2 (h _)
    | true => rw [(post_sakDecide_cascade e hc).1]; exact ⟨rfl, rfl, rfl, rfl⟩
  case level2Done =>
    cases hc : e.cfg.bccCheck && !(e.cb.setL2 e.rxbuf).l2Ok with
    | false => exact absurd (post_level2Done_ok e hc).2 (h _)
    | true => rw [(post_level2Done_bad e hc).1]; exact ⟨rfl, rfl, rfl, rfl⟩
  case version => exact absurd rfl (h .stOk)
  all_goals exact ⟨rfl, rfl, rfl, rfl⟩

/-- READ_CARD_SERIAL, accepted in `s`, has the lines `ls` to run, with `n` polls; on the prompt line whose later answers
are those of `h` it has come to the step `l`, after the reset pulse, with the registers `R`, and the lines `rest` and
`polls` polls ahead. -/
structure Reading (s h : State) (ls : List Line) (n : Nat) (l : StepLabel) (R : Regs) (rest : List Line) (polls : Nat) :
    Prop where
  ready : s.ready = true
  ahead : s.runAhead = true
  prompt : Prompt s h ls n
  run : ∃ k t past, past ++ rest = ls ∧ Reaches k (accept 5 s) t ∧ At s h t 5 l past rest polls ∧
    t.held = heldRegs R ∧ t.nssQ = s.cfg.pin.nssInactive ∧ t.rstQ = s.cfg.pin.rstRelease

namespace Reading

variable {s h : State} {ls rest : List Line} {n polls : Nat} {l l' : StepLabel} {R R' : Regs} {x : Xfer} {p : Post}
  {rx : List Byte}

/-- What the test of the exchange in hand finds and leaves, in the form of the laws of host commands. -/
theorem tested {t e : State} {r : PostRes} (hcfg : t.cfg = s.cfg) (hheld : t.held = heldRegs R)
    (ht : Tests s.cfg p x rx R r R') (hr : ∀ st, r ≠ .finish st) (hgot : GotAnswer t e x rx) :
    postRes p (postState p e) = r ∧ (postState p e).held = heldRegs R' := by
  obtain ⟨hkept, hcfg', hrx⟩ := hgot
  obtain ⟨hR, hu, hl, hv0, hv1⟩ := held_eq_iff.mp (hkept.trans hheld)
  obtain ⟨hres, hregs⟩ := ht e (hcfg'.trans hcfg) hR fun hn => hrx.trans (if_neg hn)
  obtain ⟨hu', hl', hv0', hv1'⟩ := postState_unposted (p := p) (e := e) (by rwa [hres])
  exact ⟨hres, held_eq_iff.mpr ⟨hregs, hu'.trans hu, hl'.trans hl, hv0'.trans hv0, hv1'.trans hv1⟩⟩

/-- The step in hand, by the configuration and the cascade buffer. -/
theorem stage {t : State} {past : List Line} {g : Stage} (a : At s h t 5 l past rest polls)
    (hheld : t.held = heldRegs R) (hg : stageOf s.cfg R.cb 5 l = g) : stageOf t.cfg t.cb 5 l = g := by
  obtain ⟨rfl, -⟩ := held_eq_iff.mp hheld
  rw [a.walk.cfg]
  exact hg

/-- An exchange step whose test passes. -/
theorem pass (a : Reading s h ls n l R (.xfer x rx :: rest) polls) (hg : stageOf s.cfg R.cb 5 l = .xfer x p)
    (hn : nextStep 5 l = some l') (ht : Tests s.cfg p x rx R .ok R') : Reading s h ls n l' R' rest polls := by
  obtain ⟨k, t, past, rfl, hreach, hat, hheld, -, hrst⟩ := a.run
  obtain ⟨k', u, hnext, hat', hheld', hnss', hrst'⟩ := hat.pass (stage hat hheld hg) hn
    fun _ hgot => tested hat.walk.cfg hheld ht nofun hgot
  exact ⟨a.ready, a.ahead, a.prompt, _, u, _, by simp, hreach.trans hnext, hat', hheld', hnss', hrst'.trans hrst⟩

/-- A poll step whose first read passes. -/
theorem poll {ms : Nat} (a : Reading s h ls n l R (.xfer x rx :: rest) (polls + 1))
    (hg : stageOf s.cfg R.cb 5 l = .poll x p ms) (hn : nextStep 5 l = some l') (ht : Tests s.cfg p x rx R .ok R') :
    Reading s h ls n l' R' rest polls := by
  obtain ⟨k, t, past, rfl, hreach, hat, hheld, -, hrst⟩ := a.run
  obtain ⟨k', u, hnext, hat', hheld', hnss', hrst'⟩ := hat.passPoll (stage hat hheld hg) hn
    fun _ hgot => tested hat.walk.cfg hheld ht nofun hgot
  exact ⟨a.ready, a.ahead, a.prompt, _, u, _, by simp, hreach.trans hnext, hat', hheld', hnss', hrst'.trans hrst⟩

theorem sleep {ms : Nat} (a : Reading s h ls n l R (.sleep ms :: rest) polls)
    (hg : stageOf s.cfg R.cb 5 l = .sleep ms) (hn : nextStep 5 l = some l') : Reading s h ls n l' R rest polls := by
  obtain ⟨k, t, past, rfl, hreach, hat, hheld, hnss, hrst⟩ := a.run
  obtain ⟨u, hnext, hat', hheld', hnss', hrst', -⟩ := hat.sleep (stage hat hheld hg) hn
  exact ⟨a.ready, a.ahead, a.prompt, _, u, _, by simp, hreach.trans hnext, hat', hheld'.trans hheld, hnss'.trans hnss,
    hrst'.trans hrst⟩

/-- The exchange whose test ends the command with "no card". -/
theorem fails {d : DiagCode} (a : Reading s h ls n l R [.xfer x rx] 0) (hg : stageOf s.cfg R.cb 5 l = .xfer x p)
    (ht : Tests s.cfg p x rx R (.fail d) R') (hd : d ≠ .dgNone) :
    ∃ t, exec .readCardSerial s = .next t ∧ Finished s t 5 ls n .stNoCard d l ∧
      (t.uidOut = Uid.zero ∧ t.uidLen = .len0 ∧ t.ver0 = 0 ∧ t.ver1 = 0) ∧ PinsIdle t ∧ t.regs = R' := by
  obtain ⟨k, t, past, rfl, hreach, hat, hheld, -, hrst⟩ := a.run
  obtain ⟨k', u, hend, hfin, hwork, huid, hnss', hrst'⟩ := hat.fails (stage hat hheld hg) a.prompt hd
    fun _ hgot => tested hat.walk.cfg hheld ht nofun hgot
  simp only [heldRegs, Prod.mk.injEq] at hwork
  exact ⟨u, hfin.hostCommand_eq a.ready a.ahead (hreach.trans hend), hfin, huid,
    hfin.pinsIdle hnss' (hrst'.trans hrst), regs_eq_iff.mpr hwork⟩

/-- The poll whose first read does not pass and whose first time test is late; `m` clock values are read before it. -/
theorem expires {ms m : Nat} {d : DiagCode} {z : Time} {ts : List Time} (a : Reading s h ls n l R [.xfer x rx] 1)
    (hg : stageOf s.cfg R.cb 5 l = .poll x p ms) (hcb : ∀ e, (postState p e).cb = e.cb) (hd : expiredCode l = d)
    (hne : d ≠ .dgNone) (hafter : h.nowIn = z :: ts)
    (hm : clockReads (lineLens ls) + n = m + (clockReads (lineLens [.xfer x rx]) + 1))
    (hlate : ∀ t ts, s.nowIn.drop m = t :: ts → late s.cfg t z ms = true) (ht : Tests s.cfg p x rx R .again R') :
    ∃ t, exec .readCardSerial s = .next t ∧ Finished s t 5 ls (n + 1) .stNoCard d l ∧
      (t.uidOut = Uid.zero ∧ t.uidLen = .len0 ∧ t.ver0 = 0 ∧ t.ver1 = 0) ∧ PinsIdle t ∧ t.regs = R' ∧ t.nowIn = ts := by
  obtain ⟨k, t, past, rfl, hreach, hat, hheld, -, hrst⟩ := a.run
  have htp0 (t0 : Time) (rest : List Time) (hn : t.nowIn = t0 :: rest) : late t.cfg t0 z ms = true :=
    hat.walk.cfg ▸ hlate t0 rest ((hat.walk.nowIn a.prompt hm).symm.trans hn)
  obtain ⟨k', u, hend, hfin, hwork, huid, hnss', hrst', hnow⟩ := hat.expires (stage hat hheld hg) hcb hd hne hafter htp0
    a.prompt fun _ hgot => tested hat.walk.cfg hheld ht nofun hgot
  simp only [heldRegs, Prod.mk.injEq] at hwork
  exact ⟨u, hfin.hostCommand_eq a.ready a.ahead (hreach.trans hend), hfin, huid,
    hfin.pinsIdle hnss' (hrst'.trans hrst), regs_eq_iff.mpr hwork, hnow⟩

/-- The exchange whose test completes the command with a UID. -/
theorem posts {st : Status} {u : Uid} (a : Reading s h ls n l R [.xfer x rx] 0)
    (hg : stageOf s.cfg R.cb 5 l = .xfer x p) (ht : Posts s.cfg p x rx R st R' u) :
    ∃ t, exec .readCardSerial s = .next t ∧ Finished s t 5 ls n st .dgNone .noStep ∧
      (t.uidOut = u ∧ t.uidLen = lenOf st ∧ t.ver0 = 0 ∧ t.ver1 = 0) ∧ PinsIdle t ∧ t.regs = R' := by
  obtain ⟨k, t, past, rfl, hreach, hat, hheld, -, hrst⟩ := a.run
  obtain ⟨k', v, hend, hfin, hheld', hnss', hrst'⟩ := hat.finishes (st := st)
    (H := (R'.cb, R'.sak, R'.rxcnt, R'.rval, u, lenOf st, 0, 0)) (stage hat hheld hg) a.prompt fun e hgot => by
      obtain ⟨hkept, hcfg, hrx⟩ := hgot
      obtain ⟨hR, -, -, hv0, hv1⟩ := held_eq_iff.mp (hkept.trans hheld)
      have hpost := ht e (hcfg.trans hat.walk.cfg) hR fun hn => hrx.trans (if_neg hn)
      rwa [hv0, hv1] at hpost
  simp only [State.held, Prod.mk.injEq] at hheld'
  obtain ⟨hcb, hsak, hcnt, hrval, huid⟩ := hheld'
  exact ⟨v, hfin.hostCommand_eq a.ready a.ahead (hreach.trans hend), hfin, huid,
    hfin.pinsIdle hnss' (hrst'.trans hrst), regs_eq_iff.mpr ⟨hcb, hsak, hcnt, hrval⟩⟩

end Reading

end Sys2Proof.Machine
end

section
/-! Proofs: what READ_CARD_SERIAL ends with on a prompt busy line, case by case (43_uid_resolution.md R174 to R190). -/

namespace Sys2Proof.Machine

/-! ### The parts of the way -/

namespace Reading

variable {s h : State} {ls rest : List Line} {n polls : Nat} {R : Regs}
  {irq1 irq2 st atqa st2 cnt st3 cnt' st4 cnt2 : List Byte} {u0 u1 u2 u3 bcc sak : Byte}

/-- `RESET_CHIP` (42_system_ops.md R150). -/
theorem start (hr : s.ready = true) (ha : s.runAhead = true)
    (hbit : testBit (fromLe32 irq1) s.cfg.field.idleIrqBit = true) (hp : Prompt s h ls (polls + 1))
    (hls : ls = resetLines s.cfg irq1 ++ rest) :
    Reading s h ls (polls + 1) .radLoad ⟨CascadeBuffer.zero, 0, 0, fromLe32 irq1⟩ rest polls := by
  subst hls
  obtain ⟨a0, held0, -⟩ := accept_at (c := 5) rfl hp
  obtain ⟨k, t, hpulse, at', held_t, -, hrst⟩ := a0.resetPulse (.inr (.inr rfl))
  obtain ⟨k', u, hpoll, hat, hheld, hnss, hrst'⟩ := at'.passPoll (by rw [at'.walk.cfg]; rfl) rfl
    fun _ hgot => tested (R := ⟨CascadeBuffer.zero, 0, 0, 0⟩) at'.walk.cfg (held_t.trans held0) (.irqBit_ok hbit) nofun
      hgot
  exact ⟨hr, ha, hp, _, u, _, rfl, hpulse.trans hpoll, hat, hheld, hnss, hrst'.trans hrst⟩

/-- `RESET_CHIP`, `SETUP_RADIO` (42_system_ops.md R152) and step 2 of the resolver (R172, R173). -/
theorem toReqaCheck (hr : s.ready = true) (ha : s.runAhead = true)
    (hbit1 : testBit (fromLe32 irq1) s.cfg.field.idleIrqBit = true)
    (hbit2 : testBit (fromLe32 irq2) s.cfg.field.txRfonIrqBit = true) (hp : Prompt s h ls (polls + 2))
    (hls : ls = uptoReqaCheck s.cfg irq1 irq2 st ++ rest) :
    Reading s h ls (polls + 2) .reqaCheck ⟨CascadeBuffer.zero, 0, 0, fromLe32 irq2⟩
      (.xfer (xGetTransceiveState s.cfg) st :: rest) polls :=
  have reset := start (polls := polls + 1) hr ha hbit1 hp hls
  have radio := (((reset.pass rfl rfl .plain).pass rfl rfl .plain).poll rfl rfl (.irqBit_ok hbit2)).pass rfl rfl .coarse
  ((((radio.pass rfl rfl .plain).pass rfl rfl .plain).pass rfl rfl .plain).pass rfl rfl .plain).pass rfl rfl .plain

/-- The check before REQA passes; REQA and the ATQA read (R174, R175). -/
theorem toStatePoll (hst : ShowsWaitTransmit s.cfg st)
    (a : Reading s h ls n .reqaCheck R (.xfer (xGetTransceiveState s.cfg) st :: (reqaLines s.cfg atqa ++ rest)) polls) :
    Reading s h ls n .ac1Poll { R with rval := fromLe32 st } rest polls :=
  (((a.pass rfl rfl (.check_ok hst)).pass rfl rfl .coarse).sleep rfl rfl).pass rfl rfl .plain

/-- The state poll passes at its first read; the first anticollision request (R176 to R178). -/
theorem toCountL1 (hst : ShowsWaitTransmit s.cfg st2)
    (a : Reading s h ls n .ac1Poll R
      (.xfer (xGetTransceiveState s.cfg) st2 :: .xfer (xClearIrqStatus s.cfg s.cfg.field.irqAllMask) [] ::
        (countL1Lines s.cfg cnt ++ rest)) (polls + 1)) :
    Reading s h ls n .ac1Count { R with rval := fromLe32 st2 } (.xfer (xGetRxCount s.cfg) cnt :: rest) polls :=
  (((a.poll rfl rfl (.pollState_ok hst)).pass rfl rfl .plain).pass rfl rfl .coarse).sleep rfl rfl

/-- The level-1 answer is accepted; the CRC is on (R179 to R181). -/
theorem toSelCheck (hwf : s.cfg.wf = true) (hcnt : countOf s.cfg cnt = 5)
    (hbcc : ChecksumPasses s.cfg u0 u1 u2 u3 bcc)
    (a : Reading s h ls n .ac1Count R
      (.xfer (xGetRxCount s.cfg) cnt :: (uptoSelCheck s.cfg [u0, u1, u2, u3, bcc] st3 ++ rest)) polls) :
    Reading s h ls n .selCheck
      ⟨{ R.cb with c0 := u0, c1 := u1, c2 := u2, c3 := u3, c8 := bcc }, R.sak, 5, fromLe32 cnt⟩
      (.xfer (xGetTransceiveState s.cfg) st3 :: rest) polls :=
  (((a.pass rfl rfl (.countIs_ok hwf hcnt)).pass rfl rfl (.level1_ok hwf hbcc)).pass rfl rfl .plain).pass rfl rfl .plain

/-- The check before SELECT passes; SELECT (R182). -/
theorem toSelCount (hst : ShowsWaitTransmit s.cfg st3)
    (a : Reading s h ls n .selCheck R (.xfer (xGetTransceiveState s.cfg) st3 ::
      (selectLines s.cfg R.cb.c0 R.cb.c1 R.cb.c2 R.cb.c3 R.cb.c8 cnt' ++ rest)) polls) :
    Reading s h ls n .selCount { R with rval := fromLe32 st3 } (.xfer (xGetRxCount s.cfg) cnt' :: rest) polls :=
  ((a.pass rfl rfl (.check_ok hst)).pass rfl rfl .plain).sleep rfl rfl

/-- SELECT is answered (R184). -/
theorem toSelRead (hcnt : countOf s.cfg cnt' ≠ 0)
    (a : Reading s h ls n .selCount R (.xfer (xGetRxCount s.cfg) cnt' :: rest) polls) :
    Reading s h ls n .selRead { R with rxcnt := countOf s.cfg cnt', rval := fromLe32 cnt' } rest polls :=
  a.pass rfl rfl (.countSelect_ok hcnt)

/-- The SAK leads to level 2; the CRC is off (R185, R186). -/
theorem toAc2Check (hwf : s.cfg.wf = true) (hsak : sak &&& s.cfg.card.sakCascadeMask ≠ 0)
    (htag : R.cb.c0 = s.cfg.card.cascadeTag)
    (a : Reading s h ls n .selRead R
      (.xfer (xReadData s.cfg s.cfg.card.sakLen) [sak] :: (checkL2Lines s.cfg st4 ++ rest)) polls) :
    Reading s h ls n .ac2Check { R with sak := sak } (.xfer (xGetTransceiveState s.cfg) st4 :: rest) polls :=
  ((a.pass rfl rfl (.sakDecide_ok hwf hsak htag)).pass rfl rfl .plain).pass rfl rfl .plain

/-- The check before the second anticollision passes; the second request (R186). -/
theorem toCountL2 (hst : ShowsWaitTransmit s.cfg st4)
    (a : Reading s h ls n .ac2Check R
      (.xfer (xGetTransceiveState s.cfg) st4 :: (countL2Lines s.cfg cnt2 ++ rest)) polls) :
    Reading s h ls n .ac2Count { R with rval := fromLe32 st4 } (.xfer (xGetRxCount s.cfg) cnt2 :: rest) polls :=
  ((a.pass rfl rfl (.check_ok hst)).pass rfl rfl .coarse).sleep rfl rfl

/-- The way to the first count read (R171 to R178): lines 1 to 23 of program P1, but for its answer. -/
theorem toFirstCount (hr : s.ready = true) (ha : s.runAhead = true)
    (hbit1 : testBit (fromLe32 irq1) s.cfg.field.idleIrqBit = true)
    (hbit2 : testBit (fromLe32 irq2) s.cfg.field.txRfonIrqBit = true) (hst : ShowsWaitTransmit s.cfg st)
    (hst2 : ShowsWaitTransmit s.cfg st2) (hp : Prompt s h ls 3)
    (hls : ls = uptoReqaCheck s.cfg irq1 irq2 st ++ (uptoCountL1 s.cfg atqa st2 cnt ++ rest)) :
    Reading s h ls 3 .ac1Count ⟨CascadeBuffer.zero, 0, 0, fromLe32 st2⟩ (.xfer (xGetRxCount s.cfg) cnt :: rest) 0 :=
  ((toReqaCheck hr ha hbit1 hbit2 hp hls).toStatePoll hst).toCountL1 hst2

end Reading

theorem clockReads_append (ls : List Line) (l : Line) :
    clockReads (lineLens (ls ++ [l])) = clockReads (lineLens ls) + clockReads (lineLens [l]) := by
  induction ls with
  | nil => exact (Nat.zero_add _).symm
  | cons a ls ih =>
    cases a with
    | pin p v | sleep ms => exact ih
    | xfer x rx =>
      rw [List.cons_append, lineLens, lineLens, clockReads_cons, clockReads_cons _ (lineLens ls), ih, Nat.add_assoc]

/-! ### The ends -/

/-- Settles O41: the check fails before REQA, before SELECT, or before the second anticollision. -/
theorem readStopsOutsideWaitTransmit : Obligations.ReadStopsOutsideWaitTransmit := by
  intro s irq1 irq2 st1 hr hwf hbit1 hbit2
  refine ⟨fun hst1 ⟨ha, h, hp⟩ => ?_, ?_⟩
  · obtain ⟨t, he, hfin, ⟨huid, hlen, hv0, hv1⟩, hidle, hR⟩ :=
      (Reading.toReqaCheck hr ha hbit1 hbit2 hp rfl).fails rfl (.check_fail hst1) nofun
    obtain ⟨hcb, hsak, hrxcnt, hrval⟩ := regs_eq_iff.mp hR
    exact ⟨t, he, hfin, ⟨huid, hlen, hv0, hv1, hcb, hsak, hrxcnt⟩, hidle, hrval⟩
  intro atqa st2 cnt u0 u1 u2 u3 bcc st3 hst1 hst2 hcnt hbcc ls
  refine ⟨fun hst3 ⟨ha, h, hp⟩ => ?_, ?_⟩
  · have a := (Reading.toFirstCount hr ha hbit1 hbit2 hst1 hst2 hp rfl).toSelCheck hwf hcnt hbcc
    obtain ⟨t, he, hfin, huid, hidle, hR⟩ := a.fails rfl (.check_fail hst3) nofun
    exact ⟨t, he, hfin, huid, hidle, regs_eq_iff.mp hR⟩
  · intro cnt' sak st4 hst3 hcnt' hsak htag hst4 ls' ⟨ha, h, hp⟩
    have a := (Reading.toFirstCount hr ha hbit1 hbit2 hst1 hst2 hp rfl).toSelCheck hwf hcnt hbcc
    obtain ⟨t, he, hfin, huid, hidle, hR⟩ :=
      (((a.toSelCount hst3).toSelRead hcnt').toAc2Check hwf hsak htag).fails rfl (.check_fail hst4) nofun
    exact ⟨t, he, hfin, huid, hidle, regs_eq_iff.mp hR⟩

/-- Settles O42: the count test fails at level 1, or at level 2. -/
theorem readStopsOnWrongCount : Obligations.ReadStopsOnWrongCount := by
  intro s irq1 irq2 st1 atqa st2 cnt hr hwf hbit1 hbit2 hst1 hst2 ls
  refine ⟨fun hcnt ⟨ha, h, hp⟩ => ?_, ?_⟩
  · have a := Reading.toFirstCount hr ha hbit1 hbit2 hst1 hst2 hp rfl
    obtain ⟨t, he, hfin, ⟨huid, hlen, hv0, hv1⟩, hidle, hR⟩ := a.fails rfl (.countIs_fail hwf hcnt) nofun
    obtain ⟨hcb, hsak, hrxcnt, hrval⟩ := regs_eq_iff.mp hR
    exact ⟨t, he, hfin, ⟨huid, hlen, hv0, hv1, hcb, hsak⟩, hidle, hrxcnt, hrval⟩
  · intro u0 u1 u2 u3 bcc st3 cnt' sak st4 cnt2 hcnt hbcc hst3 hcnt' hsak htag hst4 hcnt2 ls' ⟨ha, h, hp⟩
    have a := Reading.toFirstCount hr ha hbit1 hbit2 hst1 hst2 hp rfl
    obtain ⟨t, he, hfin, huid, hidle, hR⟩ :=
      (((((a.toSelCheck hwf hcnt hbcc).toSelCount hst3).toSelRead hcnt').toAc2Check hwf hsak htag).toCountL2 hst4).fails
        rfl (.countIs_fail hwf hcnt2) nofun
    exact ⟨t, he, hfin, huid, hidle, regs_eq_iff.mp hR⟩

/-- Settles O43: the checksum test fails at level 1, or at level 2 after it has passed at level 1. -/
theorem readStopsOnChecksum : Obligations.ReadStopsOnChecksum := by
  intro s irq1 irq2 st1 atqa st2 cnt u0 u1 u2 u3 bcc hr hwf hon hbit1 hbit2 hst1 hst2 hcnt before ls
  refine ⟨fun hbcc ⟨ha, h, hp⟩ => ?_, ?_⟩
  · have a := Reading.toFirstCount hr ha hbit1 hbit2 hst1 hst2 hp rfl
    obtain ⟨t, he, hfin, huid, hidle, hR⟩ :=
      (a.pass rfl rfl (.countIs_ok hwf hcnt)).fails rfl (.level1_fail hwf hon hbcc) nofun
    exact ⟨t, he, hfin, huid, hidle, regs_eq_iff.mp hR⟩
  · intro st3 cnt' sak st4 cnt2 v0 v1 v2 v3 bcc2 hbcc hst3 hcnt' hsak htag hst4 hcnt2 hbcc2 ls' ⟨ha, h, hp⟩
    have a := Reading.toFirstCount hr ha hbit1 hbit2 hst1 hst2 hp rfl
    have a2 := ((((a.toSelCheck hwf hcnt fun _ => hbcc).toSelCount hst3).toSelRead hcnt').toAc2Check hwf hsak
      htag).toCountL2 hst4
    obtain ⟨t, he, hfin, huid, hidle, hR⟩ :=
      (a2.pass rfl rfl (.countIs_ok hwf hcnt2)).fails rfl (.level2Done_fail hwf hon hbcc2) nofun
    exact ⟨t, he, hfin, huid, hidle, regs_eq_iff.mp hR⟩

/-- Settles O44: every test passes up to the SAK, whose cascade bit is clear. -/
theorem readsFourByteUid : Obligations.ReadsFourByteUid := by
  intro s irq1 irq2 st1 atqa st2 cnt st3 cnt' u0 u1 u2 u3 bcc sak hr hwf hbcc hbit1 hbit2 hst1 hst2 hst3 hcnt hcnt'
    hsak ls ⟨ha, h, hp⟩
  have a := Reading.toFirstCount hr ha hbit1 hbit2 hst1 hst2 hp rfl
  obtain ⟨t, he, hfin, huid, hidle, hR⟩ :=
    (((a.toSelCheck hwf hcnt hbcc).toSelCount hst3).toSelRead hcnt').posts rfl (.sakDecide hwf hsak)
  exact ⟨t, he, hfin, huid, hidle, regs_eq_iff.mp hR⟩

/-- Settles O45: every test passes up to the count after SELECT, which is zero. -/
theorem readReturnsLastFourOnNoAnswer : Obligations.ReadReturnsLastFourOnNoAnswer := by
  intro s irq1 irq2 st1 atqa st2 cnt st3 cnt' u0 u1 u2 u3 bcc hr hwf hbcc hbit1 hbit2 hst1 hst2 hst3 hcnt hcnt' ls
    ⟨ha, h, hp⟩
  have a := Reading.toFirstCount hr ha hbit1 hbit2 hst1 hst2 hp rfl
  obtain ⟨t, he, hfin, huid, hidle, hR⟩ :=
    ((a.toSelCheck hwf hcnt hbcc).toSelCount hst3).posts rfl (.countSelect hcnt')
  exact ⟨t, he, hfin, huid, hidle, regs_eq_iff.mp hR⟩

/-- Settles O46: every test passes up to the SAK, whose cascade bit is set, and the first byte is not the tag. -/
theorem readStopsWithoutCascadeTag : Obligations.ReadStopsWithoutCascadeTag := by
  intro s irq1 irq2 st1 atqa st2 cnt st3 cnt' u0 u1 u2 u3 bcc sak hr hwf hbcc hbit1 hbit2 hst1 hst2 hst3 hcnt hcnt'
    hsak htag ls ⟨ha, h, hp⟩
  have a := Reading.toFirstCount hr ha hbit1 hbit2 hst1 hst2 hp rfl
  obtain ⟨t, he, hfin, huid, hidle, hR⟩ :=
    (((a.toSelCheck hwf hcnt hbcc).toSelCount hst3).toSelRead hcnt').fails rfl (.sakDecide_fail hwf hsak htag) nofun
  exact ⟨t, he, hfin, huid, hidle, regs_eq_iff.mp hR⟩

/-- Settles O47: every test passes, at both levels. -/
theorem readsSevenByteUid : Obligations.ReadsSevenByteUid := by
  intro s irq1 irq2 st1 atqa st2 cnt st3 cnt' st4 cnt2 u1 u2 u3 bcc sak v0 v1 v2 v3 bcc2 hr hwf hbcc hbcc2 hbit1 hbit2
    hst1 hst2 hst3 hst4 hcnt hcnt' hcnt2 hsak u0 ls ⟨ha, h, hp⟩
  have a := Reading.toFirstCount hr ha hbit1 hbit2 hst1 hst2 hp rfl
  have a2 := ((((a.toSelCheck hwf hcnt hbcc).toSelCount hst3).toSelRead hcnt').toAc2Check hwf hsak rfl).toCountL2 hst4
  obtain ⟨t, he, hfin, huid, hidle, hR⟩ :=
    (a2.pass rfl rfl (.countIs_ok hwf hcnt2)).posts rfl (.level2Done hwf hbcc2)
  exact ⟨t, he, hfin, huid, hidle, regs_eq_iff.mp hR⟩

/-- Settles O48: the state poll begins with the clock value after those of the lines before it and of two polls. -/
theorem readStopsWhenStatePollExpires : Obligations.ReadStopsWhenStatePollExpires := by
  intro s u irq1 irq2 st1 atqa st2 a z ts ts' hr ha hwf hbit1 hbit2 hst1 hst2 before ls hp hfirst hafter hlate
  obtain ⟨t, he, hfin, ⟨huid, hlen, hv0, hv1⟩, hidle, hR, hnow⟩ :=
    ((Reading.toReqaCheck hr ha hbit1 hbit2 hp rfl).toStatePoll hst1).expires
      (m := clockReads (lineLens before) + 2) rfl (fun _ => rfl) rfl nofun hafter
      (by rw [clockReads_append]; omega) (fun t0 rest hn => by
        obtain ⟨rfl, -⟩ := List.cons.inj (hfirst.symm.trans hn)
        exact hlate) (.pollState_again hst2)
  obtain ⟨hcb, hsak, hrxcnt, hrval⟩ := regs_eq_iff.mp hR
  exact ⟨t, he, hfin, ⟨huid, hlen, hv0, hv1, hcb, hsak, hrxcnt⟩, hidle, hrval, hnow⟩

end Sys2Proof.Machine
end

section
/-! Proofs: every run of READ_CARD_SERIAL, whatever ENV answers: the UID consists of bytes that the run has read
(43_uid_resolution.md R179, R183 to R190). -/

namespace Sys2Proof.Machine

/-! ### The answers read -/

theorem busReads_append (as bs : List Action) : busReads (as ++ bs) = busReads as ++ busReads bs := by
  induction as with
  | nil => rfl
  | cons a as ih => cases a <;> simp [busReads, ih]

theorem freeBytes_length (k d : Nat) : (freeBytes k d).length = k := by
  induction k generalizing d with
  | zero => rfl
  | succ k ih => simp [freeBytes, ih]

/-- `BusRead(n)` answers `n` bytes (00_scope.md R10). -/
theorem nextBytes_length (s : State) (n : Nat) : (s.nextBytes n).length = n := by
  simp only [State.nextBytes, List.length_append, List.length_take, freeBytes_length]
  omega

/-- An answer of five bytes, byte by byte (30_encoding.md R85). -/
theorem eq_of_length_five {b : List Byte} (h : b.length = 5) :
    b = [byteAt b 0, byteAt b 1, byteAt b 2, byteAt b 3, byteAt b 4] := by
  match b, h with
  | [_, _, _, _, _], _ => rfl

theorem eq_of_length_one {b : List Byte} (h : b.length = 1) : b = [byteAt b 0] := by
  match b, h with
  | [_], _ => rfl

/-! ### What the answers tell at each step -/

/-- The steps of level 2, after a SAK that leads to it (43_uid_resolution.md R185, R186). -/
def atLevel2 : StepLabel → Bool
  | .ac2CrcRxOff | .ac2CrcTxOff | .ac2Check | .ac2Send | .ac2Wait | .ac2Count | .ac2Read => true
  | _ => false

/-- The steps after the level-1 answer has been stored (R179). -/
def afterLevel1 : StepLabel → Bool
  | .selCrcRxOn | .selCrcTxOn | .selCheck | .selSend | .selWait | .selCount | .selRead => true
  | l => atLevel2 l

/-- The level-1 answer that the cascade buffer holds. -/
def CascadeBuffer.level1 (b : CascadeBuffer) : List Byte :=
  [b.c0, b.c1, b.c2, b.c3, b.c8]

/-- At the step `l`, the cascade buffer and the SAK hold what was read, `R` being the answers read so far. -/
structure Learned (c : Cfg) (l : StepLabel) (cb : CascadeBuffer) (sak : Byte) (R : List (List Byte)) : Prop where
  level1 : afterLevel1 l = true → cb.level1 ∈ R
  cascade : atLevel2 l = true → [sak] ∈ R ∧ sak &&& c.card.sakCascadeMask ≠ 0 ∧ cb.c0 = c.card.cascadeTag

theorem Learned.append {c : Cfg} {l : StepLabel} {cb : CascadeBuffer} {sak : Byte} {R : List (List Byte)}
    (h : Learned c l cb sak R) (R' : List (List Byte)) : Learned c l cb sak (R' ++ R) where
  level1 hl := List.mem_append_right _ (h.level1 hl)
  cascade hl := by
    obtain ⟨hmem, hrest⟩ := h.cascade hl
    exact ⟨List.mem_append_right _ hmem, hrest⟩

/-- Two steps at which the same is known. -/
theorem Learned.of_same {c : Cfg} {l l' : StepLabel} {cb : CascadeBuffer} {sak : Byte} {R : List (List Byte)}
    (h : Learned c l cb sak R) (h1 : afterLevel1 l' = afterLevel1 l) (h2 : atLevel2 l' = atLevel2 l) :
    Learned c l' cb sak R :=
  ⟨fun hl => h.level1 (h1 ▸ hl), fun hl => h.cascade (h2 ▸ hl)⟩

/-- What a status that closes READ_CARD_SERIAL says of the result, `R` being the answers read (R183 to R190). -/
def Verdict (c : Cfg) (t : State) (R : List (List Byte)) : Status → Prop
  | .stUid4 => t.cb.level1 ∈ R ∧
      (t.sak &&& c.card.sakCascadeMask = 0 ∧ R.head? = some [t.sak] ∧ t.uidOut = t.cb.uid4 ∨
        t.rxcnt = 0 ∧ (∃ cnt, R.head? = some cnt ∧ countOf c cnt = 0) ∧ t.uidOut = t.cb.uidNoAnswer)
  | .stUid7 => t.cb.level1 ∈ R ∧ [t.sak] ∈ R ∧ t.sak &&& c.card.sakCascadeMask ≠ 0 ∧
      t.cb.c0 = c.card.cascadeTag ∧ R.head? = some [t.cb.c4, t.cb.c5, t.cb.c6, t.cb.c7, t.cb.c9] ∧
      t.uidOut = t.cb.uid7
  | .stNoCard => True
  | .stNone | .stOk | .stResetTimeout | .stVersionError | .stIllegalCmd => False

/-! ### The invariant of a run -/

/-- All that `OnRead` speaks of, but for the trace. -/
def State.record (t : State) : Bool × Option (List Stage) × BitVec 3 × Cfg × StepLabel × CascadeBuffer × Byte :=
  (t.ready, t.call, t.cmd, t.cfg, t.stepLbl, t.cb, t.sak)

/-- The READ_CARD_SERIAL that `s` has accepted runs, and has read the answers `R`. -/
structure OnRead (s : State) (R : List (List Byte)) (t : State) : Prop where
  trace : ∃ new, t.trace = new ++ .accept 5 :: s.trace ∧ busReads new = R
  busy : t.ready = false
  call : t.call = none
  cmd : t.cmd = 5
  cfg : t.cfg = s.cfg
  place : stepOfCommand 5 t.stepLbl = true
  learned : Learned s.cfg t.stepLbl t.cb t.sak R

theorem OnRead.step {s t u : State} {R : List (List Byte)} (h : OnRead s R t) (acts : List Action)
    (hu : u.record = t.record) (ht : u.trace = acts ++ t.trace) : OnRead s (busReads acts ++ R) u := by
  simp only [State.record, Prod.mk.injEq] at hu
  obtain ⟨hready, hcall, hcmd, hcfg, hlbl, hcb, hsak⟩ := hu
  obtain ⟨new, hnew, rfl⟩ := h.trace
  exact ⟨⟨acts ++ new, by rw [ht, hnew, List.append_assoc], busReads_append acts new⟩, hready.trans h.busy,
    hcall.trans h.call, hcmd.trans h.cmd, hcfg.trans h.cfg, hlbl ▸ h.place, by
      rw [hlbl, hcb, hsak]; exact h.learned.append _⟩

theorem OnRead.stage {s t : State} {R : List (List Byte)} (h : OnRead s R t) :
    curStage t = stageOf s.cfg t.cb 5 t.stepLbl := by
  rw [curStage_host h.call, h.cfg, h.cmd]

/-- The response length of a stage's frame. -/
def Stage.len : Stage → Nat
  | .xfer x _ | .poll x _ _ => x.n
  | .nothing | .pin _ _ | .sleep _ => 0

/-- The labels after the bus read of an exchange with a response (40_transport.md R102, T10 to T13). -/
def Tph.afterRead : Tph → Bool
  | .t10 | .t11 | .t12 | .t13 => true
  | .t0 | .t1 | .t2 | .t3 | .t4 | .t5 | .t6 | .t7 | .t8 | .t9 => false

/-- With a response, the answer of the exchange in hand stands in `RXBUF` and is the last one read. -/
def HasAnswer (R : List (List Byte)) (t : State) : Prop :=
  t.rlen ≠ 0 → R.head? = some t.rxbuf ∧ t.rxbuf.length = t.rlen

/-- The invariant of a run of READ_CARD_SERIAL, at every line. -/
structure ReadInv (s : State) (R : List (List Byte)) (t : State) : Prop extends OnRead s R t where
  frame : t.tph ≠ .t0 → t.rlen = (curStage t).len
  answer : t.tph.afterRead = true → HasAnswer R t
  verdict : ∀ st, t.sub = .fin st → Verdict s.cfg t R st

/-- Outside an exchange, the invariant is what `OnRead` says, and the verdict. -/
theorem OnRead.outside {s t u : State} {R : List (List Byte)} (h : OnRead s R t) (hu : u.record = t.record)
    (htr : u.trace = t.trace) (ht : u.tph = .t0) (hs : ∀ st, u.sub = .fin st → Verdict s.cfg u R st) : ReadInv s R u :=
  { h.step [] hu htr with
    frame := fun h0 => absurd ht h0, answer := fun ha => by simp [ht, Tph.afterRead] at ha, verdict := hs }

/-- The first line of an exchange. -/
theorem OnRead.startXfer {s t : State} {R : List (List Byte)} (h : OnRead s R t) {x : Xfer}
    (hx : (curStage t).len = x.n) : ReadInv s R (startXfer x t) :=
  { h.step (u := Machine.startXfer x t) [] rfl rfl with
    frame := fun _ => hx.symm, answer := fun ha => by simp [Tph.afterRead] at ha, verdict := nofun }

/-- A line of an exchange that reads no bytes. -/
theorem ReadInv.line {s t u : State} {R : List (List Byte)} (h : ReadInv s R t) (acts : List Action)
    (hu : u.record = t.record) (ht : u.trace = acts ++ t.trace) (hacts : busReads acts = [])
    (hframe : u.rlen = t.rlen ∧ u.rxbuf = t.rxbuf) (hlbl : u.tph ≠ .t0 → t.tph ≠ .t0)
    (hans : u.tph.afterRead = true → t.tph.afterRead = true) (hsub : u.sub.closing = false) : ReadInv s R u := by
  have hon : OnRead s R u := by simpa only [hacts, List.nil_append] using h.toOnRead.step acts hu ht
  obtain ⟨hrlen, hrx⟩ := hframe
  simp only [State.record, Prod.mk.injEq] at hu
  obtain ⟨-, -, -, -, hstep, hcb, -⟩ := hu
  exact { hon with
    frame := fun h0 => by rw [hrlen, h.frame (hlbl h0), h.stage, hon.stage, hstep, hcb]
    answer := fun ha hn => by rw [hrx, hrlen]; exact h.answer (hans ha) (hrlen ▸ hn)
    verdict := fun st hst => by simp [hst, Sub.closing] at hsub }

/-! ### From step to step -/

/-- Tests that write neither the cascade buffer nor the SAK, and complete no command. -/
def Post.quiet : Post → Bool
  | .plain | .check | .pollState | .irqBit _ | .countIs | .coarse _ => true
  | _ => false

/-- There are four steps of READ_CARD_SERIAL whose test stores card bytes or completes the command; at every other step
the test is a quiet one, and what is known carries over to the next step. -/
theorem readStep_cases (c : Cfg) (cb : CascadeBuffer) {l : StepLabel} (h : stepOfCommand 5 l = true) :
    ((stageOf c cb 5 l).post.quiet = true ∧
      ∃ l', nextStep 5 l = some l' ∧ afterLevel1 l' = afterLevel1 l ∧ atLevel2 l' = atLevel2 l) ∨
    l = .ac1Read ∨ l = .selCount ∨ l = .selRead ∨ l = .ac2Read := by
  cases l
  case ac1Read | selCount | selRead | ac2Read => simp
  case noStep | beginNss | beginRst | verRead => cases h
  all_goals exact .inl ⟨rfl, _, rfl, rfl, rfl⟩

theorem OnRead.advance {s t : State} {R : List (List Byte)} (h : OnRead s R t) {l : StepLabel}
    (hn : nextStep 5 t.stepLbl = some l) (hl : Learned s.cfg l t.cb t.sak R) : ReadInv s R (nextStage t) := by
  have hnext : nextStage t = enterStage (stageOf s.cfg t.cb 5 l) { t with stepLbl := l } := by
    simp only [nextStage, h.call, Machine.advance, h.cmd, hn, enterStep, h.cfg]
  have hon : OnRead s R { t with stepLbl := l } := { h with place := stepOfCommand_nextStep hn, learned := hl }
  have hstage := hon.stage
  rw [hnext]
  cases hg : stageOf s.cfg t.cb 5 l with
  | xfer x p => exact hon.startXfer (by rw [hstage, hg]; rfl)
  | nothing | pin p v | sleep ms | poll x p ms => exact hon.outside rfl rfl rfl nofun

/-- A step with a quiet test has passed. -/
theorem OnRead.advance_quiet {s t : State} {R : List (List Byte)} (h : OnRead s R t)
    (hn : ∃ l', nextStep 5 t.stepLbl = some l' ∧ afterLevel1 l' = afterLevel1 t.stepLbl ∧
      atLevel2 l' = atLevel2 t.stepLbl) : ReadInv s R (nextStage t) := by
  obtain ⟨l', hn, h1, h2⟩ := hn
  exact h.advance hn (h.learned.of_same h1 h2)

theorem OnRead.failWith {s t : State} {R : List (List Byte)} (h : OnRead s R t) (d : DiagCode) :
    ReadInv s R (failWith d t) := by
  simp only [Machine.failWith, h.call]
  exact h.outside rfl rfl rfl nofun

/-- A quiet test writes neither the cascade buffer nor the SAK. -/
theorem postState_quiet {p : Post} (hp : p.quiet = true) (e : State) :
    (postState p e).record = e.record ∧ (postState p e).trace = e.trace := by
  cases p
  case plain | check | pollState | irqBit | countIs | coarse => exact ⟨rfl, rfl⟩
  all_goals cases hp

theorem postRes_quiet {p : Post} (hp : p.quiet = true) (e : State) :
    postRes p e = .ok ∨ postRes p e = .again ∨ ∃ d, postRes p e = .fail d := by
  cases p
  case plain | coarse => exact .inl rfl
  case check | pollState | irqBit | countIs => simp only [postRes]; split <;> simp
  all_goals cases hp

/-- After a quiet test the next step begins, the poll goes on, or the command is aborted. -/
theorem OnRead.afterPost_quiet {s t : State} {R : List (List Byte)} {r : PostRes} (h : OnRead s R t)
    (hr : r = .ok ∨ r = .again ∨ ∃ d, r = .fail d)
    (hn : ∃ l', nextStep 5 t.stepLbl = some l' ∧ afterLevel1 l' = afterLevel1 t.stepLbl ∧
      atLevel2 l' = atLevel2 t.stepLbl) : ReadInv s R (afterPost r t) := by
  rcases hr with rfl | rfl | ⟨d, rfl⟩
  · exact h.advance_quiet hn
  · exact h.outside rfl rfl rfl nofun
  · exact h.failWith d

/-- The test of the level-1 answer: the five bytes are in the cascade buffer (43_uid_resolution.md R179). -/
theorem OnRead.level1 {s e : State} {R : List (List Byte)} (h : OnRead s R e) (hl : e.stepLbl = .ac1Read)
    (hmem : e.rxbuf ∈ R) (hlen : e.rxbuf.length = 5) :
    ReadInv s R (afterPost (postRes .level1 (postState .level1 e)) (postState .level1 e)) := by
  obtain ⟨hs, hr⟩ := post_level1 e
  have hcb : (e.cb.setL1 e.rxbuf).level1 = e.rxbuf := (eq_of_length_five hlen).symm
  have hon : OnRead s R { e with cb := e.cb.setL1 e.rxbuf } :=
    { h with learned := ⟨fun ha => by simp [hl, afterLevel1, atLevel2] at ha, fun ha => by simp [hl, atLevel2] at ha⟩ }
  rw [hr, hs]
  split
  · exact hon.failWith _
  · exact hon.advance (l := .selCrcRxOn) (by rw [hl]; rfl) ⟨fun _ => hcb ▸ hmem, nofun⟩

/-- The test of the count after SELECT (R183, R184). -/
theorem OnRead.countSelect {s e : State} {R : List (List Byte)} (h : OnRead s R e) (hl : e.stepLbl = .selCount)
    (hlast : R.head? = some e.rxbuf) :
    ReadInv s R (afterPost (postRes .countSelect (postState .countSelect e)) (postState .countSelect e)) := by
  have hlevel1 : e.cb.level1 ∈ R := h.learned.level1 (by rw [hl]; rfl)
  by_cases hc : rxCount e.cfg (fromLe32 e.rxbuf) = 0
  · obtain ⟨hs, hr⟩ := post_countSelect_zero e hc
    rw [hr, hs]
    refine h.outside rfl rfl rfl fun st hst => ?_
    cases hst
    exact ⟨hlevel1, .inr ⟨hc, ⟨_, hlast, by rw [← h.cfg]; exact hc⟩, rfl⟩⟩
  · obtain ⟨hs, hr⟩ := post_countSelect_nonzero e hc
    rw [hr, hs]
    refine OnRead.advance (l := .selRead) (h.step [] rfl rfl) (by rw [hl]; rfl) ⟨fun _ => hlevel1, nofun⟩

/-- The test of the SAK (R185). -/
theorem OnRead.sakDecide {s e : State} {R : List (List Byte)} (h : OnRead s R e) (hl : e.stepLbl = .selRead)
    (hlast : R.head? = some e.rxbuf) (hlen : e.rxbuf.length = 1) :
    ReadInv s R (afterPost (postRes .sakDecide (postState .sakDecide e)) (postState .sakDecide e)) := by
  have hlevel1 : e.cb.level1 ∈ R := h.learned.level1 (by rw [hl]; rfl)
  have hon : OnRead s R { e with sak := byteAt e.rxbuf 0 } :=
    { h with learned := ⟨fun _ => hlevel1, fun ha => by simp [hl, atLevel2] at ha⟩ }
  rw [eq_of_length_one hlen] at hlast
  cases hc : cascadeContinues e.cfg (byteAt e.rxbuf 0) with
  | false =>
    obtain ⟨hs, hr⟩ := post_sakDecide_last e hc
    have hclear : byteAt e.rxbuf 0 &&& s.cfg.card.sakCascadeMask = 0 := by
      rw [← h.cfg]; simpa [cascadeContinues] using hc
    rw [hr, hs]
    refine hon.outside rfl rfl rfl fun st hst => ?_
    cases hst
    exact ⟨hlevel1, .inl ⟨hclear, hlast, rfl⟩⟩
  | true =>
    obtain ⟨hs, hr⟩ := post_sakDecide_cascade e hc
    rw [hr, hs]
    split
    · next htag =>
      refine hon.advance (l := .ac2CrcRxOff) (show nextStep 5 e.stepLbl = _ by rw [hl]; rfl)
        ⟨fun _ => hlevel1, fun _ => ?_⟩
      rw [← h.cfg]
      exact ⟨List.mem_of_mem_head? hlast, by simpa [cascadeContinues] using hc, htag⟩
    · exact hon.failWith _

/-- The test of the level-2 answer (R187, R188). -/
theorem OnRead.level2Done {s e : State} {R : List (List Byte)} (h : OnRead s R e) (hl : e.stepLbl = .ac2Read)
    (hlast : R.head? = some e.rxbuf) (hlen : e.rxbuf.length = 5) :
    ReadInv s R (afterPost (postRes .level2Done (postState .level2Done e)) (postState .level2Done e)) := by
  have hlevel1 : e.cb.level1 ∈ R := h.learned.level1 (by rw [hl]; rfl)
  obtain ⟨hsak, hmask, htag⟩ := h.learned.cascade (by rw [hl]; rfl)
  have hon : OnRead s R { e with cb := e.cb.setL2 e.rxbuf } :=
    { h with learned := ⟨fun _ => hlevel1, fun _ => ⟨hsak, hmask, htag⟩⟩ }
  rw [eq_of_length_five hlen] at hlast
  cases hc : e.cfg.bccCheck && !(e.cb.setL2 e.rxbuf).l2Ok with
  | true =>
    obtain ⟨hs, hr⟩ := post_level2Done_bad e hc
    rw [hr, hs]
    exact hon.failWith _
  | false =>
    obtain ⟨hs, hr⟩ := post_level2Done_ok e hc
    rw [hr, hs]
    refine hon.outside rfl rfl rfl fun st hst => ?_
    cases hst
    exact ⟨hlevel1, hsak, hmask, htag, hlast, rfl⟩

/-- The exchange of a step has returned `Ok(rx)`. -/
theorem OnRead.xferDone {s t : State} {R : List (List Byte)} (hwf : s.cfg.wf = true) (h : OnRead s R t)
    (hframe : t.rlen = (curStage t).len) (hans : HasAnswer R t) : ReadInv s R (xferDone t) := by
  have hon : OnRead s R (delivered t) := h.step [] rfl rfl
  have hstage : curStage (delivered t) = stageOf s.cfg t.cb 5 t.stepLbl := hon.stage
  rw [h.stage] at hframe
  rw [Machine.xferDone, hstage]
  rcases readStep_cases s.cfg t.cb h.place with ⟨hq, hn⟩ | hl | hl | hl | hl
  · obtain ⟨hrec, htr⟩ := postState_quiet hq (delivered t)
    have hpost : OnRead s R (postState _ (delivered t)) := hon.step [] hrec htr
    obtain ⟨⟨-, -, hlbl, -⟩, -⟩ := postState_keeps (stageOf s.cfg t.cb 5 t.stepLbl).post (delivered t)
    exact hpost.afterPost_quiet (postRes_quiet hq _) (by rwa [hlbl])
  all_goals rw [hl] at hframe ⊢
  · have h5 : t.rlen = 5 := hframe.trans (xReadData_acRespLen hwf)
    obtain ⟨hlast, hlen⟩ := hans (by rw [h5]; decide)
    exact hon.level1 hl (List.mem_of_mem_head? hlast) (hlen.trans h5)
  · obtain ⟨hlast, -⟩ := hans (by rw [hframe]; nofun)
    exact hon.countSelect hl hlast
  · have h1 : t.rlen = 1 := hframe.trans (xReadData_sakLen hwf)
    obtain ⟨hlast, hlen⟩ := hans (by rw [h1]; decide)
    exact hon.sakDecide hl hlast (hlen.trans h1)
  · have h5 : t.rlen = 5 := hframe.trans (xReadData_acRespLen hwf)
    obtain ⟨hlast, hlen⟩ := hans (by rw [h5]; decide)
    exact hon.level2Done hl hlast (hlen.trans h5)

/-! ### Every event keeps the invariant -/

theorem OnRead.xferFail {s t : State} {R : List (List Byte)} (h : OnRead s R t) : ReadInv s R (xferFail t) := by
  unfold Machine.xferFail
  refine OnRead.failWith ?_ _
  exact h.step [] rfl rfl

/-- A step that is a pin write or a sleep has a quiet end. -/
theorem readStep_passes {c : Cfg} {cb : CascadeBuffer} {l : StepLabel} (h : stepOfCommand 5 l = true)
    (hg : (∃ p v, stageOf c cb 5 l = .pin p v) ∨ ∃ ms, stageOf c cb 5 l = .sleep ms) :
    ∃ l', nextStep 5 l = some l' ∧ afterLevel1 l' = afterLevel1 l ∧ atLevel2 l' = atLevel2 l := by
  rcases readStep_cases c cb h with ⟨-, hn⟩ | rfl | rfl | rfl | rfl
  · exact hn
  all_goals simp [stageOf] at hg

theorem OnRead.stageEvent {s t : State} {R : List (List Byte)} (h : OnRead s R t) :
    ReadInv s R (stageEvent (curStage t) t) := by
  have hstage := h.stage
  cases hg : curStage t with
  | nothing =>
    rw [hg] at hstage
    refine absurd hstage.symm (stageOf_ne_nothing _ _ _ fun hl => ?_)
    have hplace := h.place
    rw [hl] at hplace
    cases hplace
  | pin p v =>
    have hon : OnRead s R (drivePin p v t) := by cases p <;> exact h.step [.pinWrite _ v] rfl rfl
    refine hon.advance_quiet ?_
    cases p <;> exact readStep_passes h.place (.inl ⟨_, v, hstage.symm.trans hg⟩)
  | sleep ms =>
    have hon : OnRead s R (sleepFor ms t) := h.step [.sleep ms] rfl rfl
    exact hon.advance_quiet (readStep_passes h.place (.inr ⟨ms, hstage.symm.trans hg⟩))
  | xfer x p => exact h.startXfer (by rw [hg]; rfl)
  | poll x p ms =>
    have hon : OnRead s R { readClock t with tp0 := t.nextTime } := h.step [.now t.nextTime] rfl rfl
    exact hon.startXfer (congrArg Stage.len hg)

theorem ReadInv.startEvent {s t : State} {R : List (List Byte)} (hwf : s.cfg.wf = true) (h : ReadInv s R t)
    (hs : t.sub = .start) : ∃ R', ReadInv s R' (startEvent t) := by
  have hactive : t.sub.closing = false := by rw [hs]; rfl
  unfold Machine.startEvent
  split
  case h_1 => exact ⟨R, h.toOnRead.stageEvent⟩
  case h_2 ht | h_3 ht | h_4 ht | h_5 ht | h_6 ht =>
    exact ⟨R, h.line [.now t.nextTime] rfl rfl rfl ⟨rfl, rfl⟩ id id rfl⟩
  case h_7 ht | h_9 ht | h_11 ht =>
    exact ⟨R, h.line [.pinWrite .nss _] rfl rfl rfl ⟨rfl, rfl⟩ (by simp [ht]) (by simp [Tph.afterRead]) hactive⟩
  case h_8 ht =>
    exact ⟨R, h.line [.busWrite t.txbuf] rfl rfl rfl ⟨rfl, rfl⟩ (by simp [ht]) (by simp [Tph.afterRead]) hactive⟩
  case h_10 ht =>
    split
    · next h0 => exact ⟨R, h.toOnRead.xferDone hwf (h.frame (by simp [ht])) (absurd h0)⟩
    · exact ⟨R, h.line [] rfl rfl rfl ⟨rfl, rfl⟩ (by simp [ht]) (by simp [Tph.afterRead]) hactive⟩
  case h_12 ht =>
    have hon : OnRead s (t.nextBytes t.rlen :: R) { busRead t.rlen t with tph := .t10 } :=
      h.step [.busRead (t.nextBytes t.rlen)] rfl rfl
    exact ⟨_, { hon with
      frame := fun _ => h.frame (by simp [ht]), answer := fun _ _ => ⟨rfl, nextBytes_length ..⟩
      verdict := fun st hst => by cases hs.symm.trans hst }⟩
  case h_13 ht =>
    exact ⟨R, h.line [.pinWrite .nss _] rfl rfl rfl ⟨rfl, rfl⟩ (by simp [ht]) (by simp [ht, Tph.afterRead]) hactive⟩
  case h_14 ht => exact ⟨R, h.toOnRead.xferDone hwf (h.frame (by simp [ht])) (h.answer (by rw [ht]; rfl))⟩

/-- A sample inside a wait, and what follows it (40_transport.md R101, R102). -/
theorem ReadInv.sampleEvent {s t : State} {R : List (List Byte)} (hwf : s.cfg.wf = true) (h : ReadInv s R t) :
    ReadInv s R (sampleEvent t) := by
  have hon : OnRead s R (sampleBusy t) := h.toOnRead.step [.pinRead t.nextLevel] rfl rfl
  unfold Machine.sampleEvent
  split
  case h_1 l hl =>
    split
    case isFalse => exact h.line [.pinRead t.nextLevel] rfl rfl rfl ⟨rfl, rfl⟩ id id rfl
    unfold waitPassed
    split
    case h_1 ht | h_2 ht | h_4 ht =>
      rw [sampleBusy_tph] at ht
      exact h.line [.pinRead t.nextLevel] rfl rfl rfl ⟨rfl, rfl⟩ (by simp [ht]) (by simp [ht, Tph.afterRead]) rfl
    case h_3 ht =>
      rw [sampleBusy_tph] at ht
      split
      · next h0 => exact hon.xferDone hwf (h.frame (by simp [ht])) (absurd h0)
      · exact h.line [.pinRead t.nextLevel] rfl rfl rfl ⟨rfl, rfl⟩ (by simp [ht]) (by simp [Tph.afterRead]) rfl
    case h_5 ht =>
      rw [sampleBusy_tph] at ht
      exact hon.xferDone hwf (h.frame (by simp [ht])) (h.answer (by rw [ht]; rfl))
    case h_6 => exact h.line [.pinRead t.nextLevel] rfl rfl rfl ⟨rfl, rfl⟩ id id rfl
  case h_2 => exact h.line [] rfl rfl rfl ⟨rfl, rfl⟩ id id rfl

/-- The time test of a wait or of a poll. -/
theorem ReadInv.timeEvent {s t : State} {R : List (List Byte)} (h : ReadInv s R t) : ReadInv s R (timeEvent t) := by
  have hon : OnRead s R (readClock t) := h.toOnRead.step [.now t.nextTime] rfl rfl
  unfold Machine.timeEvent
  split
  case h_1 =>
    split
    case isFalse => exact h.line [.now t.nextTime] rfl rfl rfl ⟨rfl, rfl⟩ id id rfl
    unfold waitFailed
    split
    · exact h.line [.now t.nextTime] rfl rfl rfl ⟨rfl, rfl⟩ id id rfl
    · exact hon.xferFail
  case h_2 =>
    split
    case h_1 x p ms ht hg =>
      unfold pollTimeEvent
      split
      · exact hon.failWith _
      · exact hon.startXfer (congrArg Stage.len hg)
    case h_2 => exact h.line [] rfl rfl rfl ⟨rfl, rfl⟩ id id rfl

/-- Every event but `Done` keeps the invariant. -/
theorem ReadInv.event {s t : State} {R : List (List Byte)} (hwf : s.cfg.wf = true) (h : ReadInv s R t) :
    (∃ R', ReadInv s R' (event t)) ∨ ∃ st, t.sub = .fin st ∧ event t = done st t := by
  unfold Machine.event
  split
  case h_1 hs => exact .inl (h.startEvent hwf hs)
  case h_2 => exact .inl ⟨R, h.sampleEvent hwf⟩
  case h_3 => exact .inl ⟨R, h.timeEvent⟩
  case h_4 =>
    have hon : OnRead s R (driveNss t.cfg.pin.nssInactive t) := h.toOnRead.step [.pinWrite .nss _] rfl rfl
    exact .inl ⟨R, hon.xferFail⟩
  case h_5 =>
    have hon : OnRead s R (logAbort t) :=
      h.toOnRead.step [.log ⟨t.cfg.readerId, t.diagCode, t.diagStep, t.diagTph⟩] rfl rfl
    have hsub : (logAbort t).sub = .fin .stNoCard := by rw [logAbort_sub, h.cmd]; rfl
    exact .inl ⟨R, { hon with
      frame := h.frame, answer := h.answer, verdict := fun st hst => by cases hsub.symm.trans hst; trivial }⟩
  case h_6 st hs => exact .inr ⟨st, hs, rfl⟩

theorem accept_readInv {s : State} : ReadInv s [] (accept 5 s) := by
  have hon : OnRead s [] (accept 5 s) :=
    ⟨⟨[], rfl, rfl⟩, rfl, rfl, rfl, rfl, rfl, ⟨nofun, nofun⟩⟩
  exact hon.outside rfl rfl rfl nofun

/-- The verdict of a run, at its `Done`. -/
theorem ReadInv.run {s t : State} {R : List (List Byte)} (hwf : s.cfg.wf = true) (h : ReadInv s R t)
    (hres : t.ResultInv) (n : Nat) (hbusy : ∀ m, m < n → (events m t).ready = false)
    (hdone : (events n t).ready = true) :
    ∃ R', (∃ new, (events n t).trace = new ++ .accept 5 :: s.trace ∧ busReads new = R') ∧
      Verdict s.cfg (events n t) R' (events n t).status ∧ (events n t).ResultInv := by
  induction n generalizing t R with
  | zero => exact absurd (h.busy.symm.trans hdone) nofun
  | succ n ih =>
    have hres' : (Machine.event t).ResultInv := (event_move t).resultInv h.busy hres
    have hbusy' (m : Nat) (hm : m < n) : (events m (Machine.event t)).ready = false := hbusy (m + 1) (by omega)
    rcases h.event hwf with ⟨R', h'⟩ | ⟨st, hs, he⟩
    · exact ih h' hres' hbusy' hdone
    · cases n with
      | succ n =>
        have hready := hbusy' 0 (Nat.succ_pos n)
        rw [events, he] at hready
        cases hready
      | zero =>
        obtain ⟨new, hnew, rfl⟩ := h.trace
        have hverdict : Verdict s.cfg (done st t) (busReads new) st := by cases st <;> exact h.verdict _ hs
        rw [he] at hres'
        rw [events, events, he]
        exact ⟨_, ⟨.done st :: new, congrArg (Action.done st :: ·) hnew, rfl⟩, hverdict, hres'⟩

/-- Settles O49: the verdict of the invariant at `Done`, with the UID length that goes with the status. -/
theorem uidComesFromTheCard : Obligations.UidComesFromTheCard := by
  intro n s _ hwf hbusy hdone t
  obtain ⟨_, ⟨new, hnew, rfl⟩, hverdict, hinv⟩ := accept_readInv.run hwf (accept_resultInv 5 s) n hbusy hdone
  have hlen : t.uidLen = lenOf t.status := hinv.posted (.inl hdone)
  have hshape : uidShape t.uidOut t.uidLen := hinv.shape
  refine ⟨new, hnew, ?_⟩
  change Verdict s.cfg t (busReads new) t.status at hverdict
  cases hst : t.status with
  | stUid4 =>
    rw [hst] at hverdict hlen
    obtain ⟨hmem, hcase⟩ := hverdict
    exact .inl ⟨rfl, hlen, hmem, hcase⟩
  | stUid7 =>
    rw [hst] at hverdict hlen
    obtain ⟨hmem, hsak, hmask, htag, hlast, huid⟩ := hverdict
    exact .inr (.inl ⟨rfl, hlen, hmem, hsak, hmask, htag, hlast, huid⟩)
  | stNoCard =>
    rw [hst] at hlen
    rw [hlen] at hshape
    exact .inr (.inr ⟨rfl, hlen, hshape⟩)
  | stNone | stOk | stResetTimeout | stVersionError | stIllegalCmd =>
    rw [hst] at hverdict
    exact hverdict.elim

end Sys2Proof.Machine
end

section
/-! Proofs: the ways a step can stop, what it does with no instruction presented, and the effect of an abort
(60_exceptions.md R210, R211, R215, R222; 20_memory.md R63; 00_scope.md R5). -/

namespace Sys2Proof.Machine

/-! ### The stops of a step (60_exceptions.md R215) -/

/-- What stands on the port is an instruction, which answers a next state, or the code of none. -/
theorem runPort_cases (p : Presented) (s : State) :
    (∃ t, runPort p s = .next t) ∨ ∃ e, decode s.cfg p = .error e ∧ runPort p s = .refused (.undecodable e) := by
  unfold runPort
  split
  · next i _ =>
    obtain ⟨t, ht, -⟩ := exec_next i s
    exact .inl ⟨t, ht⟩
  · next e he => exact .inr ⟨e, he, rfl⟩

/-- Settles O6, by what the engine does and what is presented: only a shared bus and a code of no operation are
refused. -/
theorem stepStopsOnlyByName : Obligations.StepStopsOnlyByName := by
  intro s
  cases hready : s.ready with
  | false =>
    rw [step_of_busy hready]
    split_ifs with _ hother
    · exact .inl ⟨_, rfl⟩
    · exact .inr (.inl ⟨hother, rfl⟩)
    · exact .inl ⟨_, rfl⟩
  | true =>
    cases hport : s.port with
    | none =>
      rw [step_of_nothing hready hport]
      split_ifs
      · exact .inl ⟨_, rfl⟩
      · exact .inl ⟨_, rfl⟩
    | some p =>
      rw [step_of_presented hready hport]
      split_ifs with _ hother
      · exact .inl ⟨_, rfl⟩
      · exact .inr (.inl ⟨hother, rfl⟩)
      · rcases runPort_cases p s with hnext | ⟨e, hdecode, hrefused⟩
        · exact .inl hnext
        · exact .inr (.inr ⟨p, e, rfl, hdecode, hrefused⟩)

/-! ### A step of a running command (00_scope.md R5; log entry 3) -/

/-- No event changes the input `runAhead`. -/
theorem event_runAhead (s : State) : (event s).runAhead = s.runAhead :=
  (event_move s).usesUp.runAhead

/-- An event and then `runOn`, with `runAhead`: the events up to the first state, after at least one, that is done or
lacks an answer. -/
theorem runOn_event_eq_events {s : State} (hahead : s.runAhead = true) :
    ∃ n, runOn (event s) = events (n + 1) s ∧
      ((events (n + 1) s).ready = true ∨ answered (events (n + 1) s) = false) ∧
      ∀ m, 0 < m → m ≤ n → (events m s).ready = false ∧ answered (events m s) = true := by
  obtain ⟨n, hn, -, hrunning⟩ := runOn_eq_events (event s)
  have hstop := runOn_settles ((event_runAhead s).trans hahead)
  refine ⟨n, hn, by rwa [hn] at hstop, fun m hpos hle => ?_⟩
  obtain ⟨k, rfl⟩ := Nat.exists_eq_add_one.mpr hpos
  exact hrunning k hle

/-- Settles O4: a step without reset is read off by `READY`, the port and the bus, and while a command runs it is one
event and then `runOn`. -/
theorem stepWithoutInstruction : Obligations.StepWithoutInstruction := by
  intro s hreset
  have hgoes (hb : s.ready = false) (hother : s.otherBusy = false) : step s = .next (runOn (event s)) := by
    simp [step_of_busy hb, hreset, hother]
  refine ⟨fun hr hp => ?_, fun hr hother p e hp hdecode => ?_, fun hr hother hp => ?_, hgoes,
    fun hb hother hsingle => ?_, fun hb hother hahead => ?_, fun hb hother => ?_⟩
  · simp [step_of_nothing hr hp, hreset]
  · simp [step_of_presented hr hp, hreset, hother, runPort, hdecode]
  · obtain ⟨p, hp⟩ := Option.ne_none_iff_exists'.mp hp
    simp [step_of_presented hr hp, hreset, hother]
  · rw [hgoes hb hother, runOn_of_single ((event_runAhead s).trans hsingle)]
  · obtain ⟨n, hn, hstop, hrunning⟩ := runOn_event_eq_events hahead
    exact ⟨n, by rw [hgoes hb hother, hn], hstop, hrunning⟩
  · simp [step_of_busy hb, hreset, hother]

/-! ### The abort (60_exceptions.md R210, R211) -/

/-- The table of R211. -/
theorem abortStatus_eq (cmd : BitVec 3) :
    abortStatus cmd = if cmd = 0 ∨ cmd = 1 then .stResetTimeout
      else if cmd = 2 ∨ cmd = 3 ∨ cmd = 4 then .stVersionError
      else if cmd = 5 then .stNoCard else .stIllegalCmd := by
  revert cmd
  decide

/-- Settles O16: the two events after a raise are `Log` and `Done`, with the status of the command. -/
theorem abortEffect : Obligations.AbortEffect := by
  intro d s st
  have hevents : events 2 (raise d s) = done (abortStatus s.cmd) (logAbort (raise d s)) := rfl
  rw [hevents, abortStatus_eq]
  rfl

end Sys2Proof.Machine
end

section
/-! Proofs: every run of a host command accounts for its failure in the trace, whatever ENV answers (60_exceptions.md
R211, R214). -/

namespace Sys2Proof.Machine

/-! ### Only AB3 writes a `Log` record (60_exceptions.md R214) -/

theorem stageEvent_logCount (g : Stage) (s : State) : logCount (stageEvent g s).trace = logCount s.trace := by
  cases g with
  | pin p l => cases p <;> simp [stageEvent, drivePin, logCount]
  | sleep ms => simp [stageEvent, logCount]
  | nothing | xfer x p | poll x p ms => rfl

theorem startEvent_logCount (s : State) : logCount (startEvent s).trace = logCount s.trace := by
  unfold startEvent
  split
  case h_1 => exact stageEvent_logCount _ s
  case h_10 => split <;> simp
  case h_14 => simp
  all_goals rfl

theorem sampleEvent_logCount (s : State) : logCount (sampleEvent s).trace = logCount s.trace := by
  unfold sampleEvent
  split
  · split <;> simp [logCount]
  · rfl

theorem timeEvent_logCount (s : State) : logCount (timeEvent s).trace = logCount s.trace := by
  unfold timeEvent
  split
  · split <;> simp [logCount]
  · split
    · simp [pollTimeEvent_trace, logCount]
    · rfl

theorem event_logCount {s : State} (h : s.sub ≠ .log) : logCount (event s).trace = logCount s.trace := by
  unfold event
  split
  case h_1 => exact startEvent_logCount s
  case h_2 => exact sampleEvent_logCount s
  case h_3 => exact timeEvent_logCount s
  case h_4 => simp [logCount]
  case h_5 hs => exact absurd hs h
  case h_6 => rfl

/-! ### The codes of the failures (R200) -/

theorem timeoutCode_ne_none (l : StepLabel) : timeoutCode l ≠ .dgNone := by
  unfold timeoutCode
  split <;> simp

theorem expiredCode_ne_none (l : StepLabel) : expiredCode l ≠ .dgNone := by
  unfold expiredCode
  split <;> simp

/-- The test of an operation fails with a code of R200. -/
theorem code_ne_none_of_fail {p : Post} {s : State} {d : DiagCode} (h : postRes p s = .fail d) : d ≠ .dgNone := by
  cases p
  case check | pollState | irqBit | countIs | countStop | countSelect | level1 | level2 | level2Done | sakDecide =>
    simp only [postRes] at h
    split_ifs at h
    all_goals cases h; simp
  all_goals cases h

/-! ### The statuses of a success (R211, 30_encoding.md R71) -/

/-- The statuses that end a command which has not failed. -/
abbrev Status.Success (st : Status) : Prop :=
  st = .stOk ∨ st = .stUid4 ∨ st = .stUid7

theorem abortStatus_not_success (c : BitVec 3) : ¬(abortStatus c).Success := by
  rcases abortStatus_cases c with h | h | h | h <;> simp [h, Status.Success]

theorem abortStatus_allowed (c : BitVec 3) : abortStatus c ∈ allowedStatus c := by
  revert c
  decide

/-- The tests that complete a host command, with their statuses. -/
theorem post_of_finish {p : Post} {s : State} {st : Status} (h : postRes p s = .finish st) :
    p = .version ∧ st = .stOk ∨ (p = .countSelect ∨ p = .sakDecide) ∧ st = .stUid4 ∨
      p = .level2Done ∧ st = .stUid7 := by
  cases p
  case check | pollState | irqBit | countIs | countStop | countSelect | level1 | level2 | level2Done | sakDecide =>
    simp only [postRes] at h
    split_ifs at h
    all_goals cases h; simp
  all_goals cases h
  exact .inl ⟨rfl, rfl⟩

/-- VER_READ is a step of the version commands, which end with ST_OK. -/
theorem stOk_allowed_of_verRead {c : BitVec 3} (h : stepOfCommand c .verRead = true) :
    Status.stOk ∈ allowedStatus c := by
  revert c
  decide

/-- Card resolution is READ_CARD_SERIAL's alone. -/
theorem cmd_of_resolver {c : BitVec 3} {l : StepLabel} (h : stepOfCommand c l = true)
    (hl : l = .selCount ∨ l = .selRead ∨ l = .ac2Read) : c = 5 := by
  rcases hl with rfl | rfl | rfl <;> revert c <;> decide

/-- The test of a step completes the command with a success of the command. -/
theorem success_of_finish {k : Cfg} {cb : CascadeBuffer} {c : BitVec 3} {l : StepLabel} {s : State} {st : Status}
    (hplace : stepOfCommand c l = true) (h : postRes (stageOf k cb c l).post s = .finish st) :
    st.Success ∧ st ∈ allowedStatus c := by
  rcases post_of_finish h with ⟨hp, rfl⟩ | ⟨hp, rfl⟩ | ⟨hp, rfl⟩
  · have hl : l = .verRead := by cases l <;> simp [stageOf, Stage.post] at hp ⊢
    subst hl
    exact ⟨.inl rfl, stOk_allowed_of_verRead hplace⟩
  · have hl : l = .selCount ∨ l = .selRead := by cases l <;> simp [stageOf, Stage.post] at hp ⊢
    obtain rfl : c = 5 := cmd_of_resolver hplace (hl.imp_right .inl)
    exact ⟨.inr (.inl rfl), by decide⟩
  · have hl : l = .ac2Read := by cases l <;> simp [stageOf, Stage.post] at hp ⊢
    obtain rfl : c = 5 := cmd_of_resolver hplace (.inr (.inr hl))
    exact ⟨.inr (.inr rfl), by decide⟩

/-- The test of the level-2 answer always ends READ_CARD_SERIAL (43_uid_resolution.md R187, R188). -/
theorem postRes_level2Done (s : State) :
    postRes .level2Done s = .fail .dgChecksum ∨ postRes .level2Done s = .finish .stUid7 := by
  simp only [postRes]
  split <;> simp

/-- A command whose last step has passed with no test that completes it can end with ST_OK (42_system_ops.md R151,
R154). -/
theorem stOk_allowed_of_last {c : BitVec 3} {l : StepLabel} (hplace : stepOfCommand c l = true) (hstep : l ≠ .noStep)
    (hread : l ≠ .ac2Read) (hlast : nextStep c l = none) : Status.stOk ∈ allowedStatus c := by
  have hall : ∀ c : BitVec 3, Status.stOk ∈ allowedStatus c ∨ c = 5 ∨ c = 6 ∨ c = 7 := by decide
  rcases hall c with hok | rfl | rfl | rfl
  · exact hok
  · rcases readStep_cases specCfg CascadeBuffer.zero hplace with ⟨-, l', hnext, -⟩ | rfl | rfl | rfl | rfl
    · cases hlast.symm.trans hnext
    · cases hlast
    · cases hlast
    · cases hlast
    · contradiction
  · cases l <;> simp [stepOfCommand] at hplace hstep
  · cases l <;> simp [stepOfCommand] at hplace hstep

/-! ### The course of a host command -/

/-- The registers that tell which command runs, its step and its diagnosis. -/
def State.account (s : State) : Bool × Option (List Stage) × BitVec 3 × StepLabel × DiagCode × StepLabel × Tph :=
  (s.ready, s.call, s.cmd, s.stepLbl, s.diagCode, s.diagStep, s.diagTph)

/-- The host command with the code `c` stands at one of its steps and has not failed. -/
structure State.Unfailed (s : State) (c : BitVec 3) : Prop where
  busy : s.ready = false
  call : s.call = none
  cmd : s.cmd = c
  place : stepOfCommand c s.stepLbl = true
  step : s.stepLbl ≠ .noStep
  diag : s.diagCode = .dgNone ∧ s.diagStep = .noStep ∧ s.diagTph = .t0

theorem State.Unfailed.congr {s u : State} {c : BitVec 3} (h : s.Unfailed c) (hu : u.account = s.account) :
    u.Unfailed c := by
  simp only [State.account, Prod.mk.injEq] at hu
  obtain ⟨hready, hcall, hcmd, hlbl, hcode, hdstep, hdtph⟩ := hu
  exact ⟨hready.trans h.busy, hcall.trans h.call, hcmd.trans h.cmd, hlbl ▸ h.place, hlbl ▸ h.step,
    by rw [hcode, hdstep, hdtph]; exact h.diag⟩

/-- The step at which a host command stands has a stage. -/
theorem State.Unfailed.stage {s : State} {c : BitVec 3} (h : s.Unfailed c) :
    curStage s = stageOf s.cfg s.cb c s.stepLbl := by
  rw [curStage_host h.call, h.cmd]

/-- A host command before its `Log` and its `Done`: it goes on, it has failed with a diagnosis, or it has passed with a
status of its own. -/
inductive Course (c : BitVec 3) (t : State) : Prop
  | goesOn : t.Unfailed c → t.sub.closing = false → Course c t
  | raised : t.ready = false → t.cmd = c → t.diagCode ≠ .dgNone → t.sub = .log → Course c t
  | passed (st : Status) : t.Unfailed c → st.Success → st ∈ allowedStatus c → t.sub = .fin st → Course c t

theorem advance_course {c : BitVec 3} {s : State} (h : s.Unfailed c) (hread : s.stepLbl ≠ .ac2Read) :
    Course c (advance s) := by
  unfold advance
  split
  · next l hl =>
    obtain ⟨t, tx, n, he⟩ := enterStep_eq l s
    rw [he]
    exact .goesOn ⟨h.busy, h.call, h.cmd, stepOfCommand_nextStep (h.cmd ▸ hl), nextStep_ne_noStep hl, h.diag⟩ rfl
  · next hl =>
    exact .passed .stOk (h.congr rfl) (.inl rfl) (stOk_allowed_of_last h.place h.step hread (h.cmd ▸ hl)) rfl

theorem nextStage_course {c : BitVec 3} {s : State} (h : s.Unfailed c) (hread : s.stepLbl ≠ .ac2Read) :
    Course c (nextStage s) := by
  simp only [nextStage, h.call]
  exact advance_course h hread

theorem failWith_course {c : BitVec 3} {s : State} (h : s.Unfailed c) {d : DiagCode} (hd : d ≠ .dgNone) :
    Course c (failWith d s) := by
  simp only [failWith, h.call]
  exact .raised h.busy h.cmd hd rfl

/-- What follows the test of a step. -/
theorem afterPost_course {c : BitVec 3} {s : State} {r : PostRes} (h : s.Unfailed c)
    (hread : s.stepLbl = .ac2Read → r = .fail .dgChecksum ∨ r = .finish .stUid7)
    (hfail : ∀ d, r = .fail d → d ≠ .dgNone) (hfinish : ∀ st, r = .finish st → st.Success ∧ st ∈ allowedStatus c) :
    Course c (afterPost r s) := by
  cases r with
  | ok => exact nextStage_course h fun hl => by simpa using hread hl
  | fail d => exact failWith_course h (hfail d rfl)
  | again => exact .goesOn (h.congr rfl) rfl
  | finish st =>
    obtain ⟨hsuccess, hallowed⟩ := hfinish st rfl
    exact .passed st (h.congr rfl) hsuccess hallowed rfl
  | okState v | stop =>
    simp only [afterPost, h.call]
    exact advance_course h fun hl => by simpa using hread hl

theorem postState_account (p : Post) (s : State) : (postState p s).account = s.account := by
  cases p
  case countSelect | level2Done | sakDecide => simp only [postState]; split <;> rfl
  all_goals rfl

/-- The exchange of a step has returned `Ok(rx)`. -/
theorem xferDone_course {c : BitVec 3} {s : State} (h : s.Unfailed c) : Course c (xferDone s) := by
  have hdelivered : (delivered s).Unfailed c := h.congr rfl
  have hpost : (postState (curStage (delivered s)).post (delivered s)).Unfailed c :=
    hdelivered.congr (postState_account _ _)
  obtain ⟨⟨-, -, hlbl, -⟩, -⟩ := postState_keeps (curStage (delivered s)).post (delivered s)
  refine afterPost_course hpost (fun hl => ?_) (fun _ hd => code_ne_none_of_fail hd) fun st hst => ?_
  · have hlevel2 : (curStage (delivered s)).post = .level2Done := by
      rw [hdelivered.stage, ← hlbl, hl]
      rfl
    rw [hlevel2]
    exact postRes_level2Done _
  · exact success_of_finish hdelivered.place (hdelivered.stage ▸ hst)

theorem xferFail_course {c : BitVec 3} {s : State} (h : s.Unfailed c) : Course c (xferFail s) := by
  unfold xferFail
  refine failWith_course (h.congr ?_) ?_
  · rfl
  · rw [if_pos h.call]
    exact timeoutCode_ne_none _

/-- One event of a host command that goes on. -/
theorem Move.course {c : BitVec 3} {s t : State} (h : s.Unfailed c) (hactive : s.sub.closing = false)
    (m : Move s t) : Course c t := by
  have hstage := h.stage
  cases m with
  | log hs | done st hs => simp [hs, Sub.closing] at hactive
  | nothing hs ht hg => exact absurd (hstage.symm.trans hg) (stageOf_ne_nothing _ _ _ h.step)
  | pin p l hs ht hg =>
    have hread : s.stepLbl ≠ .ac2Read := fun hl => by simp [hg, hl, stageOf] at hstage
    cases p <;> exact nextStage_course (h.congr rfl) hread
  | sleep ms hs ht hg =>
    have hread : s.stepLbl ≠ .ac2Read := fun hl => by simp [hg, hl, stageOf] at hstage
    exact nextStage_course (h.congr rfl) hread
  | xfer x p | poll x p ms | repeated x p ms => exact .goesOn (h.congr rfl) rfl
  | expired x p ms => exact failWith_course (s := readClock s) (h.congr rfl) (expiredCode_ne_none _)
  | line t hmid hin => exact .goesOn (h.congr (hin.field State.account fun _ => rfl)) hin.active
  | passed u _ hu => rcases hu with rfl | rfl <;> exact xferDone_course (h.congr rfl)
  | failed u _ hu => rcases hu with ⟨rfl, -⟩ | rfl <;> exact xferFail_course (h.congr rfl)

/-! ### The account of a run -/

/-- The run of the host command `c` that `s` has accepted, with its `Log` records: none until the abort, and then the one
that carries the diagnosis (60_exceptions.md R210, R214). -/
inductive Ledger (s : State) (c : BitVec 3) (t : State) : Prop
  | silent : t.cfg = s.cfg → logCount t.trace = logCount s.trace → Course c t → Ledger s c t
  | logged (tr : List Action) : t.ready = false → t.sub = .fin (abortStatus c) → t.diagCode ≠ .dgNone →
      t.trace = .log ⟨s.cfg.readerId, t.diagCode, t.diagStep, t.diagTph⟩ :: tr → logCount tr = logCount s.trace →
      Ledger s c t
  | succeeded : t.ready = true → t.status.Success → t.status ∈ allowedStatus c →
      logCount t.trace = logCount s.trace → t.diagCode = .dgNone ∧ t.diagStep = .noStep ∧ t.diagTph = .t0 →
      Ledger s c t
  | aborted (tr : List Action) : t.ready = true → t.status = abortStatus c → t.diagCode ≠ .dgNone →
      t.trace = .done t.status :: .log ⟨s.cfg.readerId, t.diagCode, t.diagStep, t.diagTph⟩ :: tr →
      logCount tr = logCount s.trace → Ledger s c t

theorem accept_ledger (c : BitVec 3) (s : State) : Ledger s c (accept c s) := by
  unfold accept
  split
  · next l hl =>
    obtain ⟨t, tx, n, he⟩ := enterStep_eq l (acceptRegs c s)
    rw [he]
    exact .silent rfl rfl
      (.goesOn ⟨rfl, rfl, rfl, (stepOfCommand_firstStep hl).1, firstStep_ne_noStep hl, rfl, rfl, rfl⟩ rfl)
  · exact .silent rfl rfl (.raised rfl rfl nofun rfl)

/-- The event after a course is silent, or is the `Log` of an abort, or `Done`. -/
theorem Course.ledger_event {s t : State} {c : BitVec 3} (hcfg : t.cfg = s.cfg)
    (hlog : logCount t.trace = logCount s.trace) (h : Course c t) : Ledger s c (event t) := by
  cases h with
  | goesOn hun hactive =>
    have hsub : t.sub ≠ .log := fun hs => by simp [hs, Sub.closing] at hactive
    exact .silent ((event_move t).usesUp.cfg.trans hcfg) ((event_logCount hsub).trans hlog)
      ((event_move t).course hun hactive)
  | raised hb hcmd hd hs =>
    have he : event t = logAbort t := by simp only [event, hs]
    rw [he]
    exact .logged t.trace hb (by rw [logAbort_sub, hcmd]) hd (by rw [← hcfg]; rfl) hlog
  | passed st hun hsuccess hallowed hs =>
    have he : event t = done st t := by simp only [event, hs]
    rw [he]
    exact .succeeded rfl hsuccess hallowed hlog hun.diag

theorem Ledger.event {s t : State} {c : BitVec 3} (hb : t.ready = false) (h : Ledger s c t) :
    Ledger s c (event t) := by
  cases h with
  | silent hcfg hlog hcourse => exact hcourse.ledger_event hcfg hlog
  | logged tr _ hs hd htr hlog =>
    have he : Machine.event t = done (abortStatus c) t := by simp only [Machine.event, hs]
    rw [he]
    exact .aborted tr rfl rfl hd (congrArg (Action.done (abortStatus c) :: ·) htr) hlog
  | succeeded hr | aborted tr hr => simp [hb] at hr

/-- A property that every event of a running command keeps holds to the end of a run. -/
theorem events_keeps {P : State → Prop} (hP : ∀ s, s.ready = false → P s → P (event s)) (n : Nat) {s : State}
    (hbusy : ∀ m, m < n → (events m s).ready = false) (h : P s) : P (events n s) := by
  induction n with
  | zero => exact h
  | succ n ih =>
    rw [events_succ]
    exact hP _ (hbusy n (Nat.lt_succ_self n)) (ih fun m hm => hbusy m (Nat.lt_succ_of_lt hm))

/-- A course is that of a running command. -/
theorem Course.busy {c : BitVec 3} {t : State} (h : Course c t) : t.ready = false := by
  cases h with
  | goesOn hun | passed st hun => exact hun.busy
  | raised hb => exact hb

/-- Settles O50: the account of the run, at its `Done`. -/
theorem everyFailureIsLoggedOnce : Obligations.EveryFailureIsLoggedOnce := by
  intro n c s _ hbusy hdone t
  have hledger : Ledger s c t :=
    events_keeps (P := Ledger s c) (fun _ hb hu => hu.event hb) n hbusy (accept_ledger c s)
  cases hledger with
  | silent _ _ hcourse => exact absurd (hcourse.busy.symm.trans hdone) nofun
  | logged _ hb => exact absurd (hb.symm.trans hdone) nofun
  | succeeded _ hsuccess hallowed hlog hdiag => exact ⟨hallowed, by rw [if_pos hsuccess]; exact ⟨hlog, hdiag⟩⟩
  | aborted tr _ hst hd htr hlog =>
    refine ⟨hst ▸ abortStatus_allowed c, ?_⟩
    rw [if_neg (hst ▸ abortStatus_not_success c)]
    exact ⟨by rw [htr]; exact congrArg (· + 1) hlog, hd, tr, htr⟩

end Sys2Proof.Machine
end

section
/-! Proofs: engine reset from any state (70_reset_and_hazards.md R230), and the end of every wait whose clock advances
(R245). -/

namespace Sys2Proof.Machine

/-! ### Engine reset (R230) -/

/-- The reset input comes before everything else that a step looks at. -/
theorem step_of_reset {s : State} (h : s.resetIn = true) : step s = .next (hwReset s) :=
  if_pos h

/-- Settles O2: the step is `hwReset`, which writes the values of R42 and leaves the trace and the configuration. -/
theorem engineResetAbandons : Obligations.EngineResetAbandons := by
  intro s hreset
  refine ⟨hwReset s, step_of_reset hreset, ⟨rfl, rfl, rfl, rfl, rfl, rfl⟩, ⟨rfl, rfl, rfl, ?cleared, rfl⟩,
    ⟨rfl, rfl⟩, rfl, rfl, fun hready => if_pos hready⟩
  case cleared => exact ⟨rfl, rfl, rfl, rfl, rfl, rfl, rfl⟩

/-! ### Where the engine stands when a wait has ended (40_transport.md R101, R102) -/

/-- No exchange is under way, or one at its first label. -/
def State.NotPastT1 (t : State) : Prop :=
  t.tph = .t0 ∨ t.tph = .t1

theorem enterStage_notPastT1 (g : Stage) (s : State) : (enterStage g s).NotPastT1 := by
  cases g with
  | xfer x p => exact .inr rfl
  | nothing | pin p l | sleep ms | poll x p ms => exact .inl rfl

theorem advance_notPastT1 (s : State) : (advance s).NotPastT1 := by
  unfold advance
  split
  · exact enterStage_notPastT1 _ _
  · exact .inl rfl

theorem nextStage_notPastT1 (s : State) : (nextStage s).NotPastT1 := by
  unfold nextStage enterCall
  split
  · exact advance_notPastT1 s
  · split
    · exact .inl rfl
    · exact enterStage_notPastT1 _ _

theorem failWith_tph (d : DiagCode) (s : State) : (failWith d s).tph = .t0 := by
  unfold failWith
  split <;> rfl

theorem afterPost_notPastT1 (r : PostRes) (s : State) : (afterPost r s).NotPastT1 := by
  cases r with
  | ok => exact nextStage_notPastT1 s
  | fail d => exact .inl (failWith_tph d s)
  | again | finish st => exact .inl rfl
  | okState v | stop =>
    cases hcall : s.call with
    | none => simpa only [afterPost, hcall] using advance_notPastT1 s
    | some gs => exact .inl (by simp only [afterPost, hcall, endCall_tph])

theorem xferDone_notPastT1 (s : State) : (xferDone s).NotPastT1 :=
  afterPost_notPastT1 _ _

/-! ### Leaving a wait -/

/-- The engine is no longer at W2 to W6 of the wait at the label `p`. -/
def State.LeftWait (p : Tph) (t : State) : Prop :=
  t.tph ≠ p ∨ t.sub ≠ .sample ∧ t.sub ≠ .time

theorem waitPassed_leftWait (s : State) : (waitPassed s).LeftWait s.tph := by
  have hdone (ht : s.tph = .t6 ∨ s.tph = .t12) : (xferDone s).LeftWait s.tph := by
    rcases xferDone_notPastT1 s with hb | hb <;> rcases ht with ht | ht <;> exact .inl (by simp [hb, ht])
  unfold waitPassed
  split
  case h_1 | h_2 | h_4 => exact .inr ⟨nofun, nofun⟩
  case h_3 ht =>
    split
    · exact hdone (.inl ht)
    · exact .inr ⟨nofun, nofun⟩
  case h_5 ht => exact hdone (.inr ht)
  case h_6 => exact .inr ⟨nofun, nofun⟩

theorem waitFailed_leftWait {s : State} {l : Level} (hl : waitLevel s.tph = some l) :
    (waitFailed s).LeftWait s.tph := by
  unfold waitFailed
  split
  · exact .inr ⟨nofun, nofun⟩
  · obtain ⟨⟨-, ht⟩, -⟩ := xferFail_keeps s
    exact .inl fun h => by simp [← h, ht, waitLevel] at hl

/-- W4, after a sample of the wrong level. -/
def State.atTimeTest (s : State) : State :=
  { sampleBusy s with sub := .time }

/-- W2 and W3, whatever level ENV answers. -/
theorem event_of_sample {s : State} {l : Level} (hs : s.sub = .sample) (hl : waitLevel s.tph = some l) :
    (event s).LeftWait s.tph ∨ event s = s.atTimeTest := by
  have hsample : event s = if s.nextLevel = l then waitPassed (sampleBusy s) else s.atTimeTest := by
    simp [event, hs, sampleEvent, hl, State.atTimeTest]
  split at hsample
  · exact .inl (hsample ▸ waitPassed_leftWait (sampleBusy s))
  · exact .inr hsample

/-- From W2 on a wait is left within two events for each clock read up to a late one, whatever the busy line does. -/
theorem leftWait_of_late {s : State} {l : Level} {zs rest : List Time} (hs : s.sub = .sample)
    (hl : waitLevel s.tph = some l) (hn : s.nowIn = zs ++ rest)
    (hz : ∃ z ∈ zs, late s.cfg s.tw0 z s.cfg.time.timeoutMs = true) :
    ∃ n, 0 < n ∧ n ≤ 2 * zs.length ∧ (events n s).LeftWait s.tph := by
  induction zs generalizing s with
  | nil => simp at hz
  | cons z zs ih =>
    rw [List.length_cons]
    rcases event_of_sample hs hl with hleft | hmiss
    · exact ⟨1, by omega, by omega, hleft⟩
    · by_cases hlate : late s.cfg s.tw0 z s.cfg.time.timeoutMs = true
      · have hfail : event (event s) = waitFailed _ :=
          (congrArg event hmiss).trans (event_of_late (s := s.atTimeTest) rfl hl hn hlate)
        have hleft : (event (event s)).LeftWait s.tph := hfail ▸ waitFailed_leftWait hl
        exact ⟨2, by omega, by omega, hleft⟩
      · have hagain : event (event s) = _ :=
          (congrArg event hmiss).trans
            (event_of_in_time (s := s.atTimeTest) rfl hl hn (Bool.eq_false_iff.mpr hlate))
        have hlater : ∃ z' ∈ zs, late s.cfg s.tw0 z' s.cfg.time.timeoutMs = true := by simpa [hlate] using hz
        obtain ⟨n, -, hbound, hleft⟩ := ih (s := event (event s)) (by rw [hagain]) (by rw [hagain]; exact hl)
          (by rw [hagain]; rfl) (by rw [hagain]; exact hlater)
        have htph : (event (event s)).tph = s.tph := by rw [hagain]; rfl
        exact ⟨n + 2, by omega, by omega, htph ▸ hleft⟩

/-! ### The progress assumption (R245) -/

section Progress

variable {k : Nat} {ts : List Nat}

/-- A span of fewer than two reads cannot advance. -/
theorem ClockProgress.two_le (h : ClockProgress k ts) (hts : k < ts.length + 1) : 2 ≤ k := by
  obtain ⟨-, hgain⟩ := h
  have hfirst := hgain 0 (by omega)
  by_contra hk
  have hidx : 0 + k - 1 = 0 := by omega
  rw [hidx] at hfirst
  omega

/-- Each span of `k` reads gains a millisecond, and neighbouring spans share a read. -/
theorem ClockProgress.gain (h : ClockProgress k ts) (hts : k < ts.length + 1) (m : Nat)
    (hm : m * (k - 1) < ts.length) : ts.getD 0 0 + m ≤ ts.getD (m * (k - 1)) 0 := by
  have hk := h.two_le hts
  obtain ⟨-, hgain⟩ := h
  induction m with
  | zero => simp
  | succ m ih =>
    have hnext : (m + 1) * (k - 1) = m * (k - 1) + k - 1 := by rw [Nat.succ_mul]; omega
    rw [hnext] at hm ⊢
    have hspan := hgain (m * (k - 1)) (by omega)
    have hbefore := ih (by omega)
    omega

theorem ClockProgress.mono (h : ClockProgress k ts) {i j : Nat} (hij : i ≤ j) (hj : j < ts.length) :
    ts.getD i 0 ≤ ts.getD j 0 := by
  obtain ⟨hstep, -⟩ := h
  induction j, hij using Nat.le_induction with
  | base => exact le_rfl
  | succ j _ ih => exact (ih (by omega)).trans (hstep j hj)

/-- More than `k * m` reads span at least `m` milliseconds. -/
theorem ClockProgress.gain_last (h : ClockProgress k ts) (m : Nat) (hm : k * m < ts.length) (hpos : 0 < m) :
    ts.headD 0 + m ≤ ts.getLastD 0 := by
  have hk : k ≤ k * m := Nat.le_mul_of_pos_right k hpos
  have hreads : m * (k - 1) ≤ k * m := by rw [Nat.mul_comm k]; exact Nat.mul_le_mul_left m (Nat.sub_le k 1)
  have hhead : ts.headD 0 = ts.getD 0 0 := by cases ts <;> rfl
  have hlast : ts.getLastD 0 = ts.getD (ts.length - 1) 0 := by
    rw [List.getLastD_eq_getLast?, List.getLast?_eq_getElem?, List.getD_eq_getElem?_getD]
  rw [hhead, hlast]
  exact (h.gain (by omega) m (by omega)).trans (h.mono (by omega) (by omega))

end Progress

/-- Settles O21: the last clock read is late, so that one of those after W1 ends the wait. -/
theorem waitEndsWhenClockAdvances : Obligations.WaitEndsWhenClockAdvances := by
  intro s l k ts rest hs hl hprogress hreads hspan hn
  have hgain := hprogress.gain_last _ hreads (Nat.succ_pos _)
  cases ts with
  | nil => simp at hreads
  | cons a zs =>
    rw [List.headD_cons] at hgain hspan
    obtain ⟨d, hd⟩ := Nat.exists_eq_add_of_le (Nat.le_of_add_right_le hgain)
    have hlate : late s.cfg a ((a :: zs).getLastD 0) s.cfg.time.timeoutMs = true := by
      rw [late, hd, elapsed_add_of_lt s.cfg a (by omega)]
      exact decide_eq_true (by omega)
    have hlater : (a :: zs).getLastD 0 ∈ zs := by
      have hmem : (a :: zs).getLastD 0 ∈ a :: zs := by
        rw [List.getLastD_cons]; exact List.getLastD_mem_cons
      exact (List.mem_cons.mp hmem).resolve_left (by omega)
    have hstart := event_of_wait_start hs hl (hn.trans (List.cons_append ..))
    obtain ⟨n, -, hbound, hleft⟩ := leftWait_of_late (s := s.waiting a [] s.busyIn (zs ++ rest)) rfl hl rfl
      ⟨_, hlater, (late_clock_start ..).trans hlate⟩
    refine ⟨n + 1, Nat.succ_pos n, by simp; omega, ?_⟩
    show (events n (event s)).LeftWait s.tph
    rw [hstart]
    exact hleft

end Sys2Proof.Machine
end
